-- ==== Sys2Proof/Word.lean ====
section
/-! DEFINITION. The word types of the C48 and the fixed-size table that holds "a fixed number of like things". -/

namespace Sys2Proof

/-- A byte of a Command Port frame (R157). -/
abbrev Byte := BitVec 8
/-- A station number, 0 to 63 (R163). -/
abbrev Station := Fin 64
/-- A transmit or receive lane, 0 to 7 (R96, R118). -/
abbrev LaneNo := Fin 8
/-- A slot of the slot field, 0 to 47 (R4, R39). -/
abbrev Slot := Fin 48
/-- A label, 0 to 255; the Listen Table masks it (R128). -/
abbrev Label := BitVec 8
/-- A sample word (R118). -/
abbrev Sample := BitVec 24
/-- A cycle number, 0 to 65535, wrapping (R86). -/
abbrev CycleNo := BitVec 16

/-- Exactly `n` cells, in order. -/
structure Table (α : Type) (n : Nat) where
  cells : List α
  size : cells.length = n
  deriving DecidableEq, Repr

namespace Table

variable {α β : Type} {n : Nat}

/-- The same value in every cell. -/
def replicate (n : Nat) (a : α) : Table α n := ⟨List.replicate n a, List.length_replicate⟩

/-- The cell numbered `i`. -/
def get (t : Table α n) (i : Fin n) : α := t.cells[i.val]'(by rw [t.size]; exact i.isLt)

/-- The table with the cell numbered `i` replaced. -/
def set (t : Table α n) (i : Fin n) (a : α) : Table α n :=
  ⟨t.cells.set i.val a, by rw [List.length_set, t.size]⟩

/-- Every cell replaced by a function of its number and its contents. -/
def mapIdx (f : Fin n → α → β) (t : Table α n) : Table β n :=
  ⟨(List.finRange n).map (fun i => f i (t.get i)), by rw [List.length_map, List.length_finRange]⟩

/-- Every cell replaced by a function of its contents. -/
def map (f : α → β) (t : Table α n) : Table β n :=
  ⟨t.cells.map f, by rw [List.length_map, t.size]⟩

end Table

end Sys2Proof
end

