-- ==== Sys2Proof/Syntax.lean ====
section
/-! DEFINITION. The commands of the C48: one constructor of `Instr` per row of spec/opcode_table.json, with the
operands its event brings from outside (from the line, the Command Port, the Sample Port, the pins or a timer). -/

namespace Sys2Proof

/-- The class of a stream or a claim (00_scope.md 3.1). -/
inductive SlotClass where
  | normal
  | urgent
  deriving DecidableEq, Repr

/-- The use of a tag: LIVE carries a sample, HOLD keeps the slot without one (R6, R114). -/
inductive Use where
  | live
  | hold
  deriving DecidableEq, Repr

/-- A tag with its sample word, field for field as 12.1.1 lays it out; `countCode` is the count less 1 (R178). -/
structure TagContents where
  holder : Station
  lane : LaneNo
  label : Label
  part : Fin 8
  countCode : Fin 8
  cls : SlotClass
  ret : Bool
  use : Use
  sample : Sample
  deriving DecidableEq, Repr

/-- The count a tag carries, always 1 to 8 (R178). -/
def TagContents.count (t : TagContents) : Nat := t.countCode.val + 1

/-- An entry of a mark's queue summary as 12.1.2 lays it out: its count field may carry 0 or 9 to 15 (R178). -/
structure SummaryEntry where
  station : Station
  lane : LaneNo
  label : Label
  count : Fin 16
  cls : SlotClass
  ret : Bool
  age : Fin 256
  deriving DecidableEq, Repr

/-- The contents of a mark (12.1.2, R86): cycle number, marker station, configuration stamp, queue summary. -/
structure MarkContents where
  cycle : CycleNo
  marker : Station
  patience : BitVec 8
  reclaim : BitVec 4
  summary : List SummaryEntry
  deriving DecidableEq, Repr

/-- What is reported at the end of a mark, or at its expected position when it is missing (R4, R5). -/
inductive MarkReport where
  | missing
  | damaged
  | intact (m : MarkContents)
  deriving DecidableEq, Repr

/-- What is reported at the end of a slot (R3, R6). -/
inductive TagReport where
  | silent
  | damaged
  | intact (t : TagContents)
  deriving DecidableEq, Repr

/-- A note as the line carries it (12.1.3): destination kind 0 STATION, 1 GROUP, 2 ALL, 3 none (R178). -/
structure NoteContents where
  kind : Fin 4
  number : Station
  payload : List Byte
  deriving DecidableEq, Repr

/-- The body of a message by its kind (12.1.3). `noKind` is an intact message of rank 5, 6 or 7 (R178). -/
inductive Body where
  | claim (lane : LaneNo) (label : Label) (count : Fin 16) (cls : SlotClass) (wait ret : Bool)
  | release (lane : LaneNo)
  | withdraw (lane : LaneNo)
  | restart
  | note (n : NoteContents)
  | noKind
  deriving DecidableEq, Repr

/-- What is reported at the end of a window (R9). -/
inductive WindowReport where
  | empty
  | damaged
  | intact (sender : Station) (body : Body)
  deriving DecidableEq, Repr

/-- What the Line Unit gives the Note Unit when a STATION note's check sequence has been received (R144). -/
inductive NoteReport where
  | damaged
  | intact (sender : Station) (n : NoteContents)
  deriving DecidableEq, Repr

/-- The readback result of an own field (R2). -/
inductive Readback where
  | good
  | mismatch
  deriving DecidableEq, Repr

/-- The answer read in an answer field, NONE where there is none (R10). -/
inductive Answer where
  | ack
  | busy
  | none
  deriving DecidableEq, Repr

/-- The 54 rows of spec/opcode_table.json. -/
inductive Instr where
  /-- POWER_ON_RESET: the straps as they then read (R21, R163). -/
  | powerOnReset (straps : Station)
  /-- RESETN_LOW (R21). -/
  | resetnLow
  /-- RESETN_RELEASE: the straps as they then read (R21, R163). -/
  | resetnRelease (straps : Station)
  /-- RESET_STATION_RESET: CSN rises (R165). -/
  | resetStationReset
  /-- MARK_RECEIVED (R5, R25 to R29). -/
  | markReceived (report : MarkReport)
  /-- AGE_TICK (R83, R84). -/
  | ageTick
  /-- QUEUE_ENTRY_EXPIRED (R84). -/
  | queueEntryExpired
  /-- WITHDRAWAL_LIMIT (R34). -/
  | withdrawalLimit
  /-- RESYNC_ATTEMPT_LIMIT (R28). -/
  | resyncAttemptLimit
  /-- TAG_RECEIVED: the slot and its report (R6). -/
  | tagReceived (slot : Slot) (report : TagReport)
  /-- SLOT_FIELD_CLOSED (R49). -/
  | slotFieldClosed
  /-- SILENCE_RECLAIM (R50). -/
  | silenceReclaim
  /-- WINDOW_START (R7). -/
  | windowStart
  /-- ARBITRATION_LOST (R8, R11, R15). -/
  | arbitrationLost
  /-- OWN_TRANSMISSION_COMPLETED: the readback result and the answer read (R2). -/
  | ownTransmissionCompleted (readback : Readback) (answer : Answer)
  /-- NOTE_ATTEMPT_LIMIT: the answer of the last attempt (R136). -/
  | noteAttemptLimit (lastAnswer : Answer)
  /-- DRIVER_FAULT (R18). -/
  | driverFault
  /-- NOTE_CHECK_SEQUENCE_RECEIVED (R144). -/
  | noteCheckSequenceReceived (report : NoteReport)
  /-- WINDOW_ENDED (R9). -/
  | windowEnded (report : WindowReport)
  /-- SPACING_COUNTDOWN_EXPIRED (R138). -/
  | spacingCountdownExpired
  /-- SLOT_START (R114). -/
  | slotStart (slot : Slot)
  /-- MARK_CONTENTION (R11). -/
  | markContention
  /-- MARK_CONTENTION_WON (R11, R86). -/
  | markContentionWon
  /-- LINE_SILENCE (R14). -/
  | lineSilence
  /-- FOUNDING_CONTENTION_START (R15). -/
  | foundingContentionStart
  /-- FOUNDED (R16, R30). -/
  | founded
  /-- WORD_PERIOD_BEGIN (R121). -/
  | wordPeriodBegin
  /-- WORD_PERIOD_END: the incoming word (R120). -/
  | wordPeriodEnd (word : BitVec 32)
  /-- FRAME_CUT_SHORT (R158). -/
  | frameCutShort
  /-- FRAME_CHECK_FAILED: the frame as collected (R158). -/
  | frameCheckFailed (code length : Byte) (payload : List Byte) (crc : BitVec 16)
  /-- LAPSE_TIMER_EXPIRED (R170). -/
  | lapseTimerExpired
  /-- STATUS (R161). -/
  | status
  /-- CONFIGURE: its six parameter bytes (R162, Table 12-1). -/
  | configure (patience reclaim attempts spacing group lapse : Byte)
  /-- SET_MODE (R37). -/
  | setMode (mode : Byte)
  /-- OPEN_STREAM (R100). -/
  | openStream (lane label count flags : Byte)
  /-- CLOSE_STREAM (R101). -/
  | closeStream (lane : Byte)
  /-- READ_STREAM (R97). -/
  | readStream (lane : Byte)
  /-- SET_LISTEN: the listen record (R130). -/
  | setListen (entry flags label mask lane : Byte)
  /-- READ_LISTEN (R130). -/
  | readListen (entry : Byte)
  /-- READ_LANES (R125). -/
  | readLanes
  /-- SEND_NOTE: its four fixed bytes and the note bytes the frame carries (R132). -/
  | sendNote (tag kind number length : Byte) (payload : List Byte)
  /-- NOTE_OUTCOME (R139). -/
  | noteOutcome
  /-- ABORT_NOTES (R140). -/
  | abortNotes
  /-- TAKE_NOTE (R146). -/
  | takeNote
  /-- SNAPSHOT (R166). -/
  | snapshot
  /-- READ_SNAPSHOT (R168). -/
  | readSnapshot (part first count : Byte)
  /-- READ_ALERTS (R172). -/
  | readAlerts
  /-- CLEAR_ALERTS: the flag set in its three bytes (R173). -/
  | clearAlerts (flags : BitVec 24)
  /-- SET_ALERT_MASK: the mask set in its three bytes (R174). -/
  | setAlertMask (masks : BitVec 24)
  /-- READ_MEMORY_ERROR (R156). -/
  | readMemoryError
  /-- RESTART_BUS (R164). -/
  | restartBus
  /-- RESET_STATION (R165). -/
  | resetStation
  /-- FOUNDING_CONTENTION_JOINED (R15). -/
  | foundingContentionJoined
  /-- FOUNDING_CONTENTION_WON (R16). -/
  | foundingContentionWon
  deriving DecidableEq, Repr

end Sys2Proof
end

