-- ==== Sys2Proof/Decode.lean ====
section
/-! DEFINITION. Bits, check sequences and Command Port frames (12.2, R157, R158, R179), and the table decoder, which
has no row with bits to read. -/

namespace Sys2Proof

/-- The `w` low bits of `n`, most significant first (12: fields are sent most significant bit first). -/
def bitsOf : Nat → Nat → List Bool
  | 0, _ => []
  | w + 1, n => n.testBit w :: bitsOf w n

/-- The number that bits spell, most significant first. -/
def natOf (bits : List Bool) : Nat := bits.foldl (fun n b => 2 * n + b.toNat) 0

/-- The bits of bytes, most significant bit of each first. -/
def byteBits (bytes : List Byte) : List Bool := bytes.flatMap fun b => bitsOf 8 b.toNat

/-- One bit taken into a 16-bit check sequence with generator x^16 + `poly`. -/
def crc16Bit (poly crc : BitVec 16) (b : Bool) : BitVec 16 :=
  if crc.msb != b then (crc <<< 1) ^^^ poly else crc <<< 1

/-- A CRC-16 over bits, from an initial value. -/
def crc16 (poly init : BitVec 16) (bits : List Bool) : BitVec 16 := bits.foldl (crc16Bit poly) init

/-- The check sequence of command and response frames: x^16+x^12+x^5+1, initial value FFFFh (R158, R159). -/
def frameCrc (bytes : List Byte) : BitVec 16 := crc16 0x1021 0xFFFF (byteBits bytes)

/-- The two bytes of a 16-bit quantity, most significant first (12.2). -/
def bytes16 (w : BitVec 16) : List Byte := [w.extractLsb' 8 8, w.extractLsb' 0 8]

/-- The three bytes of a flag set, most significant first (12.2). -/
def bytes24 (w : BitVec 24) : List Byte := [w.extractLsb' 16 8, w.extractLsb' 8 8, w.extractLsb' 0 8]

/-- The least and the greatest payload length each command code requires (Table 12-1); none for a code that names
no command. -/
def payloadRange (code : Byte) : Option (Nat × Nat) :=
  match code.toNat with
  | 0x01 => some (0, 0)
  | 0x02 => some (6, 6)
  | 0x03 => some (1, 1)
  | 0x10 => some (4, 4)
  | 0x11 => some (1, 1)
  | 0x12 => some (1, 1)
  | 0x20 => some (5, 5)
  | 0x21 => some (1, 1)
  | 0x22 => some (0, 0)
  | 0x30 => some (5, 36)
  | 0x31 => some (0, 0)
  | 0x32 => some (0, 0)
  | 0x33 => some (0, 0)
  | 0x40 => some (0, 0)
  | 0x41 => some (3, 3)
  | 0x50 => some (0, 0)
  | 0x51 => some (3, 3)
  | 0x52 => some (3, 3)
  | 0x53 => some (0, 0)
  | 0x60 => some (0, 0)
  | 0x61 => some (0, 0)
  | _ => none

/-- The first of checks 1 to 4 of Table 10-2 that a complete frame fails, if any. -/
inductive FrameFailure where
  /-- check 1: a length byte above 40 -/
  | tooLong
  /-- check 2: the CRC differs -/
  | badCrc
  /-- check 3: the code names no command -/
  | unknownCode
  /-- check 4: not the length the command requires -/
  | wrongLength
  deriving DecidableEq, Repr

/-- Checks 1 to 4 of Table 10-2 in their order (R158). -/
def frameFailure (code length : Byte) (payload : List Byte) (crc : BitVec 16) : Option FrameFailure :=
  if 40 < length.toNat then some .tooLong
  else if crc ≠ frameCrc (code :: length :: payload) then some .badCrc
  else match payloadRange code with
    | none => some .unknownCode
    | some (least, greatest) =>
      if length.toNat < least ∨ greatest < length.toNat then some .wrongLength else none

/-- The command that a code and a payload name, parameter bytes as they stand (Table 12-1). -/
def commandOf (code : Byte) (payload : List Byte) : Option Instr :=
  match code.toNat, payload with
  | 0x01, [] => some .status
  | 0x02, [a, b, c, d, e, f] => some (.configure a b c d e f)
  | 0x03, [a] => some (.setMode a)
  | 0x10, [a, b, c, d] => some (.openStream a b c d)
  | 0x11, [a] => some (.closeStream a)
  | 0x12, [a] => some (.readStream a)
  | 0x20, [a, b, c, d, e] => some (.setListen a b c d e)
  | 0x21, [a] => some (.readListen a)
  | 0x22, [] => some .readLanes
  | 0x30, a :: b :: c :: d :: note => some (.sendNote a b c d note)
  | 0x31, [] => some .noteOutcome
  | 0x32, [] => some .abortNotes
  | 0x33, [] => some .takeNote
  | 0x40, [] => some .snapshot
  | 0x41, [a, b, c] => some (.readSnapshot a b c)
  | 0x50, [] => some .readAlerts
  | 0x51, [a, b, c] => some (.clearAlerts (a ++ b ++ c))
  | 0x52, [a, b, c] => some (.setAlertMask (a ++ b ++ c))
  | 0x53, [] => some .readMemoryError
  | 0x60, [] => some .restartBus
  | 0x61, [] => some .resetStation
  | _, _ => none

/-- The code and payload of a host command's frame (Table 12-1); none for an event that is no host command. -/
def codeAndPayload : Instr → Option (Byte × List Byte)
  | .status => some (0x01, [])
  | .configure a b c d e f => some (0x02, [a, b, c, d, e, f])
  | .setMode a => some (0x03, [a])
  | .openStream a b c d => some (0x10, [a, b, c, d])
  | .closeStream a => some (0x11, [a])
  | .readStream a => some (0x12, [a])
  | .setListen a b c d e => some (0x20, [a, b, c, d, e])
  | .readListen a => some (0x21, [a])
  | .readLanes => some (0x22, [])
  | .sendNote a b c d note => some (0x30, a :: b :: c :: d :: note)
  | .noteOutcome => some (0x31, [])
  | .abortNotes => some (0x32, [])
  | .takeNote => some (0x33, [])
  | .snapshot => some (0x40, [])
  | .readSnapshot a b c => some (0x41, [a, b, c])
  | .readAlerts => some (0x50, [])
  | .clearAlerts w => some (0x51, bytes24 w)
  | .setAlertMask w => some (0x52, bytes24 w)
  | .readMemoryError => some (0x53, [])
  | .restartBus => some (0x60, [])
  | .resetStation => some (0x61, [])
  | .powerOnReset .. | .resetnLow | .resetnRelease .. | .resetStationReset | .markReceived .. | .ageTick
  | .queueEntryExpired | .withdrawalLimit | .resyncAttemptLimit | .tagReceived .. | .slotFieldClosed
  | .silenceReclaim | .windowStart | .arbitrationLost | .ownTransmissionCompleted .. | .noteAttemptLimit ..
  | .driverFault | .noteCheckSequenceReceived .. | .windowEnded .. | .spacingCountdownExpired | .slotStart ..
  | .markContention | .markContentionWon | .lineSilence | .foundingContentionStart | .founded | .wordPeriodBegin
  | .wordPeriodEnd .. | .frameCutShort | .frameCheckFailed .. | .lapseTimerExpired | .foundingContentionJoined
  | .foundingContentionWon => none

/-- The bytes of a frame: code, payload length, payload, CRC (12.2). -/
def frameBytes (code : Byte) (payload : List Byte) : List Byte :=
  let length : Byte := BitVec.ofNat 8 payload.length
  code :: length :: payload ++ bytes16 (frameCrc (code :: length :: payload))

/-- The frame a host sends for a command; none for an event that is no host command. -/
def commandFrame (i : Instr) : Option (List Byte) :=
  (codeAndPayload i).map fun p => frameBytes p.1 p.2

/-- The command that the frame assembler collects from the bytes of one chip-select period (R157), none where checks
1 to 4 of R158 fail. Bytes after the CRC are ignored (Table 10-1). -/
def readCommandFrame (bytes : List Byte) : Option Instr :=
  match bytes with
  | code :: length :: rest =>
    let payload := rest.take length.toNat
    match rest.drop length.toNat with
    | hi :: lo :: _ =>
      match frameFailure code length payload (hi ++ lo) with
      | none => commandOf code payload
      | some _ => none
    | _ => none
  | _ => none

/-- The command a word spells by the table's bits. No row of spec/opcode_table.json gives bits, so no word spells a
command. -/
def decodeTableWord (_nbits _w : Nat) : Option Instr := none

end Sys2Proof
end

