-- ==== Sys2Proof/Machine/State.lean ====
section
/-! DEFINITION. The state of one C48 station, grouped by the blocks of 00_scope.md 1.1 that own it, as plain data, and
its value right after reset. -/

namespace Sys2Proof.Machine

/-! ## The State Memory's words -/

/-- What the check bits of a stored word say at its next read (R148). -/
inductive Health where
  | clean
  | single
  | double
  deriving DecidableEq, Repr

/-- A word of the State Memory: its contents and the verdict its next read gives. The contents are the corrected data
where the verdict is clean or single, and the data as read, uncorrected, where it is double (log 1). -/
structure Stored (α : Type) where
  val : α
  health : Health
  deriving DecidableEq, Repr

/-- A word just written: it carries fresh check bits (R148). -/
def Stored.fresh {α : Type} (a : α) : Stored α := ⟨a, .clean⟩

/-- The six regions (R148). -/
inductive Region where
  | map | queue | streams | lanes | notes | snapshot
  deriving DecidableEq, Repr

inductive ErrorKind where
  | single | double
  deriving DecidableEq, Repr

/-- The error record when it is not empty (R156). -/
structure ErrorRecord where
  region : Region
  index : Nat
  kind : ErrorKind
  deriving DecidableEq, Repr

/-! ## Alert Unit -/

/-- The eighteen alert flags, in the order of Table 11-1. -/
inductive Alert where
  | start | mode | stream | queueAdopted | conflict | restart | noteIn | noteDone | ringFull | lane | driverFault
  | duplicate | configMismatch | lapse | cmdError | memCorrected | memFailed | snapshot
  deriving DecidableEq, Repr

/-- The flags and their masks, bit 0 START to bit 17 SNAPSHOT (12.2.1); a mask bit is 1 when enabled (R171). -/
structure AlertUnit where
  flags : BitVec 18
  masks : BitVec 18
  deriving DecidableEq, Repr

/-! ## Mode Controller (R20) -/

inductive Mode where
  | off | listen | joining | member | resync | withdrawing
  deriving DecidableEq, Repr

inductive Requested where
  | off | listen | member
  deriving DecidableEq, Repr

inductive Target where
  | none | off | listen
  deriving DecidableEq, Repr

inductive FaultCause where
  | none | driverFault | duplicate | memory | resyncFailed | configMismatch | lapse | silence
  deriving DecidableEq, Repr

structure ModeController where
  actual : Mode
  requested : Requested
  target : Target
  withdrawCount : Nat
  cause : FaultCause
  deriving DecidableEq, Repr

/-! ## Line Unit -/

/-- The block whose message is the station's contender in a window (R7). -/
inductive Source where
  | outbox
  | note
  deriving DecidableEq, Repr

/-- An own field on the line: begun, its completion not yet reported (R2). A message stands here from the moment the
Line Unit takes it until it leaves its window (R7). -/
inductive OwnField where
  | tag (slot : Slot) (contents : TagContents)
  | mark (contents : MarkContents) (founding : Bool)
  | message (source : Source) (sender : Station) (body : Body)
  | answer (a : Answer)
  deriving DecidableEq, Repr

/-- The contention for a mark that the station takes part in (R11, R15). -/
inductive Contention where
  | none | mark | founding
  deriving DecidableEq, Repr

structure LineUnit where
  driverEnable : Bool
  driverFaultCount : Nat
  framed : Bool
  /-- none: stopped; otherwise the bit times since it was restarted (R14) -/
  silenceTimer : Option Nat
  /-- the transmitted-slot list (R6) -/
  txSlots : List Slot
  onLine : Option OwnField
  /-- bit times that have passed since the message on the line was taken, at the start of its window (R4, R7, R8) -/
  messageBits : Nat
  contention : Contention
  /-- the station won the arbitration of the present window (R19) -/
  wonWindow : Bool
  deriving DecidableEq, Repr

/-! ## Cycle Engine -/

/-- The learning phase (R24). -/
inductive Phase where
  | idle | adopt | rebuild | verify | learned
  deriving DecidableEq, Repr

structure CycleEngine where
  cycleNumber : CycleNo
  marker : Station
  phase : Phase
  resyncAttempts : Nat
  foundingPending : Bool
  /-- the station has founded and its own founding mark is still to be received (R16, R29) -/
  foundingMarkDue : Bool
  /-- the station has lost a founding contention and the winner's mark, its step (a), is still to be received (R15, R30) -/
  winnerMarkDue : Bool
  /-- MODEL's own: the age tick of the last mark has been applied (log 5) -/
  tickDone : Bool
  deriving DecidableEq, Repr

/-! ## Allocation Unit -/

/-- A field mark (R43). -/
inductive FieldMark where
  | none | heard | damaged
  deriving DecidableEq, Repr

inductive LastUse where
  | none | live | hold
  deriving DecidableEq, Repr

/-- The fields of a HELD entry (Table 3-1) with its field mark. -/
structure HeldEntry where
  holder : Station
  lane : LaneNo
  label : Label
  cls : SlotClass
  ret : Bool
  part : Nat
  count : Nat
  silence : Nat
  lastUse : LastUse
  mark : FieldMark
  deriving DecidableEq, Repr

/-- A Slot Map entry (R39). A FREE entry's field mark stays NONE (R43), so only a HELD entry holds one. -/
inductive SlotEntry where
  | free
  | held (h : HeldEntry)
  deriving DecidableEq, Repr

/-- A Claim Queue entry (Table 5-1). -/
structure QueueEntry where
  station : Station
  lane : LaneNo
  label : Label
  count : Nat
  cls : SlotClass
  ret : Bool
  age : Nat
  deriving DecidableEq, Repr

/-- A tag of the rebuild list (R52). -/
structure RebuildTag where
  slot : Slot
  holder : Station
  lane : LaneNo
  label : Label
  cls : SlotClass
  ret : Bool
  part : Nat
  count : Nat
  deriving DecidableEq, Repr

/-- The reason a CLAIM is refused (Table 4-2). -/
inductive RefusalReason where
  | already | label | busy | full | noRoom
  deriving DecidableEq, Repr

/-- The notices of Table 4-1. -/
inductive Notice where
  | granted (lane : LaneNo) (slots : List Slot) (cycle : CycleNo)
  | queued (lane : LaneNo) (position : Nat)
  | refused (lane : LaneNo) (reason : RefusalReason)
  | revoked (lane : LaneNo) (requeuedAt : Option Nat)
  | displaced (lane : LaneNo)
  | released (lane : LaneNo)
  | cancelled (lane : LaneNo)
  | reclaimed (lane : LaneNo)
  | expired (lane : LaneNo)
  | restart
  deriving DecidableEq, Repr

structure AllocationUnit where
  map : Table (Stored SlotEntry) 48
  queue : List (Stored QueueEntry)
  rebuildList : List (Stored RebuildTag)
  /-- notices held by the purge until the verify (R91) -/
  heldNotices : List (Stored Notice)
  /-- a WITHDRAWING station has met a conflict in this slot field (R47) -/
  fieldConflict : Bool
  /-- the map has been found wrong while withdrawing and has not been cleared or rebuilt since (R47) -/
  mapFoundWrong : Bool
  deriving DecidableEq, Repr

/-! ## Stream Controller -/

inductive StreamState where
  | closed | opening | waiting | held | cancelling | closing
  deriving DecidableEq, Repr

/-- The stream outcomes (Table 6-2, 12.2.1). -/
inductive StreamOutcome where
  | none | granted | queued | refusedAlready | refusedLabel | refusedBusy | refusedFull | noRoom | revoked | requeued
  | reclaimed | expired | displaced | cancelled | released | lost | restart | fault | abandoned
  deriving DecidableEq, Repr

/-- A Stream Table entry (Table 6-1). -/
structure Lane where
  state : StreamState
  label : Label
  count : Nat
  cls : SlotClass
  wait : Bool
  ret : Bool
  slots : List Slot
  position : Option Nat
  outcome : StreamOutcome
  changed : Bool
  gapCount : Nat
  grantCycle : CycleNo
  /-- its CLAIM read back mismatch after the close, so the lane closes when its WITHDRAW completes (R102) -/
  closeOnWithdraw : Bool
  deriving DecidableEq, Repr

/-- The defaults of Table 6-1. -/
def Lane.default : Lane :=
  { state := .closed, label := 0, count := 1, cls := .normal, wait := false, ret := false, slots := [],
    position := none, outcome := .none, changed := false, gapCount := 0, grantCycle := 0, closeOnWithdraw := false }

/-- A Control Outbox entry (R98). -/
inductive OutboxEntry where
  | claim (lane : LaneNo)
  | release (lane : LaneNo)
  | withdraw (lane : LaneNo)
  | restart
  deriving DecidableEq, Repr

structure StreamController where
  lanes : Table (Stored Lane) 8
  /-- the head first -/
  outbox : List (Stored OutboxEntry)
  deriving DecidableEq, Repr

/-! ## Lane Unit -/

/-- A Listen Table entry (Table 7-1). -/
structure ListenEntry where
  enabled : Bool
  label : Label
  mask : BitVec 8
  lane : LaneNo
  acceptOwn : Bool
  deriving DecidableEq, Repr

/-- The defaults of Table 7-1. -/
def ListenEntry.default : ListenEntry := { enabled := false, label := 0, mask := 0, lane := 0, acceptOwn := false }

/-- A word period of the Sample Port in progress (R119). -/
structure WordPeriod where
  /-- the outgoing word chosen at its beginning, whose bits are driven on SMPOUT from bit 31 -/
  out : BitVec 32
  /-- the bits of SMPIN collected since its beginning, the first first -/
  collected : List Bool
  deriving DecidableEq, Repr

structure LaneUnit where
  /-- oldest word first -/
  txFifo : Table (List (Stored Sample)) 8
  rxFifo : Table (List (Stored Sample)) 8
  txOverrun : Table Bool 8
  rxOverrun : Table Bool 8
  lastServed : LaneNo
  listen : Table ListenEntry 16
  /-- SMPSYNC as sampled at the last rising edge of SMPCLK (R119) -/
  smpSync : Bool
  /-- the word period in progress; none between periods -/
  period : Option WordPeriod
  /-- the level driven on SMPOUT at the last falling edge of SMPCLK (R119) -/
  smpOut : Bool
  deriving DecidableEq, Repr

/-! ## Note Unit -/

inductive DestKind where
  | station | group | all
  deriving DecidableEq, Repr

inductive NoteState where
  | pending | active | done
  deriving DecidableEq, Repr

/-- The note outcomes (Table 8-2). -/
inductive NoteOutcome where
  | delivered | sent | busy | noAnswer | aborted | discarded | corrupt
  deriving DecidableEq, Repr

/-- How an entry left to its window ends where its result is not final: abort-pending (R140), discard-pending (R141). -/
inductive Ending where
  | none | abort | discard
  deriving DecidableEq, Repr

/-- A Transmit Note Queue entry (Table 8-1); its length is the length of the payload. It occupies a control word and
payload words (R154). -/
structure TxNote where
  tag : Byte
  kind : DestKind
  number : Nat
  payload : List Byte
  state : NoteState
  attempts : Nat
  countdown : Nat
  outcome : Option NoteOutcome
  ending : Ending
  control : Health
  body : Health
  deriving DecidableEq, Repr

/-- A Receive Note Ring entry (R142). -/
structure RxNote where
  sender : Station
  kind : DestKind
  payload : List Byte
  cycle : CycleNo
  deriving DecidableEq, Repr

structure NoteUnit where
  /-- oldest first -/
  tx : List TxNote
  ring : List (Stored RxNote)
  /-- the countdown was set in the window that is ending (R138) -/
  countdownFresh : Bool
  deriving DecidableEq, Repr

/-! ## Command Port -/

/-- The frame assembler (Table 10-1); in TURNAROUND and RESPONSE with the bit times since it was entered, which place
the byte that passes on SDO (log 20). -/
inductive Assembler where
  | idle
  | command
  | turnaround (bits : Nat)
  | response (bits : Nat)
  | trailing
  deriving DecidableEq, Repr

/-- The statuses (Table 10-3). -/
inductive Status where
  | done | accepted | refusedMode | busy | full | empty | notReady | badParam | check | format | unknown
  deriving DecidableEq, Repr

/-- A response as fixed at execution (R159); its length and CRC follow from these (`responseFrame`). -/
structure Response where
  status : Status
  payload : List Byte
  deriving DecidableEq, Repr

/-- The configuration (Table 10-5). -/
structure Configuration where
  patience : BitVec 8
  reclaim : BitVec 4
  noteAttempts : Nat
  noteSpacing : Nat
  groupEnable : Bool
  groupNumber : Nat
  lapsePeriod : Nat
  deriving DecidableEq, Repr

/-- The defaults of Table 10-5. -/
def Configuration.default : Configuration :=
  { patience := 40, reclaim := 8, noteAttempts := 4, noteSpacing := 2, groupEnable := false, groupNumber := 0,
    lapsePeriod := 0 }

/-- The snapshot buffer with its two items of state (R166, R167). A map record holds no field mark: it is NONE here. -/
structure SnapshotBuffer where
  map : Table (Stored SlotEntry) 48
  queue : List (Stored QueueEntry)
  cycle : Stored CycleNo
  valid : Bool
  armed : Bool
  deriving DecidableEq, Repr

structure CommandPort where
  assembler : Assembler
  response : Option Response
  /-- a RESET_STATION has been executed and CSN has not yet risen (R165) -/
  resetArmed : Bool
  config : Configuration
  /-- none: STOPPED; otherwise RUNNING with the units of 10 ms that remain (R169) -/
  lapse : Option Nat
  /-- bit times counted within the present unit (R176) -/
  lapseBits : Nat
  snap : SnapshotBuffer
  deriving DecidableEq, Repr

/-! ## Pins -/

structure Pins where
  /-- the number sampled from STN0 to STN5 (R163) -/
  station : Station
  /-- RESETN is held low (R21) -/
  resetnLow : Bool
  deriving DecidableEq, Repr

/-! ## The station -/

structure State where
  line : LineUnit
  cycle : CycleEngine
  mode : ModeController
  alloc : AllocationUnit
  streams : StreamController
  lanes : LaneUnit
  notes : NoteUnit
  port : CommandPort
  alerts : AlertUnit
  errorRecord : Option ErrorRecord
  pins : Pins
  /-- the commands that wait, first in first out -/
  pending : List Instr
  deriving DecidableEq, Repr

/-- A station that stops: none. Every event of the manual leaves a next state, so nothing raises a fault, and the type
has no constructor (safe: no run is cut). -/
inductive Fault where
  deriving DecidableEq, Repr

/-- Why a command has no meaning. -/
inductive Refusal where
  /-- Raised by `exec` for a row whose meaning is not written; safe. Every row has its meaning, so no arm raises it. -/
  | notModelled (mnemonic : String)
  deriving DecidableEq, Repr

/-- What one command answers. -/
abbrev Out := Host.Outcome State Fault Refusal

/-! ## Reset -/

/-- After reset: R1, R4, R14, R17; the driver is disabled, the unit unframed, the timer stopped, nothing is sent. -/
def LineUnit.reset : LineUnit :=
  { driverEnable := false, driverFaultCount := 0, framed := false, silenceTimer := none, txSlots := [],
    onLine := none, messageBits := 0, contention := .none, wonWindow := false }

/-- After reset: R20, R24, R28. -/
def CycleEngine.reset : CycleEngine :=
  { cycleNumber := 0, marker := 0, phase := .idle, resyncAttempts := 0, foundingPending := false,
    foundingMarkDue := false, winnerMarkDue := false, tickDone := false }

/-- After reset: R20. -/
def ModeController.reset : ModeController :=
  { actual := .off, requested := .off, target := .none, withdrawCount := 0, cause := .none }

/-- After reset: R39, R78. -/
def AllocationUnit.reset : AllocationUnit :=
  { map := .replicate 48 (.fresh .free), queue := [], rebuildList := [], heldNotices := [], fieldConflict := false,
    mapFoundWrong := false }

/-- After reset: R96, R98. -/
def StreamController.reset : StreamController := { lanes := .replicate 8 (.fresh .default), outbox := [] }

/-- After reset: R118, R121, R124, R126; the first edge after a reset counts as following a low sample of SMPSYNC (R119).
A word period in progress ends with a reset, and SMPOUT is low (R119; log 10, DESIGN CHOICE). -/
def LaneUnit.reset : LaneUnit :=
  { txFifo := .replicate 8 [], rxFifo := .replicate 8 [], txOverrun := .replicate 8 false,
    rxOverrun := .replicate 8 false, lastServed := 7, listen := .replicate 16 .default, smpSync := false,
    period := none, smpOut := false }

/-- After reset: R131, R142. -/
def NoteUnit.reset : NoteUnit := { tx := [], ring := [], countdownFresh := false }

/-- After reset: R166; the contents of an INVALID buffer are the model's choice (log 10, DESIGN CHOICE). -/
def SnapshotBuffer.reset : SnapshotBuffer :=
  { map := .replicate 48 (.fresh .free), queue := [], cycle := .fresh 0, valid := false, armed := false }

/-- After reset: R157, R162, R165, R169. -/
def CommandPort.reset : CommandPort :=
  { assembler := .idle, response := none, resetArmed := false, config := .default, lapse := none, lapseBits := 0,
    snap := .reset }

/-- After reset: every flag clear except START, every mask bit enabled (R171). -/
def AlertUnit.reset : AlertUnit := { flags := 1, masks := BitVec.allOnes 18 }

/-- The station right after a power-on reset. The station number 0 is the model's choice (log 9, DESIGN CHOICE: the
straps are board wiring); so is RESETN high (log 21). -/
def State.reset : State :=
  { line := .reset, cycle := .reset, mode := .reset, alloc := .reset, streams := .reset, lanes := .reset,
    notes := .reset, port := .reset, alerts := .reset, errorRecord := none,
    pins := { station := 0, resetnLow := false }, pending := [] }

end Sys2Proof.Machine
end

