-- ==== Sys2Proof/Machine/Operands.lean ====
section
/-! DEFINITION. The operand forms: check 5 of Table 10-2 for the parameter bytes of each host command (R158, R179), the
records and value codes of the responses (12.2), and the forms of the line's fields. -/

namespace Sys2Proof.Machine

/-! ## Parameters (check 5) -/

/-- A lane byte: 0 to 7. -/
def laneOf (b : Byte) : Option LaneNo := if h : b.toNat < 8 then some ⟨b.toNat, h⟩ else none

/-- A Listen Table entry byte: 0 to 15. -/
def entryOf (b : Byte) : Option (Fin 16) := if h : b.toNat < 16 then some ⟨b.toNat, h⟩ else none

/-- A mode byte of SET_MODE: 0, 1 or 3 (12.2.1). -/
def requestOf (b : Byte) : Option Requested :=
  match b.toNat with
  | 0 => some .off
  | 1 => some .listen
  | 3 => some .member
  | _ => none

/-- A destination kind: 0 STATION, 1 GROUP, 2 ALL; 3 and above name none (12.2.1, R178). -/
def destKindOf (n : Nat) : Option DestKind :=
  match n with
  | 0 => some .station
  | 1 => some .group
  | 2 => some .all
  | _ => none

/-- The parameters of OPEN_STREAM. -/
structure OpenParams where
  lane : LaneNo
  label : Label
  count : Nat
  cls : SlotClass
  wait : Bool
  ret : Bool
  deriving DecidableEq, Repr

/-- OPEN_STREAM: lane 0 to 7, count 1 to 8, stream flags bits 0 to 2 only (R100, 12.2.2, R179). -/
def openParams (lane label count flags : Byte) : Option OpenParams :=
  match laneOf lane with
  | none => none
  | some l =>
    if 1 ≤ count.toNat ∧ count.toNat ≤ 8 ∧ flags.toNat < 8 then
      some { lane := l, label := label, count := count.toNat,
             cls := if flags.getLsbD 0 then .urgent else .normal, wait := flags.getLsbD 1, ret := flags.getLsbD 2 }
    else none

/-- SET_LISTEN: entry 0 to 15, flags bits 0 and 1 only, lane 0 to 7 (R130, 12.2.2, R179). -/
def listenParams (entry flags label mask lane : Byte) : Option (Fin 16 × ListenEntry) :=
  match entryOf entry, laneOf lane with
  | some e, some l =>
    if flags.toNat < 4 then
      some (e, { enabled := flags.getLsbD 0, label := label, mask := mask, lane := l, acceptOwn := flags.getLsbD 1 })
    else none
  | _, _ => none

/-- CONFIGURE: the ranges of Table 10-5; the group byte has its enable in bit 7 and bits 6 to 4 clear (R162, R179). -/
def configParams (patience reclaim attempts spacing group lapse : Byte) : Option Configuration :=
  if 1 ≤ patience.toNat ∧ 2 ≤ reclaim.toNat ∧ reclaim.toNat ≤ 15 ∧ 1 ≤ attempts.toNat ∧ attempts.toNat ≤ 8 ∧
      spacing.toNat ≤ 7 ∧ group.toNat % 128 < 16 then
    some { patience := patience, reclaim := reclaim.setWidth 4, noteAttempts := attempts.toNat,
           noteSpacing := spacing.toNat, groupEnable := group.getLsbD 7, groupNumber := group.toNat % 16,
           lapsePeriod := lapse.toNat }
  else none

/-- The parameters of SEND_NOTE. -/
structure SendParams where
  tag : Byte
  kind : DestKind
  number : Nat
  payload : List Byte
  deriving DecidableEq, Repr

/-- SEND_NOTE: a length of 1 to 32 that agrees with the bytes carried, a STATION number up to 63 that is not this
station's own, a GROUP number up to 15; for ALL the number is not checked and 0 is recorded (R132). -/
def sendParams (own : Station) (tag kind number length : Byte) (payload : List Byte) : Option SendParams :=
  if 1 ≤ length.toNat ∧ length.toNat ≤ 32 ∧ length.toNat = payload.length then
    match destKindOf kind.toNat with
    | none => none
    | some .station =>
      if number.toNat ≤ 63 ∧ number.toNat ≠ own.val then some ⟨tag, .station, number.toNat, payload⟩ else none
    | some .group => if number.toNat ≤ 15 then some ⟨tag, .group, number.toNat, payload⟩ else none
    | some .all => some ⟨tag, .all, 0, payload⟩
  else none

/-- The parameters of READ_SNAPSHOT. -/
inductive SnapshotPart where
  /-- slots `first` to `first + count - 1` -/
  | map (first count : Nat)
  /-- positions `first` to `first + count - 1` -/
  | queue (first count : Nat)
  deriving DecidableEq, Repr

/-- READ_SNAPSHOT: part 0 MAP or 1 QUEUE, and the ranges of R168. -/
def snapshotParams (part first count : Byte) : Option SnapshotPart :=
  let f := first.toNat
  let c := count.toNat
  if 1 ≤ c ∧ c ≤ 8 then
    match part.toNat with
    | 0 => if f ≤ 47 ∧ f + c ≤ 48 then some (.map f c) else none
    | 1 => if 1 ≤ f ∧ f ≤ 16 ∧ f + c ≤ 17 then some (.queue f c) else none
    | _ => none
  else none

/-- A flag set: bits 18 to 23 are clear (R179). -/
def flagSetOf (w : BitVec 24) : Option (BitVec 18) := if w.toNat < 2 ^ 18 then some (w.setWidth 18) else none

/-! ## Value codes (12.2.1) -/

def Status.code : Status → Byte
  | .done => 0x00
  | .accepted => 0x01
  | .refusedMode => 0x02
  | .busy => 0x03
  | .full => 0x04
  | .empty => 0x05
  | .notReady => 0x06
  | .badParam => 0x07
  | .check => 0x08
  | .format => 0x09
  | .unknown => 0x0A

def Mode.code : Mode → Byte
  | .off => 0
  | .listen => 1
  | .joining => 2
  | .member => 3
  | .resync => 4
  | .withdrawing => 5

def Requested.code : Requested → Byte
  | .off => 0
  | .listen => 1
  | .member => 3

def Target.code : Target → Byte
  | .none => 0
  | .off => 1
  | .listen => 2

def FaultCause.code : FaultCause → Byte
  | .none => 0
  | .driverFault => 1
  | .duplicate => 2
  | .memory => 3
  | .resyncFailed => 4
  | .configMismatch => 5
  | .lapse => 6
  | .silence => 7

def Phase.code : Phase → Byte
  | .idle => 0
  | .adopt => 1
  | .rebuild => 2
  | .verify => 3
  | .learned => 4

def StreamState.code : StreamState → Byte
  | .closed => 0
  | .opening => 1
  | .waiting => 2
  | .held => 3
  | .cancelling => 4
  | .closing => 5

def StreamOutcome.code : StreamOutcome → Byte
  | .none => 0
  | .granted => 1
  | .queued => 2
  | .refusedAlready => 3
  | .refusedLabel => 4
  | .refusedBusy => 5
  | .refusedFull => 6
  | .noRoom => 7
  | .revoked => 8
  | .requeued => 9
  | .reclaimed => 10
  | .expired => 11
  | .displaced => 12
  | .cancelled => 13
  | .released => 14
  | .lost => 15
  | .restart => 16
  | .fault => 17
  | .abandoned => 18

def NoteOutcome.code : NoteOutcome → Byte
  | .delivered => 1
  | .sent => 2
  | .busy => 3
  | .noAnswer => 4
  | .aborted => 5
  | .discarded => 6
  | .corrupt => 7

def DestKind.code : DestKind → Byte
  | .station => 0
  | .group => 1
  | .all => 2

def Region.code : Region → Byte
  | .map => 0
  | .queue => 1
  | .streams => 2
  | .lanes => 3
  | .notes => 4
  | .snapshot => 5

def ErrorKind.code : ErrorKind → Byte
  | .single => 1
  | .double => 2

/-! ## Records (12.2.2) -/

/-- A number as one byte. -/
def byteOf (n : Nat) : Byte := BitVec.ofNat 8 n

/-- One bit at a place of a byte. -/
def bitAt (b : Bool) (place : Nat) : Nat := if b then 2 ^ place else 0

/-- The group byte: the enable in bit 7, the number in bits 3 to 0. -/
def groupByte (c : Configuration) : Byte := byteOf (bitAt c.groupEnable 7 + c.groupNumber)

/-- The status record: 18 bytes (R161). -/
def statusRecord (s : State) : List Byte :=
  [s.mode.actual.code, s.mode.requested.code, s.mode.target.code, byteOf s.mode.withdrawCount, s.mode.cause.code,
   s.cycle.phase.code] ++ bytes16 s.cycle.cycleNumber ++
  [byteOf s.cycle.marker.val, byteOf s.cycle.resyncAttempts, byteOf s.pins.station.val,
   byteOf s.line.driverEnable.toNat, s.port.config.patience, s.port.config.reclaim.setWidth 8,
   byteOf s.port.config.noteAttempts, byteOf s.port.config.noteSpacing, groupByte s.port.config,
   byteOf s.port.config.lapsePeriod]

/-- The stream record: 20 bytes (R97). Bit 7 of its flags is the changed flag as it stood before the read. -/
def streamRecord (l : LaneNo) (r : Lane) : List Byte :=
  [byteOf l.val, r.state.code, r.label, byteOf r.count,
   byteOf (bitAt (r.cls = .urgent) 0 + bitAt r.wait 1 + bitAt r.ret 2 + bitAt r.changed 7),
   byteOf r.slots.length] ++
  (r.slots.map (fun n => byteOf n.val) ++ List.replicate 8 (0xFF : Byte)).take 8 ++
  [byteOf (r.position.getD 0), r.outcome.code] ++ bytes16 (BitVec.ofNat 16 r.gapCount) ++ bytes16 r.grantCycle

/-- The listen record: 5 bytes (R130). -/
def listenRecord (e : Fin 16) (r : ListenEntry) : List Byte :=
  [byteOf e.val, byteOf (bitAt r.enabled 0 + bitAt r.acceptOwn 1), r.label, r.mask, byteOf r.lane.val]

/-- Eight bits of a byte, bit n for lane n. -/
def laneByte (bits : Table Bool 8) : Byte :=
  byteOf ((List.finRange 8).foldl (fun n l => n + bitAt (bits.get l) l.val) 0)

/-- The lane status record: 34 bytes (R125). -/
def laneStatusRecord (s : State) : List Byte :=
  s.lanes.txFifo.cells.map (fun f => byteOf f.length) ++ s.lanes.rxFifo.cells.map (fun f => byteOf f.length) ++
  [laneByte s.lanes.txOverrun, laneByte s.lanes.rxOverrun] ++
  s.streams.lanes.cells.flatMap (fun w => bytes16 (BitVec.ofNat 16 w.val.gapCount))

/-- The note record of a good note: 6 bytes and the payload (R146). -/
def noteRecord (n : RxNote) : List Byte :=
  [0, byteOf n.sender.val, n.kind.code, byteOf n.payload.length] ++ bytes16 n.cycle ++ n.payload

/-- The note record marked CORRUPT: length, sender, kind and cycle number all 0, no payload (R154). -/
def corruptNoteRecord : List Byte := [1, 0, 0, 0, 0, 0]

def LastUse.code : LastUse → Nat
  | .none => 0
  | .live => 1
  | .hold => 2

/-- The snapshot map record: 5 bytes, all zero for FREE (R168). -/
def mapRecord : SlotEntry → List Byte
  | .free => [0, 0, 0, 0, 0]
  | .held h =>
    [byteOf (128 + bitAt (h.cls = .urgent) 6 + bitAt h.ret 5 + h.lastUse.code), byteOf h.holder.val,
     byteOf (16 * h.lane.val + h.part), h.label, byteOf (16 * h.count + h.silence)]

/-- The snapshot queue record: 5 bytes (R168). -/
def queueRecord (e : QueueEntry) : List Byte :=
  [byteOf e.station.val, byteOf (16 * e.lane.val + e.count), e.label,
   byteOf (bitAt (e.cls = .urgent) 6 + bitAt e.ret 5), byteOf e.age]

/-- The memory error record: 3 bytes (R156). -/
def errorBytes (r : ErrorRecord) : List Byte := [r.region.code, byteOf r.index, r.kind.code]

/-- The alert record of READ_ALERTS: 7 bytes (R172). Bit n of its lane changed byte is lane n's flag (log 39, DESIGN
CHOICE). -/
def alertRecord (s : State) : List Byte :=
  bytes24 (s.alerts.flags.setWidth 24) ++ bytes24 (s.alerts.masks.setWidth 24) ++
  [byteOf ((List.finRange 8).foldl (fun n l => n + bitAt (s.streams.lanes.get l).val.changed l.val) 0)]

/-- The bytes of a response frame: status, length, payload, CRC (R159). -/
def responseFrame (r : Response) : List Byte := frameBytes r.status.code r.payload

/-! ## Fields of the line -/

/-- A queue entry as a mark carries it (12.1.2). -/
def QueueEntry.toSummary (e : QueueEntry) : SummaryEntry :=
  { station := e.station, lane := e.lane, label := e.label, count := Fin.ofNat 16 e.count, cls := e.cls, ret := e.ret,
    age := Fin.ofNat 256 e.age }

/-- A summary entry as a queue entry. -/
def entryOfSummary (e : SummaryEntry) : QueueEntry :=
  { station := e.station, lane := e.lane, label := e.label, count := e.count.val, cls := e.cls, ret := e.ret,
    age := e.age.val }

/-- A note of the Transmit Note Queue as the line carries it (12.1.3); for ALL the number is 0 (R178). -/
def TxNote.toLine (n : TxNote) : NoteContents :=
  { kind := match n.kind with | .station => 0 | .group => 1 | .all => 2, number := Fin.ofNat 64 n.number,
    payload := n.payload }

/-- The Sample Port word of a delivered sample: valid, lane, four reserved zeros, sample (12.3, R121). -/
def sampleWord (lane : LaneNo) (x : Sample) : BitVec 32 := 1#1 ++ BitVec.ofNat 3 lane.val ++ 0#4 ++ x

/-- Whether an incoming word is valid (12.3). -/
def wordValid (w : BitVec 32) : Bool := w.getLsbD 31

/-- The lane of an incoming word: bits 30 to 28 (12.3). -/
def wordLane (w : BitVec 32) : LaneNo := Fin.ofNat 8 (w.toNat / 2 ^ 28)

/-- The sample of an incoming word: bits 23 to 0 (12.3). -/
def wordSample (w : BitVec 32) : Sample := w.setWidth 24

end Sys2Proof.Machine
end

