-- ==== Sys2Proof/Machine/Layout.lean ====
section
/-! DEFINITION. The layouts of the fields on the Cycle-Share Bus (12.1, R3, R7, R10, R177, R178): the bits a C48 sends,
and how it reads the bits of a field (log 24). A bit is the value sent: false, a zero, is dominant (R1). -/

namespace Sys2Proof.Machine

/-! ## Bits -/

/-- The numbers that consecutive fields of the given widths spell, most significant bit first. -/
def cutFields : List Nat → List Bool → List Nat
  | [], _ => []
  | w :: ws, bits => natOf (bits.take w) :: cutFields ws (bits.drop w)

/-- One bit taken into an 8-bit check sequence with generator x^8+x^2+x+1. -/
def crc8Bit (crc : BitVec 8) (b : Bool) : BitVec 8 := if crc.msb != b then (crc <<< 1) ^^^ 0x07 else crc <<< 1

/-- The check sequence of a tag (R3). -/
def tagCrc (bits : List Bool) : BitVec 8 := bits.foldl crc8Bit 0

/-- The check sequence of marks and messages: x^16+x^15+x^2+1, initial value 0 (R3). -/
def lineCrc (bits : List Bool) : BitVec 16 := crc16 0x8005 0 bits

/-- The class bit: 0 NORMAL, 1 URGENT. -/
def classBit (c : SlotClass) : Nat := if c = .urgent then 1 else 0

/-- The class of a class bit. -/
def classOf (n : Nat) : SlotClass := if n = 0 then .normal else .urgent

/-- Recessive bit times. -/
def recessive (n : Nat) : List Bool := List.replicate n true

/-! ## Tag with sample word (12.1.1) -/

/-- The 50 bits of tag and sample word that the CRC-8 covers. -/
def tagBody (t : TagContents) : List Bool :=
  bitsOf 6 t.holder.val ++ bitsOf 3 t.lane.val ++ bitsOf 8 t.label.toNat ++ bitsOf 3 t.part.val ++
  bitsOf 3 t.countCode.val ++ bitsOf 1 (classBit t.cls) ++ bitsOf 1 t.ret.toNat ++
  bitsOf 1 (if t.use = .hold then 1 else 0) ++ bitsOf 24 t.sample.toNat

/-- The 64 bit times of a tagged slot. -/
def tagBits (t : TagContents) : List Bool :=
  bitsOf 1 0 ++ tagBody t ++ bitsOf 8 (tagCrc (tagBody t)).toNat ++ recessive 5

/-- The contents of the 50 bits. -/
def tagOfBody (body : List Bool) : Option TagContents :=
  match cutFields [6, 3, 8, 3, 3, 1, 1, 1, 24] body with
  | [holder, lane, label, part, count, cls, ret, use, sample] =>
    some { holder := Fin.ofNat 64 holder, lane := Fin.ofNat 8 lane, label := BitVec.ofNat 8 label,
           part := Fin.ofNat 8 part, countCode := Fin.ofNat 8 count, cls := classOf cls, ret := ret = 1,
           use := if use = 0 then .live else .hold, sample := BitVec.ofNat 24 sample }
  | _ => none

/-- The verdict and contents of a slot's 64 bit times (R3): silent where every bit is recessive, damaged where the check
sequence differs or the field ends before it is complete. -/
def readTag (bits : List Bool) : TagReport :=
  if bits.all id then .silent
  else if bits.length < 59 then .damaged
  else
    let body := (bits.drop 1).take 50
    if natOf ((bits.drop 51).take 8) = (tagCrc body).toNat then
      match tagOfBody body with
      | some t => .intact t
      | none => .damaged
    else .damaged

/-! ## Mark (12.1.2) -/

/-- The 31 bits of a summary entry. -/
def summaryBits (e : SummaryEntry) : List Bool :=
  bitsOf 6 e.station.val ++ bitsOf 3 e.lane.val ++ bitsOf 8 e.label.toNat ++ bitsOf 4 e.count.val ++
  bitsOf 1 (classBit e.cls) ++ bitsOf 1 e.ret.toNat ++ bitsOf 8 e.age.val

/-- The bits between the start sequence and the CRC. -/
def markBody (m : MarkContents) : List Bool :=
  bitsOf 16 m.cycle.toNat ++ bitsOf 6 m.marker.val ++ bitsOf 8 m.patience.toNat ++ bitsOf 4 m.reclaim.toNat ++
  bitsOf 5 m.summary.length ++ m.summary.flatMap summaryBits

/-- A mark after its start sequence: the 624 bit times up to position 639. -/
def markBits (m : MarkContents) : List Bool :=
  let body := markBody m
  let sent := body ++ bitsOf 16 (lineCrc body).toNat
  sent ++ recessive (624 - sent.length)

/-- A summary entry read. -/
def entryOfBits (bits : List Bool) : Option SummaryEntry :=
  match cutFields [6, 3, 8, 4, 1, 1, 8] bits with
  | [station, lane, label, count, cls, ret, age] =>
    some { station := Fin.ofNat 64 station, lane := Fin.ofNat 8 lane, label := BitVec.ofNat 8 label,
           count := Fin.ofNat 16 count, cls := classOf cls, ret := ret = 1, age := Fin.ofNat 256 age }
  | _ => none

/-- The summary entries read in order. -/
def entriesOfBits : Nat → List Bool → Option (List SummaryEntry)
  | 0, _ => some []
  | n + 1, bits =>
    match entryOfBits (bits.take 31), entriesOfBits n (bits.drop 31) with
    | some e, some es => some (e :: es)
    | _, _ => none

/-- The verdict and contents of a mark after its start sequence (R3): damaged where the CRC differs, the entry count is
above 16, or the field ends before the CRC is complete. -/
def readMark (bits : List Bool) : MarkReport :=
  match cutFields [16, 6, 8, 4, 5] bits with
  | [cycle, marker, patience, reclaim, count] =>
    if 16 < count then .damaged
    else
      let bodyLength := 39 + 31 * count
      if bits.length < bodyLength + 16 then .damaged
      else if natOf ((bits.drop bodyLength).take 16) = (lineCrc (bits.take bodyLength)).toNat then
        match entriesOfBits count (bits.drop 39) with
        | some es =>
          .intact { cycle := BitVec.ofNat 16 cycle, marker := Fin.ofNat 64 marker, patience := BitVec.ofNat 8 patience,
                    reclaim := BitVec.ofNat 4 reclaim, summary := es }
        | none => .damaged
      else .damaged
  | _ => .damaged

/-! ## Arbitration (R1, R8, R11, R15) -/

/-- What the line carries where two stations contend: the AND of their bits (R1), until at the first bit in which they
differ the sender of the recessive one reads a dominant one and stops driving at once (R8, R11). -/
def lineOf : List Bool → List Bool → List Bool
  | a :: as, b :: bs => if a = b then a :: lineOf as bs else false :: (if a then bs else as)
  | as, [] => as
  | [], bs => bs

/-- Whether a contender has lost: it sent a recessive bit and read a dominant one (R8, R11). One that has not lost at any
bit has won. -/
def losesArbitration (sent read : List Bool) : Bool := (sent.zip read).any fun p => p.1 && !p.2

/-- What a station sends in mark contention and in founding contention after the contention start sequence: its 6-bit
station number as precedence (R11, R15, 12.1.3). -/
def contentionBits (sender : Station) : List Bool := bitsOf 6 sender.val

/-- The 120 bit times of a mark contention or founding contention after its start sequence: 14 of the 128 are used. -/
def contentionField (sender : Station) : List Bool := contentionBits sender ++ recessive 114

/-- The station number that a contention after its start sequence carries. -/
def readContention (bits : List Bool) : Station := Fin.ofNat 64 (natOf (bits.take 6))

/-! ## Readback (R2) -/

/-- What a station drives of a field while it reads every bit back: at the first bit whose read value differs from the one
sent it stops driving, and leaves the line recessive for the rest of the field (R2). -/
def drivenBits : List Bool → List Bool → List Bool
  | a :: sent, b :: read => a :: if a = b then drivenBits sent read else recessive sent.length
  | sent, [] => sent
  | [], _ => []

/-- The readback result of a field: good where every bit reads back as sent (R2). -/
def readbackOf (sent read : List Bool) : Readback := if read = sent then .good else .mismatch

/-! ## Message (12.1.3, R7) -/

/-- The rank of a kind (R7); none for a message with no kind, which no C48 sends. -/
def rankOf : Body → Option Nat
  | .restart => some 0
  | .release _ => some 1
  | .withdraw _ => some 2
  | .claim .. => some 3
  | .note _ => some 4
  | .noKind => none

/-- The precedence of a message: rank times 64 plus the sender's number (R7). -/
def precedence (sender : Station) (b : Body) : Option Nat := (rankOf b).map fun r => 64 * r + sender.val

/-- The body of a message by its kind. -/
def bodyBits : Body → List Bool
  | .claim lane label count cls wait ret =>
    bitsOf 3 lane.val ++ bitsOf 8 label.toNat ++ bitsOf 4 count.val ++ bitsOf 1 (classBit cls) ++
    bitsOf 1 wait.toNat ++ bitsOf 1 ret.toNat
  | .release lane => bitsOf 3 lane.val
  | .withdraw lane => bitsOf 3 lane.val
  | .restart => []
  | .note n => bitsOf 2 n.kind.val ++ bitsOf 6 n.number.val ++ bitsOf 5 (n.payload.length - 1) ++ byteBits n.payload
  | .noKind => []

/-- A message after the contention start sequence: precedence, body, CRC-16. -/
def messageBits (sender : Station) (b : Body) : Option (List Bool) :=
  (precedence sender b).map fun p =>
    let body := bitsOf 9 p ++ bodyBits b
    body ++ bitsOf 16 (lineCrc body).toNat

/-- How many bits a message's body has, by its rank and the bits that follow the precedence (R178). A message of rank
5, 6 or 7 has no kind and so no body to read (log 24). -/
def bodyWidth (rank : Nat) (bits : List Bool) : Nat :=
  match rank with
  | 1 => 3
  | 2 => 3
  | 3 => 18
  | 4 => 13 + 8 * (natOf ((bits.drop 8).take 5) + 1)
  | _ => 0

/-- The bytes that bits spell. -/
def bytesOfBits : Nat → List Bool → List Byte
  | 0, _ => []
  | n + 1, bits => BitVec.ofNat 8 (natOf (bits.take 8)) :: bytesOfBits n (bits.drop 8)

/-- The body read, by its rank. -/
def bodyOfBits (rank : Nat) (bits : List Bool) : Option Body :=
  match rank with
  | 0 => some .restart
  | 1 => some (.release (Fin.ofNat 8 (natOf (bits.take 3))))
  | 2 => some (.withdraw (Fin.ofNat 8 (natOf (bits.take 3))))
  | 3 =>
    match cutFields [3, 8, 4, 1, 1, 1] bits with
    | [lane, label, count, cls, wait, ret] =>
      some (.claim (Fin.ofNat 8 lane) (BitVec.ofNat 8 label) (Fin.ofNat 16 count) (classOf cls) (wait = 1) (ret = 1))
    | _ => none
  | 4 =>
    match cutFields [2, 6, 5] bits with
    | [kind, number, length] =>
      some (.note { kind := Fin.ofNat 4 kind, number := Fin.ofNat 64 number,
                    payload := bytesOfBits (length + 1) (bits.drop 13) })
    | _ => none
  | _ => some .noKind

/-- The verdict, sender and body of a message after its contention start sequence (R3, R9, R178): damaged where the CRC
differs or the field ends before it is complete. -/
def readMessage (bits : List Bool) : WindowReport :=
  let rank := natOf (bits.take 3)
  let sender := natOf ((bits.drop 3).take 6)
  let width := bodyWidth rank (bits.drop 9)
  if bits.length < 25 + width then .damaged
  else if natOf ((bits.drop (9 + width)).take 16) = (lineCrc (bits.take (9 + width))).toNat then
    match bodyOfBits rank ((bits.drop 9).take width) with
    | some b => .intact (Fin.ofNat 64 sender) b
    | none => .damaged
  else .damaged

/-! ## Answer field (R10) -/

/-- The two bits of an answer. -/
def answerBits : Answer → Bool × Bool
  | .ack => (false, true)
  | .busy => (true, false)
  | .none => (true, true)

/-- The answer read: BUSY where both bits are dominant. -/
def readAnswer : Bool × Bool → Answer
  | (false, true) => .ack
  | (true, false) => .busy
  | (false, false) => .busy
  | (true, true) => .none

/-! ## Own fields (R2, R10) -/

/-- The bits of an own field that are compared for readback (R2): a tag with its sample word from the start bit, a mark after
its start sequence, a message after its precedence, each to the end of its check sequence; and the two bits of an answer
(log 44, DEDUCED). -/
def OwnField.comparedBits : OwnField → List Bool
  | .tag _ t => (tagBits t).take 59
  | .mark m _ => (markBits m).take ((markBody m).length + 16)
  | .message _ sender b => ((messageBits sender b).getD []).drop 9
  | .answer a => [(answerBits a).1, (answerBits a).2]

/-- Whether a window's message has an answer field: a NOTE with destination kind STATION (R10). -/
def hasAnswerField : Body → Bool
  | .note n => n.kind = 0
  | .claim .. => false
  | .release _ => false
  | .withdraw _ => false
  | .restart => false
  | .noKind => false

/-- The own field whose completion carries an answer: a note addressed to one station (R2, R10). -/
def OwnField.asksAnswer : OwnField → Bool
  | .message _ _ b => hasAnswerField b
  | .tag _ _ => false
  | .mark _ _ => false
  | .answer _ => false

/-- The report about an own field, from the bits read back and the two bits of the answer field: the answer is read only
where the readback was good (R2, R10). -/
def completionReport (f : OwnField) (read : List Bool) (answer : Bool × Bool) : Instr :=
  match readbackOf f.comparedBits read with
  | .good => .ownTransmissionCompleted .good (if f.asksAnswer then readAnswer answer else .none)
  | .mismatch => .ownTransmissionCompleted .mismatch .none

/-! ## Message window (12.1.3) -/

/-- The 376 bit times of a window after its contention start sequence: the message, recessive up to bit time 310 of the
window, the two answer bits of a STATION note, and recessive to its end. -/
def windowBits (sender : Station) (b : Body) (a : Answer) : Option (List Bool) :=
  (messageBits sender b).map fun bits =>
    let answer := answerBits (if hasAnswerField b then a else .none)
    bits ++ recessive (302 - bits.length) ++ [answer.1, answer.2] ++ recessive 72

/-- The answer in the bit times of a window after its contention start sequence (R10). -/
def readWindowAnswer (bits : List Bool) : Answer := readAnswer (bits[302]?.getD true, bits[303]?.getD true)

end Sys2Proof.Machine
end

