-- ==== Sys2Proof/Config.lean ====
section
/-! DEFINITION. What the part fixes by number. -/

namespace Sys2Proof.Config

/-- Bit times of 4 cycle periods (R14). -/
def silenceLimit : Nat := 24576

/-- Bit times of one unit of the lapse timer: 10 ms at the nominal 49.152 Mbit/s (R169, R176). -/
def lapseUnit : Nat := 491520

/-- Bit times of a window in which a message contends: the contention start sequence of 8 and the precedence of 9 (R8,
12.1.3). -/
def arbitrationLength : Nat := 17

/-- Entries of the Claim Queue (R79). -/
def queueRoom : Nat := 16

/-- Words of a lane FIFO (R118). -/
def fifoRoom : Nat := 32

/-- Entries of the Transmit Note Queue and of the Receive Note Ring (R131, R142). -/
def noteRoom : Nat := 4

/-- Cycles between age ticks (R83). -/
def tickPeriod : Nat := 1024

/-- Withdrawal limit in cycles (R34). -/
def withdrawalLimit : Nat := 16

/-- Resync verify limit (R28). -/
def resyncLimit : Nat := 4

/-- Driver-fault threshold (R18). -/
def driverFaultLimit : Nat := 4

end Sys2Proof.Config
end

