-- ==== Sys2Proof/Machine/Flags.lean ====
section
/-! DEFINITION. The alert flags, their masks and the ATTN line (Chapter 11). -/

namespace Sys2Proof.Machine

/-- The flag's bit in a flag set (12.2.1: in the order of Table 11-1). -/
def Alert.bit : Alert → Fin 18
  | .start => 0
  | .mode => 1
  | .stream => 2
  | .queueAdopted => 3
  | .conflict => 4
  | .restart => 5
  | .noteIn => 6
  | .noteDone => 7
  | .ringFull => 8
  | .lane => 9
  | .driverFault => 10
  | .duplicate => 11
  | .configMismatch => 12
  | .lapse => 13
  | .cmdError => 14
  | .memCorrected => 15
  | .memFailed => 16
  | .snapshot => 17

/-- The flag set that holds one flag. -/
def Alert.only (a : Alert) : BitVec 18 := BitVec.ofNat 18 (2 ^ a.bit.val)

/-- Whether a flag is set. -/
def AlertUnit.isSet (u : AlertUnit) (a : Alert) : Bool := u.flags.getLsbD a.bit.val

/-- Setting a flag, whatever its mask; a flag already set stays set (R171). -/
def AlertUnit.raise (a : Alert) (u : AlertUnit) : AlertUnit := { u with flags := u.flags ||| a.only }

/-- Setting a flag of the station. -/
def raise (a : Alert) (s : State) : State := { s with alerts := s.alerts.raise a }

/-- CLEAR_ALERTS: the named flags are cleared; NOTE_IN is set again at once while the ring holds a note (R173). -/
def AlertUnit.clear (named : BitVec 18) (ringHoldsNote : Bool) (u : AlertUnit) : AlertUnit :=
  let cleared := u.flags &&& ~~~named
  { u with flags := if named.getLsbD Alert.noteIn.bit.val && ringHoldsNote
                    then cleared ||| Alert.noteIn.only else cleared }

/-- ATTN is low exactly when a set flag's mask bit is enabled (R175). -/
def attnLow (s : State) : Bool := s.alerts.flags &&& s.alerts.masks != 0

end Sys2Proof.Machine
end

