-- ==== Sys2Proof/Machine/Ops.lean ====
section
/-! DEFINITION. The shared operations over the State Memory's words, the FIFOs, the Stream Table, the Control Outbox and
the Command Port's response and lapse timer. -/

namespace Sys2Proof.Machine

/-! ## Events that may be abandoned -/

/-- How an event stands: it goes on, or a double error has abandoned it, so that the steps not yet taken are not
taken while the changes made stand (R77, R95, R151, R152). -/
inductive Course where
  | on (s : State)
  | abandoned (s : State)
  deriving DecidableEq, Repr

/-- The state an event leaves. -/
def Course.state : Course → State
  | .on s => s
  | .abandoned s => s

/-- The next step of an event, taken only if the event goes on. -/
def Course.next (c : Course) (f : State → Course) : Course :=
  match c with
  | .on s => f s
  | .abandoned s => .abandoned s

/-- The last step of an event, which reads nothing. -/
def Course.finally (c : Course) (f : State → State) : Course := c.next fun s => .on (f s)

/-! ## Reading stored words (R149, R150) -/

/-- A single error corrected: the record takes it and MEM_CORRECTED is set (R149). -/
def recordSingle (r : Region) (index : Nat) (s : State) : State :=
  raise .memCorrected { s with errorRecord := some ⟨r, index, .single⟩ }

/-- A double error found: the record takes it and MEM_FAILED is set (R150). -/
def recordDouble (r : Region) (index : Nat) (s : State) : State :=
  raise .memFailed { s with errorRecord := some ⟨r, index, .double⟩ }

/-- What one read of a word of this health records. -/
def recordRead (r : Region) (index : Nat) (h : Health) (s : State) : State :=
  match h with
  | .clean => s
  | .single => recordSingle r index s
  | .double => recordDouble r index s

/-- The word after a read: a single error is written back corrected (R149), a double error stays (R150). -/
def Stored.afterRead {α : Type} (w : Stored α) : Stored α :=
  match w.health with
  | .clean => w
  | .single => .fresh w.val
  | .double => w

/-- What reading words in order finds: the words after the reads, the place of the last single error read, and the
place of the double error at which the reading stopped. -/
structure Scan (α : Type) where
  words : List (Stored α)
  single : Option Nat
  failed : Option Nat

/-- Words read in order, the first at place `pos`; after a double error no further word is read (R150). -/
def scan {α : Type} (pos : Nat) : List (Stored α) → Scan α
  | [] => ⟨[], none, none⟩
  | w :: ws =>
    match w.health with
    | .double => ⟨w :: ws, none, some pos⟩
    | .clean =>
      let r := scan (pos + 1) ws
      ⟨w :: r.words, r.single, r.failed⟩
    | .single =>
      let r := scan (pos + 1) ws
      ⟨.fresh w.val :: r.words, some (r.single.getD pos), r.failed⟩

theorem scan_length {α : Type} (ws : List (Stored α)) : ∀ pos, (scan pos ws).words.length = ws.length := by
  induction ws with
  | nil => intro pos; rfl
  | cons w ws ih => intro pos; unfold scan; cases w.health <;> simp [ih]

/-- The records and alerts of a scan; `index` names the word at a place (R156). -/
def recordScan {α : Type} (r : Region) (index : Nat → Nat) (sc : Scan α) (s : State) : State :=
  let s1 := match sc.single with
    | none => s
    | some p => recordSingle r (index p) s
  match sc.failed with
  | none => s1
  | some p => recordDouble r (index p) s1

/-- A table's words read in order. -/
def scanTable {α : Type} {n : Nat} (t : Table (Stored α) n) : Table (Stored α) n :=
  ⟨(scan 0 t.cells).words, by rw [scan_length, t.size]⟩

/-! ## This station -/

/-- This station's number (R163). -/
def own (s : State) : Station := s.pins.station

/-! ## The Stream Table -/

/-- The record of a lane. -/
def laneOfState (s : State) (l : LaneNo) : Lane := (s.streams.lanes.get l).val

/-- A lane's record written anew, with fresh check bits (R148). -/
def putLane (l : LaneNo) (r : Lane) (s : State) : State :=
  { s with streams.lanes := s.streams.lanes.set l (.fresh r) }

/-- A change that is no change of state or outcome: it sets no flag (R97). -/
def updateLane (l : LaneNo) (f : Lane → Lane) (s : State) : State := putLane l (f (laneOfState s l)) s

/-- A change of a lane's state or last outcome: it sets the changed flag and the alert STREAM (R97). -/
def changeLane (l : LaneNo) (f : Lane → Lane) (s : State) : State :=
  raise .stream (updateLane l (fun r => { f r with changed := true }) s)

/-- A transmit FIFO flushed: no drop is recorded and no overrun bit changes (R123). -/
def flushTx (l : LaneNo) (s : State) : State := { s with lanes.txFifo := s.lanes.txFifo.set l [] }

/-- A lane's entry into CLOSED with an outcome (R113): slot list emptied, queue position none, FIFO flushed; the label,
count, class, WAIT, RETURN, gap count and grant cycle number are kept. -/
def closeLane (l : LaneNo) (outcome : StreamOutcome) (s : State) : State :=
  flushTx l (changeLane l (fun r => { r with state := .closed, slots := [], position := none, outcome := outcome,
                                             closeOnWithdraw := false }) s)

/-- Whether a lane is CLOSED. -/
def laneClosed (s : State) (l : LaneNo) : Bool := (laneOfState s l).state = .closed

/-- The lanes in order (R33, R98, R113). -/
def allLanes : List LaneNo := List.finRange 8

/-- Every stream of the listed lanes that is not CLOSED becomes CLOSED with an outcome, in lane order (R113). -/
def closeOpenLanes (outcome : StreamOutcome) : List LaneNo → State → State
  | [], s => s
  | l :: ls, s => closeOpenLanes outcome ls (if laneClosed s l then s else closeLane l outcome s)

/-! ## The Control Outbox -/

/-- The lane an entry names. -/
def OutboxEntry.lane? : OutboxEntry → Option LaneNo
  | .claim l => some l
  | .release l => some l
  | .withdraw l => some l
  | .restart => none

/-- Whether the outbox holds an entry for a lane. -/
def laneHasEntry (l : LaneNo) (s : State) : Bool := s.streams.outbox.any fun w => w.val.lane? = some l

/-- Whether the outbox holds a RESTART. -/
def restartWaits (s : State) : Bool := s.streams.outbox.any fun w => w.val = .restart

/-- An entry appended at the tail, the lane's entry removed first: the outbox never holds two entries for the same lane,
nor more than one RESTART (R98). -/
def appendEntry (e : OutboxEntry) (s : State) : State :=
  { s with streams.outbox := (s.streams.outbox.filter fun w => w.val.lane? ≠ e.lane?) ++ [.fresh e] }

/-- A lane's entry removed; the entries behind keep their order (R98). -/
def removeEntry (l : LaneNo) (s : State) : State :=
  { s with streams.outbox := s.streams.outbox.filter fun w => w.val.lane? ≠ some l }

/-- Every entry removed (R98). -/
def emptyOutbox (s : State) : State := { s with streams.outbox := [] }

/-- Whether the outbox head is in its window (R7). -/
def headInWindow (s : State) : Bool :=
  match s.line.onLine with
  | some (.message .outbox _ _) => true
  | _ => false

/-- The three conditions of an OPENING lane's CLAIM (6.1). -/
inductive ClaimCondition where
  | held | inWindow | sent
  deriving DecidableEq, Repr

/-- Whether a lane's CLAIM is in its window. -/
def claimInWindow (l : LaneNo) (s : State) : Bool :=
  match s.line.onLine with
  | some (.message .outbox _ (.claim l' _ _ _ _ _)) => l' = l
  | _ => false

/-- Held while the CLAIM stands in the outbox and is not in its window; sent once it has left the outbox (6.1). -/
def claimCondition (l : LaneNo) (s : State) : ClaimCondition :=
  if claimInWindow l s then .inWindow
  else if s.streams.outbox.any (fun w => w.val = .claim l) then .held
  else .sent

/-! ## Reads of the STREAMS region (R152, R156) -/

/-- A read of one lane's entry: the state after it, and whether it gave data. -/
def checkLane (l : LaneNo) (s : State) : State × Bool :=
  let w := s.streams.lanes.get l
  (recordRead .streams l.val w.health { s with streams.lanes := s.streams.lanes.set l w.afterRead }, w.health ≠ .double)

/-- Reads of several lanes' entries in order, up to the first that fails: the state after them and the lane that
failed. -/
def checkLanes : List LaneNo → State → State × Option LaneNo
  | [], s => (s, none)
  | l :: ls, s =>
    match checkLane l s with
    | (s1, true) => checkLanes ls s1
    | (s1, false) => (s1, some l)

/-- Reads of every outbox entry from the head; index 8 is the head (R156). -/
def checkOutbox (s : State) : State × Bool :=
  let sc := scan 0 s.streams.outbox
  (recordScan .streams (8 + ·) sc { s with streams.outbox := sc.words }, sc.failed.isNone)

/-- A read of the outbox head alone (R99). -/
def checkOutboxHead (s : State) : State × Bool :=
  match s.streams.outbox with
  | [] => (s, true)
  | w :: ws => (recordRead .streams 8 w.health { s with streams.outbox := w.afterRead :: ws }, w.health ≠ .double)

/-! ## The lane FIFOs (R118, R125) -/

/-- A word added at the tail, the oldest dropped first where the FIFO is full: the FIFO and whether it dropped. -/
def fifoAdd (x : Sample) (q : List (Stored Sample)) : List (Stored Sample) × Bool :=
  if Config.fifoRoom ≤ q.length then (q.tail ++ [.fresh x], true) else (q ++ [.fresh x], false)

/-- A Sample Port word added to a transmit FIFO; a drop sets TX_OVERRUN and the alert LANE (R120). -/
def addTx (l : LaneNo) (x : Sample) (s : State) : State :=
  let r := fifoAdd x (s.lanes.txFifo.get l)
  let s1 := { s with lanes.txFifo := s.lanes.txFifo.set l r.1 }
  if r.2 then raise .lane { s1 with lanes.txOverrun := s1.lanes.txOverrun.set l true } else s1

/-- A delivered word added to a receive FIFO; a drop sets RX_OVERRUN and the alert LANE (R127). -/
def addRx (l : LaneNo) (x : Sample) (s : State) : State :=
  let r := fifoAdd x (s.lanes.rxFifo.get l)
  let s1 := { s with lanes.rxFifo := s.lanes.rxFifo.set l r.1 }
  if r.2 then raise .lane { s1 with lanes.rxOverrun := s1.lanes.rxOverrun.set l true } else s1

/-- What a word taken from a FIFO gives: zero where it reads with a double error (R153). -/
def takenSample (w : Stored Sample) : Sample := if w.health = .double then 0 else w.val

/-- The oldest word of a transmit FIFO taken, or none (R122); LANES index 0 to 7 (R156). -/
def takeTx (l : LaneNo) (s : State) : State × Option Sample :=
  match s.lanes.txFifo.get l with
  | [] => (s, none)
  | w :: ws =>
    (recordRead .lanes l.val w.health { s with lanes.txFifo := s.lanes.txFifo.set l ws }, some (takenSample w))

/-- The oldest word of a receive FIFO taken, or none (R121); LANES index 8 to 15 (R156). -/
def takeRx (l : LaneNo) (s : State) : State × Option Sample :=
  match s.lanes.rxFifo.get l with
  | [] => (s, none)
  | w :: ws =>
    (recordRead .lanes (8 + l.val) w.health { s with lanes.rxFifo := s.lanes.rxFifo.set l ws }, some (takenSample w))

/-! ## The Command Port -/

/-- The response fixed at a command's execution (R159). -/
def answer (st : Status) (payload : List Byte) (s : State) : State :=
  { s with port.response := some ⟨st, payload⟩ }

/-- The lapse timer reloaded with the period in force; period 0 leaves it STOPPED (R169). -/
def reloadLapse (s : State) : State :=
  { s with
    port.lapse := if s.port.config.lapsePeriod = 0 then none else some s.port.config.lapsePeriod
    port.lapseBits := 0 }

/-- A rise of CSN that ends a frame: the assembler is IDLE and the rest of the response is lost (R157, R159). -/
def endFrame (s : State) : State := { s with port.assembler := .idle, port.response := none }

/-- A reset (R21): every block takes its reset values. The number sampled last and the level of RESETN stay, and so do
the queue of commands, which is no state of the part. -/
def resetStation (s : State) : State :=
  { State.reset with pins := s.pins, pending := s.pending }

/-- The rising edge of CSN (R157, R165): it returns the assembler to IDLE from any state, and a RESET_STATION executed in
the frame it ends resets the station. -/
def csnRise (s : State) : State := if s.port.resetArmed then resetStation s else endFrame s

/-- The falling edge of CSN that begins a frame: COMMAND (Table 10-1). One chip-select period carries at most one
command, so CSN has risen since the frame before (R157, log 20). -/
def frameBegun (s : State) : State := { csnRise s with port.assembler := .command }

/-- A frame collected from its first bit to its last: CSN falls, and the collection ends in TURNAROUND (Table 10-1). -/
def frameCollected (s : State) : State := { frameBegun s with port.assembler := .turnaround 0 }

/-- A complete frame of a host command: while RESETN is low no frame is taken (R21); checks 1 to 4 pass, so the lapse
timer is reloaded; a failing check 5 answers BAD_PARAM, a failing check 6 REFUSED_MODE, and otherwise the command is
executed with its parameters (R158, R159, R160). -/
def hostFrame {α : Type} (params : Option α) (permitted : Mode → Bool) (body : α → State → State) (s : State) : State :=
  if s.pins.resetnLow then s
  else
    let s1 := reloadLapse (frameCollected s)
    match params with
    | none => answer .badParam [] s1
    | some p => if permitted s1.mode.actual then body p s1 else answer .refusedMode [] s1

/-- Permitted in every mode (Table 10-4). -/
def everyMode (_ : Mode) : Bool := true

/-! ## Events of the line -/

/-- An event the Line Unit reports only while it is framed and the mode is not OFF (R1, R4), and while RESETN is high
(R21); otherwise nothing is reported and nothing changes (log 6). -/
def framedEvent (f : State → State) (s : State) : State :=
  if s.pins.resetnLow || s.mode.actual = .off || !s.line.framed then s else f s

/-- An event that does not need framing. -/
def lineEvent (f : State → State) (s : State) : State :=
  if s.pins.resetnLow || s.mode.actual = .off then s else f s

/-- The silence timer restarted at an intact field (R14). -/
def restartSilence (s : State) : State := { s with line.silenceTimer := some 0 }

end Sys2Proof.Machine
end

