-- ==== Sys2Proof/Machine/Notes.lean ====
section
/-! DEFINITION. The Note Unit's shared operations (Chapter 8): the Transmit Note Queue's entries through their windows,
and the Receive Note Ring. -/

namespace Sys2Proof.Machine

/-! ## Transmit entries -/

/-- Whether a note of this station is in its window (R7). -/
def noteInWindow (s : State) : Bool :=
  match s.line.onLine with
  | some (.message .note _ _) => true
  | _ => false

/-- The place of the oldest entry that is not DONE (R133). -/
def oldestOpen (s : State) : Option Nat := s.notes.tx.findIdx? fun n => n.state ≠ .done

/-- The place of the ACTIVE entry; there is at most one (R133). -/
def activeNote (s : State) : Option Nat := s.notes.tx.findIdx? fun n => n.state = .active

/-- An entry rewritten. -/
def updateTx (i : Nat) (f : TxNote → TxNote) (s : State) : State := { s with notes.tx := s.notes.tx.modify i f }

/-- The entry DONE with an outcome: the countdown becomes 0, the attempts made stay (R139); the control word is written
anew. -/
def TxNote.finish (o : NoteOutcome) (n : TxNote) : TxNote :=
  { n with state := .done, outcome := some o, countdown := 0, ending := .none, control := .clean }

/-- An entry becomes DONE: NOTE_DONE is set (R139). -/
def finishNote (i : Nat) (o : NoteOutcome) (s : State) : State := raise .noteDone (updateTx i (·.finish o) s)

/-- A read of an entry, its control word and then its payload; NOTES index 0 to 3 (R154, R156, log 3): the state and
whether it gave data. -/
def readTx (i : Nat) (n : TxNote) (s : State) : State × Bool :=
  let s1 := recordRead .notes i n.control s
  if n.control = .double then (s1, false)
  else
    let s2 := recordRead .notes i n.body s1
    if n.body = .double then (s2, false)
    else (updateTx i (fun m => { m with control := .clean, body := .clean }) s2, true)

/-- A double error in an entry: DONE with outcome CORRUPT, host tag and attempts as read; the write heals the control
word, and a failing payload word, which is not written, stays as it is (R150, R154). -/
def corruptNote (i : Nat) (s : State) : State := finishNote i .corrupt s

/-- The final outcome of an attempt, or none when the entry is to try again (R136, R137). `attempts` counts it. -/
def attemptOutcome (limit attempts : Nat) (kind : DestKind) (rb : Readback) (a : Answer) : Option NoteOutcome :=
  match kind, rb, a with
  | .station, .good, .ack => some .delivered
  | .station, .good, .busy => if limit ≤ attempts then some .busy else none
  | .station, .good, .none => if limit ≤ attempts then some .noAnswer else none
  | .group, .good, _ => some .sent
  | .all, .good, _ => some .sent
  | _, .mismatch, _ => if limit ≤ attempts then some .noAnswer else none

/-- Arbitration lost, or a contention cut: no attempt; a pending abort or discard ends the entry (R135, R140, R141). -/
def noteLost (s : State) : State :=
  match activeNote s with
  | none => s
  | some i =>
    match s.notes.tx[i]? with
    | none => s
    | some n =>
      match n.ending with
      | .abort => finishNote i .aborted s
      | .discard => finishNote i .discarded s
      | .none => s

/-- A completion judged: one attempt more, then a final outcome, a pending abort or discard, or the spacing (R135 to
R141). The countdown so set is not decreased by this window's end (R138). -/
def judgeNote (i : Nat) (n : TxNote) (rb : Readback) (a : Answer) (s : State) : State :=
  let s1 := updateTx i (fun m => { m with attempts := n.attempts + 1 }) s
  match attemptOutcome s.port.config.noteAttempts (n.attempts + 1) n.kind rb a with
  | some o => finishNote i o s1
  | none =>
    match n.ending with
    | .abort => finishNote i .aborted s1
    | .discard => finishNote i .discarded s1
    | .none =>
      let s2 := updateTx i (fun m => { m with countdown := s.port.config.noteSpacing }) s1
      { s2 with notes.countdownFresh := true }

/-- The completion of a note's window (R135); a double error found by its read ends the entry CORRUPT (R154). -/
def noteCompleted (rb : Readback) (a : Answer) (s : State) : State :=
  match activeNote s with
  | none => s
  | some i =>
    match s.notes.tx[i]? with
    | none => s
    | some n =>
      match readTx i n s with
      | (s1, true) => judgeNote i n rb a s1
      | (s1, false) => corruptNote i s1

/-- An entry in its window marked abort-pending; one already discard-pending stays so (R140). -/
def Ending.orAbort : Ending → Ending
  | .discard => .discard
  | _ => .abort

/-- An entry in its window marked discard-pending; one already abort-pending stays so (R141). -/
def Ending.orDiscard : Ending → Ending
  | .abort => .abort
  | _ => .discard

/-- Every entry that is not DONE is ended with an outcome, in list order, but for the ACTIVE one when a note is in its
window, which is left to it with `mark` (R140, R141). -/
def endNotes (o : NoteOutcome) (mark : Ending → Ending) (s : State) : State :=
  let left (n : TxNote) : Bool := n.state = .active && noteInWindow s
  let s1 := { s with notes.tx := s.notes.tx.map fun n =>
    if n.state = .done then n else if left n then { n with ending := mark n.ending } else n.finish o }
  if s.notes.tx.any (fun n => n.state ≠ .done && !left n) then raise .noteDone s1 else s1

/-- The discarding of notes when the actual mode leaves MEMBER (R141). -/
def discardNotes (s : State) : State := endNotes .discarded Ending.orDiscard s

/-- A spacing countdown one less: the control word is read and written anew; a double error ends the entry CORRUPT
(R138, R148, R154, log 37). -/
def decreaseCountdown (i : Nat) (n : TxNote) (s : State) : State :=
  let s1 := recordRead .notes i n.control s
  if n.control = .double then corruptNote i s1
  else updateTx i (fun m => { m with countdown := n.countdown - 1, control := .clean }) s1

/-- The ACTIVE entry's spacing countdown decreased where `due` holds of it; there is at most one (R133, R138). -/
def spaceActive (due : Nat → Bool) (s : State) : State :=
  match activeNote s with
  | none => s
  | some i =>
    match s.notes.tx[i]? with
    | none => s
    | some n => if due n.countdown then decreaseCountdown i n s else s

/-- The spacing countdown at a window ended report (R138): it stops at 0, and is not decreased at the end of the window
in which it was set. -/
def spaceNotes (s : State) : State :=
  if s.notes.countdownFresh then { s with notes.countdownFresh := false } else spaceActive (0 < ·) s

/-! ## Received notes -/

/-- Whether a received note is accepted in the present mode (R143, Table 8-3): its sender is not this station. -/
def acceptsNote (sender : Station) (n : NoteContents) (s : State) : Bool :=
  sender ≠ own s &&
  match destKindOf n.kind.val with
  | some .station => n.number = own s && (s.mode.actual = .member || s.mode.actual = .withdrawing)
  | some .group =>
    s.mode.actual ≠ .off && s.port.config.groupEnable && n.number.val = s.port.config.groupNumber
  | some .all => s.mode.actual ≠ .off
  | none => false

/-- The ring entry of a received note (R142). -/
def ringEntry (sender : Station) (n : NoteContents) (s : State) : RxNote :=
  { sender := sender, kind := (destKindOf n.kind.val).getD .all, payload := n.payload, cycle := s.cycle.cycleNumber }

/-- Whether the ring has room (R142). -/
def ringHasRoom (s : State) : Bool := s.notes.ring.length < Config.noteRoom

/-- An accepted note placed at the tail with NOTE_IN, or RING_FULL set (R144, R145). -/
def placeNote (n : RxNote) (s : State) : State :=
  if ringHasRoom s then raise .noteIn { s with notes.ring := s.notes.ring ++ [.fresh n] }
  else raise .ringFull s

end Sys2Proof.Machine
end

