-- ==== Sys2Proof/Machine/Modes.lean ====
section
/-! DEFINITION. The Mode Controller's shared operations (Chapter 2): entries into each mode, the direct fault entry, the
withdrawal's exit, and what a double error in MAP, QUEUE or STREAMS does to the station. -/

namespace Sys2Proof.Machine

/-! ## Reports about the station's own control messages (R99, R102) -/

/-- The lane whose CLAIM a message is. -/
def claimLaneOf : Body → Option LaneNo
  | .claim l _ _ _ _ _ => some l
  | .release _ => none
  | .withdraw _ => none
  | .restart => none
  | .note _ => none
  | .noKind => none

/-- Arbitration lost by the outbox head: it stays; but a CLAIM closed in its window is removed, and its lane becomes
CLOSED(CANCELLED) (R99, R102). -/
def controlLost (b : Body) (s : State) : State :=
  match claimLaneOf b with
  | none => s
  | some l =>
    if (laneOfState s l).state = .cancelling then closeLane l .cancelled (removeEntry l s) else s

/-- The outbox head removed (R99). -/
def removeHead (s : State) : State := { s with streams.outbox := s.streams.outbox.tail }

/-- Completion of the outbox head with readback mismatch: it stays and is offered again; but a CLAIM closed in its
window is removed and a WITHDRAW appended at the tail, whose good completion will close the lane (R99, R102). -/
def controlMismatch (b : Body) (s : State) : State :=
  match claimLaneOf b with
  | none => s
  | some l =>
    if (laneOfState s l).state = .cancelling then
      updateLane l (fun r => { r with closeOnWithdraw := true }) (appendEntry (.withdraw l) (removeHead s))
    else s

/-! ## Parts of mode changes -/

/-- Whether the lane's entry gives data: it does not hold a word with a double error (R150). -/
def laneReadable (s : State) (l : LaneNo) : Bool := (s.streams.lanes.get l).health ≠ .double

/-- The report about a control message cut in its window, acted on unless its lane's entry gives no data (R13, R99,
R102, log 37). -/
def cutControl (report : Body → State → State) (b : Body) (s : State) : State :=
  match claimLaneOf b with
  | none => s
  | some l => if laneReadable s l then report b s else s

/-- Whether the message on the line is still in its contention: not all 9 bits of its precedence have been read back (R8).
Bit times are counted by `tick` (log 8, DESIGN CHOICE). -/
def contending (s : State) : Bool := s.line.messageBits < Config.arbitrationLength

/-- The report about a message cut in its window: in contention it has lost its arbitration; in its body it has won its
window and is reported as readback mismatch (R8, R13, R19). -/
def messageCut (src : Source) (b : Body) (s : State) : State :=
  let won : State := { s with line.wonWindow := true }
  match src with
  | .outbox => if contending s then cutControl controlLost b s else cutControl controlMismatch b won
  | .note => if contending s then noteLost s else noteCompleted .mismatch .none won

/-- The report about the own field cut, to the block that gave it (R13). No cut enters the driver-fault count, and a cut
tag, answer or mark has no further effect (log 35). -/
def reportCut (s : State) : State :=
  match s.line.onLine with
  | some (.message src _ b) => messageCut src b s
  | some (.tag _ _) => s
  | some (.mark _ _) => s
  | some (.answer _) => s
  | none => s

/-- R13: when the mode becomes OFF or LISTEN the Line Unit stops driving: the field or contention in progress is cut and
reported, and no message is left in its window. -/
def cutTransmission (s : State) : State := { reportCut s with line.onLine := none, line.contention := .none }

/-- A change of the actual mode: the alert MODE is set (R20), leaving MEMBER discards the notes (R141), an entry into
OFF or LISTEN cuts the field being sent (R13), and a founding does not stay pending (R15). A station that has lost a founding
contention takes the winner's mark as its step (a) only while it stays in JOINING (R15, R30; log 38, DESIGN CHOICE). -/
def changeMode (m : Mode) (s : State) : State :=
  let s1 := raise .mode { s with mode.actual := m, cycle.foundingPending := false, cycle.winnerMarkDue := false }
  let s2 := if s.mode.actual = .member then discardNotes s1 else s1
  if m = .off ∨ m = .listen then cutTransmission s2 else s2

/-- Clearing the map (R41): every entry FREE, without notices; the words are written afresh, and a map found wrong while
withdrawing is discarded with them (R47). -/
def clearMap (s : State) : State := { s with alloc.map := .replicate 48 (.fresh .free), alloc.mapFoundWrong := false }

/-- The map cleared (R41) and the queue emptied (R81), without notices. -/
def clearTables (s : State) : State := { clearMap s with alloc.queue := [] }

/-- The phase ADOPT; the rebuild list and the held notices are discarded (R52, R91). -/
def toAdopt (s : State) : State :=
  { s with cycle.phase := .adopt, alloc.rebuildList := [], alloc.heldNotices := [] }

/-- Learning from the beginning with empty tables (R28, R29, R31, R35, R151). -/
def relearn (s : State) : State := clearTables (toAdopt s)

/-- The streams that are not CLOSED closed with an outcome and the outbox emptied (R32, R34, R35, R37). -/
def dropStreams (o : StreamOutcome) (s : State) : State := emptyOutbox (closeOpenLanes o allLanes s)

/-! ## OFF (R22) -/

/-- What every entry into OFF that is not a reset does beside the change of mode (R22, R124). -/
def offEffects (s : State) : State :=
  { clearTables s with
    line.driverEnable := false
    line.framed := false
    line.silenceTimer := none
    line.driverFaultCount := 0
    mode.requested := .off
    mode.target := .none
    mode.withdrawCount := 0
    cycle.phase := .idle
    cycle.resyncAttempts := 0
    alloc.rebuildList := []
    alloc.heldNotices := []
    lanes.txFifo := .replicate 8 []
    lanes.rxFifo := .replicate 8 []
    lanes.lastServed := 7
    port.snap.armed := false }

/-- An entry into OFF that is not a reset (R22). -/
def enterOff (s : State) : State := offEffects (changeMode .off s)

/-! ## LISTEN, JOINING, RESYNC -/

/-- The silence timer starts from 0 when the station leaves OFF (R14). -/
def leaveOff (s : State) : State := { s with line.silenceTimer := some 0, line.framed := false }

/-- LISTEN from OFF by request: phase ADOPT (R36, R37). -/
def listenFromOff (s : State) : State :=
  let s1 := toAdopt (leaveOff (changeMode .listen s))
  { s1 with mode.requested := .listen }

/-- JOINING by request from OFF or LISTEN (R30): the driver is enabled; from OFF the phase becomes ADOPT with empty
tables, from LISTEN LEARNED becomes VERIFY and any other phase stays. -/
def enterJoining (s : State) : State :=
  let s1 :=
    if s.mode.actual = .off then relearn (leaveOff (changeMode .joining s))
    else
      let s0 := changeMode .joining s
      if s.cycle.phase = .learned then { s0 with cycle.phase := .verify } else s0
  { s1 with mode.requested := .member, line.driverEnable := true }

/-- JOINING or RESYNC left by request or lapse, or JOINING by a stamp difference: the outbox is emptied, the streams
become CLOSED(ABANDONED), and the notes are discarded (R25, R37, R38). -/
def abandonStreams (s : State) : State := dropStreams .abandoned (discardNotes s)

/-- LISTEN at once from JOINING or RESYNC, the learning phase carried over (R37, R38). -/
def listenFromLearning (s : State) : State :=
  let s1 := abandonStreams (changeMode .listen s)
  { s1 with mode.requested := .listen }

/-- OFF at once from JOINING or RESYNC: the field in progress is cut first, so that no entry is in its window as the outbox
is emptied (R13, R37, R98). -/
def offFromLearning (s : State) : State := enterOff (abandonStreams (cutTransmission s))

/-- The entry of a MEMBER station into RESYNC (R31), without step (a). -/
def enterResync (s : State) : State :=
  let s1 := relearn (raise .conflict (changeMode .resync s))
  { s1 with cycle.resyncAttempts := 0 }

/-- Line silence in RESYNC: JOINING with the driver enabled and phase ADOPT, the streams CLOSED(FAULT), the outbox
emptied, cause SILENCE (R32). -/
def silenceInResync (s : State) : State :=
  let s1 := dropStreams .fault (toAdopt (changeMode .joining s))
  { s1 with line.driverEnable := true, mode.cause := .silence }

/-! ## Direct fault entry (R35) -/

/-- The mode items of the entry. -/
def faultItems (cause : FaultCause) (s : State) : State :=
  { s with mode.requested := .listen, mode.target := .none, mode.withdrawCount := 0, mode.cause := cause }

/-- The direct fault entry for every cause but MEMORY. In LISTEN the cause is recorded and the mode stays. -/
def faultEntry (cause : FaultCause) (s : State) : State :=
  match s.mode.actual with
  | .off => s
  | .listen => { s with mode.cause := cause }
  | _ =>
    let s1 := faultItems cause (dropStreams .fault (discardNotes (changeMode .listen s)))
    if cause = .resyncFailed ∨ cause = .configMismatch then relearn s1 else s1

/-- A lane whose entry failed: the defaults of Table 6-1 but for state CLOSED and outcome FAULT; the write heals the
word (R152). -/
def rewriteLane (l : LaneNo) (s : State) : State :=
  flushTx l (changeLane l (fun _ => { Lane.default with outcome := .fault }) s)

/-- The rewriting of the listed entries at the entry for MEMORY: each is read, and becomes CLOSED(FAULT) keeping its
other fields, or the defaults where it fails (R152, log 25). -/
def rewriteLanes : List LaneNo → State → State
  | [], s => s
  | l :: ls, s =>
    match checkLane l s with
    | (s1, true) => rewriteLanes ls (closeLane l .fault s1)
    | (s1, false) => rewriteLanes ls (rewriteLane l s1)

/-- What a double error in the STREAMS region does, `failing` naming the lane of a Stream Table entry (R152): in OFF and
LISTEN that lane's entry is rewritten and the cause recorded; in every other mode the direct fault entry with cause
MEMORY, at which every entry is read and written anew. -/
def streamsFailed (failing : Option LaneNo) (s : State) : State :=
  if s.mode.actual = .off ∨ s.mode.actual = .listen then
    let s1 := match failing with
      | some l => rewriteLane l s
      | none => emptyOutbox s
    { s1 with mode.cause := .memory }
  else
    faultItems .memory (emptyOutbox (rewriteLanes allLanes (discardNotes (changeMode .listen s))))

/-- Reads of the STREAMS region that an event needs: the listed lanes' entries, then the outbox where asked; a double
error abandons the event (R152). -/
def readStreams (ls : List LaneNo) (box : Bool) (s : State) : Course :=
  match checkLanes ls s with
  | (s1, some l) => .abandoned (streamsFailed (some l) s1)
  | (s1, none) =>
    if box then
      match checkOutbox s1 with
      | (s2, true) => .on s2
      | (s2, false) => .abandoned (streamsFailed none s2)
    else .on s1

/-! ## MAP and QUEUE errors (R151) -/

/-- What the Mode Controller does after a double error in MAP or QUEUE has abandoned an event. -/
def mapQueueFailed (s : State) : State :=
  match s.mode.actual with
  | .off => s
  | .member => enterResync s
  | .listen => if s.cycle.phase = .learned then relearn s else toAdopt s
  | .withdrawing => if s.cycle.phase = .learned then s else toAdopt s
  | .joining => toAdopt s
  | .resync => toAdopt s

/-- A read of every Slot Map entry, from slot 0; the index is the slot (R156). -/
def readMap (s : State) : Course :=
  let sc := scan 0 s.alloc.map.cells
  let s1 := recordScan .map id sc { s with alloc.map := scanTable s.alloc.map }
  if sc.failed.isSome then .abandoned (mapQueueFailed s1) else .on s1

/-- A read of one Slot Map entry. -/
def readMapEntry (n : Slot) (s : State) : Course :=
  let w := s.alloc.map.get n
  let s1 := recordRead .map n.val w.health { s with alloc.map := s.alloc.map.set n w.afterRead }
  if w.health = .double then .abandoned (mapQueueFailed s1) else .on s1

/-- A read of every Claim Queue entry, from position 1; the index is the position (R156). -/
def readQueue (s : State) : Course :=
  let sc := scan 1 s.alloc.queue
  let s1 := recordScan .queue id sc { s with alloc.queue := sc.words }
  if sc.failed.isSome then .abandoned (mapQueueFailed s1) else .on s1

/-- A read of the head of the Claim Queue. -/
def readQueueHead (s : State) : Course :=
  match s.alloc.queue with
  | [] => .on s
  | w :: ws =>
    let s1 := recordRead .queue 1 w.health { s with alloc.queue := w.afterRead :: ws }
    if w.health = .double then .abandoned (mapQueueFailed s1) else .on s1

/-! ## Withdrawal (R33, R34) -/

/-- A lane asked to close, by CLOSE_STREAM or by the entry into WITHDRAWING (R33, R101, R102). -/
def endLane (l : LaneNo) (s : State) : State :=
  match (laneOfState s l).state with
  | .closed => s
  | .opening =>
    match claimCondition l s with
    | .held => closeLane l .cancelled (removeEntry l s)
    | .inWindow => changeLane l (fun r => { r with state := .cancelling }) s
    | .sent => appendEntry (.withdraw l) (changeLane l (fun r => { r with state := .cancelling }) s)
  | .waiting => appendEntry (.withdraw l) (changeLane l (fun r => { r with state := .cancelling }) s)
  | .held => appendEntry (.release l) (changeLane l (fun r => { r with state := .closing }) s)
  | .cancelling => s
  | .closing => s

/-- The exit from WITHDRAWING to its target: OFF by R22, LISTEN with LEARNED become VERIFY and other phases kept (R34). A map
found wrong while withdrawing is discarded at the entry into OFF; in LISTEN it is held until the next intact mark, which begins
its relearning (R47; log 48, DESIGN CHOICE). -/
def leaveForTarget (s : State) : State :=
  match s.mode.target with
  | .off => enterOff s
  | .listen =>
    let s1 := changeMode .listen s
    if s1.cycle.phase = .learned then { s1 with cycle.phase := .verify } else s1
  | .none => s

/-- The exit condition: every stream CLOSED and the outbox empty (R34). The check makes no read of the entries: it goes by the
lane states held, those of failing words included (log 3, DESIGN CHOICE). -/
def exitReady (s : State) : Bool :=
  s.mode.actual = .withdrawing && allLanes.all (laneClosed s) && s.streams.outbox.isEmpty

/-- The check of the exit condition after a change to the Stream Table or the outbox (R34). -/
def exitCheck (s : State) : State := if exitReady s then leaveForTarget s else s

/-- The end of a withdrawal by its limit or by line silence: the field in progress is cut, so that no entry is in its
window, streams not CLOSED become ABANDONED, the outbox is emptied, and the station leaves for the target (R13, R34,
R98). The entries are written without reading (log 3, DESIGN CHOICE). -/
def endWithdrawal (s : State) : State := leaveForTarget (dropStreams .abandoned (cutTransmission s))

/-- The lanes asked to close in lane order at the entry into WITHDRAWING (R33). -/
def withdrawLanes : List LaneNo → State → Course
  | [], s => .on s
  | l :: ls, s => (readStreams [l] true s).next fun s1 => withdrawLanes ls (endLane l s1)

/-- A RESTART entry not in its window removed (R33). -/
def removeRestart (s : State) : State :=
  match s.streams.outbox with
  | [] => s
  | w :: ws =>
    let rest := ws.filter fun e => e.val ≠ .restart
    { s with streams.outbox := if w.val = .restart && !headInWindow s then rest else w :: rest }

/-- The requested mode that a withdrawal target stands for. -/
def Target.asRequest : Target → Requested
  | .off => .off
  | .listen => .listen
  | .none => .listen

/-- The entry into WITHDRAWING (R33), with the check of the exit condition once at the entry (R34). -/
def enterWithdrawing (t : Target) (s : State) : Course :=
  let s1 := changeMode .withdrawing s
  let s2 := { s1 with mode.target := t, mode.requested := t.asRequest, mode.withdrawCount := 0 }
  (withdrawLanes allLanes s2).finally fun s3 => exitCheck (removeRestart s3)

/-! ## Command lapse (R38, R170) -/

/-- The expiry of the lapse timer: the alert LAPSE, the timer STOPPED, and the mode's action. -/
def lapseExpired (s : State) : State :=
  let s1 := raise .lapse { s with port.lapse := none, port.lapseBits := 0 }
  match s.mode.actual with
  | .member | .resync => (enterWithdrawing .listen { s1 with mode.cause := .lapse }).state
  | .joining => listenFromLearning { s1 with mode.cause := .lapse }
  | .off | .listen | .withdrawing => s1

/-! ## Line silence (R14, R28, R32, R34) -/

/-- The line silence notice: the timer restarts, and the mode gives the response. A founding made pending is one of its own: a
winner's mark that has not come is awaited no longer (log 38, DESIGN CHOICE). -/
def silenceNotice (s : State) : State :=
  let s1 := restartSilence s
  match s.mode.actual with
  | .off => s
  | .joining => if s.line.driverEnable then { s1 with cycle.foundingPending := true, cycle.winnerMarkDue := false } else s1
  | .listen => relearn s1
  | .resync => silenceInResync s1
  | .withdrawing => endWithdrawal s1
  | .member => s1

/-! ## The tick of an empty queue (log 4) -/

/-- One bit time of the message on the line (R4, R8). -/
def tickMessage (s : State) : State :=
  match s.line.onLine with
  | some (.message _ _ _) => { s with line.messageBits := s.line.messageBits + 1 }
  | some (.tag _ _) => s
  | some (.mark _ _) => s
  | some (.answer _) => s
  | none => s

/-- One bit time of the silence timer (R14). -/
def tickSilence (s : State) : State :=
  match s.line.silenceTimer with
  | none => s
  | some n =>
    if Config.silenceLimit ≤ n + 1 then silenceNotice s else { s with line.silenceTimer := some (n + 1) }

/-- One bit time of the lapse timer, which counts units of 10 ms (R169, R170, R176). -/
def tickLapse (s : State) : State :=
  match s.port.lapse with
  | none => s
  | some n =>
    if s.port.lapseBits + 1 < Config.lapseUnit then { s with port.lapseBits := s.port.lapseBits + 1 }
    else if n ≤ 1 then lapseExpired s
    else { s with port.lapse := some (n - 1), port.lapseBits := 0 }

/-- Bit times in which one byte passes on the Command Port: eight periods of SCK at a third of the line rate (log 20). -/
def byteTime : Nat := 24

/-- How many bytes the response frame in progress has: status, length, payload and CRC (R159). -/
def responseLength (p : CommandPort) : Nat :=
  match p.response with
  | none => 0
  | some r => r.payload.length + 4

/-- The frame assembler after one bit time of a chip-select period in which the host goes on clocking (Table 10-1): the
turnaround byte, then the response, then filler. -/
def Assembler.clocked (length : Nat) : Assembler → Assembler
  | .turnaround n => if n + 1 < byteTime then .turnaround (n + 1) else .response 0
  | .response n => if n + 1 < byteTime * length then .response (n + 1) else .trailing
  | .idle => .idle
  | .command => .command
  | .trailing => .trailing

/-- One bit time of the frame assembler (log 20). -/
def tickFrame (s : State) : State :=
  { s with port.assembler := s.port.assembler.clocked (responseLength s.port) }

/-- One bit time with nothing commanded: the bit of a message is sent and read back first, then the silence timer counts, then
the lapse timer, so that a line silence notice comes before an expiry of the same bit time (log 4, DESIGN CHOICE). -/
def tick (s : State) : State := tickFrame (tickLapse (tickSilence (tickMessage s)))

end Sys2Proof.Machine
end

