-- ==== Sys2Proof/Machine/Streams.lean ====
section
/-! DEFINITION. The Stream Controller (Chapter 6): what each notice does to its lane (Table 6-3), what the reports about
the station's own control messages do (R99, R102), and reconciliation (Table 6-4). -/

namespace Sys2Proof.Machine

/-! ## Notices (R103 to R110) -/

/-- The outcome a refusal gives an OPENING lane (R103). -/
def RefusalReason.outcome : RefusalReason → StreamOutcome
  | .already => .refusedAlready
  | .label => .refusedLabel
  | .busy => .refusedBusy
  | .full => .refusedFull
  | .noRoom => .noRoom

/-- A lane made HELD by a grant (R103, R105). -/
def Lane.toHeld (slots : List Slot) (cycle : CycleNo) (r : Lane) : Lane :=
  { r with state := .held, slots := slots, position := none, outcome := .granted, grantCycle := cycle }

/-- GRANTED: OPENING with its CLAIM sent and WAITING become HELD; CANCELLING records the slots (R103, R104, R105). -/
def takeGranted (l : LaneNo) (slots : List Slot) (cycle : CycleNo) (s : State) : State :=
  match (laneOfState s l).state with
  | .opening => if claimCondition l s = .sent then changeLane l (·.toHeld slots cycle) s else s
  | .waiting => changeLane l (·.toHeld slots cycle) s
  | .cancelling =>
    changeLane l (fun r => { r with slots := slots, position := none, outcome := .granted, grantCycle := cycle }) s
  | .held => s
  | .closing => s
  | .closed => s

/-- QUEUED: OPENING with its CLAIM sent becomes WAITING; CANCELLING records the position (R103, R104). -/
def takeQueued (l : LaneNo) (position : Nat) (s : State) : State :=
  match (laneOfState s l).state with
  | .opening =>
    if claimCondition l s = .sent then
      changeLane l (fun r => { r with state := .waiting, slots := [], position := some position, outcome := .queued }) s
    else s
  | .cancelling => changeLane l (fun r => { r with position := some position, outcome := .queued }) s
  | .waiting => s
  | .held => s
  | .closing => s
  | .closed => s

/-- A refusal: OPENING with its CLAIM sent becomes CLOSED with the reason; CANCELLING loses its WITHDRAW and becomes
CLOSED(CANCELLED) (R103, R104). -/
def takeRefused (l : LaneNo) (reason : RefusalReason) (s : State) : State :=
  match (laneOfState s l).state with
  | .opening => if claimCondition l s = .sent then closeLane l reason.outcome s else s
  | .cancelling => closeLane l .cancelled (removeEntry l s)
  | .waiting => s
  | .held => s
  | .closing => s
  | .closed => s

/-- REVOKED (R106). A CANCELLING lane with an empty slot list, which the rule does not name, disregards it (log 42, DESIGN
CHOICE). -/
def takeRevoked (l : LaneNo) (requeuedAt : Option Nat) (s : State) : State :=
  match (laneOfState s l).state, requeuedAt with
  | .held, none => closeLane l .revoked s
  | .held, some p =>
    changeLane l (fun r => { r with state := .waiting, slots := [], position := some p, outcome := .requeued }) s
  | .closing, none => closeLane l .revoked (removeEntry l s)
  | .closing, some p =>
    changeLane l (fun r => { r with state := .cancelling, slots := [], position := some p, outcome := .requeued })
      (appendEntry (.withdraw l) (removeEntry l s))
  | .cancelling, none => if (laneOfState s l).slots = [] then s else closeLane l .revoked (removeEntry l s)
  | .cancelling, some p =>
    if (laneOfState s l).slots = [] then s
    else changeLane l (fun r => { r with slots := [], position := some p, outcome := .requeued }) s
  | .opening, _ => s
  | .waiting, _ => s
  | .closed, _ => s

/-- RECLAIMED (R107). -/
def takeReclaimed (l : LaneNo) (s : State) : State :=
  match (laneOfState s l).state with
  | .held => closeLane l .reclaimed s
  | .closing => closeLane l .reclaimed (removeEntry l s)
  | .cancelling => if (laneOfState s l).slots = [] then s else closeLane l .reclaimed (removeEntry l s)
  | .opening => s
  | .waiting => s
  | .closed => s

/-- EXPIRED and DISPLACED, with the outcome the notice names (R108). -/
def takeRemoved (l : LaneNo) (outcome : StreamOutcome) (s : State) : State :=
  match (laneOfState s l).state with
  | .waiting => closeLane l outcome s
  | .cancelling => if (laneOfState s l).slots = [] then closeLane l outcome (removeEntry l s) else s
  | .opening => s
  | .held => s
  | .closing => s
  | .closed => s

/-- RELEASED: CLOSING becomes CLOSED(RELEASED) (R109). -/
def takeReleased (l : LaneNo) (s : State) : State :=
  if (laneOfState s l).state = .closing then closeLane l .released s else s

/-- CANCELLED: CANCELLING becomes CLOSED(CANCELLED) (R109). -/
def takeCancelled (l : LaneNo) (s : State) : State :=
  if (laneOfState s l).state = .cancelling then closeLane l .cancelled s else s

/-- RESTART: every lane not CLOSED becomes CLOSED(RESTART), and the outbox entries not in their window go (R110). -/
def takeRestart (s : State) : State :=
  let s1 := closeOpenLanes .restart allLanes s
  { s1 with streams.outbox := if headInWindow s1 then s1.streams.outbox.take 1 else [] }

/-- The effect of a notice (Table 6-3). -/
def takeNotice (n : Notice) (s : State) : State :=
  match n with
  | .granted l slots cycle => takeGranted l slots cycle s
  | .queued l p => takeQueued l p s
  | .refused l r => takeRefused l r s
  | .revoked l p => takeRevoked l p s
  | .displaced l => takeRemoved l .displaced s
  | .released l => takeReleased l s
  | .cancelled l => takeCancelled l s
  | .reclaimed l => takeReclaimed l s
  | .expired l => takeRemoved l .expired s
  | .restart => takeRestart s

/-- The lanes whose entries a notice reads. -/
def Notice.lanes : Notice → List LaneNo
  | .granted l _ _ => [l]
  | .queued l _ => [l]
  | .refused l _ => [l]
  | .revoked l _ => [l]
  | .displaced l => [l]
  | .released l => [l]
  | .cancelled l => [l]
  | .reclaimed l => [l]
  | .expired l => [l]
  | .restart => allLanes

/-- A notice reaches the Stream Controller: it reads the lane and the outbox, where a double error leaves the notice
without further effect and the Allocation Unit's event goes on (R152, log 11); then it takes effect, and in WITHDRAWING
the exit condition is checked (R34). -/
def deliver (n : Notice) (s : State) : State :=
  exitCheck ((readStreams n.lanes true s).finally (takeNotice n)).state

/-! ## The station's own control messages (R99, R102) -/

/-- Completion of the outbox head with readback good: it is removed; for a CLAIM closed in its window a WITHDRAW is
appended; a WITHDRAW after a mismatched CLAIM closes its lane (R99, R102). -/
def controlGood (b : Body) (s : State) : State :=
  let s1 := removeHead s
  match b with
  | .claim l _ _ _ _ _ =>
    if (laneOfState s1 l).state = .cancelling then appendEntry (.withdraw l) s1 else s1
  | .withdraw l =>
    if (laneOfState s1 l).state = .cancelling && (laneOfState s1 l).closeOnWithdraw then closeLane l .cancelled s1
    else s1
  | .release _ => s1
  | .restart => s1
  | .note _ => s1
  | .noKind => s1

/-- The lane a control message names. -/
def lanesOfBody : Body → List LaneNo
  | .claim l _ _ _ _ _ => [l]
  | .release l => [l]
  | .withdraw l => [l]
  | .restart => []
  | .note _ => []
  | .noKind => []

/-- A report about the message in its window taken by the Stream Controller: the message has left its window, the lane
and the outbox are read, and in WITHDRAWING the exit condition is checked (R34). R152's list of reading events does not name
such a report: that it reads the lane and every entry whatever it goes on to change, a lost RELEASE that changes nothing
included, and that a double error there makes the fault entry, is the model's choice (log 3, DESIGN CHOICE). -/
def controlReport (effect : Body → State → State) (b : Body) (s : State) : State :=
  exitCheck ((readStreams (lanesOfBody b) true { s with line.onLine := none }).finally (effect b)).state

/-! ## Positions (R111) -/

/-- A reported position recorded for a lane WAITING, or CANCELLING with an empty slot list. -/
def recordPosition (l : LaneNo) (p : Nat) (s : State) : State :=
  let r := laneOfState s l
  if r.state = .waiting || (r.state = .cancelling && r.slots.isEmpty) then
    updateLane l (fun r => { r with position := some p }) s
  else s

/-! ## Reconciliation of one lane (R116, Table 6-4) -/

/-- What the shared tables hold under the lane's identity. -/
inductive Found where
  | stream (slots : List Slot) (label : Label) (count : Nat) (cls : SlotClass) (ret : Bool)
  | entry (position : Nat) (label : Label) (count : Nat) (cls : SlotClass) (ret : Bool)
  | nothing
  deriving DecidableEq, Repr

/-- A message appended for a lane unless the outbox holds one for it (R98). -/
def appendIfNone (e : OutboxEntry) (l : LaneNo) (s : State) : State := if laneHasEntry l s then s else appendEntry e s

/-- The lane's label, count, class and return flag take the values found (R116). -/
def Lane.withFound (label : Label) (count : Nat) (cls : SlotClass) (ret : Bool) (r : Lane) : Lane :=
  { r with label := label, count := count, cls := cls, ret := ret }

/-- A lane made HELD by reconciliation: GRANTED, with the station's cycle number as grant cycle number (R116). -/
def reconcileHeld (l : LaneNo) (slots : List Slot) (label : Label) (count : Nat) (cls : SlotClass) (ret : Bool)
    (s : State) : State :=
  changeLane l (fun r => (r.toHeld slots s.cycle.cycleNumber).withFound label count cls ret) s

/-- A lane made WAITING by reconciliation with an outcome (R116). -/
def reconcileWaiting (l : LaneNo) (o : StreamOutcome) (p : Nat) (label : Label) (count : Nat) (cls : SlotClass)
    (ret : Bool) (s : State) : State :=
  changeLane l (fun r => { r.withFound label count cls ret with
    state := .waiting, slots := [], position := some p, outcome := o }) s

/-- A change that reconciliation makes to a lane's slot list, position or identity values: where it changes anything it
counts as a change of state or outcome (R97, R117, log 34). -/
def settleLane (l : LaneNo) (f : Lane → Lane) (s : State) : State :=
  if f (laneOfState s l) = laneOfState s l then s else changeLane l f s

/-- Table 6-4 for one lane. A CLOSING lane found in the queue takes the position and loses its slots (log 26). -/
def reconcileWith (l : LaneNo) (f : Found) (s : State) : State :=
  match (laneOfState s l).state, f with
  | .closed, .nothing => s
  | .closed, .stream .. => appendIfNone (.withdraw l) l s
  | .closed, .entry .. => appendIfNone (.withdraw l) l s
  | .opening, .nothing => if claimCondition l s = .sent then closeLane l .lost s else s
  | .opening, .stream slots label count cls ret =>
    if claimCondition l s = .sent then reconcileHeld l slots label count cls ret s
    else closeLane l .lost (appendEntry (.withdraw l) (removeEntry l s))
  | .opening, .entry p label count cls ret =>
    if claimCondition l s = .sent then reconcileWaiting l .queued p label count cls ret s
    else closeLane l .lost (appendEntry (.withdraw l) (removeEntry l s))
  | .waiting, .nothing => closeLane l .lost s
  | .waiting, .stream slots label count cls ret => reconcileHeld l slots label count cls ret s
  | .waiting, .entry .. => s
  | .held, .nothing => closeLane l .lost s
  | .held, .stream slots label count cls ret =>
    settleLane l (fun r => { r.withFound label count cls ret with slots := slots }) s
  | .held, .entry p label count cls ret => reconcileWaiting l .requeued p label count cls ret s
  | .closing, .nothing => closeLane l .lost (removeEntry l s)
  | .closing, .stream .. => appendIfNone (.release l) l s
  | .closing, .entry p .. =>
    changeLane l (fun r => { r with state := .cancelling, slots := [], position := some p, outcome := .requeued })
      (appendEntry (.withdraw l) (removeEntry l s))
  | .cancelling, .nothing => closeLane l .lost (removeEntry l s)
  | .cancelling, .stream slots .. =>
    appendIfNone (.withdraw l) l (settleLane l (fun r => { r with slots := slots, position := none }) s)
  | .cancelling, .entry p .. =>
    appendIfNone (.withdraw l) l (settleLane l (fun r => { r with slots := [], position := some p }) s)

end Sys2Proof.Machine
end

