-- ==== Sys2Proof/Machine/Alloc.lean ====
section
/-! DEFINITION. The Allocation Unit (Chapters 3, 4 and 5): the Slot Map's queries and operations, the grant rule,
pre-emption, queue service, the control messages, ageing, silence counting, the rebuild and the purge. -/

namespace Sys2Proof.Machine

/-! ## What the map answers (R42) -/

/-- The slots in increasing order. -/
def allSlots : List Slot := List.finRange 48

/-- The entry of a slot. -/
def entryAt (s : State) (n : Slot) : SlotEntry := (s.alloc.map.get n).val

/-- The fields of a HELD entry. -/
def SlotEntry.fields : SlotEntry → Option HeldEntry
  | .free => none
  | .held h => some h

/-- The FREE slots in increasing order; the free count F is its length. -/
def freeSlots (s : State) : List Slot := allSlots.filter fun n => entryAt s n = .free

/-- Whether an entry belongs to the stream of an identity. -/
def SlotEntry.ofStream (st : Station) (l : LaneNo) : SlotEntry → Bool
  | .free => false
  | .held h => h.holder = st && h.lane = l

/-- The slots of the stream of an identity, in increasing order; none hold it when the list is empty. -/
def streamSlots (st : Station) (l : LaneNo) (s : State) : List Slot := allSlots.filter fun n => (entryAt s n).ofStream st l

/-- The HELD entries in slot order. -/
def heldEntries (s : State) : List HeldEntry := allSlots.filterMap fun n => (entryAt s n).fields

/-- The identity of the stream that carries a label: none where no HELD entry carries it. -/
def labelStream (label : Label) (s : State) : Option (Station × LaneNo) :=
  ((heldEntries s).find? fun h => h.label = label).map fun h => (h.holder, h.lane)

/-- Whether a HELD entry carries a label. -/
def labelHeld (label : Label) (s : State) : Bool := (labelStream label s).isSome

/-- The number of HELD entries of class NORMAL. -/
def normalTotal (s : State) : Nat := ((heldEntries s).filter fun h => h.cls = .normal).length

/-- The pre-emption victim: the stream of the highest-numbered HELD entry of class NORMAL. -/
def victim (s : State) : Option HeldEntry := ((heldEntries s).filter fun h => h.cls = .normal).getLast?

/-! ## Operations on the map (R41) -/

/-- Entering a stream in a list of FREE slots in increasing order: the j-th slot takes part j - 1. -/
def enterStream (st : Station) (l : LaneNo) (label : Label) (cls : SlotClass) (ret : Bool) (count : Nat)
    (slots : List Slot) (s : State) : State :=
  { s with alloc.map := s.alloc.map.mapIdx fun n w =>
      match slots.findIdx? (· = n) with
      | none => w
      | some j => .fresh (.held { holder := st, lane := l, label := label, cls := cls, ret := ret, part := j,
                                  count := count, silence := 0, lastUse := .none, mark := .none }) }

/-- Freeing a stream: every entry of it becomes FREE at once. -/
def freeStream (st : Station) (l : LaneNo) (s : State) : State :=
  { s with alloc.map := s.alloc.map.map fun w => if w.val.ofStream st l then .fresh .free else w }

/-! ## The queue (R78 to R82) -/

/-- Whether an identity is an entry of the queue. -/
def queuedAt (st : Station) (l : LaneNo) (s : State) : Option Nat :=
  s.alloc.queue.findIdx? fun w => w.val.station = st && w.val.lane = l

/-- Whether a queue entry carries a label. -/
def labelQueued (label : Label) (s : State) : Bool := s.alloc.queue.any fun w => w.val.label = label

/-- Removing an entry (R81). -/
def removeQueued (i : Nat) (s : State) : State := { s with alloc.queue := s.alloc.queue.eraseIdx i }

/-- Placing an entry: it is inserted with `i` entries ahead of it (R81); in OFF nothing is placed (log 32). -/
def insertQueued (i : Nat) (e : QueueEntry) (s : State) : State :=
  if s.mode.actual = .off then s else { s with alloc.queue := s.alloc.queue.insertIdx i (.fresh e) }

/-- The number of entries up to and with the last URGENT one (R66). -/
def urgentAhead (s : State) : Nat := (s.alloc.queue.reverse.dropWhile fun w => w.val.cls = .normal).length

/-! ## Notices to the Stream Controller (R57) -/

/-- A notice sent, or held by the purge until the verify (R91). -/
def send (hold : Bool) (n : Notice) (s : State) : State :=
  if hold then { s with alloc.heldNotices := s.alloc.heldNotices ++ [.fresh n] } else deliver n s

/-- A notice about a stream or claim of a station: sent only when it is this one (R57). -/
def tell (st : Station) (hold : Bool) (n : Notice) (s : State) : State := if st = own s then send hold n s else s

/-! ## Grant, revocation, pre-emption (R63 to R65) -/

/-- A grant of the k lowest free slots (R63). In OFF the tables are unused (Table 2-1, R78), so an event during which
a withdrawal has ended in OFF grants nothing more (log 32). -/
def grant (hold : Bool) (st : Station) (l : LaneNo) (label : Label) (cls : SlotClass) (ret : Bool) (k : Nat)
    (s : State) : State :=
  if s.mode.actual = .off then s
  else
    let slots := (freeSlots s).take k
    tell st hold (.granted l slots s.cycle.cycleNumber) (enterStream st l label cls ret k slots s)

/-- A victim revoked: freed, requeued at the tail when its return flag is set and the queue holds fewer than 16, and
its holder told (R65). -/
def revoke (hold : Bool) (h : HeldEntry) (s : State) : State :=
  let s1 := freeStream h.holder h.lane s
  if h.ret && s1.alloc.queue.length < Config.queueRoom then
    let e : QueueEntry := { station := h.holder, lane := h.lane, label := h.label, count := h.count, cls := .normal,
                            ret := true, age := 0 }
    let s2 := { s1 with alloc.queue := s1.alloc.queue ++ [.fresh e] }
    tell h.holder hold (.revoked h.lane (some s2.alloc.queue.length)) s2
  else tell h.holder hold (.revoked h.lane none) s1

/-- Victims revoked one at a time until k slots are free (R64); each frees at least one slot, so 48 suffice. -/
def preempt : Nat → Bool → Nat → State → State
  | 0, _, _, s => s
  | fuel + 1, hold, k, s =>
    if k ≤ (freeSlots s).length then s
    else match victim s with
      | none => s
      | some h => preempt fuel hold k (revoke hold h s)

/-- Whether pre-emption can make room (R64). -/
def preemptable (cls : SlotClass) (k : Nat) (s : State) : Bool :=
  cls = .urgent && k ≤ (freeSlots s).length + normalTotal s

/-! ## Queue service (R72 to R74) -/

/-- Queue service: the head is tried, and again, until it cannot be granted or the queue is empty. Each trial that goes
on takes one entry out, and revocations add at most 48, so `fuel` bounds the trials (log 30). -/
def serviceLoop : Nat → Bool → State → Course
  | 0, _, s => .on s
  | fuel + 1, hold, s =>
    (readQueueHead s).next fun s1 =>
      match s1.alloc.queue with
      | [] => .on s1
      | w :: ws =>
        (readMap s1).next fun s2 =>
          let e := w.val
          let s3 := { s2 with alloc.queue := ws }
          if e.count ≤ (freeSlots s2).length then
            serviceLoop fuel hold (grant hold e.station e.lane e.label e.cls e.ret e.count s3)
          else if preemptable e.cls e.count s2 then
            serviceLoop fuel hold
              (grant hold e.station e.lane e.label e.cls e.ret e.count (preempt 48 hold e.count s3))
          else .on s2

/-- Queue service run once (R73). -/
def service (hold : Bool) (s : State) : Course := serviceLoop (s.alloc.queue.length + 49) hold s

/-! ## Control messages (R55 to R76) -/

/-- Step 6 of the grant rule: placing in the queue, with displacement, or REFUSED_FULL (R66, R67). -/
def placeClaim (e : QueueEntry) (s : State) : State :=
  if s.alloc.queue.length < Config.queueRoom then
    let i := if e.cls = .urgent then urgentAhead s else s.alloc.queue.length
    tell e.station false (.queued e.lane (i + 1)) (insertQueued i e s)
  else
    match e.cls, s.alloc.queue.getLast? with
    | .urgent, some last =>
      if last.val.cls = .normal then
        let s1 := tell last.val.station false (.displaced last.val.lane) { s with alloc.queue := s.alloc.queue.dropLast }
        let i := urgentAhead s1
        tell e.station false (.queued e.lane (i + 1)) (insertQueued i e s1)
      else tell e.station false (.refused e.lane .full) s
    | .urgent, none => tell e.station false (.refused e.lane .full) s
    | .normal, _ => tell e.station false (.refused e.lane .full) s

/-- Whether the queue holds an entry that would stand ahead of a claim of this class (R62). -/
def cannotOvertake (cls : SlotClass) (s : State) : Bool :=
  match cls with
  | .normal => !s.alloc.queue.isEmpty
  | .urgent => s.alloc.queue.any fun w => w.val.cls = .urgent

/-- The grant rule of Table 4-2 for a valid CLAIM, on tables already read (R59 to R68). -/
def grantRule (e : QueueEntry) (wait : Bool) (s : State) : State :=
  let refuse (r : RefusalReason) : State := tell e.station false (.refused e.lane r) s
  if !(streamSlots e.station e.lane s).isEmpty || (queuedAt e.station e.lane s).isSome then refuse .already
  else if labelHeld e.label s || labelQueued e.label s then refuse .label
  else if cannotOvertake e.cls s then (if wait then placeClaim e s else refuse .busy)
  else if e.count ≤ (freeSlots s).length then grant false e.station e.lane e.label e.cls e.ret e.count s
  else if preemptable e.cls e.count s then
    grant false e.station e.lane e.label e.cls e.ret e.count (preempt 48 false e.count s)
  else if wait then placeClaim e s
  else refuse .noRoom

/-- A CLAIM (R58, R59); a count of 0 or above 8 is ignored. -/
def applyClaim (st : Station) (l : LaneNo) (label : Label) (count : Nat) (cls : SlotClass) (wait ret : Bool)
    (s : State) : Course :=
  if count = 0 ∨ 8 < count then .on s
  else
    ((readMap s).next readQueue).finally
      (grantRule { station := st, lane := l, label := label, count := count, cls := cls, ret := ret, age := 0 } wait)

/-- A RELEASE (R70). -/
def applyRelease (st : Station) (l : LaneNo) (s : State) : Course :=
  (readMap s).next fun s1 =>
    if (streamSlots st l s1).isEmpty then .on s1
    else service false (tell st false (.released l) (freeStream st l s1))

/-- A WITHDRAW (R71). -/
def applyWithdraw (st : Station) (l : LaneNo) (s : State) : Course :=
  (readQueue s).next fun s1 =>
    match queuedAt st l s1 with
    | some i => service false (tell st false (.cancelled l) (removeQueued i s1))
    | none =>
      (readMap s1).next fun s2 =>
        if (streamSlots st l s2).isEmpty then .on s2
        else service false (tell st false (.cancelled l) (freeStream st l s2))

/-- A RESTART (R75): both tables cleared, REBUILD back to ADOPT, the alert RESTART, one RESTART notice. -/
def applyRestart (s : State) : State :=
  let s1 := clearTables s
  let s2 := if s.cycle.phase = .rebuild then toAdopt s1 else s1
  deliver .restart (raise .restart s2)

/-- A received control message, applied where the learning phase allows it (R24, R55). -/
def applyMessage (sender : Station) (b : Body) (s : State) : Course :=
  let applies := s.cycle.phase = .verify || s.cycle.phase = .learned
  match b with
  | .claim l label count cls wait ret =>
    if applies then applyClaim sender l label count.val cls wait ret s else .on s
  | .release l => if applies then applyRelease sender l s else .on s
  | .withdraw l => if applies then applyWithdraw sender l s else .on s
  | .restart => if s.cycle.phase = .idle then .on s else .on (applyRestart s)
  | .note _ => .on s
  | .noKind => .on s

/-! ## Ageing (R83, R84) -/

/-- Whether an entry has reached the configured patience. -/
def reachedPatience (s : State) (e : QueueEntry) : Bool := s.port.config.patience.toNat ≤ e.age

/-- Entries that have reached the patience removed in queue order, each own one notified (R84). -/
def expireEntries : Nat → State → State
  | 0, s => s
  | fuel + 1, s =>
    match s.alloc.queue.findIdx? fun w => reachedPatience s w.val with
    | none => s
    | some i =>
      match s.alloc.queue[i]? with
      | none => s
      | some w => expireEntries fuel (tell w.val.station false (.expired w.val.lane) (removeQueued i s))

/-- Expiry, and queue service where entries were removed at a tick other than the adoption's (R84). -/
def expire (withService : Bool) (s : State) : Course :=
  if s.alloc.queue.any fun w => reachedPatience s w.val then
    let s1 := expireEntries s.alloc.queue.length s
    if withService then service false s1 else .on s1
  else .on s

/-- An entry one tick older, written anew. -/
def older (w : Stored QueueEntry) : Stored QueueEntry := .fresh { w.val with age := w.val.age + 1 }

/-- An age tick (R84). On a double error the increases already made stand and the rest is abandoned (R95). -/
def ageAll (withService : Bool) (s : State) : Course :=
  let sc := scan 1 s.alloc.queue
  let aged := match sc.failed with
    | none => sc.words.length
    | some p => p - 1
  let s1 := recordScan .queue id sc
    { s with alloc.queue := (sc.words.take aged).map older ++ sc.words.drop aged }
  if sc.failed.isSome then .abandoned (mapQueueFailed s1) else expire withService s1

/-- The cycle number held is a multiple of 1024 (R83). -/
def tickFalls (s : State) : Bool := s.cycle.cycleNumber.toNat % Config.tickPeriod = 0

/-- The tick of a mark, when it falls (R83). -/
def markTick (withService : Bool) (s : State) : Course :=
  if tickFalls s then ageAll withService { s with cycle.tickDone := true } else .on s

/-! ## Position report (R93) -/

/-- The positions of the own entries recorded in queue order, from position `p`. -/
def recordPositions : Nat → List QueueEntry → State → Course
  | _, [], s => .on s
  | p, e :: es, s =>
    if e.station = own s then
      (readStreams [e.lane] false s).next fun s1 => recordPositions (p + 1) es (recordPosition e.lane p s1)
    else recordPositions (p + 1) es s

/-- The position report (R93, R111). -/
def positionReport (s : State) : Course :=
  (readQueue s).next fun s1 => recordPositions 1 (s1.alloc.queue.map (·.val)) s1

/-! ## Reconciliation (R116) -/

/-- What the shared tables hold under (this station, lane). -/
def find (l : LaneNo) (s : State) : Found :=
  match (heldEntries s).find? (fun h => h.holder = own s && h.lane = l) with
  | some h => .stream (streamSlots (own s) l s) h.label h.count h.cls h.ret
  | none =>
    match queuedAt (own s) l s with
    | none => .nothing
    | some i =>
      match s.alloc.queue[i]? with
      | none => .nothing
      | some w => .entry (i + 1) w.val.label w.val.count w.val.cls w.val.ret

/-- Reconciliation of the listed lanes in order. -/
def reconcileLanes : List LaneNo → State → Course
  | [], s => .on s
  | l :: ls, s =>
    (((readMap s).next readQueue).next (readStreams [l] true)).next fun s1 =>
      reconcileLanes ls (reconcileWith l (find l s1) s1)

/-- Reconciliation, with the check of the exit condition after it (R116, R117). -/
def reconcile (s : State) : Course := (reconcileLanes allLanes s).finally exitCheck

/-! ## Silence counting and reclaim (R43, R49, R50) -/

/-- Whether an entry of the same stream carries a field mark. -/
def streamMarked (m : FieldMark) (h : HeldEntry) (s : State) : Bool :=
  (heldEntries s).any fun g => g.holder = h.holder && g.lane = h.lane && g.mark = m

/-- The stream's new silence count: heard 0, damaged unchanged, silent one more (R49). -/
def newSilence (h : HeldEntry) (s : State) : Nat :=
  if streamMarked .heard h s then 0 else if streamMarked .damaged h s then h.silence else h.silence + 1

/-- A word of the map rewritten, with fresh check bits, where a change of a HELD entry's fields changes it; a word that
it leaves as it is is not written (R148). -/
def Stored.changeHeld (f : HeldEntry → HeldEntry) (w : Stored SlotEntry) : Stored SlotEntry :=
  match w.val with
  | .free => w
  | .held h => if f h = h then w else .fresh (.held (f h))

/-- The silence counts of every HELD stream updated (R49). -/
def countSilence (s : State) : State :=
  { s with alloc.map := s.alloc.map.map (·.changeHeld fun h => { h with silence := newSilence h s }) }

/-- Every field mark NONE, and a WITHDRAWING station's conflict of the field forgotten (R43, R47). At a close that counts
nothing the words whose mark changes are written without reading (log 37, DESIGN CHOICE). -/
def clearMarks (s : State) : State :=
  { s with alloc.map := s.alloc.map.map (·.changeHeld fun h => { h with mark := .none })
           alloc.fieldConflict := false }

/-- The first stream, in stream order, whose silence count has reached the reclaim count. -/
def reclaimable (s : State) : Option HeldEntry :=
  (heldEntries s).find? fun h => s.port.config.reclaim.toNat ≤ h.silence

/-- Streams that have reached the reclaim count freed in stream order, each own one notified (R50). -/
def reclaimStreams : Nat → State → State
  | 0, s => s
  | fuel + 1, s =>
    match reclaimable s with
    | none => s
    | some h => reclaimStreams fuel (tell h.holder false (.reclaimed h.lane) (freeStream h.holder h.lane s))

/-- Silence reclaim with its queue service (R50). -/
def reclaim (s : State) : Course :=
  if (reclaimable s).isSome then service false (reclaimStreams 48 s) else .on s

/-- The close of the slot field at a learned station (R49, R50). -/
def closeLearned (s : State) : Course :=
  (readMap s).next fun s1 => reclaim (clearMarks (countSilence s1))

/-! ## Rebuild and purge (R52, R53, R91) -/

/-- Two tags of one identity. -/
def RebuildTag.same (a b : RebuildTag) : Bool := a.holder = b.holder && a.lane = b.lane

/-- Whether the candidate stream of a tag is consistent (R53): its tags agree, they are as many as the count, each part
is the number of the candidate's tags in lower slots, and no other candidate's tag carries the label. -/
def consistent (tags : List RebuildTag) (t : RebuildTag) : Bool :=
  let group := tags.filter t.same
  group.all (fun g => g.label = t.label && g.cls = t.cls && g.ret = t.ret && g.count = t.count &&
    g.part = (group.filter fun h => h.slot < g.slot).length) &&
  group.length = t.count &&
  tags.all fun g => t.same g || g.label ≠ t.label

/-- The entry a slot takes at the rebuild: that of its tag, if its candidate is consistent. -/
def rebuiltEntry (tags : List RebuildTag) (n : Slot) : SlotEntry :=
  match tags.find? (fun t => t.slot = n) with
  | none => .free
  | some t =>
    if consistent tags t then
      .held { holder := t.holder, lane := t.lane, label := t.label, cls := t.cls, ret := t.ret, part := t.part,
              count := t.count, silence := 0, lastUse := .none, mark := .none }
    else .free

/-- A read of every tag of the rebuild list; the index is 48 (R156). -/
def readRebuildList (s : State) : Course :=
  let sc := scan 0 s.alloc.rebuildList
  let s1 := recordScan .map (fun _ => 48) sc { s with alloc.rebuildList := sc.words }
  if sc.failed.isSome then .abandoned (mapQueueFailed s1) else .on s1

/-- The map cleared and the consistent candidates entered (R53). -/
def rebuildMap (s : State) : Course :=
  (readRebuildList (clearMap s)).finally fun s1 =>
    { s1 with alloc.map := s1.alloc.map.mapIdx fun n _ => .fresh (rebuiltEntry (s1.alloc.rebuildList.map (·.val)) n) }

/-- Whether the rebuilt map shows an entry's identity or label as held (R91). -/
def purged (s : State) (e : QueueEntry) : Bool := !(streamSlots e.station e.lane s).isEmpty || labelHeld e.label s

/-- The position at which the purge reads the entry that stood at place `p` before it: the entries removed ahead of it have
left the queue by then (R78, R81, R91). -/
def purgePosition (s : State) (words : List (Stored QueueEntry)) (p : Nat) : Nat :=
  ((words.take (p - 1)).filter fun w => !purged s w.val).length + 1

/-- The purge: entries the rebuilt map shows are removed in queue order; on a double error the removals made stand; and
where at least one was removed queue service runs with its notices held (R91, R95, R156). -/
def purge (s : State) : Course :=
  let sc := scan 1 s.alloc.queue
  let reached := match sc.failed with
    | none => sc.words.length
    | some p => p - 1
  let kept := (sc.words.take reached).filter fun w => !purged s w.val
  let s1 := recordScan .queue (purgePosition s sc.words) sc { s with alloc.queue := kept ++ sc.words.drop reached }
  if sc.failed.isSome then .abandoned (mapQueueFailed s1)
  else if kept.length < reached then service true s1 else .on s1

/-- The close of the slot field in phase REBUILD (R26, R53, R91). -/
def closeRebuild (s : State) : Course :=
  ((rebuildMap s).next purge).finally fun s1 =>
    { s1 with cycle.phase := .verify, alloc.rebuildList := [] }

end Sys2Proof.Machine
end

