-- ==== Sys2Proof/Machine/Learning.lean ====
section
/-! DEFINITION. The Cycle Engine's learning steps (2.4), the checks of a mark at a learned station (2.5), the snapshot
capture (R167) and the composition of a mark (R86). -/

namespace Sys2Proof.Machine

/-! ## A mark against the station -/

/-- Whether the configuration stamp equals the station's configuration (R25). -/
def stampAgrees (m : MarkContents) (s : State) : Bool :=
  m.patience = s.port.config.patience && m.reclaim = s.port.config.reclaim

/-- Whether a summary is lawful (R88). -/
def lawful (m : MarkContents) : Bool :=
  m.summary.all (fun e => 1 ≤ e.count.val && e.count.val ≤ 8 && e.age.val < m.patience.toNat) &&
  (m.summary.dropWhile fun e => e.cls = .urgent).all (fun e => e.cls = .normal) &&
  decide (m.summary.map fun e => (e.station, e.lane)).Nodup && decide (m.summary.map fun e => e.label).Nodup

/-- Whether a summary equals the Claim Queue in all seven fields of every entry (R87); an unlawful one is unequal to
every queue (R88). -/
def summaryAgrees (m : MarkContents) (s : State) : Bool :=
  lawful m && m.summary.map entryOfSummary = s.alloc.queue.map (·.val)

/-- Whether a mark follows the station's cycle number (R27, R29). -/
def followsCycle (m : MarkContents) (s : State) : Bool := m.cycle = s.cycle.cycleNumber + 1

/-- Whether a mark is the founder's own founding mark, which is in sequence though the station holds its number (R29). -/
def isOwnFounding (m : MarkContents) (s : State) : Bool :=
  s.cycle.foundingMarkDue && m.cycle = 0 && s.cycle.cycleNumber = 0 && m.marker = own s

/-- The cycle number and the marker station set to those of the mark. -/
def takeMark (m : MarkContents) (s : State) : State :=
  { s with cycle.cycleNumber := m.cycle, cycle.marker := m.marker }

/-- A stamp difference found: the alert and the cause (R25, R29). -/
def noteMismatch (s : State) : State := { raise .configMismatch s with mode.cause := .configMismatch }

/-- An event goes on only while the station is not in OFF, which it may have reached by the end of a withdrawal. -/
def Course.alive (c : Course) : Course :=
  c.next fun s => if s.mode.actual = .off then .abandoned s else .on s

/-! ## Step (a): adopt (R25, R89) -/

/-- A failed attempt counted in RESYNC, with the fault entry at the limit (R28). -/
def countAttempt (s : State) : State :=
  if s.mode.actual = .resync then
    let s1 := { s with cycle.resyncAttempts := s.cycle.resyncAttempts + 1 }
    if Config.resyncLimit ≤ s1.cycle.resyncAttempts then faultEntry .resyncFailed s1 else s1
  else s

/-- A stamp difference at step (a) (R25). The STREAMS words that it closes in JOINING are written without reading (log 3,
DESIGN CHOICE). -/
def adoptMismatch (s : State) : State :=
  match s.mode.actual with
  | .joining => listenFromLearning (noteMismatch s)
  | .resync => faultEntry .configMismatch (noteMismatch s)
  | .listen => noteMismatch s
  | .withdrawing => noteMismatch s
  | .member => noteMismatch s
  | .off => s

/-- The queue replaced by the summary, ages carried (R81, R89). -/
def replaceQueue (m : MarkContents) (s : State) : State :=
  { s with alloc.queue := m.summary.map fun e => .fresh (entryOfSummary e) }

/-- Step (a) applied to an intact mark: with an equal stamp and a lawful summary the queue is adopted, the mark's tick
is applied without queue service, and the phase becomes REBUILD with an empty list (R25, R52, R89). A summary that is
not lawful is handled as a damaged mark in ADOPT, counted where `counts` says that this mark is to be counted (R28,
R88, log 13). -/
def adopt (counts : Bool) (m : MarkContents) (s : State) : Course :=
  if stampAgrees m s then
    if lawful m then
      ((markTick false (raise .queueAdopted (replaceQueue m (takeMark m s)))).alive).finally fun s1 =>
        { s1 with cycle.phase := .rebuild, alloc.rebuildList := [] }
    else .on (if counts then countAttempt s else s)
  else .on (adoptMismatch s)

/-! ## Step (c): verify (R27) -/

/-- A read of the notices held by the purge; the index is 0 (R156). -/
def readHeld (s : State) : Course :=
  let sc := scan 0 s.alloc.heldNotices
  let s1 := recordScan .queue (fun _ => 0) sc { s with alloc.heldNotices := sc.words }
  if sc.failed.isSome then .abandoned (mapQueueFailed s1) else .on s1

/-- Notices delivered in order. -/
def deliverAll : List Notice → State → State
  | [], s => s
  | n :: ns, s => deliverAll ns (deliver n s)

/-- The held notices sent at a verify pass (R91): all are read before the first is sent, so that a double error in a later one
leaves the earlier ones unsent too (log 3, DESIGN CHOICE). -/
def releaseHeld (s : State) : Course :=
  (readHeld s).finally fun s1 =>
    deliverAll (s1.alloc.heldNotices.map (·.val)) { s1 with alloc.heldNotices := [] }

/-- The phase LEARNED with the change of mode at a verify pass (R27). -/
def becomeLearned (s : State) : State :=
  let s1 := { s with cycle.phase := .learned }
  if s.mode.actual = .joining ∨ s.mode.actual = .resync then changeMode .member s1 else s1

/-- Reconciliation at a verify pass, in every mode but LISTEN (R27, R116). -/
def reconcileVerified (s : State) : Course :=
  if s.mode.actual = .member ∨ s.mode.actual = .withdrawing then reconcile s else .on s

/-- A verify pass: the mark taken, the held notices sent, the tick, the phase LEARNED with its mode, the position report,
and reconciliation (R27, R91, R93, R116). The report and reconciliation are events of their own, so that a report that a
double error abandons drops reconciliation only by the mode it leaves (R151). -/
def verifyPass (m : MarkContents) (s : State) : Course :=
  (((releaseHeld (takeMark m s)).alive.next (markTick true)).alive.finally becomeLearned).next fun s1 =>
    reconcileVerified (positionReport s1).state

/-- Whether the map is one found wrong in a withdrawal that the station has left: its next intact mark begins its relearning
(R47; log 48, DESIGN CHOICE). -/
def mapDistrusted (s : State) : Bool :=
  s.alloc.mapFoundWrong && (s.mode.actual = .listen || s.mode.actual = .joining)

/-- The verify of an intact mark: the queue is read and compared (R87); a failure counts in RESYNC and step (a) is
applied to this same mark (R27, R28). A map found wrong while withdrawing fails it (R47; log 48, DESIGN CHOICE). -/
def verify (m : MarkContents) (s : State) : Course :=
  (readQueue s).next fun s1 =>
    if stampAgrees m s1 && followsCycle m s1 && summaryAgrees m s1 && !mapDistrusted s1 then verifyPass m s1
    else adopt false m (countAttempt (toAdopt s1))

/-! ## Marks at a learned station (R29) -/

/-- The end of a mark at which the station keeps its queue: the tick, and the position report while the phase is
LEARNED (R83, R93). A tick that a double error abandons drops no report (R95): a WITHDRAWING station, whose phase stays
LEARNED (R151), makes it. -/
def keepQueue (s : State) : Course :=
  let s1 := (markTick true s).state
  if s1.cycle.phase = .learned then positionReport s1 else .on s1

/-- A mark that a WITHDRAWING station only follows (R29, R83, R87). -/
def followMark (m : MarkContents) (s : State) : Course := keepQueue (takeMark m s)

/-- A damaged or missing mark at a learned station (R29). -/
def learnedDamaged (s : State) : Course :=
  let s1 := { s with cycle.cycleNumber := s.cycle.cycleNumber + 1 }
  match s.mode.actual with
  | .member => .on (enterResync s1)
  | .listen => .on (relearn s1)
  | .withdrawing => keepQueue s1
  | .joining => .on s
  | .resync => .on s
  | .off => .on s

/-- An intact mark whose stamp differs at a learned station (R29). A STREAMS double error that the entry into WITHDRAWING meets
abandons the whole mark: its cycle number, marker, tick and report are dropped (R152; log 46, DESIGN CHOICE). A MEMBER station
with nothing to withdraw leaves WITHDRAWING for LISTEN, phase VERIFY, at the exit check of the entry, before the rest of the
mark: the cycle number, the marker and the tick with its queue service still follow, and the report does not, since the
phase is no longer LEARNED (R34; log 47, DESIGN CHOICE). -/
def learnedMismatch (m : MarkContents) (s : State) : Course :=
  match s.mode.actual with
  | .member => (enterWithdrawing .listen (noteMismatch s)).next (followMark m)
  | .listen => adopt false m (relearn (noteMismatch s))
  | .withdrawing => followMark m (noteMismatch s)
  | .joining => .on s
  | .resync => .on s
  | .off => .on s

/-- An intact mark out of sequence, or with an unequal summary, at a learned station; the mark that causes an entry
into RESYNC is not counted (R28, R29, R31). -/
def learnedUnequal (m : MarkContents) (s : State) : Course :=
  match s.mode.actual with
  | .member => adopt false m (enterResync s)
  | .listen => adopt false m (relearn s)
  | .withdrawing => followMark m s
  | .joining => .on s
  | .resync => .on s
  | .off => .on s

/-- The summary comparison (R87). A double error abandons it with the tick and the report (R95); the mark begins no step (a)
then, so its cycle number and marker are set (R29, log 27). A station that a direct fault entry has taken from WITHDRAWING to
LISTEN, still LEARNED (R35), relearns a map found wrong (R47; log 48, DESIGN CHOICE). -/
def compareSummary (m : MarkContents) (s : State) : Course :=
  match readQueue s with
  | .abandoned s1 => .abandoned (takeMark m s1)
  | .on s1 => if summaryAgrees m s1 && !mapDistrusted s1 then followMark m s1 else learnedUnequal m s1

/-- An intact mark at a learned station: stamp, sequence, summary, in this order (R29). -/
def learnedIntact (m : MarkContents) (s : State) : Course :=
  if !stampAgrees m s then learnedMismatch m s
  else if followsCycle m s || isOwnFounding m s then compareSummary m s
  else learnedUnequal m s

/-! ## A mark by the learning phase (R24) -/

/-- Whether a mark is the winner's at a station that has lost a founding contention, which takes it as its step (a) (R15,
R30). -/
def isWinnersMark (s : State) : Bool := s.cycle.winnerMarkDue && s.mode.actual = .joining

/-- An intact mark (R25, R27, R29). No mark reaches a station in phase REBUILD (R24, log 28). A JOINING station in phase
VERIFY that has lost a founding contention does not verify the winner's mark: it is its step (a), and the notices that the
purge has held are dropped (R15, R30, R91). -/
def intactMark (m : MarkContents) (s : State) : Course :=
  match s.cycle.phase with
  | .idle => .on s
  | .adopt => adopt true m s
  | .rebuild => .on s
  | .verify => if isWinnersMark s then adopt true m (toAdopt s) else verify m s
  | .learned => learnedIntact m s

/-- A damaged or missing mark (R25, R27, R28, R29). -/
def damagedMark (s : State) : Course :=
  match s.cycle.phase with
  | .idle => .on s
  | .adopt => .on (countAttempt s)
  | .rebuild => .on s
  | .verify => .on (countAttempt (toAdopt s))
  | .learned => learnedDamaged s

/-! ## The withdrawal count and the capture -/

/-- One more mark of a withdrawal, which ends at the limit (R34). -/
def countWithdrawal (s : State) : State :=
  if s.mode.actual = .withdrawing then
    let s1 := { s with mode.withdrawCount := s.mode.withdrawCount + 1 }
    if Config.withdrawalLimit ≤ s1.mode.withdrawCount then endWithdrawal s1 else s1
  else s

/-- A map entry as the snapshot holds it: the field mark is not copied (R39). -/
def SlotEntry.unmarked : SlotEntry → SlotEntry
  | .free => .free
  | .held h => .held { h with mark := .none }

/-- The buffer written anew (R167). -/
def captured (s : State) : SnapshotBuffer :=
  { map := s.alloc.map.map fun w => .fresh w.val.unmarked, queue := s.alloc.queue.map fun w => .fresh w.val,
    cycle := .fresh s.cycle.cycleNumber, valid := true, armed := false }

/-- A capture at an intact mark with the armed flag set; one that meets a double error writes nothing and stays armed
(R151, R167). -/
def capture (s : State) : State :=
  if s.port.snap.armed && s.mode.actual ≠ .off then
    match (readMap s).next readQueue with
    | .abandoned s1 => s1
    | .on s1 => raise .snapshot { s1 with port.snap := captured s1 }
  else s

/-! ## Composition (R86) -/

/-- The contents of the next mark; a failing queue entry is carried as read (R95). -/
def composeMark (s : State) : MarkContents :=
  { cycle := s.cycle.cycleNumber + 1, marker := own s, patience := s.port.config.patience,
    reclaim := s.port.config.reclaim, summary := s.alloc.queue.map fun w => w.val.toSummary }

/-- The contents of a founding mark (R16). -/
def foundingMark (s : State) : MarkContents :=
  { cycle := 0, marker := own s, patience := s.port.config.patience, reclaim := s.port.config.reclaim, summary := [] }

end Sys2Proof.Machine
end

