-- ==== Sys2Proof/Machine/Founding.lean ====
section
/-! DEFINITION. The meanings of the commands of mark contention, line silence and founding: MARK_CONTENTION,
MARK_CONTENTION_WON, LINE_SILENCE, FOUNDING_CONTENTION_START, FOUNDING_CONTENTION_JOINED, FOUNDING_CONTENTION_WON,
FOUNDED. -/

namespace Sys2Proof.Machine

/-- The bits that the station sends after the contention start sequence while it takes part in a mark contention or a
founding contention (R11, R15). -/
def sentInContention (s : State) : Option (List Bool) :=
  match s.line.contention with
  | .none => none
  | .mark => some (contentionBits (own s))
  | .founding => some (contentionBits (own s))

/-! ## Mark contention (R11, R86) -/

/-- MARK_CONTENTION (R11): a MEMBER station with its driver enabled contends. -/
def execMarkContention (s : State) : Out :=
  .next (framedEvent (fun s =>
    if s.mode.actual = .member && s.line.driverEnable then { s with line.contention := .mark } else s) s)

/-- The mark begun: its contents are the queue as it stands; a double error in an entry leaves the entry as read in the
mark, and the marker then enters RESYNC (R86, R95). The entries behind a failing one are carried with their contents, but
no read, record or write-back is made for them (R150; log 40, DESIGN CHOICE). -/
def sendMark (s : State) : State :=
  let s1 := (readQueue s).state
  { s1 with line.onLine := some (.mark (composeMark s) false) }

/-- MARK_CONTENTION_WON (R11, R5): the win, and the mark begun by a station that is still MEMBER with its driver enabled
(log 17). -/
def execMarkContentionWon (s : State) : Out :=
  .next (framedEvent (fun s =>
    if s.line.contention = .mark then
      let s1 := { s with line.contention := .none }
      if s1.mode.actual = .member && s1.line.driverEnable then sendMark s1 else s1
    else s) s)

/-! ## Line silence (R14) -/

/-- LINE_SILENCE (R14): the timer's notice, with each mode's response (R15, R28, R32, R34), whatever the timer has
counted (log 4, DESIGN CHOICE). -/
def execLineSilence (s : State) : Out := .next (lineEvent silenceNotice s)

/-! ## Founding (R15, R16, R30) -/

/-- Whether the station may contend for a founding. -/
def foundingReady (s : State) : Bool :=
  s.cycle.foundingPending && s.mode.actual = .joining && s.line.driverEnable && s.line.contention = .none

/-- The founding contention entered. -/
def contendFounding (s : State) : State := { s with line.contention := .founding }

/-- FOUNDING_CONTENTION_START (R15): the line has been recessive for 16 bit times. -/
def execFoundingContentionStart (s : State) : Out :=
  .next (lineEvent (fun s => if foundingReady s then contendFounding s else s) s)

/-- FOUNDING_CONTENTION_JOINED (R15): another station's start sequence is detected before this station's own. -/
def execFoundingContentionJoined (s : State) : Out :=
  .next (lineEvent (fun s => if foundingReady s then contendFounding s else s) s)

/-- FOUNDING_CONTENTION_WON (R16): cycle number 0, the unit framed by its own mark start, the founding mark begun. -/
def execFoundingContentionWon (s : State) : Out :=
  .next (lineEvent (fun s =>
    if s.line.contention = .founding && s.mode.actual = .joining && s.line.driverEnable then
      { s with
        cycle.cycleNumber := 0
        line.framed := true
        line.txSlots := []
        line.contention := .none
        line.onLine := some (.mark (foundingMark s) true) }
    else s) s)

/-- The "founded" report: MEMBER in any learning phase, LEARNED, cycle number 0, empty tables, reconciliation (R16,
R30). -/
def foundedReport (s : State) : State :=
  let s1 := clearTables (toAdopt (changeMode .member s))
  (reconcile { s1 with
    cycle.phase := .learned
    cycle.cycleNumber := 0
    cycle.foundingMarkDue := true
    cycle.tickDone := false }).state

/-- A founding mark that read back mismatch: JOINING goes on with phase ADOPT, the founding no longer pending (R16,
R30). -/
def foundingFailed (s : State) : State :=
  let s1 := toAdopt s
  { s1 with cycle.foundingPending := false }

/-- The founding mark's completion taken by the Cycle Engine. -/
def foundingCompleted (rb : Readback) (s : State) : State :=
  if s.mode.actual = .joining then
    match rb with
    | .good => foundedReport s
    | .mismatch => foundingFailed s
  else s

/-- FOUNDED (R16, R30): the good completion of the founding mark on the line, where it has not yet been reported (log 5);
it sets the driver-fault count to 0 as any good readback does (R17). -/
def execFounded (s : State) : Out :=
  .next (lineEvent (fun s =>
    match s.line.onLine with
    | some (.mark _ true) => foundingCompleted .good { s with line.onLine := none, line.driverFaultCount := 0 }
    | some (.mark _ false) => s
    | some (.tag _ _) => s
    | some (.message _ _ _) => s
    | some (.answer _) => s
    | none => s) s)

end Sys2Proof.Machine
end

