-- ==== Sys2Proof/Machine/Frames.lean ====
section
/-! DEFINITION. The bits and bytes of a chip-select period (R157, Table 10-1), and the meanings of the commands about frames that are not
executed and of the lapse timer: FRAME_CUT_SHORT, FRAME_CHECK_FAILED, LAPSE_TIMER_EXPIRED. -/

namespace Sys2Proof.Machine

/-! ## The bytes of a chip-select period (R157, Table 10-1) -/

/-- The assembler after the bytes that SDI has carried since CSN fell: COMMAND until the collection ends, which is after
the two CRC bytes or after a length byte above 40. -/
def assemblerAfter (bytes : List Byte) : Assembler :=
  match bytes with
  | _ :: length :: rest =>
    if 40 < length.toNat then .turnaround 0
    else if length.toNat + 2 ≤ rest.length then .turnaround 0
    else .command
  | _ => .command

/-- The byte that passes on SDO: none in IDLE, where SDO is at high impedance; FFh in COMMAND, TURNAROUND and TRAILING;
in RESPONSE the bytes of the response frame in order. -/
def sdoByte (p : CommandPort) : Option Byte :=
  match p.assembler with
  | .idle => none
  | .command => some 0xFF
  | .turnaround _ => some 0xFF
  | .response n =>
    match p.response with
    | none => some 0xFF
    | some r => some ((responseFrame r)[n / byteTime]?.getD 0xFF)
  | .trailing => some 0xFF

/-! ## The bits of a chip-select period (R157) -/

/-- The bits that SDI carries in samples of SCK and SDI taken in order: SDI as it stands at each rising edge of SCK. `last`
is the level of SCK before them, low as a chip-select period begins. -/
def sdiBits (last : Bool) : List (Bool × Bool) → List Bool
  | [] => []
  | (sck, sdi) :: rest => if sck && !last then sdi :: sdiBits sck rest else sdiBits sck rest

/-- The bytes of which all eight bits have passed, most significant bit first. -/
def wholeBytes (bits : List Bool) : List Byte := bytesOfBits (bits.length / 8) bits

/-- The row that a frame collected stands for: its command where checks 1 to 4 of Table 10-2 pass, and FRAME_CHECK_FAILED
with the frame as collected where one of them fails. After a length byte above 40 nothing more is collected. -/
def collectedEvent : List Byte → Option Instr
  | code :: length :: rest =>
    if 40 < length.toNat then some (.frameCheckFailed code length [] 0)
    else
      let payload := rest.take length.toNat
      match rest.drop length.toNat with
      | hi :: lo :: _ =>
        match frameFailure code length payload (hi ++ lo) with
        | none => commandOf code payload
        | some _ => some (.frameCheckFailed code length payload (hi ++ lo))
      | _ => none
  | _ => none

/-- The row that a chip-select period stands for, by the bits that SDI has carried in it: none where SCK has not risen, and
FRAME_CUT_SHORT where CSN rises while the assembler is still in COMMAND, inside a byte or between two (R157, R158). -/
def frameEvent (bits : List Bool) : Option Instr :=
  if bits.isEmpty then none
  else match assemblerAfter (wholeBytes bits) with
    | .command => some .frameCutShort
    | .turnaround _ => collectedEvent (wholeBytes bits)
    | .idle => none
    | .response _ => none
    | .trailing => none

/-- Bit times of one period of SCK, at a third of the line rate (log 20, DESIGN CHOICE). -/
def sckPeriod : Nat := 3

/-- How many whole bits of the byte that is passing have gone: SDO changes at each falling edge of SCK, which ends a bit. -/
def bitsPassed (a : Assembler) : Nat :=
  match a with
  | .turnaround n => n % byteTime / sckPeriod
  | .response n => n % byteTime / sckPeriod
  | .idle => 0
  | .command => 0
  | .trailing => 0

/-- The bit on SDO: the byte that passes gives its most significant bit first; none in IDLE, where SDO is at high impedance
(R157, Table 10-1). -/
def sdoBit (p : CommandPort) : Option Bool := (sdoByte p).map fun b => b.getMsbD (bitsPassed p.assembler)

/-- The bit on SDO after `falls` falling edges of SCK in a chip-select period whose collection has taken `collected` bytes and
whose frame is answered with `r`: FFh while the bytes are collected and for the turnaround byte, the response frame, and FFh
after it (Table 10-1). -/
def sdoAfter (collected : Nat) (r : Response) (falls : Nat) : Bool :=
  (byteBits (List.replicate (collected + 1) 0xFF ++ responseFrame r))[falls]?.getD true

/-! ## Frames that are not executed, and the lapse timer -/

/-- FRAME_CUT_SHORT (R157, R158): CSN falls, and rises before the last bit of the command CRC: CMD_ERROR, the assembler
IDLE, no response, no reload. -/
def execFrameCutShort (s : State) : Out :=
  .next (if s.pins.resetnLow then s else raise .cmdError (endFrame (frameBegun s)))

/-- What the first failing check of Table 10-2 does (R158). -/
def refuseFrame (f : FrameFailure) (s : State) : State :=
  match f with
  | .tooLong => answer .format [] (raise .cmdError s)
  | .badCrc => answer .check [] (raise .cmdError s)
  | .unknownCode => answer .unknown [] (reloadLapse s)
  | .wrongLength => answer .format [] (reloadLapse (raise .cmdError s))

/-- FRAME_CHECK_FAILED (R158): the frame as collected decides which of checks 1 to 4 fails; a frame that passes them all
is no such event (log 6). -/
def execFrameCheckFailed (code length : Byte) (payload : List Byte) (crc : BitVec 16) (s : State) : Out :=
  .next (if s.pins.resetnLow then s
         else match frameFailure code length payload crc with
           | none => s
           | some f => refuseFrame f (frameCollected s))

/-- LAPSE_TIMER_EXPIRED (R38, R170): the expiry of a RUNNING timer, whatever time it has left, just reloaded or not (log 4,
DESIGN CHOICE). -/
def execLapseTimerExpired (s : State) : Out :=
  .next (if s.pins.resetnLow || s.port.lapse.isNone then s else lapseExpired s)

end Sys2Proof.Machine
end

