-- ==== Sys2Proof/Machine/Slots.lean ====
section
/-! DEFINITION. The meanings of the commands of the slot field: SLOT_START, TAG_RECEIVED, SLOT_FIELD_CLOSED,
SILENCE_RECLAIM. -/

namespace Sys2Proof.Machine

/-! ## Tags at the Slot Map (R43 to R48, R52) -/

/-- Whether a tag matches a HELD entry: holder station, lane, label and part (R44). -/
def HeldEntry.matches (h : HeldEntry) (t : TagContents) : Bool :=
  h.holder = t.holder && h.lane = t.lane && h.label = t.label && h.part = t.part.val

/-- The use a tag shows, as the map records it. -/
def lastUseOf : Use → LastUse
  | .live => .live
  | .hold => .hold

/-- A slot's entry rewritten. -/
def setEntry (n : Slot) (e : SlotEntry) (s : State) : State :=
  { s with alloc.map := s.alloc.map.set n (.fresh e) }

/-- A HELD entry whose mark is NONE marked DAMAGED; a mark of HEARD stays (R43, R48). -/
def markDamaged (n : Slot) (s : State) : State :=
  match entryAt s n with
  | .free => s
  | .held h => if h.mark = .none then setEntry n (.held { h with mark := .damaged }) s else s

/-- A match: HEARD, with the tag's use (R45). -/
def markHeard (n : Slot) (h : HeldEntry) (u : Use) (s : State) : State :=
  setEntry n (.held { h with mark := .heard, lastUse := lastUseOf u }) s

/-- An intact tag that does not match, by the mode (R46, R47, R48). In WITHDRAWING the map is found wrong. -/
def unmatchedTag (n : Slot) (s : State) : State :=
  match s.mode.actual with
  | .member => enterResync s
  | .withdrawing => markDamaged n (raise .conflict { s with
      alloc.fieldConflict := true
      alloc.mapFoundWrong := true })
  | .listen => markDamaged n s
  | .joining => s
  | .resync => s
  | .off => s

/-- An intact tag at a learned station (R44). -/
def learnedTag (n : Slot) (t : TagContents) (s : State) : State :=
  match entryAt s n with
  | .free => unmatchedTag n s
  | .held h => if h.matches t then markHeard n h t.use s else unmatchedTag n s

/-- Whether a station checks tags: phase LEARNED, in MEMBER, WITHDRAWING or LISTEN (R44). -/
def checksTags (s : State) : Bool :=
  s.cycle.phase = .learned &&
  (s.mode.actual = .member || s.mode.actual = .withdrawing || s.mode.actual = .listen)

/-- A tag report at a learned station (R44 to R48). After a conflict in WITHDRAWING every later report of the field
marks its HELD entry DAMAGED (R47). A station that a direct fault entry takes to LISTEN in the rest of that field, still
LEARNED, checks its tags as LISTEN does (R44; log 41, DESIGN CHOICE). -/
def checkTag (n : Slot) (r : TagReport) (s : State) : Course :=
  if s.mode.actual = .withdrawing && s.alloc.fieldConflict then (readMapEntry n s).finally (markDamaged n)
  else match r with
    | .silent => .on s
    | .damaged => (readMapEntry n s).finally (markDamaged n)
    | .intact t => (readMapEntry n s).finally (learnedTag n t)

/-- The tag as the rebuild list keeps it (R52). -/
def rebuildTag (n : Slot) (t : TagContents) : RebuildTag :=
  { slot := n, holder := t.holder, lane := t.lane, label := t.label, cls := t.cls, ret := t.ret, part := t.part.val,
    count := t.count }

/-- A tag collected for the rebuild: the list holds at most 48 (R52). -/
def collectTag (n : Slot) (t : TagContents) (s : State) : State :=
  if s.alloc.rebuildList.length < 48 then
    { s with alloc.rebuildList := s.alloc.rebuildList ++ [.fresh (rebuildTag n t)] }
  else s

/-- A tag report at the Allocation Unit (R44, R52). -/
def tagAtMap (n : Slot) (r : TagReport) (s : State) : Course :=
  match s.cycle.phase with
  | .rebuild =>
    match r with
    | .intact t => .on (collectTag n t s)
    | .damaged => .on s
    | .silent => .on s
  | .learned => if checksTags s then checkTag n r s else .on s
  | .idle => .on s
  | .adopt => .on s
  | .verify => .on s

/-! ## Tags at the Listen Table (R127, R128) -/

/-- Whether an entry selects a tag (R128). -/
def ListenEntry.selects (own : Station) (t : TagContents) (e : ListenEntry) : Bool :=
  e.enabled && (t.label &&& e.mask) == (e.label &&& e.mask) && (t.holder ≠ own || e.acceptOwn)

/-- A LIVE tag delivered to the receive lane of the first entry that selects it (R127). -/
def deliverTag (t : TagContents) (s : State) : State :=
  if t.use = .live && s.mode.actual ≠ .off then
    match s.lanes.listen.cells.find? (·.selects (own s) t) with
    | none => s
    | some e => addRx e.lane t.sample s
  else s

/-! ## TAG_RECEIVED -/

/-- Whether an intact tag shows a second station of this number: it names this station as holder in a slot in which
this station sent none (R19). -/
def isDuplicateTag (n : Slot) (t : TagContents) (s : State) : Bool :=
  t.holder = own s && !s.line.txSlots.contains n

/-- A DUPLICATE notice: the alert, and the direct fault entry (R19, R35). -/
def duplicateFound (s : State) : State := faultEntry .duplicate (raise .duplicate s)

/-- TAG_RECEIVED (R6, R12, R19): an intact tag restarts the silence timer; the duplicate report takes the place of the
map check; the Lane Unit receives every intact tag. -/
def execTagReceived (n : Slot) (r : TagReport) (s : State) : Out :=
  .next (framedEvent (fun s => match r with
    | .silent => (tagAtMap n .silent s).state
    | .damaged => (tagAtMap n .damaged s).state
    | .intact t =>
      let s1 := restartSilence s
      deliverTag t (if isDuplicateTag n t s1 then duplicateFound s1 else (tagAtMap n (.intact t) s1).state)) s)

/-! ## The close -/

/-- What the close does by the phase (R24): silence counting and reclaim at a learned station, the rebuild, or only the
end of the field marks (R43). -/
def closeField (s : State) : Course :=
  match s.cycle.phase with
  | .learned => if checksTags s then closeLearned s else .on (clearMarks s)
  | .rebuild => (closeRebuild s).finally clearMarks
  | .idle => .on (clearMarks s)
  | .adopt => .on (clearMarks s)
  | .verify => .on (clearMarks s)

/-- SLOT_FIELD_CLOSED (R6, R24, R26, R43, R49). Whatever became of the close, its slot field is over (R47). -/
def execSlotFieldClosed (s : State) : Out :=
  .next (framedEvent (fun s => { (closeField s).state with alloc.fieldConflict := false }) s)

/-- SILENCE_RECLAIM (R50): SLOT_FIELD_CLOSED reclaims at its own close; this command reclaims what is still due (log 5). -/
def execSilenceReclaim (s : State) : Out :=
  .next (framedEvent (fun s => if checksTags s then ((readMap s).next reclaim).state else s) s)

/-! ## Naming (R114, R115, R122) -/

/-- Whether a lane's slots are tagged (R114). -/
def Lane.tags (r : Lane) : Bool := r.state = .held || r.state = .closing || r.state = .cancelling

/-- The lane for which a slot is named: the slot stands in its slot list (R114); of two lanes whose lists both hold it the
lower-numbered one (log 43, DESIGN CHOICE). -/
def namingLane (n : Slot) (s : State) : Option LaneNo :=
  allLanes.find? fun l => (laneOfState s l).tags && (laneOfState s l).slots.contains n

/-- One HOLD more for want of a word: the gap count stops at 65535 (R114). -/
def countGap (l : LaneNo) (s : State) : State :=
  updateLane l (fun r => { r with gapCount := min (r.gapCount + 1) 65535 }) s

/-- The tag of a named slot (R115). -/
def ownTag (n : Slot) (l : LaneNo) (u : Use) (x : Sample) (s : State) : TagContents :=
  let r := laneOfState s l
  { holder := own s, lane := l, label := r.label, part := Fin.ofNat 8 ((r.slots.findIdx? (· = n)).getD 0),
    countCode := Fin.ofNat 8 (r.count - 1), cls := r.cls, ret := r.ret, use := u, sample := x }

/-- The use and the sample word of a named slot: the oldest word LIVE, HOLD with a gap where there is none, HOLD for a
CANCELLING lane (R114, R122). -/
def slotWord (l : LaneNo) (s : State) : State × Use × Sample :=
  if (laneOfState s l).state = .cancelling then (s, .hold, 0)
  else match takeTx l s with
    | (s1, some x) => (s1, .live, x)
    | (s1, none) => (countGap l s1, .hold, 0)

/-- A tag sent, unless the driver is disabled; its slot enters the transmitted-slot list (R1, R6). -/
def sendTag (n : Slot) (t : TagContents) (s : State) : State :=
  if s.line.driverEnable then
    { s with line.onLine := some (.tag n t), line.txSlots := s.line.txSlots ++ [n] }
  else s

/-- A slot named for a lane. -/
def nameSlot (n : Slot) (l : LaneNo) (s : State) : State :=
  let w := slotWord l s
  sendTag n (ownTag n l w.2.1 w.2.2 s) w.1

/-- Whether own tags are sent in a mode (R23). -/
def Mode.sendsTags : Mode → Bool
  | .member => true
  | .resync => true
  | .withdrawing => true
  | .off => false
  | .listen => false
  | .joining => false

/-- SLOT_START (R6, R114): the Stream Table is read, and the slot tagged if it is one of the station's own. -/
def execSlotStart (n : Slot) (s : State) : Out :=
  .next (framedEvent (fun s =>
    if s.mode.actual.sendsTags then
      ((readStreams allLanes false s).finally fun s1 =>
        match namingLane n s1 with
        | none => s1
        | some l => nameSlot n l s1).state
    else s) s)

end Sys2Proof.Machine
end

