-- ==== Sys2Proof/Machine/Windows.lean ====
section
/-! DEFINITION. The meanings of the commands of the message field: WINDOW_START, ARBITRATION_LOST,
OWN_TRANSMISSION_COMPLETED, NOTE_ATTEMPT_LIMIT, DRIVER_FAULT, NOTE_CHECK_SEQUENCE_RECEIVED, WINDOW_ENDED,
SPACING_COUNTDOWN_EXPIRED. -/

namespace Sys2Proof.Machine

/-! ## A contender that loses (R8, R99, R102, R135) -/

/-- The message in its window has lost arbitration: it leaves its window and stays with its owner. -/
def contenderLost (s : State) : State :=
  match s.line.onLine with
  | some (.message .outbox _ b) => controlReport controlLost b s
  | some (.message .note _ _) => noteLost { s with line.onLine := none }
  | some (.tag _ _) => s
  | some (.mark _ _) => s
  | some (.answer _) => s
  | none => s

/-- ARBITRATION_LOST (R8, R11, R15): in mark contention; in founding contention, which ends the pending founding and makes the
winner's mark step (a) of a station in JOINING (R30); or in a window. -/
def execArbitrationLost (s : State) : Out :=
  .next (lineEvent (fun s =>
    match s.line.contention with
    | .mark => { s with line.contention := .none }
    | .founding => { s with
        line.contention := .none
        cycle.foundingPending := false
        cycle.winnerMarkDue := s.mode.actual = .joining }
    | .none => contenderLost s) s)

/-! ## WINDOW_START (R7, R99, R134) -/

/-- The message the outbox head stands for, from the Stream Table as it is when the Line Unit takes it (R99). -/
def headMessage (e : OutboxEntry) (s : State) : Body :=
  match e with
  | .claim l =>
    let r := laneOfState s l
    .claim l r.label (Fin.ofNat 16 r.count) r.cls r.wait r.ret
  | .release l => .release l
  | .withdraw l => .withdraw l
  | .restart => .restart

/-- A message taken into its window, unless the driver is disabled (R7). -/
def takeContender (src : Source) (b : Body) (s : State) : State :=
  if s.line.driverEnable then { s with line.onLine := some (.message src (own s) b), line.messageBits := 0 } else s

/-- The lane whose Stream Table entry the offer of a head reads. -/
def offerReads : OutboxEntry → List LaneNo
  | .claim l => [l]
  | .release _ => []
  | .withdraw _ => []
  | .restart => []

/-- The outbox head offered: it is read, and for a CLAIM its lane's entry; a double error offers nothing (R99, R152). -/
def offerHead (e : OutboxEntry) (s : State) : State :=
  match checkOutboxHead s with
  | (s1, false) => streamsFailed none s1
  | (s1, true) => ((readStreams (offerReads e) false s1).finally fun s2 => takeContender .outbox (headMessage e s2) s2).state

/-- The oldest entry that is not DONE offered with spacing countdown 0; PENDING becomes ACTIVE as it is taken. A double
error ends the entry CORRUPT and nothing is offered (R134, R154). Which entry this is, and its countdown, the Note Unit knows
without a read: a failing control word whose contents say DONE, or a countdown above 0, is not read (log 49, DESIGN
CHOICE). -/
def offerNote (s : State) : State :=
  match oldestOpen s with
  | none => s
  | some i =>
    match s.notes.tx[i]? with
    | none => s
    | some n =>
      if n.countdown = 0 then
        match readTx i n s with
        | (s1, false) => corruptNote i s1
        | (s1, true) =>
          if s1.line.driverEnable then
            takeContender .note (.note n.toLine) (updateTx i (fun m => { m with state := .active }) s1)
          else s1
      else s

/-- Whether the mode and phase let the outbox head be sent (R23, R99). -/
def offersHead (s : State) : Bool :=
  s.mode.actual = .member ||
  (s.mode.actual = .withdrawing && (s.cycle.phase = .verify || s.cycle.phase = .learned))

/-- What the station offers at a window start: the outbox head, else a note of a MEMBER station (R7, R23, R134). -/
def offer (s : State) : State :=
  match s.streams.outbox with
  | w :: _ => if offersHead s then offerHead w.val s else s
  | [] => if s.mode.actual = .member then offerNote s else s

/-- WINDOW_START (R7). A contender of an earlier window whose report never came has left its window (log 19). -/
def execWindowStart (s : State) : Out :=
  .next (framedEvent (fun s => offer { contenderLost s with line.wonWindow := false }) s)

/-! ## OWN_TRANSMISSION_COMPLETED (R2, R17, R18) -/

/-- DRIVER_FAULT: the driver disabled, the count 0, the alert, the direct fault entry (R18, R35). -/
def driverFaultFound (s : State) : State :=
  faultEntry .driverFault
    (raise .driverFault { s with line.driverEnable := false, line.driverFaultCount := 0 })

/-- The driver-fault count at a completion (R17, R18); in OFF it stays 0. -/
def countReadback (rb : Readback) (s : State) : State :=
  if s.mode.actual = .off then s
  else match rb with
    | .good => { s with line.driverFaultCount := 0 }
    | .mismatch =>
      let s1 := { s with line.driverFaultCount := s.line.driverFaultCount + 1 }
      if Config.driverFaultLimit ≤ s1.line.driverFaultCount then driverFaultFound s1 else s1

/-- A control message's completion at the Stream Controller (R99, R102). -/
def controlCompleted (rb : Readback) (b : Body) (s : State) : State :=
  match rb with
  | .good => controlReport controlGood b s
  | .mismatch => controlReport controlMismatch b s

/-- The own field's completion taken by the block that gave it; a message so completed has won its window (R2, R8). -/
def completeField (rb : Readback) (a : Answer) (f : OwnField) (s : State) : State :=
  let s1 := { s with line.onLine := none }
  match f with
  | .tag _ _ => s1
  | .mark _ founding => if founding then foundingCompleted rb s1 else s1
  | .message .outbox _ b => controlCompleted rb b { s with line.wonWindow := true }
  | .message .note _ _ => noteCompleted rb a { s1 with line.wonWindow := true }
  | .answer _ => s1

/-- OWN_TRANSMISSION_COMPLETED (R2): the owner's rule, and the driver-fault count. A field left unsent has none. At the
fourth mismatch the owner acts on the completion before the DRIVER_FAULT notice does, so that a failed founding mark sets the
phase ADOPT and the entry into LISTEN keeps it (log 45, DESIGN CHOICE). -/
def execOwnTransmissionCompleted (rb : Readback) (a : Answer) (s : State) : Out :=
  .next (lineEvent (fun s =>
    match s.line.onLine with
    | none => s
    | some f => countReadback rb (completeField rb a f s)) s)

/-- DRIVER_FAULT (R18): OWN_TRANSMISSION_COMPLETED makes it at the fourth mismatch; this command is the notice by
itself (log 23). -/
def execDriverFault (s : State) : Out := .next (lineEvent driverFaultFound s)

/-! ## Notes (R136, R138, R144, R145) -/

/-- The outcome of a note at its attempt limit, by the answer of the last attempt (R136, R137). -/
def limitOutcome (kind : DestKind) (a : Answer) : NoteOutcome :=
  match kind, a with
  | .station, .busy => .busy
  | .station, .ack => .noAnswer
  | .station, .none => .noAnswer
  | .group, _ => .noAnswer
  | .all, _ => .noAnswer

/-- NOTE_ATTEMPT_LIMIT (R136): the ACTIVE entry, out of its window, has made the configured attempts (log 5). As a command of
its own it judges the entry and writes its control word without reading (log 3, DESIGN CHOICE). -/
def execNoteAttemptLimit (lastAnswer : Answer) (s : State) : Out :=
  .next (lineEvent (fun s =>
    match activeNote s with
    | none => s
    | some i =>
      match s.notes.tx[i]? with
      | none => s
      | some n =>
        if s.port.config.noteAttempts ≤ n.attempts && !noteInWindow s then
          finishNote i (limitOutcome n.kind lastAnswer) s
        else s) s)

/-- The answer asked for, driven unless the driver is disabled (R10, R144). -/
def driveAnswer (a : Answer) (s : State) : State :=
  if s.line.driverEnable then { s with line.onLine := some (.answer a) } else s

/-- A STATION note decided at its check sequence: placed and ACK, or dropped and BUSY (R144). -/
def decideNote (sender : Station) (n : NoteContents) (s : State) : State :=
  if n.kind = 0 && acceptsNote sender n s then
    driveAnswer (if ringHasRoom s then .ack else .busy) (placeNote (ringEntry sender n s) s)
  else s

/-- NOTE_CHECK_SEQUENCE_RECEIVED (R144): a damaged note is never accepted (R143). -/
def execNoteCheckSequenceReceived (report : NoteReport) (s : State) : Out :=
  .next (framedEvent (fun s => match report with
    | .damaged => s
    | .intact sender n => decideNote sender n s) s)

/-- SPACING_COUNTDOWN_EXPIRED (R138): WINDOW_ENDED decreases the countdown; this command takes the last step of one
that stands at 1 (log 5). -/
def execSpacingCountdownExpired (s : State) : Out := .next (lineEvent (spaceActive (· = 1)) s)

/-! ## WINDOW_ENDED (R9) -/

/-- A GROUP or ALL note taken at the window's end (R145); a STATION note was decided before (R144). -/
def takeWindowNote (sender : Station) (b : Body) (s : State) : State :=
  match b with
  | .note n => if n.kind ≠ 0 && acceptsNote sender n s then placeNote (ringEntry sender n s) s else s
  | .claim .. => s
  | .release _ => s
  | .withdraw _ => s
  | .restart => s
  | .noKind => s

/-- An intact message: the silence timer, the duplicate check, the Allocation Unit, the Note Unit (R9, R12, R14, R19). -/
def takeMessage (sender : Station) (b : Body) (s : State) : State :=
  let s1 := restartSilence s
  let s2 := if sender = own s1 && !s1.line.wonWindow then duplicateFound s1 else s1
  takeWindowNote sender b (applyMessage sender b s2).state

/-- A window's result: every result counts for the note spacing (R138). The Allocation Unit acts on the report before the Note
Unit, and the Note Unit takes a note received before it counts the spacing (R9, R12; log 50, DESIGN CHOICE). -/
def takeWindow (report : WindowReport) (s : State) : State :=
  let s1 := match report with
    | .empty => s
    | .damaged => s
    | .intact sender b => takeMessage sender b s
  { spaceNotes s1 with line.wonWindow := false }

/-- WINDOW_ENDED (R9). A contender whose report never came has left its window (log 19), which may end a withdrawal in
OFF, where nothing is received (R1). -/
def execWindowEnded (report : WindowReport) (s : State) : Out :=
  .next (framedEvent (fun s =>
    let s0 := contenderLost s
    if s0.mode.actual = .off then s0 else takeWindow report s0) s)

end Sys2Proof.Machine
end

