-- ==== Sys2Proof/Machine/HostCommands.lean ====
section
/-! DEFINITION. The meanings of the host's commands on modes, streams, lanes, alerts and the memory error record
(R37, R97, R100, R101, R125, R130, R156, R160 to R165, R172 to R174). -/

namespace Sys2Proof.Machine

/-! ## STATUS, CONFIGURE -/

/-- STATUS (R161). -/
def execStatus (s : State) : Out :=
  .next (hostFrame (some ()) everyMode (fun _ s => answer .done (statusRecord s) s) s)

/-- Permitted in OFF only (Table 10-4). -/
def offOnly (m : Mode) : Bool := m = .off

/-- The whole configuration replaced, and the lapse timer reloaded with the new period (R162, R169). -/
def applyConfiguration (c : Configuration) (s : State) : State :=
  answer .done [] (reloadLapse { s with port.config := c })

/-- CONFIGURE (R162). -/
def execConfigure (patience reclaim attempts spacing group lapse : Byte) (s : State) : Out :=
  .next (hostFrame (configParams patience reclaim attempts spacing group lapse) offOnly applyConfiguration s)

/-! ## SET_MODE (R37) -/

/-- The reads of the STREAMS region that a change of mode closing the streams makes, and the change. -/
def withStreamsRead (f : State → State) (s : State) : Course := (readStreams allLanes true s).finally f

/-- A request in each mode with its status; a double error in STREAMS abandons it (R152). -/
def requestMode (r : Requested) (s : State) : Course :=
  match s.mode.actual, r with
  | .off, .off => .on (answer .done [] s)
  | .off, .listen => .on (answer .done [] (listenFromOff s))
  | .off, .member => .on (answer .accepted [] (enterJoining s))
  | .listen, .off => .on (answer .done [] (enterOff s))
  | .listen, .listen => .on (answer .done [] s)
  | .listen, .member => .on (answer .accepted [] (enterJoining s))
  | .joining, .off => withStreamsRead (fun s => answer .done [] (offFromLearning s)) s
  | .joining, .listen => withStreamsRead (fun s => answer .done [] (listenFromLearning s)) s
  | .joining, .member => .on (answer .done [] s)
  | .member, .off => (enterWithdrawing .off s).finally (answer .accepted [])
  | .member, .listen => (enterWithdrawing .listen s).finally (answer .accepted [])
  | .member, .member => .on (answer .done [] s)
  | .resync, .off => withStreamsRead (fun s => answer .done [] (offFromLearning s)) s
  | .resync, .listen => withStreamsRead (fun s => answer .done [] (listenFromLearning s)) s
  | .resync, .member => .on (answer .done [] s)
  | .withdrawing, .off =>
    .on (answer .accepted [] { s with mode.target := .off, mode.requested := .off })
  | .withdrawing, .listen =>
    .on (answer .accepted [] { s with mode.target := .listen, mode.requested := .listen })
  | .withdrawing, .member => .on (answer .busy [] s)

/-- A request that has met a double error in STREAMS is taken afresh in LISTEN, where the fault entry has put the
station (R152, log 12). -/
def setModeBody (r : Requested) (s : State) : State :=
  match requestMode r s with
  | .on s1 => s1
  | .abandoned s1 => (requestMode r s1).state

/-- SET_MODE (R37). -/
def execSetMode (mode : Byte) (s : State) : Out := .next (hostFrame (requestOf mode) everyMode setModeBody s)

/-! ## Streams (R97, R100, R101) -/

/-- Permitted in JOINING, MEMBER and RESYNC (Table 10-4). -/
def opensStreams (m : Mode) : Bool := m = .joining || m = .member || m = .resync

/-- The record of a lane opened (R100). -/
def Lane.opened (p : OpenParams) (r : Lane) : Lane :=
  { r with state := .opening, label := p.label, count := p.count, cls := p.cls, wait := p.wait, ret := p.ret,
           slots := [], position := none, gapCount := 0 }

/-- A CLOSED lane with no outbox entry is opened and its CLAIM appended; any other is BUSY (R100). -/
def openLane (p : OpenParams) (s : State) : State :=
  if laneClosed s p.lane && !laneHasEntry p.lane s then
    answer .accepted [] (appendEntry (.claim p.lane) (changeLane p.lane (Lane.opened p) s))
  else answer .busy [] s

/-- OPEN_STREAM's body: one that finds a double error in STREAMS is answered REFUSED_MODE (R152). -/
def openBody (p : OpenParams) (s : State) : State :=
  match readStreams [p.lane] true s with
  | .on s1 => openLane p s1
  | .abandoned s1 => answer .refusedMode [] s1

/-- OPEN_STREAM (R100). -/
def execOpenStream (lane label count flags : Byte) (s : State) : Out :=
  .next (hostFrame (openParams lane label count flags) opensStreams openBody s)

/-- The status of a close, by the lane's state before it (R101). -/
def closeStatus (l : LaneNo) (s : State) : Status :=
  match (laneOfState s l).state with
  | .closed => .done
  | .opening => if claimCondition l s = .held then .done else .accepted
  | .waiting => .accepted
  | .held => .accepted
  | .cancelling => .done
  | .closing => .done

/-- CLOSE_STREAM's body; in WITHDRAWING the exit condition is checked (R34, R101); one that finds a double error acts on
the rewritten lane and is answered DONE (R152). -/
def closeBody (l : LaneNo) (s : State) : State :=
  match readStreams [l] true s with
  | .on s1 => answer (closeStatus l s1) [] (exitCheck (endLane l s1))
  | .abandoned s1 => answer .done [] s1

/-- CLOSE_STREAM (R101). -/
def execCloseStream (lane : Byte) (s : State) : Out := .next (hostFrame (laneOf lane) everyMode closeBody s)

/-- READ_STREAM's body: the record, with the changed flag as it stood, and that flag cleared (R97, R152). -/
def readLane (l : LaneNo) (s : State) : State :=
  let s1 := (readStreams [l] false s).state
  answer .done (streamRecord l (laneOfState s1 l)) (updateLane l (fun r => { r with changed := false }) s1)

/-- READ_STREAM (R97). -/
def execReadStream (lane : Byte) (s : State) : Out := .next (hostFrame (laneOf lane) everyMode readLane s)

/-! ## The Listen Table and the lanes (R125, R130) -/

/-- SET_LISTEN (R130). -/
def execSetListen (entry flags label mask lane : Byte) (s : State) : Out :=
  .next (hostFrame (listenParams entry flags label mask lane) everyMode
    (fun p s => answer .done [] { s with lanes.listen := s.lanes.listen.set p.1 p.2 }) s)

/-- READ_LISTEN (R130). -/
def execReadListen (entry : Byte) (s : State) : Out :=
  .next (hostFrame (entryOf entry) everyMode
    (fun e s => answer .done (listenRecord e (s.lanes.listen.get e)) s) s)

/-- Every Stream Table entry read for a command that reports on all lanes. A double error stops the reading (R150), and the
command answers with the lanes as the region's rule leaves them: every one rewritten by the fault entry, and in OFF and LISTEN
the failing one rewritten and those behind it as they stand, unread (R152; log 12, DESIGN CHOICE). -/
def readAllLanes (s : State) : State := (readStreams allLanes false s).state

/-- Every overrun bit cleared (R125). -/
def clearOverruns (s : State) : State :=
  { s with lanes.txOverrun := .replicate 8 false, lanes.rxOverrun := .replicate 8 false }

/-- READ_LANES's body. -/
def lanesBody (_ : Unit) (s : State) : State :=
  let s1 := readAllLanes s
  answer .done (laneStatusRecord s1) (clearOverruns s1)

/-- READ_LANES (R125). -/
def execReadLanes (s : State) : Out := .next (hostFrame (some ()) everyMode lanesBody s)

/-! ## Alerts (R172 to R174) -/

/-- READ_ALERTS's body: the lanes are read first, and the response shows the flags as they stand after that read (log 39,
DESIGN CHOICE). -/
def alertsBody (_ : Unit) (s : State) : State :=
  let s1 := readAllLanes s
  answer .done (alertRecord s1) s1

/-- READ_ALERTS (R172). -/
def execReadAlerts (s : State) : Out := .next (hostFrame (some ()) everyMode alertsBody s)

/-- CLEAR_ALERTS's body. -/
def clearBody (named : BitVec 18) (s : State) : State :=
  let s1 := { s with alerts := s.alerts.clear named (!s.notes.ring.isEmpty) }
  answer .done (bytes24 (s1.alerts.flags.setWidth 24)) s1

/-- CLEAR_ALERTS (R173). -/
def execClearAlerts (flags : BitVec 24) (s : State) : Out := .next (hostFrame (flagSetOf flags) everyMode clearBody s)

/-- SET_ALERT_MASK (R174). -/
def execSetAlertMask (masks : BitVec 24) (s : State) : Out :=
  .next (hostFrame (flagSetOf masks) everyMode (fun m s => answer .done [] { s with alerts.masks := m }) s)

/-! ## The error record, RESTART_BUS, RESET_STATION -/

/-- READ_MEMORY_ERROR's body. -/
def memoryErrorBody (_ : Unit) (s : State) : State :=
  match s.errorRecord with
  | none => answer .empty [] s
  | some r => answer .done (errorBytes r) { s with errorRecord := none }

/-- READ_MEMORY_ERROR (R156). -/
def execReadMemoryError (s : State) : Out := .next (hostFrame (some ()) everyMode memoryErrorBody s)

/-- Permitted in MEMBER only (Table 10-4). -/
def memberOnly (m : Mode) : Bool := m = .member

/-- RESTART_BUS's body (R164); one that finds a double error is refused in LISTEN, where the fault entry has put the
station (log 12). -/
def restartBody (_ : Unit) (s : State) : State :=
  match readStreams [] true s with
  | .on s1 => if restartWaits s1 then answer .busy [] s1 else answer .accepted [] (appendEntry .restart s1)
  | .abandoned s1 => answer .refusedMode [] s1

/-- RESTART_BUS (R164). -/
def execRestartBus (s : State) : Out := .next (hostFrame (some ()) memberOnly restartBody s)

/-- RESET_STATION (R165): DONE now, the reset at the rise of CSN. -/
def execResetStation (s : State) : Out :=
  .next (hostFrame (some ()) everyMode (fun _ s => answer .done [] { s with port.resetArmed := true }) s)

end Sys2Proof.Machine
end

