-- ==== Sys2Proof/Machine/Marks.lean ====
section
/-! DEFINITION. The meanings of the commands about marks, ageing and the limits counted at marks: MARK_RECEIVED, AGE_TICK,
QUEUE_ENTRY_EXPIRED, WITHDRAWAL_LIMIT, RESYNC_ATTEMPT_LIMIT. -/

namespace Sys2Proof.Machine

/-- A mark start: the unit is framed by it and the transmitted-slot list emptied, whether or not the mark is damaged
(R4, R6). -/
def markStart (s : State) : State :=
  { s with line.framed := true, line.txSlots := [], cycle.tickDone := false }

/-- What follows a mark's own checks: a founding mark, the own or the winner's, is due no longer (log 38, DESIGN CHOICE, for a
damaged or missing one), and a station that was WITHDRAWING at the
mark counts it (R34, log 15). -/
def markEnd (wasWithdrawing : Bool) (s : State) : State :=
  let s1 := { s with cycle.foundingMarkDue := false, cycle.winnerMarkDue := false }
  if wasWithdrawing then countWithdrawal s1 else s1

/-- A mark whose verdict is damaged. -/
def takeDamagedMark (s : State) : State :=
  markEnd (s.mode.actual = .withdrawing) (damagedMark s).state

/-- A mark whose verdict is intact; the capture comes after every effect on the shared tables (R167). -/
def takeIntactMark (m : MarkContents) (s : State) : State :=
  capture (markEnd (s.mode.actual = .withdrawing) (intactMark m (restartSilence s)).state)

/-- MARK_RECEIVED (R4, R5, R25 to R29). A missing mark is reported damaged by a framed unit, which becomes unframed. A
summary of more than 16 entries makes the mark damaged (R3). -/
def execMarkReceived (report : MarkReport) (s : State) : Out :=
  .next (lineEvent (fun s => match report with
    | .missing =>
      if s.line.framed then takeDamagedMark { s with line.framed := false, cycle.tickDone := false } else s
    | .damaged => takeDamagedMark (markStart s)
    | .intact m =>
      if Config.queueRoom < m.summary.length then takeDamagedMark (markStart s) else takeIntactMark m (markStart s)) s)

/-- Whether a station in its mode and phase applies the tick of a learned station's mark (R83). -/
def tickDue (s : State) : Bool :=
  s.cycle.phase = .learned && tickFalls s && !s.cycle.tickDone &&
  (s.mode.actual = .member || s.mode.actual = .listen || s.mode.actual = .withdrawing)

/-- AGE_TICK (R83, R84). MARK_RECEIVED applies the tick of its mark; this command applies it where it is still due, and
changes nothing where it has been applied (log 5). -/
def execAgeTick (s : State) : Out :=
  .next (lineEvent (fun s => if tickDue s then (markTick true s).state else s) s)

/-- QUEUE_ENTRY_EXPIRED (R84): entries that have reached the patience are removed, own ones told, and queue service
runs where the map is learned (R89, log 5). -/
def execQueueEntryExpired (s : State) : Out :=
  .next (lineEvent (fun s =>
    ((readQueue s).next (expire (s.cycle.phase = .verify || s.cycle.phase = .learned))).state) s)

/-- WITHDRAWAL_LIMIT (R34): the count has reached 16 (log 5). -/
def execWithdrawalLimit (s : State) : Out :=
  .next (lineEvent (fun s =>
    if s.mode.actual = .withdrawing && Config.withdrawalLimit ≤ s.mode.withdrawCount then endWithdrawal s else s) s)

/-- RESYNC_ATTEMPT_LIMIT (R28): the count has reached 4 (log 5). -/
def execResyncAttemptLimit (s : State) : Out :=
  .next (lineEvent (fun s =>
    if s.mode.actual = .resync && Config.resyncLimit ≤ s.cycle.resyncAttempts then faultEntry .resyncFailed s else s) s)

end Sys2Proof.Machine
end

