-- ==== Sys2Proof/Machine/NoteCommands.lean ====
section
/-! DEFINITION. The meanings of the host's commands on notes (R132, R139, R140, R146, R154). -/

namespace Sys2Proof.Machine

/-- A new entry (R132). -/
def TxNote.submitted (p : SendParams) : TxNote :=
  { tag := p.tag, kind := p.kind, number := p.number, payload := p.payload, state := .pending, attempts := 0,
    countdown := 0, outcome := none, ending := .none, control := .clean, body := .clean }

/-- SEND_NOTE's body: FULL with four entries, whatever their states (R132). -/
def sendBody (p : SendParams) (s : State) : State :=
  if s.notes.tx.length < Config.noteRoom then
    answer .accepted [] { s with notes.tx := s.notes.tx ++ [TxNote.submitted p] }
  else answer .full [] s

/-- A SEND_NOTE frame whose payload length fails check 4 is no SEND_NOTE (R158, R179): more than 40 bytes fail check 1.
Otherwise the command is checked and taken as any other. -/
def execSendNote (tag kind number length : Byte) (payload : List Byte) (s : State) : Out :=
  .next (if 1 ≤ payload.length ∧ payload.length ≤ 32 then
      hostFrame (sendParams (own s) tag kind number length payload) memberOnly sendBody s
    else if s.pins.resetnLow then s
    else if 36 < payload.length then answer .format [] (raise .cmdError (frameCollected s))
    else answer .format [] (reloadLapse (raise .cmdError (frameCollected s))))

/-- The place of the oldest DONE entry (R139). -/
def oldestDone (s : State) : Option Nat := s.notes.tx.findIdx? fun n => n.state = .done

/-- An entry freed; the entries behind it move one place forward (R139). -/
def freeNote (i : Nat) (s : State) : State := { s with notes.tx := s.notes.tx.eraseIdx i }

/-- The bytes of an outcome: tag, outcome, attempts made (R139). -/
def outcomeBytes (n : TxNote) (o : NoteOutcome) : List Byte := [n.tag, o.code, byteOf n.attempts]

/-- NOTE_OUTCOME's body: an entry that reads with a double error is returned CORRUPT (R139, R154). -/
def outcomeBody (_ : Unit) (s : State) : State :=
  match oldestDone s with
  | none => answer .empty [] s
  | some i =>
    match s.notes.tx[i]? with
    | none => answer .empty [] s
    | some n =>
      match readTx i n s with
      | (s1, false) => answer .done (outcomeBytes n .corrupt) (freeNote i s1)
      | (s1, true) => answer .done (outcomeBytes n (n.outcome.getD .corrupt)) (freeNote i s1)

/-- NOTE_OUTCOME (R139). -/
def execNoteOutcome (s : State) : Out := .next (hostFrame (some ()) everyMode outcomeBody s)

/-- ABORT_NOTES's body: ACCEPTED when an entry is left to its window (R140). -/
def abortBody (_ : Unit) (s : State) : State :=
  let left := noteInWindow s && (activeNote s).isSome
  answer (if left then .accepted else .done) [] (endNotes .aborted Ending.orAbort s)

/-- ABORT_NOTES (R140). -/
def execAbortNotes (s : State) : Out := .next (hostFrame (some ()) everyMode abortBody s)

/-- TAKE_NOTE's body: the oldest note leaves the ring; one that reads with a double error is reported CORRUPT (R146,
R154). The index is 4 (R156). -/
def takeBody (_ : Unit) (s : State) : State :=
  match s.notes.ring with
  | [] => answer .empty [] s
  | w :: ws =>
    let s1 := recordRead .notes 4 w.health { s with notes.ring := ws }
    answer .done (if w.health = .double then corruptNoteRecord else noteRecord w.val) s1

/-- TAKE_NOTE (R146). -/
def execTakeNote (s : State) : Out := .next (hostFrame (some ()) everyMode takeBody s)

end Sys2Proof.Machine
end

