-- ==== Sys2Proof/Machine/Resets.lean ====
section
/-! DEFINITION. The meanings of the reset commands (R21, R163, R165): POWER_ON_RESET, RESETN_LOW, RESETN_RELEASE,
RESET_STATION_RESET. -/

namespace Sys2Proof.Machine

/-- The straps sampled (R163). -/
def sampleStraps (straps : Station) (s : State) : State := { s with pins.station := straps }

/-- POWER_ON_RESET (R21): every block at its reset values, the straps sampled. The level of RESETN stays (log 21). -/
def execPowerOnReset (straps : Station) (s : State) : Out := .next (sampleStraps straps (resetStation s))

/-- RESETN_LOW (R21): every block at its reset values and held there; the straps are sampled at the release. -/
def execResetnLow (s : State) : Out := .next { resetStation s with pins.resetnLow := true }

/-- RESETN_RELEASE (R21): the straps are sampled, and the station, at its reset values, takes events again. Only a
RESETN that is low can be released (log 21). -/
def execResetnRelease (straps : Station) (s : State) : Out :=
  .next (if s.pins.resetnLow then sampleStraps straps { s with pins.resetnLow := false } else s)

/-- RESET_STATION_RESET (R21, R165): the rise of CSN that ends a frame. With a RESET_STATION executed in it the station
is reset, keeping the number sampled last; otherwise only the frame ends (log 20). -/
def execResetStationReset (s : State) : Out :=
  .next (if s.pins.resetnLow then s else csnRise s)

end Sys2Proof.Machine
end

