-- ==== Sys2Proof/Machine/SamplePort.lean ====
section
/-! DEFINITION. The meanings of the Sample Port's commands (R119 to R121): WORD_PERIOD_BEGIN, WORD_PERIOD_END. -/

namespace Sys2Proof.Machine

/-- The receive lanes in the order in which a round that last served `last` examines them (R121). -/
def servingOrder (last : LaneNo) : List LaneNo := allLanes.map fun k => Fin.ofNat 8 (last.val + 1 + k.val)

/-- The first lane of the round whose receive FIFO is not empty (R121). -/
def servedLane (s : State) : Option LaneNo :=
  (servingOrder s.lanes.lastServed).find? fun l => !(s.lanes.rxFifo.get l).isEmpty

/-- A word period begun with its outgoing word (R119): a period in progress is cut, and its word and the bits collected in
it are lost. -/
def openPeriod (out : BitVec 32) (s : State) : State := { s with lanes.period := some { out := out, collected := [] } }

/-- The outgoing word chosen (R121): valid 0 with all other bits 0 when every receive FIFO is empty. -/
def chooseWord (s : State) : State :=
  match servedLane s with
  | none => openPeriod 0 s
  | some l =>
    match takeRx l s with
    | (s1, none) => openPeriod 0 s1
    | (s1, some x) => openPeriod (sampleWord l x) { s1 with lanes.lastServed := l }

/-- SMPSYNC sampled at a rising edge of SMPCLK (R119): a period begins where it is high after a low sample, and SMPSYNC held
high begins no further one. -/
def sampleSync (level : Bool) (s : State) : State :=
  let s1 := { s with lanes.smpSync := level }
  if level && !s.lanes.smpSync then chooseWord s1 else s1

/-- WORD_PERIOD_BEGIN (R119, R121): SMPSYNC rises, so that a low sample and then a high one are taken. The bit of SMPIN at the
second comes with WORD_PERIOD_END, and SMPOUT keeps its level until the falling edges that it brings (log 35, DEDUCED). While
RESETN is low the Sample Port begins no period. -/
def execWordPeriodBegin (s : State) : Out :=
  .next (if s.pins.resetnLow then s else sampleSync true (sampleSync false s))

/-- An incoming word taken: discarded with valid 0, for a CLOSED lane, and where the lane's lookup finds a double error
(R120, R152). -/
def takeWord (w : BitVec 32) (s : State) : State :=
  if wordValid w then
    ((readStreams [wordLane w] false s).finally fun s1 =>
      if laneClosed s1 (wordLane w) then s1 else addTx (wordLane w) (wordSample w) s1).state
  else s

/-- One bit of SMPIN collected at a rising edge (R119), of the 32 of a period. Between periods no bit is collected. -/
def collectBit (s : State) (b : Bool) : State :=
  match s.lanes.period with
  | none => s
  | some p =>
    if p.collected.length < 32 then { s with lanes.period := some { p with collected := p.collected ++ [b] } } else s

/-- A level driven on SMPOUT. -/
def driveOut (level : Bool) (s : State) : State := { s with lanes.smpOut := level }

/-- What a falling edge does (R119): falling edge n after the beginning of a period drives bit 32 - n of its outgoing word, and
the 32nd, after the period's last bit, ends it and hands the incoming word on. Between periods SMPOUT is held low. -/
def driveBit (s : State) : State :=
  match s.lanes.period with
  | none => driveOut false s
  | some p =>
    let s1 := driveOut (p.out.getMsbD (p.collected.length - 1)) s
    if p.collected.length < 32 then s1
    else takeWord (BitVec.ofNat 32 (natOf p.collected)) { s1 with lanes.period := none }

/-- A rising edge of SMPCLK: SMPSYNC and SMPIN are sampled; the edge that begins a period collects its first bit (R119). While
RESETN is low the Sample Port begins no period and collects no bit. -/
def risingEdge (sync input : Bool) (s : State) : State :=
  if s.pins.resetnLow then s else collectBit (sampleSync sync s) input

/-- A falling edge of SMPCLK: SMPOUT changes (R119). While RESETN is low it is held low. -/
def fallingEdge (s : State) : State := if s.pins.resetnLow then driveOut false s else driveBit s

/-- The level of SMPOUT (R119): as the last falling edge has driven it, and low while RESETN is low. -/
def smpOutLevel (s : State) : Bool := !s.pins.resetnLow && s.lanes.smpOut

/-- One SMPCLK period within a word period: the rising edge at which a bit is collected, and the falling edge after it. -/
def clockBit (s : State) (b : Bool) : State := driveBit (collectBit s b)

/-- The 32 bits of a word, bit 31 first (12.3). -/
def wordBits (w : BitVec 32) : List Bool := bitsOf 32 w.toNat

/-- WORD_PERIOD_END (R119, R120): the 32 SMPCLK periods of the word period, with the 32 bits that SMPIN has carried, and the
falling edge after them, at which SMPOUT is low again (log 35, DEDUCED). Without a period in progress, as after a reset or an
end, it changes nothing (log 6, DESIGN CHOICE). SMPSYNC is low again by the end (log 35). -/
def execWordPeriodEnd (w : BitVec 32) (s : State) : Out :=
  .next (if s.pins.resetnLow then s
         else match s.lanes.period with
           | none => s
           | some p => driveOut false ((wordBits w).foldl clockBit (sampleSync false (openPeriod p.out s))))

end Sys2Proof.Machine
end

