-- ==== Sys2Proof/Machine/SnapshotCommands.lean ====
section
/-! DEFINITION. The meanings of SNAPSHOT and READ_SNAPSHOT (R155, R166, R168). -/

namespace Sys2Proof.Machine

/-- Permitted in every mode but OFF (Table 10-4). -/
def notOff (m : Mode) : Bool := m ≠ .off

/-- SNAPSHOT's body (R166). -/
def armBody (_ : Unit) (s : State) : State :=
  if s.port.snap.armed then answer .done [] s else answer .accepted [] { s with port.snap.armed := true }

/-- SNAPSHOT (R166). -/
def execSnapshot (s : State) : Out := .next (hostFrame (some ()) notOff armBody s)

/-- A read of the captured cycle number; the index is 64 (R156). -/
def readSnapCycle (s : State) : State × Bool :=
  let w := s.port.snap.cycle
  (recordRead .snapshot 64 w.health { s with port.snap.cycle := w.afterRead }, w.health ≠ .double)

/-- A read of one captured map record. -/
def readSnapSlot (n : Slot) (s : State) : State × Bool :=
  let w := s.port.snap.map.get n
  (recordRead .snapshot n.val w.health { s with port.snap.map := s.port.snap.map.set n w.afterRead },
   w.health ≠ .double)

/-- A read of one captured queue record, at place `i` from 0; the index is 48 and on (R156). -/
def readSnapEntry (i : Nat) (w : Stored QueueEntry) (s : State) : State × Bool :=
  (recordRead .snapshot (48 + i) w.health { s with port.snap.queue := s.port.snap.queue.set i w.afterRead },
   w.health ≠ .double)

/-- The map records of slots in order, or none from the first double error on. -/
def readSnapSlots : List Slot → State → State × Option (List (List Byte))
  | [], s => (s, some [])
  | n :: ns, s =>
    match readSnapSlot n s with
    | (s1, false) => (s1, none)
    | (s1, true) =>
      match readSnapSlots ns s1 with
      | (s2, none) => (s2, none)
      | (s2, some rs) => (s2, some (mapRecord (s.port.snap.map.get n).val :: rs))

/-- The queue records at places in order, those that the capture holds, or none from the first double error on. -/
def readSnapEntries : List Nat → State → State × Option (List (List Byte))
  | [], s => (s, some [])
  | i :: is, s =>
    match s.port.snap.queue[i]? with
    | none => readSnapEntries is s
    | some w =>
      match readSnapEntry i w s with
      | (s1, false) => (s1, none)
      | (s1, true) =>
        match readSnapEntries is s1 with
        | (s2, none) => (s2, none)
        | (s2, some rs) => (s2, some (queueRecord w.val :: rs))

/-- The records of a request. -/
def readSnapPart (p : SnapshotPart) (s : State) : State × Option (List (List Byte)) :=
  match p with
  | .map first count => readSnapSlots ((allSlots.drop first).take count) s
  | .queue first count => readSnapEntries (List.range' (first - 1) count) s

/-- The snapshot header (12.2.2): cycle number, captured entry count, records that follow. -/
def snapHeader (snap : SnapshotBuffer) (records : Nat) : List Byte :=
  bytes16 snap.cycle.val ++ [byteOf snap.queue.length, byteOf records]

/-- The buffer made invalid by a double error, and the answer (R155). -/
def snapFailed (s : State) : State := answer .notReady [] { s with port.snap.valid := false }

/-- READ_SNAPSHOT's body (R155, R168): the cycle number is read, then the records. -/
def snapshotBody (p : SnapshotPart) (s : State) : State :=
  if s.port.snap.valid then
    match readSnapCycle s with
    | (s1, false) => snapFailed s1
    | (s1, true) =>
      match readSnapPart p s1 with
      | (s2, none) => snapFailed s2
      | (s2, some rs) => answer .done (snapHeader s2.port.snap rs.length ++ rs.flatten) s2
  else answer .notReady [] s

/-- READ_SNAPSHOT (R168). -/
def execReadSnapshot (part first count : Byte) (s : State) : Out :=
  .next (hostFrame (snapshotParams part first count) everyMode snapshotBody s)

end Sys2Proof.Machine
end

