-- ==== Sys2Proof/Machine/Dispatch.lean ====
section
/-! DEFINITION. One arm per command, each a call of its meaning. -/

namespace Sys2Proof.Machine

def exec (i : Instr) (s : State) : Host.Outcome State Fault Refusal :=
  match i with
  | .powerOnReset straps => Sys2Proof.Machine.execPowerOnReset straps s
  | .resetnLow => Sys2Proof.Machine.execResetnLow s
  | .resetnRelease straps => Sys2Proof.Machine.execResetnRelease straps s
  | .resetStationReset => Sys2Proof.Machine.execResetStationReset s
  | .markReceived report => Sys2Proof.Machine.execMarkReceived report s
  | .ageTick => Sys2Proof.Machine.execAgeTick s
  | .queueEntryExpired => Sys2Proof.Machine.execQueueEntryExpired s
  | .withdrawalLimit => Sys2Proof.Machine.execWithdrawalLimit s
  | .resyncAttemptLimit => Sys2Proof.Machine.execResyncAttemptLimit s
  | .tagReceived slot report => Sys2Proof.Machine.execTagReceived slot report s
  | .slotFieldClosed => Sys2Proof.Machine.execSlotFieldClosed s
  | .silenceReclaim => Sys2Proof.Machine.execSilenceReclaim s
  | .windowStart => Sys2Proof.Machine.execWindowStart s
  | .arbitrationLost => Sys2Proof.Machine.execArbitrationLost s
  | .ownTransmissionCompleted readback answer => Sys2Proof.Machine.execOwnTransmissionCompleted readback answer s
  | .noteAttemptLimit lastAnswer => Sys2Proof.Machine.execNoteAttemptLimit lastAnswer s
  | .driverFault => Sys2Proof.Machine.execDriverFault s
  | .noteCheckSequenceReceived report => Sys2Proof.Machine.execNoteCheckSequenceReceived report s
  | .windowEnded report => Sys2Proof.Machine.execWindowEnded report s
  | .spacingCountdownExpired => Sys2Proof.Machine.execSpacingCountdownExpired s
  | .slotStart slot => Sys2Proof.Machine.execSlotStart slot s
  | .markContention => Sys2Proof.Machine.execMarkContention s
  | .markContentionWon => Sys2Proof.Machine.execMarkContentionWon s
  | .lineSilence => Sys2Proof.Machine.execLineSilence s
  | .foundingContentionStart => Sys2Proof.Machine.execFoundingContentionStart s
  | .founded => Sys2Proof.Machine.execFounded s
  | .wordPeriodBegin => Sys2Proof.Machine.execWordPeriodBegin s
  | .wordPeriodEnd word => Sys2Proof.Machine.execWordPeriodEnd word s
  | .frameCutShort => Sys2Proof.Machine.execFrameCutShort s
  | .frameCheckFailed code length payload crc => Sys2Proof.Machine.execFrameCheckFailed code length payload crc s
  | .lapseTimerExpired => Sys2Proof.Machine.execLapseTimerExpired s
  | .status => Sys2Proof.Machine.execStatus s
  | .configure patience reclaim attempts spacing group lapse => Sys2Proof.Machine.execConfigure patience reclaim attempts spacing group lapse s
  | .setMode mode => Sys2Proof.Machine.execSetMode mode s
  | .openStream lane label count flags => Sys2Proof.Machine.execOpenStream lane label count flags s
  | .closeStream lane => Sys2Proof.Machine.execCloseStream lane s
  | .readStream lane => Sys2Proof.Machine.execReadStream lane s
  | .setListen entry flags label mask lane => Sys2Proof.Machine.execSetListen entry flags label mask lane s
  | .readListen entry => Sys2Proof.Machine.execReadListen entry s
  | .readLanes => Sys2Proof.Machine.execReadLanes s
  | .sendNote tag kind number length payload => Sys2Proof.Machine.execSendNote tag kind number length payload s
  | .noteOutcome => Sys2Proof.Machine.execNoteOutcome s
  | .abortNotes => Sys2Proof.Machine.execAbortNotes s
  | .takeNote => Sys2Proof.Machine.execTakeNote s
  | .snapshot => Sys2Proof.Machine.execSnapshot s
  | .readSnapshot part first count => Sys2Proof.Machine.execReadSnapshot part first count s
  | .readAlerts => Sys2Proof.Machine.execReadAlerts s
  | .clearAlerts flags => Sys2Proof.Machine.execClearAlerts flags s
  | .setAlertMask masks => Sys2Proof.Machine.execSetAlertMask masks s
  | .readMemoryError => Sys2Proof.Machine.execReadMemoryError s
  | .restartBus => Sys2Proof.Machine.execRestartBus s
  | .resetStation => Sys2Proof.Machine.execResetStation s
  | .foundingContentionJoined => Sys2Proof.Machine.execFoundingContentionJoined s
  | .foundingContentionWon => Sys2Proof.Machine.execFoundingContentionWon s

end Sys2Proof.Machine
end

