-- ==== Sys2Proof/Safety.lean ====
section
/-! DEFINITION. The properties of a station that every step keeps, and the conditions on a state that the statements
name. -/

namespace Sys2Proof.Machine

/-! ## Invariants -/

/-- The learning phases each actual mode can have (R24, R27, R30, R31, R44): IDLE in OFF and only there, LEARNED in
MEMBER, not LEARNED in JOINING and RESYNC. -/
def phaseFits : Mode → Phase → Bool
  | .off, p => p = .idle
  | .member, p => p = .learned
  | .joining, p => p ≠ .idle && p ≠ .learned
  | .resync, p => p ≠ .idle && p ≠ .learned
  | .listen, p => p ≠ .idle
  | .withdrawing, p => p ≠ .idle

/-- A legal mode state (R14, R20, R24, R28, R34): the phase fits the mode, a withdrawal has a target and has not reached
its limit, a resync has not reached its limit, the counts are in range, and the silence timer is stopped exactly in OFF
and below its limit. -/
abbrev State.Legal (s : State) : Prop :=
  phaseFits s.mode.actual s.cycle.phase = true ∧
  (s.mode.actual = .withdrawing → s.mode.target ≠ .none ∧ s.mode.withdrawCount < 16) ∧
  (s.mode.actual = .resync → s.cycle.resyncAttempts < 4) ∧
  s.mode.withdrawCount ≤ 16 ∧ s.cycle.resyncAttempts ≤ 4 ∧
  (s.line.silenceTimer = none ↔ s.mode.actual = .off) ∧ s.line.silenceTimer.getD 0 < 24576

/-- In OFF and in LISTEN nothing of the station is on the line, it takes part in no contention, every stream is CLOSED
and the Control Outbox is empty (R23, R36, R96, R115). -/
abbrev State.Quiet (s : State) : Prop :=
  s.mode.actual = .off ∨ s.mode.actual = .listen →
  s.line.onLine = none ∧ s.line.contention = .none ∧ s.streams.outbox = [] ∧
  ∀ l : LaneNo, (s.streams.lanes.get l).val.state = .closed

/-- The stored lists keep their size and order (R52, R78, R79, R98, R118, R131, R133, R142): the Claim Queue has at most 16
entries with every URGENT one ahead of every NORMAL one; the Control Outbox never holds two entries for one lane, nor two
RESTARTs, and at most 9; a lane FIFO at most 32 words; the Transmit Note Queue and the Receive Note Ring at most 4 notes,
and an ACTIVE note stands behind DONE ones only, so that there is at most one; the rebuild list at most 48 tags. -/
abbrev State.ListsFit (s : State) : Prop :=
  s.alloc.queue.length ≤ 16 ∧
  (s.alloc.queue.Pairwise fun v w => w.val.cls = .urgent → v.val.cls = .urgent) ∧
  (s.streams.outbox.map fun e => e.val.lane?).Nodup ∧ s.streams.outbox.length ≤ 9 ∧
  (∀ l : LaneNo, (s.lanes.txFifo.get l).length ≤ 32 ∧ (s.lanes.rxFifo.get l).length ≤ 32) ∧
  s.notes.tx.length ≤ 4 ∧ (s.notes.tx.Pairwise fun m n => n.state = .active → m.state = .done) ∧
  s.notes.ring.length ≤ 4 ∧ s.alloc.rebuildList.length ≤ 48

/-- The shared tables agree (R40, R80): no identity and no label appears twice in the Claim Queue; and in the phases VERIFY
and LEARNED, in which messages are applied, no identity and no label is in both tables, and in the map two entries carry
one label exactly where they are of one stream. -/
abbrev State.TablesAgree (s : State) : Prop :=
  (s.alloc.queue.Pairwise fun v w =>
    v.val.label ≠ w.val.label ∧ ¬(v.val.station = w.val.station ∧ v.val.lane = w.val.lane)) ∧
  (s.cycle.phase = .verify ∨ s.cycle.phase = .learned →
    (∀ h ∈ heldEntries s, ∀ w ∈ s.alloc.queue,
      w.val.label ≠ h.label ∧ ¬(w.val.station = h.holder ∧ w.val.lane = h.lane)) ∧
    ∀ g ∈ heldEntries s, ∀ h ∈ heldEntries s, g.label = h.label ↔ g.holder = h.holder ∧ g.lane = h.lane)

/-! ## Kinds of commands -/

/-- The commands of the reset pins, the supply and the chip select, which can reset the station (R21, R165). -/
def isReset : Instr → Bool
  | .powerOnReset _ => true
  | .resetnLow => true
  | .resetnRelease _ => true
  | .resetStationReset => true
  | _ => false

/-- The commands whose event is on the line or at a mark, which the Line Unit reports only out of OFF (R1, R22). -/
def isLineEvent : Instr → Bool
  | .markReceived _ | .ageTick | .queueEntryExpired | .withdrawalLimit | .resyncAttemptLimit | .tagReceived _ _
  | .slotFieldClosed | .silenceReclaim | .windowStart | .arbitrationLost | .ownTransmissionCompleted _ _
  | .noteAttemptLimit _ | .driverFault | .noteCheckSequenceReceived _ | .windowEnded _ | .spacingCountdownExpired
  | .slotStart _ | .markContention | .markContentionWon | .lineSilence | .foundingContentionStart
  | .foundingContentionJoined | .foundingContentionWon | .founded => true
  | _ => false

/-- The commands whose event falls at a position of a framed cycle, so that an unframed unit reports none (R4). -/
def isFramedEvent : Instr → Bool
  | .tagReceived _ _ | .slotFieldClosed | .silenceReclaim | .windowStart | .noteCheckSequenceReceived _
  | .windowEnded _ | .slotStart _ | .markContention | .markContentionWon => true
  | _ => false

/-! ## Conditions on a state -/

/-- RESETN is high. -/
abbrev State.Running (s : State) : Prop := s.pins.resetnLow = false

/-- The station is on the bus: running, out of OFF, and framed. -/
abbrev State.Framed (s : State) : Prop := s.Running ∧ s.mode.actual ≠ .off ∧ s.line.framed = true

/-- Every stored word of the Slot Map reads without error. -/
abbrev State.MapClean (s : State) : Prop := ∀ n : Slot, (s.alloc.map.get n).health = .clean

/-- Every stored word of the Claim Queue reads without error. -/
abbrev State.QueueClean (s : State) : Prop := ∀ w ∈ s.alloc.queue, w.health = .clean

/-- Every stored word of the Stream Table and of the Control Outbox reads without error. -/
abbrev State.StreamsClean (s : State) : Prop :=
  (∀ l : LaneNo, (s.streams.lanes.get l).health = .clean) ∧ ∀ w ∈ s.streams.outbox, w.health = .clean

/-- The alert flag is set. -/
abbrev State.HasAlert (s : State) (a : Alert) : Prop := s.alerts.isSet a = true

/-- The shared tables empty: every slot FREE, no queue entry. -/
abbrev State.TablesEmpty (s : State) : Prop := (∀ n : Slot, entryAt s n = .free) ∧ s.alloc.queue = []

/-- Every lane CLOSED and the Control Outbox empty. -/
abbrev State.StreamsIdle (s : State) : Prop :=
  (∀ l : LaneNo, (laneOfState s l).state = .closed) ∧ s.streams.outbox = []

/-- Neither the Slot Map nor the Claim Queue holds anything under this station's number. -/
abbrev State.OwnsNothing (s : State) : Prop :=
  (∀ (n : Slot) (l : LaneNo), (entryAt s n).ofStream (own s) l = false) ∧
  ∀ w ∈ s.alloc.queue, w.val.station ≠ own s

/-- No entry of the Transmit Note Queue is ACTIVE, and no countdown has just been set. -/
abbrev State.NotesIdle (s : State) : Prop :=
  (∀ n ∈ s.notes.tx, n.state ≠ .active) ∧ s.notes.countdownFresh = false

/-- Every stored word of the Transmit Note Queue reads without error. -/
abbrev State.NotesClean (s : State) : Prop := ∀ n ∈ s.notes.tx, n.control = .clean ∧ n.body = .clean

/-- The Transmit Note Queue once its open entries are discarded (R139, R141): DONE with outcome DISCARDED and countdown 0,
but for the ACTIVE entry of a note that is in its window, left to that window as discard-pending. -/
abbrev State.discarded (s : State) : List TxNote :=
  s.notes.tx.map fun n =>
    if n.state = .done then n
    else if n.state = .active && noteInWindow s then
      { n with ending := if n.ending = .abort then .abort else .discard }
    else { n with
      state := .done, outcome := some .discarded, countdown := 0, ending := .none, control := .clean }

/-- A lane whose CLAIM, closed in its window, has not passed the 17 bit times of its contention, so that a cut is reported as
arbitration lost and the lane becomes CLOSED(CANCELLED) (R8, R13, R102, log 8); its entry gives data (log 37). -/
abbrev State.ClaimContends (s : State) (l : LaneNo) : Prop :=
  claimInWindow l s = true ∧ (laneOfState s l).state = .cancelling ∧ s.line.messageBits < 17 ∧
  (s.streams.lanes.get l).health ≠ .double

/-- The streams that were not CLOSED have an outcome, but for one whose CLAIM, closed in its window, was cut in its
contention: CANCELLED. -/
abbrev State.ClosedFrom (t s : State) (o : StreamOutcome) : Prop :=
  ∀ l : LaneNo, (laneOfState s l).state ≠ .closed →
    (laneOfState t l).outcome = if s.ClaimContends l then .cancelled else o

/-! ## Frames of host commands -/

/-- A host command's frame is taken in a chip-select period of its own: RESETN is high, and no RESET_STATION waits for
the rise of CSN that precedes the frame. -/
abbrev State.HostReady (s : State) : Prop := s.Running ∧ s.port.resetArmed = false

/-- The Command Port after the collection of a frame that passes checks 1 to 4: TURNAROUND, and the lapse timer reloaded
with the period in force (R157, R158, R169). -/
abbrev State.frameTaken (s : State) : State :=
  { s with
    port.assembler := .turnaround 0
    port.lapse := if s.port.config.lapsePeriod = 0 then none else some s.port.config.lapsePeriod
    port.lapseBits := 0 }

/-- The response fixed (R159). -/
abbrev State.responds (s : State) (st : Status) (payload : List Byte) : State :=
  { s with port.response := some ⟨st, payload⟩ }

/-- A host command's frame answered with a status and a payload, and nothing else done. -/
abbrev State.answered (s : State) (st : Status) (payload : List Byte) : State := s.frameTaken.responds st payload

end Sys2Proof.Machine
end

