-- ==== Sys2Proof/WellFormed.lean ====
section
/-! DEFINITION. Which operands an event of the C48 can carry. The types rule out most others; these checks the rest. -/

namespace Sys2Proof

/-- A note on the line carries 1 to 32 bytes (R178). -/
def NoteContents.wellFormed (n : NoteContents) : Bool := 1 ≤ n.payload.length && n.payload.length ≤ 32

/-- The operands that the event or frame of a command can carry. -/
def Instr.wellFormed : Instr → Bool
  /- a summary carries at most 16 entries: R3, a mark above it is damaged -/
  | .markReceived (.intact m) => m.summary.length ≤ 16
  | .windowEnded (.intact _ (.note n)) => n.wellFormed
  /- given for STATION notes only: R144 -/
  | .noteCheckSequenceReceived (.intact _ n) => n.wellFormed && n.kind = 0
  /- on a readback mismatch the report carries no answer: R2 -/
  | .ownTransmissionCompleted .mismatch a => a = .none
  /- the limit is reached without ACK: R136 -/
  | .noteAttemptLimit a => a ≠ .ack
  /- 4 plus 1 to 32 bytes: R179 -/
  | .sendNote _ _ _ _ payload => 1 ≤ payload.length && payload.length ≤ 32
  /- the payload collected has the length the frame states, nothing is collected after a length above 40, and
  one of checks 1 to 4 fails: R157, R158 -/
  | .frameCheckFailed code length payload crc =>
    payload.length = (if 40 < length.toNat then 0 else length.toNat) && (frameFailure code length payload crc).isSome
  | .markReceived .missing | .markReceived .damaged | .windowEnded .empty | .windowEnded .damaged
  | .windowEnded (.intact _ (.claim ..)) | .windowEnded (.intact _ (.release _))
  | .windowEnded (.intact _ (.withdraw _)) | .windowEnded (.intact _ .restart) | .windowEnded (.intact _ .noKind)
  | .noteCheckSequenceReceived .damaged | .ownTransmissionCompleted .good _
  | .powerOnReset .. | .resetnLow | .resetnRelease .. | .resetStationReset | .ageTick | .queueEntryExpired
  | .withdrawalLimit | .resyncAttemptLimit | .tagReceived .. | .slotFieldClosed | .silenceReclaim | .windowStart
  | .arbitrationLost | .driverFault | .spacingCountdownExpired | .slotStart .. | .markContention
  | .markContentionWon | .lineSilence | .foundingContentionStart | .founded | .wordPeriodBegin | .wordPeriodEnd ..
  | .frameCutShort | .lapseTimerExpired | .status | .configure .. | .setMode .. | .openStream .. | .closeStream ..
  | .readStream .. | .setListen .. | .readListen .. | .readLanes | .noteOutcome | .abortNotes | .takeNote
  | .snapshot | .readSnapshot .. | .readAlerts | .clearAlerts .. | .setAlertMask .. | .readMemoryError
  | .restartBus | .resetStation | .foundingContentionJoined | .foundingContentionWon => true

end Sys2Proof
end

