-- ==== Sys2Proof/Certificates/Slice0/Obligations.lean ====
section
/-! DEFINITION. The statements for the provers, taken from the spec's numbered rules. -/

open Sys2Proof Sys2Proof.Machine

/-! ## Steps, and the state right after a reset -/

/-- A step takes the command at the front of the queue and executes it on the state with the queue's rest. -/
def Obligations.StepTakesFront : Prop :=
  ∀ (c : Instr) (rest : List Instr) (s : State), s.pending = c :: rest →
    step s = exec c { s with pending := rest }

/-- With nothing waiting one bit time passes (log 4, DESIGN CHOICE): a message on the line is one bit time further in its
window (R4, R8; log 8); a running silence timer counts one bit time and restarts at 24576 in MEMBER (R14); a running lapse
timer counts one bit time of its unit, or one unit less where the unit ends (R169). In a chip-select period the host goes on
clocking (log 20, DESIGN CHOICE): the turnaround byte and then each byte of the response pass in 24 bit times, TRAILING
follows, and SDO gives FFh outside the response and nothing in IDLE (R157, Table 10-1). -/
def Obligations.StepWithNothingWaiting : Prop :=
  ∀ s : State, s.pending = [] →
    let unsent : Prop := headInWindow s = false ∧ noteInWindow s = false
    let quiet : Prop := s.port.assembler = .idle ∨ s.port.assembler = .command ∨ s.port.assembler = .trailing
    let still : Prop := unsent ∧ quiet
    let moves (a : Assembler) : Prop := step s = .next { s with port := { s.port with assembler := a } }
    (still → s.line.silenceTimer = none → s.port.lapse = none → step s = .next s) ∧
    (¬unsent → quiet → s.line.silenceTimer = none → s.port.lapse = none →
      step s = .next { s with line := { s.line with messageBits := s.line.messageBits + 1 } }) ∧
    (∀ n, still → s.line.silenceTimer = some n → n + 1 < 24576 → s.port.lapse = none →
      step s = .next { s with line := { s.line with silenceTimer := some (n + 1) } }) ∧
    (∀ n, still → s.line.silenceTimer = some n → n + 1 = 24576 → s.mode.actual = .member → s.port.lapse = none →
      step s = .next { s with line := { s.line with silenceTimer := some 0 } }) ∧
    (∀ n, still → s.line.silenceTimer = none → s.port.lapse = some n → s.port.lapseBits + 1 < 491520 →
      step s = .next { s with port := { s.port with lapseBits := s.port.lapseBits + 1 } }) ∧
    (∀ n, still → s.line.silenceTimer = none → s.port.lapse = some n → 1 < n → s.port.lapseBits + 1 = 491520 →
      step s = .next { s with port := { s.port with lapse := some (n - 1), lapseBits := 0 } }) ∧
    (unsent → s.line.silenceTimer = none → s.port.lapse = none →
      (∀ n, s.port.assembler = .turnaround n → n + 1 < 24 → moves (.turnaround (n + 1))) ∧
      (s.port.assembler = .turnaround 23 → moves (.response 0)) ∧
      (∀ n r, s.port.assembler = .response n → s.port.response = some r →
        (n + 1 < 24 * (r.payload.length + 4) → moves (.response (n + 1))) ∧
        (n + 1 = 24 * (r.payload.length + 4) → moves .trailing))) ∧
    (s.port.assembler = .idle → sdoByte s.port = none) ∧
    (∀ n, s.port.assembler = .command ∨ s.port.assembler = .turnaround n ∨ s.port.assembler = .trailing →
      sdoByte s.port = some 0xFF) ∧
    (∀ n r b, s.port.assembler = .response n → s.port.response = some r →
      ([r.status.code, byteOf r.payload.length] ++ r.payload ++
        bytes16 (frameCrc ([r.status.code, byteOf r.payload.length] ++ r.payload)))[n / 24]? = some b →
      sdoByte s.port = some b)

/-- Every command answers a next state, leaves the queue of commands as it was, and changes the station number and the
level of RESETN only where it is a reset (R21, R163). -/
def Obligations.EveryCommandAnswersNext : Prop :=
  ∀ (i : Instr) (s : State), ∃ t, exec i s = .next t ∧ t.pending = s.pending ∧ (isReset i = false → t.pins = s.pins)

/-- The three resets of the supply and of RESETN (R21, R163) give every block its reset values, and the straps are sampled
at power-on and at the release of RESETN; and the values that the manual gives each block after a reset (R1, R4, R14,
R17, R20, R24, R39, R78, R96, R98, R118, R121, R124, R126, R131, R142, R162, R166, R169, R171). The level of RESETN at a
power-on reset is the model's own (log 21). -/
def Obligations.ResetsGiveResetValues : Prop :=
  (∀ (s : State) (n : Station),
    exec (.powerOnReset n) s = .next { State.reset with
      pins := ⟨n, s.pins.resetnLow⟩, pending := s.pending } ∧
    exec .resetnLow s = .next { State.reset with
      pins := ⟨s.pins.station, true⟩, pending := s.pending } ∧
    (s.pins.resetnLow = true → exec (.resetnRelease n) s = .next { s with pins := ⟨n, false⟩ })) ∧
  let s := State.reset
  s.mode = { actual := .off, requested := .off, target := .none, withdrawCount := 0, cause := .none } ∧
  s.cycle.cycleNumber = 0 ∧ s.cycle.marker = 0 ∧ s.cycle.phase = .idle ∧ s.cycle.resyncAttempts = 0 ∧
  s.line.driverEnable = false ∧ s.line.framed = false ∧ s.line.silenceTimer = none ∧ s.line.driverFaultCount = 0 ∧
  (∀ n : Slot, entryAt s n = .free) ∧ s.alloc.queue = [] ∧
  (∀ l : LaneNo, laneOfState s l =
    { state := .closed, label := 0, count := 1, cls := .normal, wait := false, ret := false, slots := [],
      position := none, outcome := .none, changed := false, gapCount := 0, grantCycle := 0,
      closeOnWithdraw := false }) ∧ s.streams.outbox = [] ∧
  (∀ l : LaneNo, s.lanes.txFifo.get l = [] ∧ s.lanes.rxFifo.get l = [] ∧ s.lanes.txOverrun.get l = false ∧
    s.lanes.rxOverrun.get l = false) ∧ s.lanes.lastServed = 7 ∧
  (∀ e : Fin 16, s.lanes.listen.get e = { enabled := false, label := 0, mask := 0, lane := 0, acceptOwn := false }) ∧
  s.notes.tx = [] ∧ s.notes.ring = [] ∧
  s.port.config =
    { patience := 40, reclaim := 8, noteAttempts := 4, noteSpacing := 2, groupEnable := false, groupNumber := 0,
      lapsePeriod := 0 } ∧
  s.port.lapse = none ∧ s.port.snap.valid = false ∧ s.port.snap.armed = false ∧ s.port.assembler = .idle ∧
  (∀ a : Alert, s.HasAlert a ↔ a = .start) ∧ s.alerts.masks = BitVec.allOnes 18 ∧ attnLow s = true

/-- RESET_STATION (R165): permitted in every mode; on execution the response carries DONE and nothing else changes but
what every good frame does; at the rise of CSN the station is reset, with the Command Port IDLE, the lapse timer stopped
with period 0, the snapshot buffer invalid and not armed, and the configuration at its defaults. One chip-select period
carries one frame, so that a next frame, which begins with a fall of CSN, finds the station reset (R157; that the rise
before it is no command of its own is log 20, DESIGN CHOICE). -/
def Obligations.ResetStationActsAtCsn : Prop :=
  (∀ s : State, s.HostReady → exec .resetStation s =
    .next { s.answered .done [] with port.resetArmed := true }) ∧
  ∀ s : State, s.Running → s.port.resetArmed = true →
    let t : State := { State.reset with pins := s.pins, pending := s.pending }
    exec .resetStationReset s = .next t ∧ t.port.assembler = .idle ∧ t.port.lapse = none ∧
    t.port.config.lapsePeriod = 0 ∧ t.port.snap.valid = false ∧ t.port.snap.armed = false ∧
    t.port.config = Configuration.default ∧ t.mode.actual = .off ∧
    ∀ i : Instr, codeAndPayload i ≠ none ∨ i = .frameCutShort → exec i s = exec i t

/-- While RESETN is low no command but the resets changes anything (R21); in OFF no event of the line does (R1, R22); and
an unframed unit reports no event of a framed cycle (R4). That such an event changes nothing is the model's own reading
of an event that cannot arise (log 6, DESIGN CHOICE). -/
def Obligations.NothingWhileHeldOffOrUnframed : Prop :=
  ∀ (i : Instr) (s : State),
    (s.pins.resetnLow = true → isReset i = false → exec i s = .next s) ∧
    (s.mode.actual = .off → isLineEvent i = true → exec i s = .next s) ∧
    (s.line.framed = false → isFramedEvent i = true → exec i s = .next s)

/-! ## Invariants -/

/-- Every step keeps the mode state legal: the learning phase fits the mode, a withdrawal has a target, the counts are
below their limits, and the silence timer is stopped exactly in OFF (R14, R20, R24, R28, R34). -/
def Obligations.LegalModeKept : Prop := ∀ s t : State, s.Legal → step s = .next t → t.Legal

/-- Every step keeps a station in OFF or LISTEN quiet: nothing of its own on the line, no contention, every stream CLOSED
and the Control Outbox empty (R13, R22, R23, R36, R96). -/
def Obligations.QuietInOffAndListenKept : Prop := ∀ s t : State, s.Quiet → step s = .next t → t.Quiet

/-- Every step keeps the stored lists within their sizes and in their order: the Claim Queue, the Control Outbox, the lane
FIFOs, the notes, the rebuild list (R52, R66, R78, R79, R98, R118, R131, R133, R142). -/
def Obligations.StoredListsKept : Prop := ∀ s t : State, s.ListsFit → step s = .next t → t.ListsFit

/-- Every step keeps the shared tables in agreement: no identity and no label appears twice in the Claim Queue, nor in both
tables, and no label is carried by two streams (R40, R53, R59, R60, R61, R80, R88, R91). -/
def Obligations.SharedTablesAgreeKept : Prop := ∀ s t : State, s.TablesAgree → step s = .next t → t.TablesAgree

/-- The four invariants hold right after reset. -/
def Obligations.InvariantsHoldAtReset : Prop :=
  State.reset.Legal ∧ State.reset.Quiet ∧ State.reset.ListsFit ∧ State.reset.TablesAgree

/-! ## Marks -/

/-- A damaged mark, or a missing one, at a learned station (R4, R29, R31, R36). In MEMBER: RESYNC in phase ADOPT with the
resync count 0 and both tables empty, the cycle number one more, the alerts CONFLICT and MODE; the streams, the outbox and
the requested mode are kept; the notes are discarded (R141): every entry that is not DONE becomes DONE with outcome
DISCARDED and the alert NOTE_DONE, and one in its window is left to it. In LISTEN: phase ADOPT with both tables empty and the
cycle number one more, and nothing else. -/
def Obligations.DamagedMarkAtALearnedStation : Prop :=
  ∀ s : State, s.Running → s.cycle.phase = .learned →
    ∀ r : MarkReport, r = .damaged ∨ (r = .missing ∧ s.line.framed = true) →
    (s.mode.actual = .member → ∃ t, exec (.markReceived r) s = .next t ∧
      t.mode = { s.mode with actual := .resync } ∧
      t.cycle = { s.cycle with
        cycleNumber := s.cycle.cycleNumber + 1, phase := .adopt, resyncAttempts := 0, foundingPending := false,
        foundingMarkDue := false, winnerMarkDue := false, tickDone := false } ∧
      t.TablesEmpty ∧ t.HasAlert .conflict ∧ t.HasAlert .mode ∧ t.streams = s.streams ∧ t.lanes = s.lanes ∧
      t.line.framed = decide (r = .damaged) ∧ t.line.silenceTimer = s.line.silenceTimer ∧
      t.line.onLine = s.line.onLine ∧ t.line.driverEnable = s.line.driverEnable ∧
      (∀ n ∈ t.notes.tx, n.state = .active → noteInWindow s = true) ∧ t.notes.ring = s.notes.ring ∧
      (s.NotesClean → t.notes.tx = s.discarded ∧ ((∃ n ∈ s.notes.tx, n.state = .pending) → t.HasAlert .noteDone)) ∧
      t.errorRecord = s.errorRecord ∧ t.pins = s.pins ∧ t.port = s.port) ∧
    (s.mode.actual = .listen → ∃ t, exec (.markReceived r) s = .next t ∧ t.TablesEmpty ∧
      t.cycle = { s.cycle with
        cycleNumber := s.cycle.cycleNumber + 1, phase := .adopt, foundingMarkDue := false, winnerMarkDue := false,
        tickDone := false } ∧
      t.mode = s.mode ∧ t.streams = s.streams ∧ t.lanes = s.lanes ∧ t.notes = s.notes ∧ t.port = s.port ∧
      t.alerts = s.alerts ∧ t.line.framed = decide (r = .damaged))

/-- An intact mark at a learned station in MEMBER, LISTEN and WITHDRAWING, at which no tick falls (R29, R31, R33, R34, R87,
R88, R93, R111). All checks equal: the cycle number and the marker are those of the mark, every own entry's position is
recorded for its WAITING lane, and tables, streams and modes stay. Stamp different: the alert and the cause CONFIG_MISMATCH;
MEMBER enters WITHDRAWING with target LISTEN and follows the mark; LISTEN learns again from step (a), at which the stamp
differs too. A LISTEN station whose map was found wrong while withdrawing begins again at step (a) with the mark, all checks
equal or not (R35, R47; log 48, DESIGN CHOICE). Out of sequence or summary unequal: MEMBER enters RESYNC with this mark as its
step (a), not counted, and LISTEN begins again at step (a) with it, so that a lawful summary is adopted and an unlawful one is
not. WITHDRAWING follows every intact mark and counts it, without a change of mode, target or phase. That the mark at which a
MEMBER station enters WITHDRAWING is not itself counted, so that the count is 0 after it, is log 15 (DEDUCED). -/
def Obligations.IntactMarkAtALearnedStation : Prop :=
  ∀ (s : State) (m : MarkContents), s.Running → s.cycle.phase = .learned → s.QueueClean → s.StreamsClean →
    s.TablesAgree → s.port.snap.armed = false → s.cycle.foundingMarkDue = false → m.summary.length ≤ 16 →
    m.cycle.toNat % 1024 ≠ 0 →
    let stamp : Prop := m.patience = s.port.config.patience ∧ m.reclaim = s.port.config.reclaim
    let equal : Prop := stamp ∧ m.cycle = s.cycle.cycleNumber + 1 ∧ lawful m = true ∧
      m.summary.map entryOfSummary = s.alloc.queue.map (·.val)
    let followed (t : State) : Prop :=
      t.cycle.cycleNumber = m.cycle ∧ t.cycle.marker = m.marker ∧ t.cycle.phase = .learned ∧ t.alloc = s.alloc ∧
      t.line.framed = true ∧ t.line.silenceTimer = some 0 ∧ t.line.txSlots = [] ∧ t.port = s.port ∧
      t.notes.ring = s.notes.ring
    let adopted (t : State) : Prop := t.cycle.resyncAttempts = (if s.mode.actual = .member then 0 else
        s.cycle.resyncAttempts) ∧ (∀ n : Slot, entryAt t n = .free) ∧ t.alloc.mapFoundWrong = false ∧
      t.streams = s.streams ∧
      (lawful m = true → t.cycle.cycleNumber = m.cycle ∧ t.cycle.marker = m.marker ∧ t.cycle.phase = .rebuild ∧
        t.alloc.queue = (m.summary.map fun e => .fresh (entryOfSummary e)) ∧ t.HasAlert .queueAdopted) ∧
      (lawful m = false → t.cycle.cycleNumber = s.cycle.cycleNumber ∧ t.cycle.phase = .adopt ∧ t.alloc.queue = [])
    (equal → s.mode.actual = .member ∨ s.mode.actual = .listen ∧ s.alloc.mapFoundWrong = false → ∃ t, exec (.markReceived (.intact m)) s = .next t ∧
      followed t ∧ t.mode = s.mode ∧ t.notes = s.notes ∧ t.alerts = s.alerts ∧
      t.streams.outbox = s.streams.outbox ∧
      (∀ i w, s.alloc.queue[i]? = some w → w.val.station = own s → (laneOfState s w.val.lane).state = .waiting →
        laneOfState t w.val.lane = { laneOfState s w.val.lane with position := some (i + 1) }) ∧
      (∀ l, (∀ w ∈ s.alloc.queue, ¬(w.val.station = own s ∧ w.val.lane = l)) →
        laneOfState t l = laneOfState s l)) ∧
    (¬stamp → s.mode.actual = .member → s.streams.outbox ≠ [] ∨ (∃ l, (laneOfState s l).state = .held) →
      (∀ e ∈ s.streams.outbox, e.val ≠ .restart ∧ ∀ l, e.val ≠ .claim l) →
      ∃ t, exec (.markReceived (.intact m)) s = .next t ∧ followed t ∧
        t.mode = { actual := .withdrawing, requested := .listen, target := .listen, withdrawCount := 0,
                   cause := .configMismatch } ∧ t.HasAlert .configMismatch ∧ t.HasAlert .mode) ∧
    (¬stamp → s.mode.actual = .listen → ∃ t, exec (.markReceived (.intact m)) s = .next t ∧
      t.mode = { s.mode with cause := .configMismatch } ∧ t.cycle.phase = .adopt ∧ t.TablesEmpty ∧
      t.cycle.cycleNumber = s.cycle.cycleNumber ∧ t.HasAlert .configMismatch ∧ t.streams = s.streams) ∧
    (stamp → ¬equal → s.mode.actual = .member → ∃ t, exec (.markReceived (.intact m)) s = .next t ∧ adopted t ∧
      t.mode = { s.mode with actual := .resync } ∧ t.HasAlert .conflict ∧ t.HasAlert .mode) ∧
    (stamp → ¬equal ∨ s.alloc.mapFoundWrong = true → s.mode.actual = .listen → ∃ t, exec (.markReceived (.intact m)) s = .next t ∧ adopted t ∧
      t.mode = s.mode) ∧
    (s.mode.actual = .withdrawing → s.mode.withdrawCount < 15 → ∃ t, exec (.markReceived (.intact m)) s = .next t ∧
      followed t ∧ t.streams.outbox = s.streams.outbox ∧
      t.mode = { s.mode with
        withdrawCount := s.mode.withdrawCount + 1
        cause := if m.patience = s.port.config.patience ∧ m.reclaim = s.port.config.reclaim then s.mode.cause
                 else .configMismatch } ∧
      (¬stamp → t.HasAlert .configMismatch))

/-- Step (a): an intact mark in phase ADOPT at which no tick falls (R25, R34, R88, R89), or in JOINING the winner's mark after a
founding contention lost, in phase VERIFY too (R15, R30): there the notices that the purge has held are dropped, as by every
step (a) that starts from VERIFY (R91). With an equal stamp and a lawful
summary, in LISTEN, JOINING, RESYNC and WITHDRAWING: the queue becomes the summary, the cycle number and the marker are those
of the mark, the phase becomes REBUILD, the alert QUEUE_ADOPTED is set, the silence timer restarts (R14), and a withdrawal
counts the mark; nothing else changes. With a different stamp the alert and the cause CONFIG_MISMATCH are set and the phase
stays ADOPT: JOINING moves to LISTEN, its streams CLOSED(ABANDONED), the outbox emptied and the notes discarded; RESYNC makes
the direct fault entry, with empty tables; LISTEN and WITHDRAWING stay as they are. A CLAIM closed in its window that an entry
into LISTEN cuts in its contention becomes CLOSED(CANCELLED) (R8, R13; its bit times: log 8). -/
def Obligations.IntactMarkIsAdopted : Prop :=
  ∀ (s : State) (m : MarkContents), s.Running →
    s.cycle.phase = .adopt ∨
      s.cycle.phase = .verify ∧ s.mode.actual = .joining ∧ s.cycle.winnerMarkDue = true →
    m.summary.length ≤ 16 → m.cycle.toNat % 1024 ≠ 0 → s.port.snap.armed = false →
    let stamp : Prop := m.patience = s.port.config.patience ∧ m.reclaim = s.port.config.reclaim
    let counted : ModeController :=
      if s.mode.actual = .withdrawing then { s.mode with withdrawCount := s.mode.withdrawCount + 1 } else s.mode
    let begun : AllocationUnit :=
      if s.cycle.phase = .verify then { s.alloc with rebuildList := [], heldNotices := [] } else s.alloc
    let heard : State := { s with
      line := { s.line with framed := true, txSlots := [], silenceTimer := some 0 }
      cycle := { s.cycle with foundingMarkDue := false, winnerMarkDue := false, tickDone := false }
      mode := counted
      alloc := begun }
    let toListen (t : State) : Prop := t.cycle.phase = .adopt ∧ t.cycle.cycleNumber = s.cycle.cycleNumber ∧ t.StreamsIdle ∧
      t.HasAlert .configMismatch ∧ t.HasAlert .mode ∧ t.line.framed = true ∧ t.line.silenceTimer = some 0 ∧
      (s.line.onLine = none → ∀ n ∈ t.notes.tx, n.state = .done)
    (stamp → lawful m = true → s.mode.actual = .listen ∨ s.mode.actual = .joining ∨ s.mode.actual = .resync ∨
        s.mode.actual = .withdrawing ∧ s.mode.withdrawCount < 15 →
      exec (.markReceived (.intact m)) s = .next { heard with
        cycle := { heard.cycle with cycleNumber := m.cycle, marker := m.marker, phase := .rebuild }
        alloc := { begun with queue := m.summary.map fun e => .fresh (entryOfSummary e), rebuildList := [] }
        alerts := s.alerts.raise .queueAdopted }) ∧
    (¬stamp → s.mode.actual = .joining → ∃ t, exec (.markReceived (.intact m)) s = .next t ∧ toListen t ∧
      t.mode = { s.mode with actual := .listen, requested := .listen, cause := .configMismatch } ∧ t.alloc = begun ∧
      t.ClosedFrom s .abandoned) ∧
    (¬stamp → s.mode.actual = .resync → ∃ t, exec (.markReceived (.intact m)) s = .next t ∧ toListen t ∧
      t.mode =
        { actual := .listen, requested := .listen, target := .none, withdrawCount := 0, cause := .configMismatch } ∧
      t.TablesEmpty ∧ t.ClosedFrom s .fault) ∧
    (¬stamp → s.mode.actual = .listen ∨ s.mode.actual = .withdrawing ∧ s.mode.withdrawCount < 15 →
      exec (.markReceived (.intact m)) s = .next { heard with
        mode := { counted with cause := .configMismatch }, alerts := s.alerts.raise .configMismatch })

/-- A mark that passes the verify, at a station in LISTEN or JOINING that has nothing of its own in the tables and no
stream open, at which no tick falls (R27, R87, R93, R116), and that is not the mark which a loser of a founding contention takes
as its step (a) (R15, R30) nor the one at which a map found wrong while withdrawing is relearned (R47; log 48, DESIGN CHOICE):
the phase becomes LEARNED with the mark's cycle number and
marker; a JOINING station becomes MEMBER with the alert MODE, and a founding stays pending no longer. -/
def Obligations.VerifyPassMakesLearned : Prop :=
  ∀ (s : State) (m : MarkContents), s.Running → s.cycle.phase = .verify →
    s.mode.actual = .listen ∨ s.mode.actual = .joining ∧ s.cycle.winnerMarkDue = false → s.alloc.mapFoundWrong = false →
    s.MapClean → s.QueueClean → s.StreamsClean → s.StreamsIdle → s.OwnsNothing → s.alloc.heldNotices = [] →
    m.patience = s.port.config.patience → m.reclaim = s.port.config.reclaim →
    m.cycle = s.cycle.cycleNumber + 1 → summaryAgrees m s = true → m.summary.length ≤ 16 →
    m.cycle.toNat % 1024 ≠ 0 → s.port.snap.armed = false →
    exec (.markReceived (.intact m)) s = .next { s with
      line := { s.line with framed := true, txSlots := [], silenceTimer := some 0 }
      cycle := { s.cycle with
        cycleNumber := m.cycle
        marker := m.marker
        phase := .learned
        foundingPending := s.cycle.foundingPending && s.mode.actual = .listen
        foundingMarkDue := false
        winnerMarkDue := false
        tickDone := false }
      mode := { s.mode with actual := if s.mode.actual = .joining then .member else .listen }
      alerts := if s.mode.actual = .joining then s.alerts.raise .mode else s.alerts }

/-- A mark that passes the verify in JOINING, RESYNC or WITHDRAWING, at which no tick falls, with no message of the station in
its window, and that is not the mark which a loser of a founding contention takes as its step (a) nor the one at which a
JOINING station relearns a map found wrong while withdrawing (log 48, DESIGN CHOICE) (R15, R27, R30, R93, R111, R116, R117,
Table 6-4): phase LEARNED, JOINING and RESYNC become MEMBER, a withdrawal counts the mark; and every lane is reconciled with
what the tables hold under its identity, its outbox entries with it. A GRANTED notice held by the purge reaches its WAITING
lane before reconciliation, so that the lane is HELD with the cycle number of the notice (R91). That a HELD or CANCELLING lane
whose record differs takes the values found with its changed flag set is log 34 (DEDUCED); a CLOSING lane found in the queue
is log 26. -/
def Obligations.VerifyPassReconciles : Prop :=
  ∀ (s : State) (m : MarkContents), s.Running → s.cycle.phase = .verify →
    s.mode.actual = .joining ∧ s.cycle.winnerMarkDue = false ∧ s.alloc.mapFoundWrong = false ∨ s.mode.actual = .resync ∨
      s.mode.actual = .withdrawing ∧ s.mode.withdrawCount < 15 ∧ s.mode.target ≠ .none →
    s.MapClean → s.QueueClean → s.StreamsClean → s.ListsFit → s.TablesAgree → s.line.onLine = none →
    m.patience = s.port.config.patience → m.reclaim = s.port.config.reclaim → m.cycle = s.cycle.cycleNumber + 1 →
    summaryAgrees m s = true → m.summary.length ≤ 16 → m.cycle.toNat % 1024 ≠ 0 → s.port.snap.armed = false →
    (∀ l slots cyc, s.alloc.heldNotices = [.fresh (.granted l slots cyc)] → (laneOfState s l).state = .waiting →
      slots ≠ [] → slots = streamSlots (own s) l s →
      (∀ h ∈ heldEntries s, h.holder = own s → h.lane = l → h.label = (laneOfState s l).label ∧
        h.count = (laneOfState s l).count ∧ h.cls = (laneOfState s l).cls ∧ h.ret = (laneOfState s l).ret) →
      ∃ t, exec (.markReceived (.intact m)) s = .next t ∧ t.alloc = { s.alloc with heldNotices := [] } ∧
        t.cycle.phase = .learned ∧ t.cycle.cycleNumber = m.cycle ∧ t.HasAlert .stream ∧
        laneOfState t l = { laneOfState s l with
          state := .held, slots := slots, position := none, outcome := .granted, grantCycle := cyc, changed := true }) ∧
    (s.alloc.heldNotices = [] →
    ∃ t, exec (.markReceived (.intact m)) s = .next t ∧ t.cycle.cycleNumber = m.cycle ∧ t.cycle.marker = m.marker ∧
      (s.mode.actual = .joining ∨ s.mode.actual = .resync → t.mode = { s.mode with actual := .member } ∧
        t.cycle.phase = .learned ∧ t.HasAlert .mode ∧ t.alloc = s.alloc) ∧
      (s.mode.actual = .withdrawing → t.streams.outbox ≠ [] ∨ (∃ l, (laneOfState t l).state ≠ .closed) →
        t.mode = { s.mode with withdrawCount := s.mode.withdrawCount + 1 } ∧ t.cycle.phase = .learned ∧
        t.alloc = s.alloc) ∧
      ∀ l : LaneNo,
        let r := laneOfState s l
        let r' := laneOfState t l
        let box := (s.streams.outbox.map (·.val)).filter fun e => e.lane? = some l
        let box' := (t.streams.outbox.map (·.val)).filter fun e => e.lane? = some l
        let lost : Lane := { r with
          state := .closed, slots := [], position := none, outcome := .lost, closeOnWithdraw := false, changed := true }
        let settled (v : Lane) : Prop := r' = if v = r then r else { v with changed := true }
        let orWaits (e : OutboxEntry) : Prop := box' = if box = [] then [e] else box
        let slots := streamSlots (own s) l s
        -- found as a stream, all of whose entries agree with one of them
        (∀ h ∈ heldEntries s, h.holder = own s → h.lane = l →
          (∀ g ∈ heldEntries s, g.holder = own s → g.lane = l →
            g.label = h.label ∧ g.count = h.count ∧ g.cls = h.cls ∧ g.ret = h.ret) →
          let found (v : Lane) : Lane := { v with label := h.label, count := h.count, cls := h.cls, ret := h.ret }
          let held : Lane := { found r with
            state := .held, slots := slots, position := none, outcome := .granted, grantCycle := m.cycle, changed := true }
          (r.state = .closed → r' = r ∧ orWaits (.withdraw l)) ∧
          (r.state = .opening → box = [.claim l] → r' = lost ∧ box' = [.withdraw l]) ∧
          (r.state = .opening → box = [] → r' = held ∧ box' = []) ∧
          (r.state = .waiting → r' = held ∧ box' = box) ∧
          (r.state = .held → settled { found r with slots := slots } ∧ box' = box) ∧
          (r.state = .closing → r' = r ∧ orWaits (.release l)) ∧
          (r.state = .cancelling → settled { r with slots := slots, position := none } ∧ orWaits (.withdraw l))) ∧
        -- found as a queue entry
        (∀ i w, s.alloc.queue[i]? = some w → w.val.station = own s → w.val.lane = l →
          let found (v : Lane) : Lane :=
            { v with label := w.val.label, count := w.val.count, cls := w.val.cls, ret := w.val.ret }
          let waits (o : StreamOutcome) : Lane := { found r with
            state := .waiting, slots := [], position := some (i + 1), outcome := o, changed := true }
          (r.state = .closed → r' = r ∧ orWaits (.withdraw l)) ∧
          (r.state = .opening → box = [.claim l] → r' = lost ∧ box' = [.withdraw l]) ∧
          (r.state = .opening → box = [] → r' = waits .queued ∧ box' = []) ∧
          (r.state = .waiting → r' = { r with position := some (i + 1) } ∧ box' = box) ∧
          (r.state = .held → r' = waits .requeued ∧ box' = box) ∧
          (r.state = .closing → box' = [.withdraw l] ∧ r' = { r with
            state := .cancelling, slots := [], position := some (i + 1), outcome := .requeued, changed := true }) ∧
          (r.state = .cancelling → r.slots = [] → r' = { r with position := some (i + 1) } ∧ orWaits (.withdraw l)) ∧
          (r.state = .cancelling → r.slots ≠ [] → orWaits (.withdraw l) ∧
            r' = { r with slots := [], position := some (i + 1), changed := true })) ∧
        -- found in neither table
        ((∀ h ∈ heldEntries s, ¬(h.holder = own s ∧ h.lane = l)) →
          (∀ w ∈ s.alloc.queue, ¬(w.val.station = own s ∧ w.val.lane = l)) →
          (r.state = .closed → r' = r ∧ box' = box) ∧
          (r.state = .opening → box = [.claim l] → r' = r ∧ box' = box) ∧
          (r.state = .opening → box = [] → r' = lost ∧ box' = []) ∧
          (r.state = .waiting ∨ r.state = .held → r' = lost ∧ box' = box) ∧
          (r.state = .closing ∨ r.state = .cancelling → r' = lost ∧ box' = [])))

/-- Failed marks in the learning phases. In RESYNC (R27, R28, R35, R88): a damaged mark in phase ADOPT or VERIFY counts one
more failed attempt below the limit, and the phase is ADOPT; an intact mark that fails the verify counts one, and step (a) is
applied to the same mark, which adopts a lawful summary and not an unlawful one; an unlawful summary in phase ADOPT counts as
a damaged mark. At the fourth the station is in LISTEN by the direct fault entry with cause RESYNC_FAILED, learning from the
beginning with empty tables, every stream CLOSED and the outbox empty. In LISTEN and JOINING nothing is counted and step (a)
is applied alike, and there an intact mark in phase VERIFY fails too where the map was found wrong while withdrawing, so that
the map is relearned (R47; log 48, DESIGN CHOICE). Out of phase VERIFY the notices held by the purge are dropped (R91). That a
mark which fails the verify and is then unlawful at step (a) counts one attempt and not two, and that step (a) goes on with an
intact mark in LISTEN after the fourth, is log 13 (DEDUCED). -/
def Obligations.FailedMarksWhileLearning : Prop :=
  ∀ s : State, s.Running → s.cycle.phase = .adopt ∨ s.cycle.phase = .verify → s.QueueClean →
    let resyncFailed (t : State) : Prop :=
      t.mode = { actual := .listen, requested := .listen, target := .none, withdrawCount := 0, cause := .resyncFailed } ∧
      t.StreamsIdle ∧ t.HasAlert .mode ∧ (∀ n : Slot, entryAt t n = .free) ∧ t.ClosedFrom s .fault ∧
      (∀ l, (laneOfState s l).state = .closed → laneOfState t l = laneOfState s l) ∧
      (s.cycle.phase = .verify → t.alloc.heldNotices = [])
    let counted (k : Nat) (t : State) : Prop := t.cycle.resyncAttempts = s.cycle.resyncAttempts + k ∧ t.mode = s.mode ∧
      t.streams = s.streams ∧ t.alloc.map = s.alloc.map ∧ t.notes = s.notes ∧ t.lanes = s.lanes ∧
      (s.cycle.phase = .verify → t.alloc.heldNotices = [])
    let stays (t : State) : Prop := t.cycle.phase = .adopt ∧ t.cycle.cycleNumber = s.cycle.cycleNumber ∧
      t.alloc.queue = s.alloc.queue ∧ t.alerts = s.alerts
    (s.mode.actual = .resync → s.cycle.resyncAttempts < 3 → ∃ t, exec (.markReceived .damaged) s = .next t ∧
      counted 1 t ∧ stays t) ∧
    (s.mode.actual = .resync → s.cycle.resyncAttempts = 3 → ∃ t, exec (.markReceived .damaged) s = .next t ∧
      resyncFailed t ∧ t.cycle.phase = .adopt ∧ t.alloc.queue = []) ∧
    (s.mode.actual = .listen ∨ s.mode.actual = .joining → ∃ t, exec (.markReceived .damaged) s = .next t ∧
      counted 0 t ∧ stays t) ∧
    ∀ m : MarkContents, m.patience = s.port.config.patience → m.reclaim = s.port.config.reclaim →
      m.summary.length ≤ 16 → m.cycle.toNat % 1024 ≠ 0 → s.port.snap.armed = false →
      let fails : Prop := s.cycle.phase = .verify ∧
        ¬(m.cycle = s.cycle.cycleNumber + 1 ∧ m.summary.map entryOfSummary = s.alloc.queue.map (·.val) ∧ lawful m = true)
      let adopts (t : State) : Prop := t.cycle.phase = .rebuild ∧ t.cycle.cycleNumber = m.cycle ∧
        t.cycle.marker = m.marker ∧ t.alloc.queue = (m.summary.map fun e => .fresh (entryOfSummary e)) ∧
        t.HasAlert .queueAdopted
      (fails → s.mode.actual = .resync → s.cycle.resyncAttempts < 3 →
        ∃ t, exec (.markReceived (.intact m)) s = .next t ∧ counted 1 t ∧
          (lawful m = true → adopts t) ∧ (lawful m = false → stays t)) ∧
      (fails → s.mode.actual = .resync → s.cycle.resyncAttempts = 3 →
        ∃ t, exec (.markReceived (.intact m)) s = .next t ∧ resyncFailed t ∧
          (lawful m = true → adopts t) ∧ (lawful m = false → t.cycle.phase = .adopt ∧ t.alloc.queue = [])) ∧
      (fails ∨ s.cycle.phase = .verify ∧ s.alloc.mapFoundWrong = true →
        s.mode.actual = .listen ∨ s.mode.actual = .joining →
        ∃ t, exec (.markReceived (.intact m)) s = .next t ∧ counted 0 t ∧
          (lawful m = true → adopts t) ∧ (lawful m = false → stays t)) ∧
      (s.cycle.phase = .adopt → lawful m = false → s.mode.actual = .resync → s.cycle.resyncAttempts < 3 →
        ∃ t, exec (.markReceived (.intact m)) s = .next t ∧ counted 1 t ∧ stays t)

/-- A mark in WITHDRAWING (R34), here a damaged one at which no tick falls: below the limit the withdrawal cycle count
increases by 1 and the station stays, VERIFY becoming ADOPT and LEARNED counting the cycle (R27, R29); at the sixteenth
mark it leaves for its target at once, every stream not CLOSED becoming CLOSED(ABANDONED) and the outbox being emptied. A
target of LISTEN carries the learning state over, LEARNED becoming VERIFY, and with it that the map was found wrong while
withdrawing; a target of OFF makes the entry of R22, at which such a map is discarded (R47; log 48).
WITHDRAWAL_LIMIT and RESYNC_ATTEMPT_LIMIT do the same where the count has reached its limit (R28, R35); that they are
commands of their own beside the mark that reaches it is the model's reading of the table (log 5). A CLAIM closed in its
window that the end cuts in its contention becomes CLOSED(CANCELLED) instead (R8, R13, R102; its bit times: log 8). -/
def Obligations.WithdrawalEndsAtItsLimit : Prop :=
  ∀ s : State, s.Running → s.QueueClean → s.StreamsClean → s.TablesAgree →
    let leaves (p : Phase) (t : State) : Prop := t.StreamsIdle ∧ t.ClosedFrom s .abandoned ∧ t.HasAlert .mode ∧
      (s.mode.target = .listen → t.mode.actual = .listen ∧ t.alloc.map = s.alloc.map ∧ t.alloc.queue = s.alloc.queue ∧
        t.alloc.mapFoundWrong = s.alloc.mapFoundWrong ∧
        t.cycle.phase = if p = .learned then .verify else p) ∧
      (s.mode.target = .off → t.mode =
          { s.mode with actual := .off, requested := .off, target := .none, withdrawCount := 0 } ∧ t.TablesEmpty ∧
        t.alloc.mapFoundWrong = false ∧ t.cycle.phase = .idle ∧ t.line.driverEnable = false ∧ t.line.silenceTimer = none)
    (s.mode.actual = .withdrawing → s.mode.target ≠ .none → (s.cycle.cycleNumber + 1).toNat % 1024 ≠ 0 →
      let counted (t : State) : Prop := t.mode = { s.mode with withdrawCount := s.mode.withdrawCount + 1 } ∧
        t.alloc.map = s.alloc.map ∧ t.alloc.queue = s.alloc.queue ∧ t.streams.outbox = s.streams.outbox ∧
        t.line.framed = true ∧ t.line.silenceTimer = s.line.silenceTimer ∧ t.alerts = s.alerts
      (s.cycle.phase = .adopt ∨ s.cycle.phase = .verify →
        (s.mode.withdrawCount < 15 → ∃ t, exec (.markReceived .damaged) s = .next t ∧ counted t ∧
          t.cycle.phase = .adopt ∧ t.cycle.cycleNumber = s.cycle.cycleNumber) ∧
        (s.mode.withdrawCount = 15 → ∃ t, exec (.markReceived .damaged) s = .next t ∧ leaves .adopt t)) ∧
      (s.cycle.phase = .learned →
        (s.mode.withdrawCount < 15 → ∃ t, exec (.markReceived .damaged) s = .next t ∧ counted t ∧
          t.cycle.phase = .learned ∧ t.cycle.cycleNumber = s.cycle.cycleNumber + 1) ∧
        (s.mode.withdrawCount = 15 → ∃ t, exec (.markReceived .damaged) s = .next t ∧ leaves .learned t))) ∧
    (s.mode.actual = .withdrawing → 16 ≤ s.mode.withdrawCount → s.mode.target ≠ .none →
      ∃ t, exec .withdrawalLimit s = .next t ∧ leaves s.cycle.phase t) ∧
    (s.mode.actual = .resync → 4 ≤ s.cycle.resyncAttempts →
      ∃ t, exec .resyncAttemptLimit s = .next t ∧ t.mode.actual = .listen ∧ t.mode.cause = .resyncFailed ∧
        t.mode.requested = .listen ∧ t.cycle.phase = .adopt ∧ t.TablesEmpty ∧ t.StreamsIdle ∧ t.ClosedFrom s .fault ∧
        t.HasAlert .mode)

/-- Ageing (R83, R84, R89, R108). At an intact mark on which a tick falls, all checks equal, at a learned station in MEMBER or
LISTEN whose map was not found wrong while withdrawing (R47, log 48): with no entry reaching the patience every age increases
by 1, and the queue is else as it was; where the head of two entries reaches it and is this station's own, in MEMBER, it
leaves, its WAITING lane becomes CLOSED with outcome EXPIRED, and queue service then grants the other entry, of another
station, the lowest FREE slots, or leaves it, one tick older, where it is NORMAL and does not fit. AGE_TICK at a learned
MEMBER station whose cycle number is a multiple of 1024, with no entry reaching the patience: the age of every entry increases
by 1, and nothing else changes; the tick is applied once. QUEUE_ENTRY_EXPIRED, in a phase without queue service: entries of
other stations whose age has reached the patience leave the queue, the others keep their order, and nothing else changes. That
the two are commands of their own beside the mark that ticks is the model's reading of the table (log 5). -/
def Obligations.AgeTicksAndExpiries : Prop :=
  ∀ s : State, s.Running → s.QueueClean →
    let older (w : Stored QueueEntry) : Stored QueueEntry := .fresh { w.val with age := w.val.age + 1 }
    let reaches (w : Stored QueueEntry) : Prop := s.port.config.patience.toNat ≤ w.val.age + 1
    (∀ m : MarkContents, s.cycle.phase = .learned →
      s.mode.actual = .member ∨ s.mode.actual = .listen ∧ s.alloc.mapFoundWrong = false → s.StreamsClean →
      m.patience = s.port.config.patience → m.reclaim = s.port.config.reclaim → m.cycle = s.cycle.cycleNumber + 1 →
      summaryAgrees m s = true → m.summary.length ≤ 16 → m.cycle.toNat % 1024 = 0 → s.port.snap.armed = false →
      let ticks (t : State) : Prop := t.mode = s.mode ∧ t.streams.outbox = s.streams.outbox ∧
        t.cycle = { s.cycle with
          cycleNumber := m.cycle, marker := m.marker, foundingMarkDue := false, winnerMarkDue := false,
          tickDone := true } ∧
        t.line = { s.line with framed := true, txSlots := [], silenceTimer := some 0 } ∧ t.notes = s.notes
      ((∀ w ∈ s.alloc.queue, ¬reaches w) → ∃ t, exec (.markReceived (.intact m)) s = .next t ∧ ticks t ∧
        t.alloc = { s.alloc with queue := s.alloc.queue.map older } ∧ t.alerts = s.alerts) ∧
      (∀ e f, s.alloc.queue = [e, f] → reaches e → ¬reaches f → s.mode.actual = .member → s.MapClean →
        e.val.station = own s → (laneOfState s e.val.lane).state = .waiting → f.val.station ≠ own s →
        let slots := (freeSlots s).take f.val.count
        ∃ t, exec (.markReceived (.intact m)) s = .next t ∧ ticks t ∧ t.HasAlert .stream ∧
          t.lanes.txFifo.get e.val.lane = [] ∧
          laneOfState t e.val.lane = { laneOfState s e.val.lane with
            state := .closed, slots := [], position := none, outcome := .expired, closeOnWithdraw := false,
            changed := true } ∧
          (∀ l, l ≠ e.val.lane → laneOfState t l = laneOfState s l) ∧
          (f.val.cls = .normal → (freeSlots s).length < f.val.count →
            t.alloc = { s.alloc with queue := [older f] }) ∧
          (f.val.count ≤ (freeSlots s).length → t.alloc.queue = [] ∧
            (∀ (j : Nat) (n : Slot), slots[j]? = some n → entryAt t n = .held
              { holder := f.val.station, lane := f.val.lane, label := f.val.label, cls := f.val.cls, ret := f.val.ret,
                part := j, count := f.val.count, silence := 0, lastUse := .none, mark := .none }) ∧
            (∀ n, n ∉ slots → entryAt t n = entryAt s n)))) ∧
    (s.mode.actual ≠ .off → s.cycle.phase = .adopt ∨ s.cycle.phase = .rebuild →
      (∀ w ∈ s.alloc.queue, w.val.station ≠ own s) → exec .queueEntryExpired s = .next { s with
        alloc := { s.alloc with
          queue := s.alloc.queue.filter fun w => w.val.age < s.port.config.patience.toNat } }) ∧
    (s.mode.actual = .member → s.cycle.phase = .learned → s.cycle.cycleNumber.toNat % 1024 = 0 →
      (∀ w ∈ s.alloc.queue, ¬reaches w) →
      (s.cycle.tickDone = false → exec .ageTick s = .next { s with
        cycle := { s.cycle with tickDone := true }
        alloc := { s.alloc with queue := s.alloc.queue.map older } }) ∧
      (s.cycle.tickDone = true → exec .ageTick s = .next s))

/-! ## The slot field -/

/-- Tag reports at a learned station (R44 to R48). An intact tag that matches its slot's entry, in MEMBER, WITHDRAWING and
LISTEN: the entry's field mark becomes HEARD and its last use seen the tag's use, LIVE or HOLD alike; count, class and return
flag are not compared and the entry keeps its own; a tag that this station sent itself is matched like any other. One that
does not match, and is no duplicate: MEMBER starts a resync with the alert CONFLICT and empty tables; WITHDRAWING sets
CONFLICT and stays, its map found wrong (log 48), the entry of the slot marked DAMAGED where it is HELD and its mark NONE, and for the
rest of the field every report marks its HELD entry so; LISTEN marks the entry alone. A damaged tag marks a HELD entry whose
mark is NONE, and a silent slot changes nothing. That a station which a fault entry has taken from WITHDRAWING to LISTEN after
a conflict checks the rest of the field as LISTEN does is log 41 (DESIGN CHOICE). -/
def Obligations.TagReportsByMode : Prop :=
  ∀ (s : State) (n : Slot), s.Framed → s.cycle.phase = .learned → (s.alloc.map.get n).health = .clean →
    s.mode.actual = .member ∨ s.mode.actual = .withdrawing ∨ s.mode.actual = .listen →
    let marked : Table (Stored SlotEntry) 48 := match entryAt s n with
      | .free => s.alloc.map
      | .held h => if h.mark = .none then s.alloc.map.set n (.fresh (.held { h with mark := .damaged })) else s.alloc.map
    let matching (g : TagContents) (h : HeldEntry) : Prop :=
      h.holder = g.holder ∧ h.lane = g.lane ∧ h.label = g.label ∧ h.part = g.part.val
    (∀ (g : TagContents) (h : HeldEntry), s.alloc.fieldConflict = false → entryAt s n = .held h → matching g h →
      (g.holder = own s → n ∈ s.line.txSlots) →
      ∃ t, exec (.tagReceived n (.intact g)) s = .next t ∧
        entryAt t n = .held { h with mark := .heard, lastUse := if g.use = .hold then .hold else .live } ∧
        (∀ k, k ≠ n → entryAt t k = entryAt s k) ∧ t.alloc.queue = s.alloc.queue ∧ t.mode = s.mode ∧
        t.cycle = s.cycle ∧ t.line = { s.line with silenceTimer := some 0 } ∧ t.streams = s.streams ∧
        t.notes = s.notes ∧ t.port = s.port ∧ t.lanes.txFifo = s.lanes.txFifo ∧ t.lanes.listen = s.lanes.listen) ∧
    (∀ g : TagContents, (g.holder = own s → n ∈ s.line.txSlots) → (∀ h, entryAt s n = .held h → ¬matching g h) →
      ∃ t, exec (.tagReceived n (.intact g)) s = .next t ∧ t.streams = s.streams ∧
        t.line = { s.line with silenceTimer := some 0 } ∧
        (s.mode.actual = .member → t.mode = { s.mode with actual := .resync } ∧ t.cycle.phase = .adopt ∧
          t.cycle.resyncAttempts = 0 ∧ t.cycle.cycleNumber = s.cycle.cycleNumber ∧ t.TablesEmpty ∧
          t.HasAlert .conflict ∧ t.HasAlert .mode) ∧
        (s.mode.actual = .withdrawing → s.alloc.fieldConflict = false → t.mode = s.mode ∧ t.cycle = s.cycle ∧
          t.alloc = { s.alloc with map := marked, fieldConflict := true, mapFoundWrong := true } ∧
          t.HasAlert .conflict) ∧
        (s.mode.actual = .listen → t.mode = s.mode ∧ t.cycle = s.cycle ∧ t.alloc = { s.alloc with map := marked } ∧
          (s.HasAlert .conflict ↔ t.HasAlert .conflict))) ∧
    exec (.tagReceived n .damaged) s = .next { s with alloc := { s.alloc with map := marked } } ∧
    (s.mode.actual ≠ .withdrawing ∨ s.alloc.fieldConflict = false → exec (.tagReceived n .silent) s = .next s) ∧
    (s.mode.actual = .withdrawing → s.alloc.fieldConflict = true →
      exec (.tagReceived n .silent) s = .next { s with alloc := { s.alloc with map := marked } } ∧
      ∀ g : TagContents, (g.holder = own s → n ∈ s.line.txSlots) →
        ∃ t, exec (.tagReceived n (.intact g)) s = .next t ∧ t.alloc = { s.alloc with map := marked } ∧
          t.mode = s.mode ∧ t.cycle = s.cycle ∧ (s.HasAlert .conflict ↔ t.HasAlert .conflict))

/-- A second station under this number (R19, R35): an intact tag, LIVE or HOLD, that names this station as holder in a slot
in which this station sent none, or an intact message that carries this station's number in a window that it did not win.
Out of LISTEN the direct fault entry with cause DUPLICATE, every stream CLOSED and the outbox emptied; in LISTEN the cause
and the alert. The tag is withheld from the map. A HOLD tag is delivered nowhere. A message of any kind in a window that this
station won sets no DUPLICATE; a note so received, and outside the phases that apply messages anything but a RESTART, changes
nothing but the timer. A CLAIM closed in its window that the entry cuts in its contention becomes CLOSED(CANCELLED) (R8,
R13; its bit times: log 8). -/
def Obligations.DuplicateStationIsReported : Prop :=
  ∀ s : State, s.Framed →
    let faulted (t : State) : Prop :=
      t.mode = { actual := .listen, requested := .listen, target := .none, withdrawCount := 0, cause := .duplicate } ∧
      t.StreamsIdle ∧ t.HasAlert .duplicate ∧ t.HasAlert .mode ∧ t.line.onLine = none ∧ t.line.contention = .none ∧
      t.line.silenceTimer = some 0 ∧ t.ClosedFrom s .fault
    (∀ (n : Slot) (g : TagContents), g.holder = own s → n ∉ s.line.txSlots →
      (s.mode.actual ≠ .listen → ∃ t, exec (.tagReceived n (.intact g)) s = .next t ∧ faulted t ∧
        t.cycle.phase = s.cycle.phase ∧ t.alloc = s.alloc) ∧
      (s.mode.actual = .listen → ∃ t, exec (.tagReceived n (.intact g)) s = .next t ∧
        t.mode = { s.mode with cause := .duplicate } ∧ t.HasAlert .duplicate ∧ t.alloc = s.alloc ∧ t.cycle = s.cycle ∧
        t.streams = s.streams ∧ t.line = { s.line with silenceTimer := some 0 }) ∧
      (s.mode.actual = .listen → g.use = .hold → exec (.tagReceived n (.intact g)) s = .next { s with
        line := { s.line with silenceTimer := some 0 }
        mode := { s.mode with cause := .duplicate }
        alerts := s.alerts.raise .duplicate })) ∧
    (s.StreamsClean → s.line.onLine = none → ∀ b : Body,
      (s.line.wonWindow = false → s.mode.actual ≠ .listen →
        ∃ t, exec (.windowEnded (.intact (own s) b)) s = .next t ∧ faulted t) ∧
      (s.line.wonWindow = false → s.mode.actual = .listen → s.Quiet →
        ∃ t, exec (.windowEnded (.intact (own s) b)) s = .next t ∧ t.mode = { s.mode with cause := .duplicate } ∧
          t.HasAlert .duplicate ∧ t.streams = s.streams) ∧
      (s.line.wonWindow = true → ∃ t, exec (.windowEnded (.intact (own s) b)) s = .next t ∧
        (t.HasAlert .duplicate ↔ s.HasAlert .duplicate)) ∧
      (s.line.wonWindow = true → s.NotesIdle → (∃ n, b = .note n) ∨ b = .noKind ∨
          b ≠ .restart ∧ (s.cycle.phase = .adopt ∨ s.cycle.phase = .rebuild) →
        exec (.windowEnded (.intact (own s) b)) s = .next { s with
          line := { s.line with silenceTimer := some 0, wonWindow := false } }))

/-- An intact LIVE tag at the Listen Table (R127, R128), in every mode but OFF and every learning phase, and whatever the map
check makes of it or a second station of this number shows by it (R19): the first entry that selects it takes its sample word
to the tail of that entry's receive FIFO, a full FIFO dropping its oldest word with RX_OVERRUN and the alert LANE; where no
entry selects it, or the tag is HOLD, nothing is delivered. In phase ADOPT, which keeps the tag from the map, nothing else
changes but the silence timer. -/
def Obligations.LiveTagIsDelivered : Prop :=
  ∀ (s : State) (n : Slot) (g : TagContents), s.Framed →
    let selects (e : ListenEntry) : Prop :=
      e.enabled = true ∧ g.label &&& e.mask = e.label &&& e.mask ∧ (g.holder = own s → e.acceptOwn = true)
    let full (l : LaneNo) : Prop := 32 ≤ (s.lanes.rxFifo.get l).length
    (g.use = .live → ∀ k : Fin 16, selects (s.lanes.listen.get k) → (∀ j < k, ¬selects (s.lanes.listen.get j)) →
      let l := (s.lanes.listen.get k).lane
      let before := if full l then (s.lanes.rxFifo.get l).tail else s.lanes.rxFifo.get l
      ∃ t, exec (.tagReceived n (.intact g)) s = .next t ∧
        t.lanes.rxFifo = s.lanes.rxFifo.set l (before ++ [.fresh g.sample]) ∧
        t.lanes.rxOverrun = (if full l then s.lanes.rxOverrun.set l true else s.lanes.rxOverrun) ∧
        (t.HasAlert .lane ↔ s.HasAlert .lane ∨ full l)) ∧
    (g.use = .hold ∨ (∀ k, ¬selects (s.lanes.listen.get k)) →
      ∃ t, exec (.tagReceived n (.intact g)) s = .next t ∧ t.lanes.rxFifo = s.lanes.rxFifo ∧
        t.lanes.rxOverrun = s.lanes.rxOverrun ∧ (t.HasAlert .lane ↔ s.HasAlert .lane)) ∧
    (s.cycle.phase = .adopt → (g.holder = own s → n ∈ s.line.txSlots) →
    let heard : State := { s with line := { s.line with silenceTimer := some 0 } }
    (g.use = .live → ∀ k : Fin 16, selects (s.lanes.listen.get k) → (∀ j < k, ¬selects (s.lanes.listen.get j)) →
      let l := (s.lanes.listen.get k).lane
      ((s.lanes.rxFifo.get l).length < 32 → exec (.tagReceived n (.intact g)) s = .next { heard with
        lanes := { s.lanes with rxFifo := s.lanes.rxFifo.set l (s.lanes.rxFifo.get l ++ [.fresh g.sample]) } }) ∧
      (32 ≤ (s.lanes.rxFifo.get l).length → exec (.tagReceived n (.intact g)) s = .next { heard with
        lanes := { s.lanes with
          rxFifo := s.lanes.rxFifo.set l ((s.lanes.rxFifo.get l).tail ++ [.fresh g.sample])
          rxOverrun := s.lanes.rxOverrun.set l true }
        alerts := s.alerts.raise .lane })) ∧
    ((∀ k, ¬selects (s.lanes.listen.get k)) → exec (.tagReceived n (.intact g)) s = .next heard) ∧
    (g.use = .hold → exec (.tagReceived n (.intact g)) s = .next heard))

/-- The close of the slot field at a learned station in MEMBER, WITHDRAWING and LISTEN (R43, R47, R49, R50, R107). A stream with
an entry HEARD has its silence count 0, one with an entry DAMAGED and none HEARD keeps it, any other has it one more, and
every field mark becomes NONE; where no stream reaches the reclaim count nothing else changes. A stream that reaches it at the
close is freed in full, and queue service runs, here over an empty queue: every other stream stays with its new count.
SILENCE_RECLAIM does the same freeing where a count stands at the limit; that it is a command of its own beside the close is
the model's reading of the table (log 5, DESIGN CHOICE). A stream of this station, in MEMBER: its HELD lane becomes CLOSED
with outcome RECLAIMED; a CLOSING lane, and a CANCELLING one with a slot list, also loses its outbox entry; a CANCELLING lane
with an empty slot list stays. -/
def Obligations.SlotFieldCloseCountsAndReclaims : Prop :=
  ∀ s : State, s.Framed → s.cycle.phase = .learned → s.MapClean →
    s.mode.actual = .member ∨ s.mode.actual = .withdrawing ∨ s.mode.actual = .listen →
    let limit : Nat := s.port.config.reclaim.toNat
    let shows (m : FieldMark) (h : HeldEntry) : Prop :=
      ∃ k g, entryAt s k = .held g ∧ g.holder = h.holder ∧ g.lane = h.lane ∧ g.mark = m
    let counts (h : HeldEntry) (e : SlotEntry) : Prop := ∃ c, e = .held { h with mark := .none, silence := c } ∧
      (shows .heard h → c = 0) ∧
      (¬shows .heard h → shows .damaged h → c = h.silence) ∧
      (¬shows .heard h → ¬shows .damaged h → c = h.silence + 1)
    let closed (t : State) : State := { s with alloc := { s.alloc with map := t.alloc.map, fieldConflict := false } }
    ((∀ n h, entryAt s n = .held h → h.silence + 1 < limit) →
      ∃ t, exec .slotFieldClosed s = .next t ∧ t = closed t ∧
        (∀ n, entryAt s n = .free → entryAt t n = .free) ∧
        (∀ n h, entryAt s n = .held h → counts h (entryAt t n))) ∧
    ∀ (st : Station) (l : LaneNo), s.alloc.queue = [] →
      let r := laneOfState s l
      let cleared : Lane := { r with
        state := .closed, slots := [], position := none, outcome := .reclaimed, closeOnWithdraw := false, changed := true }
      let reclaimed (t : State) : Prop := t.mode = s.mode ∧ (∀ j, j ≠ l → laneOfState t j = laneOfState s j) ∧
        (r.state = .held → laneOfState t l = cleared ∧ t.HasAlert .stream ∧ t.lanes.txFifo.get l = [] ∧
          t.streams.outbox = s.streams.outbox) ∧
        (r.state = .closing ∨ r.state = .cancelling ∧ r.slots ≠ [] → laneOfState t l = cleared ∧ t.HasAlert .stream ∧
          t.lanes.txFifo.get l = [] ∧ t.streams.outbox = s.streams.outbox.filter fun e => e.val.lane? ≠ some l) ∧
        (r.state = .cancelling ∧ r.slots = [] → laneOfState t l = r ∧ t.streams.outbox = s.streams.outbox)
      ((∃ n h, entryAt s n = .held h ∧ h.holder = st ∧ h.lane = l) →
        (∀ n h, entryAt s n = .held h → h.holder = st → h.lane = l → h.mark = .none ∧ limit ≤ h.silence + 1) →
        (∀ n h, entryAt s n = .held h → ¬(h.holder = st ∧ h.lane = l) → h.silence + 1 < limit) →
        let freed (t : State) : Prop := ∀ n,
          ((entryAt s n).ofStream st l = true ∨ entryAt s n = .free → entryAt t n = .free) ∧
          ∀ h, entryAt s n = .held h → ¬(h.holder = st ∧ h.lane = l) → counts h (entryAt t n)
        (st ≠ own s → ∃ t, exec .slotFieldClosed s = .next t ∧ freed t ∧ t = closed t) ∧
        (st = own s → s.mode.actual = .member → s.StreamsClean →
          ∃ t, exec .slotFieldClosed s = .next t ∧ freed t ∧ reclaimed t)) ∧
      ((∃ n h, entryAt s n = .held h ∧ limit ≤ h.silence) →
        (∀ n h, entryAt s n = .held h → limit ≤ h.silence → h.holder = st ∧ h.lane = l) →
        let freed (t : State) : Prop :=
          ∀ n, entryAt t n = if (entryAt s n).ofStream st l then .free else entryAt s n
        (st ≠ own s → ∃ t, exec .silenceReclaim s = .next t ∧ freed t ∧
          t = { s with alloc := { s.alloc with map := t.alloc.map } }) ∧
        (st = own s → s.mode.actual = .member → s.StreamsClean →
          ∃ t, exec .silenceReclaim s = .next t ∧ freed t ∧ reclaimed t))

/-- The close of the slot field in phase REBUILD (R26, R52, R53, R91), in every mode that learns: the map is cleared, every
consistent candidate of the collected tags is entered in the slots of its tags, the other slots are FREE, and the phase
becomes VERIFY. Every queue entry whose identity or label the rebuilt map holds is purged without a notice, whatever the others
are, and the others are kept in their order. Where at least one is purged, queue service runs on what is kept (R72 to R74): over
an empty queue or a NORMAL head that does not fit it does nothing; a head that fits is granted the lowest FREE slots of the
rebuilt map. It holds its notices behind those already held and tells no one: whatever it grants, pre-empts and requeues, the
entries it has taken from the head have a GRANTED held where they are this station's own, the own streams it has revoked a
REVOKED, and nothing of the station but the shared tables and the phase changes. -/
def Obligations.SlotFieldCloseRebuilds : Prop :=
  ∀ s : State, s.Framed → s.cycle.phase = .rebuild → s.QueueClean → (∀ w ∈ s.alloc.rebuildList, w.health = .clean) →
    (s.alloc.rebuildList.map fun w => w.val.slot).Nodup →
    let tags := s.alloc.rebuildList.map (·.val)
    let candidate (t g : RebuildTag) : Prop := g.holder = t.holder ∧ g.lane = t.lane
    let consistent (t : RebuildTag) : Prop :=
      (∀ g ∈ tags, candidate t g → g.label = t.label ∧ g.cls = t.cls ∧ g.ret = t.ret ∧ g.count = t.count ∧
        g.part = (tags.filter fun k => k.holder = t.holder ∧ k.lane = t.lane ∧ k.slot < g.slot).length) ∧
      (tags.filter fun g => g.holder = t.holder ∧ g.lane = t.lane).length = t.count ∧
      (∀ g ∈ tags, ¬candidate t g → g.label ≠ t.label)
    let held (w : Stored QueueEntry) : Prop :=
      ∃ t ∈ tags, consistent t ∧ (w.val.label = t.label ∨ w.val.station = t.holder ∧ w.val.lane = t.lane)
    let rebuilt (v : State) : Prop :=
      (∀ t ∈ tags, consistent t → entryAt v t.slot = .held
        { holder := t.holder, lane := t.lane, label := t.label, cls := t.cls, ret := t.ret, part := t.part,
          count := t.count, silence := 0, lastUse := .none, mark := .none }) ∧
      (∀ n : Slot, (∀ t ∈ tags, t.slot = n → ¬consistent t) → entryAt v n = .free)
    ∀ (stays : Stored QueueEntry → Bool) (isFree : Slot → Bool), (∀ w, stays w = true ↔ ¬held w) →
      (∀ n, isFree n = true ↔ ∀ t ∈ tags, t.slot = n → ¬consistent t) →
      let kept := s.alloc.queue.filter stays
      let opened := allSlots.filter isFree
      let noFit (q : List (Stored QueueEntry)) (n : Nat) : Prop :=
        q = [] ∨ ∃ e es, q = e :: es ∧ e.val.cls = .normal ∧ n < e.val.count
      ∃ v, exec .slotFieldClosed s = .next v ∧
        v = { s with cycle := { s.cycle with phase := .verify }, alloc := v.alloc } ∧
        v.alloc.rebuildList = [] ∧ v.alloc.fieldConflict = false ∧ v.alloc.mapFoundWrong = false ∧
        (kept = s.alloc.queue ∨ noFit kept opened.length →
          rebuilt v ∧ v.alloc.queue = kept ∧ v.alloc.heldNotices = s.alloc.heldNotices) ∧
        (∀ e rest, kept ≠ s.alloc.queue → kept = e :: rest → e.val.count ≤ opened.length →
          noFit rest (opened.length - e.val.count) →
          let slots := opened.take e.val.count
          (∀ (j : Nat) (n : Slot), slots[j]? = some n → entryAt v n = .held
            { holder := e.val.station, lane := e.val.lane, label := e.val.label, cls := e.val.cls, ret := e.val.ret,
              part := j, count := e.val.count, silence := 0, lastUse := .none, mark := .none }) ∧
          (∀ n, n ∈ opened → n ∉ slots → entryAt v n = .free) ∧
          (∀ t ∈ tags, consistent t → entryAt v t.slot = .held
            { holder := t.holder, lane := t.lane, label := t.label, cls := t.cls, ret := t.ret, part := t.part,
              count := t.count, silence := 0, lastUse := .none, mark := .none }) ∧
          v.alloc.queue = rest ∧
          v.alloc.heldNotices = s.alloc.heldNotices ++
            (if e.val.station = own s then [.fresh (.granted e.val.lane slots s.cycle.cycleNumber)] else [])) ∧
        ∃ (granted requeued : List (Stored QueueEntry)) (notices : List (Stored Notice)),
          granted ++ v.alloc.queue = kept ++ requeued ∧
          (∀ r ∈ requeued, r.health = .clean ∧ r.val.cls = .normal ∧ r.val.ret = true ∧ r.val.age = 0) ∧
          v.alloc.heldNotices = s.alloc.heldNotices ++ notices ∧
          (∀ w ∈ notices, (∃ l slots, w = .fresh (.granted l slots s.cycle.cycleNumber)) ∨
            ∃ l at?, w = .fresh (.revoked l at?)) ∧
          (∀ e ∈ granted, e.val.station = own s →
            ∃ slots, .fresh (.granted e.val.lane slots s.cycle.cycleNumber) ∈ notices) ∧
          (∀ t ∈ tags, consistent t → t.holder = own s → (∀ n, (entryAt v n).ofStream t.holder t.lane = false) →
            ∃ at?, .fresh (.revoked t.lane at?) ∈ notices)

/-- The start of a slot (R6, R114, R115, R122), in MEMBER, RESYNC and WITHDRAWING with the driver enabled: a slot in the
list of a HELD or CLOSING lane is tagged LIVE with the oldest word of its transmit FIFO, which leaves it, or HOLD with a
sample of zero and one gap more where there is none; a CANCELLING lane's slot is tagged HOLD; the tag carries this
station's number, the lane's record and the slot's place in its list; and a slot of no lane is left alone. That of two lanes
whose lists both hold the slot the lower-numbered one tags it is log 43 (DESIGN CHOICE). -/
def Obligations.OwnSlotsAreTagged : Prop :=
  ∀ (s : State) (n : Slot), s.Framed → s.StreamsClean → s.line.driverEnable = true →
    s.mode.actual = .member ∨ s.mode.actual = .resync ∨ s.mode.actual = .withdrawing →
    let named (k : LaneNo) : Prop := n ∈ (laneOfState s k).slots ∧
      ((laneOfState s k).state = .held ∨ (laneOfState s k).state = .closing ∨ (laneOfState s k).state = .cancelling)
    (∀ (l : LaneNo) (c : Fin 8) (p : Fin 8), named l → (∀ k < l, ¬named k) → c.val + 1 = (laneOfState s l).count →
      (laneOfState s l).slots[p.val]? = some n → (∀ j < p.val, (laneOfState s l).slots[j]? ≠ some n) →
      let r := laneOfState s l
      let tagged (u : Use) (x : Sample) : LineUnit := { s.line with
        onLine := some (.tag n
          { holder := own s, lane := l, label := r.label, part := p, countCode := c, cls := r.cls, ret := r.ret,
            use := u, sample := x })
        txSlots := s.line.txSlots ++ [n] }
      (r.state ≠ .cancelling → ∀ w ws, s.lanes.txFifo.get l = w :: ws → w.health = .clean →
        exec (.slotStart n) s = .next { s with
          line := tagged .live w.val, lanes := { s.lanes with txFifo := s.lanes.txFifo.set l ws } }) ∧
      (r.state ≠ .cancelling → s.lanes.txFifo.get l = [] → r.gapCount < 65535 →
        exec (.slotStart n) s = .next { s with
          line := tagged .hold 0
          streams := { s.streams with lanes := s.streams.lanes.set l (.fresh { r with gapCount := r.gapCount + 1 }) } }) ∧
      (r.state = .cancelling → exec (.slotStart n) s = .next { s with line := tagged .hold 0 })) ∧
    ((∀ k, ¬named k) → exec (.slotStart n) s = .next s)

/-! ## State Memory errors -/

/-- Errors met by a read in the regions MAP and STREAMS (R35, R149, R150, R151, R152, R156). At a MEMBER station, MAP, by the
check of a damaged tag: a single error is corrected in the same access with the record and the alert MEM_CORRECTED, and the
check goes on with the corrected value, so that a HELD entry is marked DAMAGED where its mark is NONE; a double error gives
the record and MEM_FAILED, abandons the check and starts a resync with empty tables. STREAMS, by the naming of a slot: a
single error is corrected with the record and MEM_CORRECTED, and the naming goes on with the corrected entry, here a
CANCELLING lane's, whose slot is tagged HOLD, or one that does not hold the slot; a double error names no tag and makes the
direct fault entry into LISTEN with cause MEMORY; the failing lane takes the defaults but for state CLOSED and outcome FAULT,
every other lane, read clean, becomes CLOSED with outcome FAULT, and the outbox is emptied. STREAMS, by a host command: in
JOINING, MEMBER, RESYNC and WITHDRAWING the same fault entry comes before the response, at which every lane is written anew,
one whose own entry fails too with the defaults; in OFF and LISTEN only the failing lane is written anew, with the cause
MEMORY, the alert STREAM and the mode as it is. READ_STREAM answers DONE with the record as rewritten, and clears that lane's
changed flag; CLOSE_STREAM answers DONE; OPEN_STREAM answers REFUSED_MODE and opens nothing; for the last two an outbox word
that fails does as much. READ_LANES and READ_ALERTS read no lane behind a failing one: what they answer then is log 12 (DESIGN
CHOICE). That a tag check reads the one entry, SLOT_START all eight lanes, whatever the slot, READ_STREAM the lane, and
OPEN_STREAM and CLOSE_STREAM the lane and then the outbox, is log 3 (DESIGN CHOICE); that a lane already CLOSED takes the
outcome FAULT too is log 25. -/
def Obligations.MemoryErrorsAreHandled : Prop :=
  (∀ (s : State) (n : Slot), s.Framed → s.mode.actual = .member →
    (s.cycle.phase = .learned → (s.alloc.map.get n).health = .single → entryAt s n = .free →
      exec (.tagReceived n .damaged) s = .next { s with
        alloc := { s.alloc with map := s.alloc.map.set n (.fresh .free) }
        errorRecord := some ⟨.map, n.val, .single⟩
        alerts := s.alerts.raise .memCorrected }) ∧
    (∀ h, s.cycle.phase = .learned → (s.alloc.map.get n).health = .single → entryAt s n = .held h →
      let marked : HeldEntry := { h with mark := if h.mark = .none then .damaged else h.mark }
      exec (.tagReceived n .damaged) s = .next { s with
        alloc := { s.alloc with map := s.alloc.map.set n (.fresh (.held marked)) }
        errorRecord := some ⟨.map, n.val, .single⟩
        alerts := s.alerts.raise .memCorrected }) ∧
    (s.cycle.phase = .learned → (s.alloc.map.get n).health = .double →
      ∃ t, exec (.tagReceived n .damaged) s = .next t ∧ t.mode = { s.mode with actual := .resync } ∧
        t.cycle.phase = .adopt ∧ t.cycle.resyncAttempts = 0 ∧ t.TablesEmpty ∧
        t.errorRecord = some ⟨.map, n.val, .double⟩ ∧ t.HasAlert .memFailed ∧ t.HasAlert .conflict ∧
        t.HasAlert .mode ∧ t.streams = s.streams) ∧
    (∀ l : LaneNo, (s.streams.lanes.get l).health = .single →
      (∀ k, k ≠ l → (s.streams.lanes.get k).health = .clean) →
      let r := laneOfState s l
      let corrected : State := { s with
        streams := { s.streams with lanes := s.streams.lanes.set l (.fresh r) }
        errorRecord := some ⟨.streams, l.val, .single⟩
        alerts := s.alerts.raise .memCorrected }
      ((∀ k, n ∉ (laneOfState s k).slots) → exec (.slotStart n) s = .next corrected) ∧
      (∀ (p c : Fin 8), s.line.driverEnable = true → r.state = .cancelling → r.slots[p.val]? = some n →
        (∀ j < p.val, r.slots[j]? ≠ some n) → (∀ k < l, n ∉ (laneOfState s k).slots) → c.val + 1 = r.count →
        exec (.slotStart n) s = .next { corrected with
          line := { s.line with
            onLine := some (.tag n
              { holder := own s, lane := l, label := r.label, part := p, countCode := c, cls := r.cls, ret := r.ret,
                use := .hold, sample := 0 })
            txSlots := s.line.txSlots ++ [n] } })) ∧
    (∀ l : LaneNo, (s.streams.lanes.get l).health = .double →
      (∀ k, k ≠ l → (s.streams.lanes.get k).health = .clean) → s.line.onLine = none →
      ∃ t, exec (.slotStart n) s = .next t ∧
        t.mode = { actual := .listen, requested := .listen, target := .none, withdrawCount := 0, cause := .memory } ∧
        laneOfState t l = { Lane.default with outcome := .fault, changed := true } ∧
        (∀ k, k ≠ l → (laneOfState t k).state = .closed ∧ (laneOfState t k).outcome = .fault ∧
          (laneOfState t k).label = (laneOfState s k).label) ∧
        (∀ k, (t.streams.lanes.get k).health = .clean) ∧ t.streams.outbox = [] ∧ t.line.onLine = none ∧
        t.line.txSlots = s.line.txSlots ∧ t.errorRecord = some ⟨.streams, l.val, .double⟩ ∧ t.HasAlert .memFailed ∧
        t.HasAlert .stream ∧ t.HasAlert .mode ∧ t.alloc = s.alloc ∧ t.cycle.phase = s.cycle.phase)) ∧
  ∀ (s : State) (l : LaneNo) (lane label count flags : Byte), s.HostReady → lane.toNat = l.val →
    let inRange : Prop := 1 ≤ count.toNat ∧ count.toNat ≤ 8 ∧ flags.toNat < 8
    let fails (k : LaneNo) : Prop := (s.streams.lanes.get k).health = .double
    let open_ : Out := exec (.openStream lane label count flags) s
    let close : Out := exec (.closeStream lane) s
    let read : Out := exec (.readStream lane) s
    let fresh (changed : Bool) : Lane := { Lane.default with outcome := .fault, changed := changed }
    let closed (k : LaneNo) : Lane := { laneOfState s k with
      state := .closed, slots := [], position := none, outcome := .fault, closeOnWithdraw := false, changed := true }
    let answers (o : Out) (st : Status) (payload : List Byte) (lanes : LaneNo → Lane) (t : State) : Prop := o = .next t ∧
      t.port.response = some ⟨st, payload⟩ ∧ (∀ k, laneOfState t k = lanes k) ∧
      (∀ k, (t.streams.lanes.get k).health = .clean) ∧ (∀ k, t.lanes.txFifo.get k = []) ∧ t.streams.outbox = [] ∧
      t.mode = { actual := .listen, requested := .listen, target := .none, withdrawCount := 0, cause := .memory } ∧
      t.line.onLine = none ∧ t.HasAlert .memFailed ∧ t.HasAlert .stream ∧ t.HasAlert .mode ∧ t.alloc = s.alloc ∧
      t.cycle.phase = s.cycle.phase
    let repaired (st : Status) (payload : List Byte) (k : LaneNo) (r : Lane) : State := { s.answered st payload with
      streams := { s.streams with lanes := s.streams.lanes.set k (.fresh r) }
      lanes := { s.lanes with txFifo := s.lanes.txFifo.set k [] }
      mode := { s.mode with cause := .memory }
      errorRecord := some ⟨.streams, k.val, .double⟩
      alerts := (s.alerts.raise .memFailed).raise .stream }
    (s.mode.actual ≠ .off → s.mode.actual ≠ .listen → fails l →
      let after (k : LaneNo) : Lane := if fails k then fresh true else closed k
      let recorded (t : State) : Prop := (∀ k, k ≠ l → (s.streams.lanes.get k).health = .clean) →
        t.errorRecord = some ⟨.streams, l.val, .double⟩
      (∃ t, answers read .done (streamRecord l (fresh true)) (fun k => if k = l then fresh false else after k) t ∧
        recorded t) ∧
      (∃ t, answers close .done [] after t ∧ recorded t) ∧
      (inRange → s.mode.actual ≠ .withdrawing → ∃ t, answers open_ .refusedMode [] after t ∧ recorded t)) ∧
    (∀ a w b, s.mode.actual ≠ .off → s.mode.actual ≠ .listen → (∀ k, (s.streams.lanes.get k).health = .clean) →
      s.line.onLine = none → s.streams.outbox = a ++ w :: b → (∀ v ∈ a, v.health ≠ .double) → w.health = .double →
      (∃ t, answers close .done [] closed t ∧ t.errorRecord = some ⟨.streams, 8 + a.length, .double⟩) ∧
      (inRange → s.mode.actual ≠ .withdrawing → ∃ t, answers open_ .refusedMode [] closed t ∧
        t.errorRecord = some ⟨.streams, 8 + a.length, .double⟩)) ∧
    (s.mode.actual = .off ∨ s.mode.actual = .listen → fails l →
      read = .next (repaired .done (streamRecord l (fresh true)) l (fresh false)) ∧
      close = .next (repaired .done [] l (fresh true))) ∧
    (s.mode.actual = .off ∨ s.mode.actual = .listen → fails l → (∀ k < l, (s.streams.lanes.get k).health = .clean) →
      (let left := repaired .done [] l (fresh true)
       let t := repaired .done (laneStatusRecord left) l (fresh true)
       exec .readLanes s = .next { t with lanes := { t.lanes with
         txOverrun := .replicate 8 false, rxOverrun := .replicate 8 false } }) ∧
      (let left := repaired .done [] l (fresh true)
       exec .readAlerts s = .next (repaired .done (alertRecord left) l (fresh true))))

/-- Errors met by a read in the regions QUEUE, LANES and NOTES, and those of MAP and QUEUE out of MEMBER (R28, R34, R95, R149,
R150, R151, R153, R154, R156). QUEUE, at a WITHDRAW of another station that finds nothing: single errors are corrected and
recorded; a double error at a MEMBER station is recorded and starts a resync with empty tables. QUEUE at a WITHDRAW and MAP at
a RELEASE of another station in the other modes: a double error is recorded and abandons the message; in LISTEN, JOINING,
RESYNC and WITHDRAWING with phase VERIFY the phase becomes ADOPT, and the rebuild list and the held notices are discarded; in
LISTEN with phase LEARNED the tables are emptied too; in WITHDRAWING with phase LEARNED mode, target, phase and tables stay.
MAP in phase REBUILD, by a failing word of the rebuild list at the close of the slot field: the phase becomes ADOPT with the
list discarded, the map cleared as the rebuild began it, and the queue as it was. LANES: a word taken from a FIFO leaves it,
corrected or replaced by zero. NOTES: a double error in the entry offered at a window start, read at a completion or read by
NOTE_OUTCOME makes it CORRUPT with tag and attempts as read; nothing is offered, judged or tried again; a received note that
fails is returned CORRUPT and removed. That a WITHDRAW reads the queue first and an entry's control word is read before its
payload is log 3 (DESIGN CHOICE). -/
def Obligations.QueueLaneAndNoteErrors : Prop :=
  ∀ s : State,
    (∀ (st : Station) (l : LaneNo) (b : Body) (region : Region) (index : Nat), s.Framed → s.line.onLine = none →
      s.NotesIdle → st ≠ own s →
      (b = .withdraw l ∧ region = .queue ∧ ∃ a w c, s.alloc.queue = a ++ w :: c ∧ (∀ v ∈ a, v.health = .clean) ∧
        w.health = .double ∧ index = a.length + 1) ∨
      (b = .release l ∧ region = .map ∧ ∃ n : Slot, (∀ m < n, (s.alloc.map.get m).health = .clean) ∧
        (s.alloc.map.get n).health = .double ∧ index = n.val) →
      let found : State := { s with
        line := { s.line with silenceTimer := some 0, wonWindow := false }
        errorRecord := some ⟨region, index, .double⟩
        alerts := s.alerts.raise .memFailed }
      let adopts (alloc : AllocationUnit) : State := { found with
        cycle := { s.cycle with phase := .adopt }, alloc := { alloc with rebuildList := [], heldNotices := [] } }
      let takes (t : State) : Prop := exec (.windowEnded (.intact st b)) s = .next t
      (s.mode.actual ≠ .member → s.cycle.phase = .verify → takes (adopts s.alloc)) ∧
      (s.mode.actual = .listen → s.cycle.phase = .learned →
        takes (adopts { s.alloc with map := .replicate 48 (.fresh .free), queue := [], mapFoundWrong := false })) ∧
      (s.mode.actual = .withdrawing → s.cycle.phase = .learned → takes found)) ∧
    (∀ (a c : List (Stored RebuildTag)) (w : Stored RebuildTag), s.Framed → s.mode.actual ≠ .member →
      s.cycle.phase = .rebuild → s.alloc.rebuildList = a ++ w :: c → (∀ v ∈ a, v.health = .clean) → w.health = .double →
      exec .slotFieldClosed s = .next { s with
        cycle := { s.cycle with phase := .adopt }
        alloc := { map := .replicate 48 (.fresh .free), queue := s.alloc.queue, rebuildList := [], heldNotices := [],
                   fieldConflict := false, mapFoundWrong := false }
        errorRecord := some ⟨.map, 48, .double⟩
        alerts := s.alerts.raise .memFailed }) ∧
    (∀ (st : Station) (l : LaneNo) (a b : List (Stored QueueEntry)) (w : Stored QueueEntry), s.Framed →
      s.mode.actual = .member → s.cycle.phase = .learned → s.line.onLine = none → s.NotesIdle → s.MapClean →
      st ≠ own s → s.alloc.queue = a ++ w :: b → (∀ v ∈ a, v.health = .clean) →
      (∀ n h, entryAt s n = .held h → ¬(h.holder = st ∧ h.lane = l)) →
      (w.health = .single → (∀ v ∈ b, v.health = .clean) → (∀ v ∈ s.alloc.queue, v.val.station ≠ st) →
        exec (.windowEnded (.intact st (.withdraw l))) s = .next { s with
          line := { s.line with silenceTimer := some 0, wonWindow := false }
          alloc := { s.alloc with queue := a ++ .fresh w.val :: b }
          errorRecord := some ⟨.queue, a.length + 1, .single⟩
          alerts := s.alerts.raise .memCorrected }) ∧
      (w.health = .double → ∃ t, exec (.windowEnded (.intact st (.withdraw l))) s = .next t ∧
        t.mode = { s.mode with actual := .resync } ∧ t.cycle.phase = .adopt ∧ t.cycle.resyncAttempts = 0 ∧
        t.TablesEmpty ∧ t.errorRecord = some ⟨.queue, a.length + 1, .double⟩ ∧ t.HasAlert .memFailed ∧
        t.HasAlert .conflict ∧ t.HasAlert .mode ∧ t.streams = s.streams)) ∧
    (∀ (d : Fin 8) (w : Stored Sample) (ws : List (Stored Sample)), s.Running →
      let l : LaneNo := s.lanes.lastServed + 1 + d
      let served (x : Sample) : LaneUnit := { s.lanes with
        rxFifo := s.lanes.rxFifo.set l ws, lastServed := l, smpSync := true
        period := some { out := BitVec.ofNat 32 (2 ^ 31 + 2 ^ 28 * l.val + x.toNat), collected := [] } }
      (∀ e < d, s.lanes.rxFifo.get (s.lanes.lastServed + 1 + e) = []) → s.lanes.rxFifo.get l = w :: ws →
      (w.health = .double → exec .wordPeriodBegin s = .next { s with
        lanes := served 0, errorRecord := some ⟨.lanes, 8 + l.val, .double⟩, alerts := s.alerts.raise .memFailed }) ∧
      (w.health = .single → exec .wordPeriodBegin s = .next { s with
        lanes := served w.val, errorRecord := some ⟨.lanes, 8 + l.val, .single⟩
        alerts := s.alerts.raise .memCorrected })) ∧
    (∀ (n : Slot) (l : LaneNo) (w : Stored Sample) (ws : List (Stored Sample)), s.Framed → s.StreamsClean →
      s.mode.actual = .member → s.line.driverEnable = true → (laneOfState s l).state = .held →
      n ∈ (laneOfState s l).slots → (∀ k < l, n ∉ (laneOfState s k).slots) → s.lanes.txFifo.get l = w :: ws →
      w.health = .double → ∃ t g, exec (.slotStart n) s = .next t ∧ t.line.onLine = some (.tag n g) ∧ g.use = .live ∧
        g.sample = 0 ∧ g.lane = l ∧ t.lanes = { s.lanes with txFifo := s.lanes.txFifo.set l ws } ∧
        t.errorRecord = some ⟨.lanes, l.val, .double⟩ ∧ t.HasAlert .memFailed ∧ t.mode = s.mode) ∧
    (∀ (ds : List TxNote) (n : TxNote) (rest : List TxNote), s.notes.tx = ds ++ n :: rest →
      n.control = .double ∨ n.control = .clean ∧ n.body = .double →
      let corrupt : State := { s with
        notes := { s.notes with tx := ds ++
          { n with state := .done, outcome := some .corrupt, countdown := 0, ending := .none, control := .clean } :: rest }
        errorRecord := some ⟨.notes, ds.length, .double⟩
        alerts := (s.alerts.raise .memFailed).raise .noteDone }
      (s.Framed → s.mode.actual = .member → s.line.onLine = none → s.streams.outbox = [] →
        (∀ d ∈ ds, d.state = .done) → n.state ≠ .done → n.countdown = 0 → exec .windowStart s = .next { corrupt with
          line := { s.line with wonWindow := false } }) ∧
      (∀ st b a, s.Running → s.mode.actual = .member → s.line.onLine = some (.message .note st b) →
        (∀ d ∈ ds, d.state = .done) → n.state = .active →
        exec (.ownTransmissionCompleted .good a) s = .next { corrupt with
          line := { s.line with onLine := none, wonWindow := true, driverFaultCount := 0 } }) ∧
      (s.HostReady → (∀ d ∈ ds, d.state ≠ .done) → n.state = .done → exec .noteOutcome s = .next
        { s.answered .done [n.tag, 7, byteOf n.attempts] with
          notes := { s.notes with tx := ds ++ rest }
          errorRecord := some ⟨.notes, ds.length, .double⟩
          alerts := s.alerts.raise .memFailed })) ∧
    (∀ (ds : List TxNote) (n : TxNote) (rest : List TxNote) (num : Station), s.notes.tx = ds ++ n :: rest →
      (∀ d ∈ ds, d.state = .done) → s.Framed → s.mode.actual = .member → s.line.onLine = none → s.streams.outbox = [] → s.line.driverEnable = true →
      n.state ≠ .done → n.countdown = 0 → n.kind = .station → n.number = num.val → n.control = .single →
      n.body = .clean → exec .windowStart s = .next { s with
        line := { s.line with
          wonWindow := false
          messageBits := 0
          onLine := some (.message .note (own s) (.note { kind := 0, number := num, payload := n.payload })) }
        notes := { s.notes with tx := ds ++ { n with state := .active, control := .clean } :: rest }
        errorRecord := some ⟨.notes, ds.length, .single⟩
        alerts := s.alerts.raise .memCorrected }) ∧
    (∀ w ws, s.HostReady → s.notes.ring = w :: ws → w.health = .double → exec .takeNote s = .next
      { s.answered .done [1, 0, 0, 0, 0, 0] with
        notes := { s.notes with ring := ws }
        errorRecord := some ⟨.notes, 4, .double⟩
        alerts := s.alerts.raise .memFailed })

/-! ## The message field: what the station sends -/

/-- The start of a window (R7, R23, R99, R134). With a message in the outbox: in MEMBER, and in WITHDRAWING with phase VERIFY
or LEARNED, the head is taken into its window with this station as sender, a CLAIM with the lane's record as it stands; in
any other mode nothing is offered, and the head stays where it is in every case. With an empty outbox: in MEMBER the oldest
entry that is not DONE is taken when its countdown is 0, and becomes ACTIVE; with a countdown above 0, or in another mode,
nothing is offered. That the oldest entry that is not DONE is found by the states held, without a read, is log 49 (DESIGN
CHOICE). -/
def Obligations.WindowStartTakesTheContender : Prop :=
  ∀ s : State, s.Framed → s.line.onLine = none → s.line.driverEnable = true →
    let nothing : Prop := exec .windowStart s = .next { s with line := { s.line with wonWindow := false } }
    (∀ (w : Stored OutboxEntry) (ws : List (Stored OutboxEntry)), s.StreamsClean → s.streams.outbox = w :: ws →
      let sends (b : Body) : Prop := exec .windowStart s = .next { s with
        line := { s.line with
          wonWindow := false, messageBits := 0, onLine := some (.message .outbox (own s) b) } }
      (s.mode.actual = .member ∨
        s.mode.actual = .withdrawing ∧ (s.cycle.phase = .verify ∨ s.cycle.phase = .learned) →
        (∀ l (c : Fin 16), w.val = .claim l → c.val = (laneOfState s l).count → sends (.claim l (laneOfState s l).label c
          (laneOfState s l).cls (laneOfState s l).wait (laneOfState s l).ret)) ∧
        (∀ l, w.val = .release l → sends (.release l)) ∧
        (∀ l, w.val = .withdraw l → sends (.withdraw l)) ∧
        (w.val = .restart → sends .restart)) ∧
      (s.mode.actual = .listen ∨ s.mode.actual = .joining ∨ s.mode.actual = .resync ∨
        s.mode.actual = .withdrawing ∧ s.cycle.phase ≠ .verify ∧ s.cycle.phase ≠ .learned → nothing)) ∧
    (∀ (ds : List TxNote) (n : TxNote) (rest : List TxNote) (num : Station), s.streams.outbox = [] →
      s.notes.tx = ds ++ n :: rest → (∀ d ∈ ds, d.state = .done) → n.state ≠ .done → n.control = .clean →
      n.body = .clean → n.number = num.val →
      let kind : Fin 4 := match n.kind with | .station => 0 | .group => 1 | .all => 2
      (s.mode.actual = .member → n.countdown = 0 → exec .windowStart s = .next { s with
        line := { s.line with
          wonWindow := false
          messageBits := 0
          onLine := some (.message .note (own s) (.note { kind := kind, number := num, payload := n.payload })) }
        notes := { s.notes with tx := ds ++ { n with state := .active } :: rest } }) ∧
      (s.mode.actual ≠ .member ∨ n.countdown ≠ 0 → nothing))

/-- Arbitration lost (R8, R11, R15, R99, R102, R135): a loser of mark contention stops contending; a loser of founding
contention has its founding pending no longer and takes the winner's mark as its step (a) (R30), which a mode other than
JOINING does not await (log 38, DESIGN CHOICE); a message leaves its window and stays with its owner unchanged, a control
message in MEMBER as a note that is not to end, the ACTIVE one behind any DONE ones (R133); a note marked abort-pending or
discard-pending becomes DONE with outcome ABORTED or DISCARDED, its attempts as they stood, and the alert NOTE_DONE (R139,
R140, R141); and a CLAIM closed in its window leaves the outbox, and its lane becomes CLOSED(CANCELLED). -/
def Obligations.ArbitrationLostKeepsTheMessage : Prop :=
  ∀ s : State, s.Running → s.mode.actual ≠ .off →
    (s.line.contention = .mark →
      exec .arbitrationLost s = .next { s with line := { s.line with contention := .none } }) ∧
    (s.line.contention = .founding → exec .arbitrationLost s = .next { s with
      line := { s.line with contention := .none }, cycle := { s.cycle with
        foundingPending := false, winnerMarkDue := decide (s.mode.actual = .joining) } }) ∧
    (∀ st b, s.line.contention = .none → s.line.onLine = some (.message .outbox st b) → s.mode.actual = .member →
      s.StreamsClean → (∀ l x k c w r, b = .claim l x k c w r → (laneOfState s l).state ≠ .cancelling) →
      exec .arbitrationLost s = .next { s with line := { s.line with onLine := none } }) ∧
    (∀ st b ds n rest, s.line.contention = .none → s.line.onLine = some (.message .note st b) →
      s.notes.tx = ds ++ n :: rest → (∀ d ∈ ds, d.state = .done) → n.state = .active → n.ending = .none →
      exec .arbitrationLost s = .next { s with line := { s.line with onLine := none } }) ∧
    (∀ st b ds n rest o, s.line.contention = .none → s.line.onLine = some (.message .note st b) →
      s.notes.tx = ds ++ n :: rest → (∀ d ∈ ds, d.state = .done) → n.state = .active → n.control = .clean → n.ending = .abort ∧ o = .aborted ∨ n.ending = .discard ∧ o = .discarded →
      exec .arbitrationLost s = .next { s with
        line := { s.line with onLine := none }
        notes := { s.notes with
          tx := ds ++ { n with state := .done, outcome := some o, countdown := 0, ending := .none } :: rest }
        alerts := s.alerts.raise .noteDone }) ∧
    (∀ st l x k c w r, s.line.contention = .none → s.line.onLine = some (.message .outbox st (.claim l x k c w r)) →
      s.mode.actual = .member → s.StreamsClean → (laneOfState s l).state = .cancelling →
      ∃ t, exec .arbitrationLost s = .next t ∧ (laneOfState t l).state = .closed ∧
        (laneOfState t l).outcome = .cancelled ∧ (∀ j, j ≠ l → laneOfState t j = laneOfState s j) ∧
        t.streams.outbox = s.streams.outbox.filter (fun e => e.val.lane? ≠ some l) ∧ t.line.onLine = none ∧
        t.mode = s.mode)

/-- The completion of a control message in MEMBER (R2, R17, R98, R99, R102): with readback good the outbox head is removed
and the driver-fault count is 0; with readback mismatch below the driver-fault limit the head stays and the count is one
more. A CLAIM closed in its window is removed in both cases and a WITHDRAW appended; after a mismatch that WITHDRAW's good
completion closes the lane with outcome CANCELLED. -/
def Obligations.ControlMessageCompletes : Prop :=
  ∀ (s : State) (st : Station) (b : Body) (w : Stored OutboxEntry) (ws : List (Stored OutboxEntry)), s.Running →
    s.mode.actual = .member → s.StreamsClean → s.line.onLine = some (.message .outbox st b) →
    s.streams.outbox = w :: ws →
    let ended (count : Nat) : LineUnit :=
      { s.line with onLine := none, wonWindow := true, driverFaultCount := count }
    ((∀ l x k c v r, b = .claim l x k c v r → (laneOfState s l).state ≠ .cancelling) →
      (∀ l, b = .withdraw l → (laneOfState s l).closeOnWithdraw = false) →
      exec (.ownTransmissionCompleted .good .none) s = .next { s with
        line := ended 0, streams := { s.streams with outbox := ws } }) ∧
    ((∀ l x k c v r, b = .claim l x k c v r → (laneOfState s l).state ≠ .cancelling) → s.line.driverFaultCount < 3 →
      exec (.ownTransmissionCompleted .mismatch .none) s = .next { s with
        line := ended (s.line.driverFaultCount + 1) }) ∧
    (∀ l x k c v r, b = .claim l x k c v r → (laneOfState s l).state = .cancelling →
      (∀ e ∈ ws, e.val.lane? ≠ some l) →
      exec (.ownTransmissionCompleted .good .none) s = .next { s with
        line := ended 0, streams := { s.streams with outbox := ws ++ [.fresh (.withdraw l)] } } ∧
      (s.line.driverFaultCount < 3 → exec (.ownTransmissionCompleted .mismatch .none) s = .next { s with
        line := ended (s.line.driverFaultCount + 1)
        streams := {
          lanes := s.streams.lanes.set l (.fresh { laneOfState s l with closeOnWithdraw := true })
          outbox := ws ++ [.fresh (.withdraw l)] } })) ∧
    (∀ l, b = .withdraw l → (laneOfState s l).state = .cancelling → (laneOfState s l).closeOnWithdraw = true →
      exec (.ownTransmissionCompleted .good .none) s = .next { s with
        line := ended 0
        streams := {
          lanes := s.streams.lanes.set l (.fresh { laneOfState s l with
            state := .closed, slots := [], position := none, outcome := .cancelled, closeOnWithdraw := false,
            changed := true })
          outbox := ws }
        lanes := { s.lanes with txFifo := s.lanes.txFifo.set l [] }
        alerts := s.alerts.raise .stream })

/-- The driver-fault count at the completion of a tag (R17, R18, R35): good sets it to 0, a mismatch raises it; the fourth
mismatch disables the driver, sets the count to 0 and the alert DRIVER_FAULT, and makes the direct fault entry into LISTEN
with every stream CLOSED; DRIVER_FAULT as a command is that notice by itself (log 23). What the entry cuts goes by the bit
times that have passed of the window (R8, R13; counted by steps: log 8). In its first 17 a message has lost its arbitration:
a CLAIM closed in its window becomes CLOSED(CANCELLED) (R102), and the ACTIVE note, behind any DONE ones, ends DISCARDED, or
ABORTED where it is marked so, with its attempts as they stood (R141). Later it is a mismatch: the note has made one attempt
more, and is NO_ANSWER where that is its last. -/
def Obligations.DriverFaultAtTheFourthMismatch : Prop :=
  ∀ s : State, s.Running →
    let faulted (t : State) : Prop :=
      t.mode = { actual := .listen, requested := .listen, target := .none, withdrawCount := 0, cause := .driverFault } ∧
      t.line.driverEnable = false ∧ t.line.driverFaultCount = 0 ∧ t.line.onLine = none ∧ t.StreamsIdle ∧
      t.ClosedFrom s .fault ∧ t.HasAlert .driverFault ∧ t.HasAlert .mode ∧ t.alloc = s.alloc ∧
      t.cycle.phase = s.cycle.phase
    (∀ n g, s.line.onLine = some (.tag n g) → s.mode.actual = .member ∨ s.mode.actual = .resync →
      exec (.ownTransmissionCompleted .good .none) s = .next { s with
        line := { s.line with onLine := none, driverFaultCount := 0 } } ∧
      (s.line.driverFaultCount < 3 → exec (.ownTransmissionCompleted .mismatch .none) s = .next { s with
        line := { s.line with onLine := none, driverFaultCount := s.line.driverFaultCount + 1 } }) ∧
      (s.line.driverFaultCount = 3 → ∃ t, exec (.ownTransmissionCompleted .mismatch .none) s = .next t ∧ faulted t)) ∧
    (s.mode.actual = .member ∨ s.mode.actual = .resync ∨ s.mode.actual = .joining ∨ s.mode.actual = .withdrawing →
      ∃ t, exec .driverFault s = .next t ∧ faulted t) ∧
    (∀ st b ds n rest, s.mode.actual = .member → s.line.onLine = some (.message .note st b) →
      s.notes.tx = ds ++ n :: rest → (∀ d ∈ ds, d.state = .done) → n.state = .active → n.control = .clean → n.body = .clean →
      let marked : NoteOutcome := if n.ending = .abort then .aborted else .discarded
      let ended (attempts : Nat) (o : NoteOutcome) : TxNote := { n with
        state := .done, attempts := attempts, outcome := some o, countdown := 0, ending := .none }
      ∃ t, exec .driverFault s = .next t ∧ faulted t ∧ t.HasAlert .noteDone ∧
        t.notes.tx.take ds.length = ds ∧
        (s.line.messageBits < 17 → t.notes.tx[ds.length]? = some (ended n.attempts marked)) ∧
        (17 ≤ s.line.messageBits → t.notes.tx[ds.length]? = some (ended (n.attempts + 1)
          (if s.port.config.noteAttempts ≤ n.attempts + 1 then .noAnswer else marked))))

/-- The completion of a note in its window in MEMBER and WITHDRAWING (R135 to R141), which the ACTIVE entry is, behind any DONE
ones (R133): one attempt more, then by the answer and
the kind the entry is DONE with its outcome and the alert NOTE_DONE. Where the result is not final the entry waits with its
countdown at the configured spacing; one marked abort-pending is DONE with outcome ABORTED instead, and one marked
discard-pending with outcome DISCARDED. -/
def Obligations.NoteIsJudgedAtCompletion : Prop :=
  ∀ (s : State) (st : Station) (b : Body) (ds : List TxNote) (n : TxNote) (rest : List TxNote), s.Running →
    s.mode.actual = .member ∨ s.mode.actual = .withdrawing → s.line.onLine = some (.message .note st b) →
    s.notes.tx = ds ++ n :: rest → (∀ d ∈ ds, d.state = .done) → n.state = .active → n.control = .clean → n.body = .clean →
    let line (count : Nat) : LineUnit := { s.line with onLine := none, wonWindow := true, driverFaultCount := count }
    let ends (o : NoteOutcome) (count : Nat) : State := { s with
      line := line count
      notes := { s.notes with tx :=
        ds ++ { n with
          state := .done, outcome := some o, attempts := n.attempts + 1, countdown := 0, ending := .none } :: rest }
      alerts := s.alerts.raise .noteDone }
    let waits (count : Nat) : State := { s with
      line := line count
      notes := { s.notes with
        tx := ds ++ { n with attempts := n.attempts + 1, countdown := s.port.config.noteSpacing } :: rest
        countdownFresh := true } }
    let goesOn (count : Nat) : State := match n.ending with
      | .none => waits count
      | .abort => ends .aborted count
      | .discard => ends .discarded count
    let last : Prop := s.port.config.noteAttempts ≤ n.attempts + 1
    (n.kind = .station → exec (.ownTransmissionCompleted .good .ack) s = .next (ends .delivered 0)) ∧
    (n.kind = .station → last → exec (.ownTransmissionCompleted .good .busy) s = .next (ends .busy 0)) ∧
    (n.kind = .station → last → exec (.ownTransmissionCompleted .good .none) s = .next (ends .noAnswer 0)) ∧
    (n.kind = .station → ¬last → exec (.ownTransmissionCompleted .good .busy) s = .next (goesOn 0)) ∧
    (n.kind = .station → ¬last → exec (.ownTransmissionCompleted .good .none) s = .next (goesOn 0)) ∧
    (n.kind ≠ .station → exec (.ownTransmissionCompleted .good .none) s = .next (ends .sent 0)) ∧
    (s.line.driverFaultCount < 3 → last →
      exec (.ownTransmissionCompleted .mismatch .none) s = .next (ends .noAnswer (s.line.driverFaultCount + 1))) ∧
    (s.line.driverFaultCount < 3 → ¬last →
      exec (.ownTransmissionCompleted .mismatch .none) s = .next (goesOn (s.line.driverFaultCount + 1)))

/-- The limits counted on the ACTIVE entry, behind any DONE ones (R133). The spacing countdown (R138): the report of a window
decreases it, but for the report of the window in which it was set, and it stops at 0. SPACING_COUNTDOWN_EXPIRED takes the
last step of one that stands at 1; NOTE_ATTEMPT_LIMIT ends a STATION note, out of its window, that has made the configured
attempts, with BUSY or NO_ANSWER by the last answer (R136). That the two are commands of their own is the model's reading of
the table (log 5); that a decrease reads the control word, here without an error, is log 37, and that NOTE_ATTEMPT_LIMIT reads
nothing is log 3 (DESIGN CHOICE). -/
def Obligations.SpacingAndAttemptLimit : Prop :=
  ∀ (s : State) (ds : List TxNote) (n : TxNote) (rest : List TxNote), s.Framed → s.line.onLine = none →
    s.notes.tx = ds ++ n :: rest → (∀ d ∈ ds, d.state = .done) → n.state = .active → n.control = .clean →
    (∀ m ∈ rest, m.state ≠ .active) →
    (s.notes.countdownFresh = false → ∀ r, r = .empty ∨ r = .damaged → exec (.windowEnded r) s = .next { s with
      line := { s.line with wonWindow := false }
      notes := { s.notes with tx := ds ++ { n with countdown := n.countdown - 1 } :: rest } }) ∧
    (s.notes.countdownFresh = true → ∀ r, r = .empty ∨ r = .damaged → exec (.windowEnded r) s = .next { s with
      line := { s.line with wonWindow := false }, notes := { s.notes with countdownFresh := false } }) ∧
    (n.countdown = 1 → exec .spacingCountdownExpired s = .next { s with
      notes := { s.notes with tx := ds ++ { n with countdown := 0 } :: rest } }) ∧
    (n.countdown ≠ 1 → exec .spacingCountdownExpired s = .next s) ∧
    (∀ o a, a = .busy ∧ o = .busy ∨ a = .none ∧ o = .noAnswer → n.kind = .station →
      s.port.config.noteAttempts ≤ n.attempts → exec (.noteAttemptLimit a) s = .next { s with
        notes := { s.notes with
          tx := ds ++ { n with state := .done, outcome := some o, countdown := 0, ending := .none } :: rest }
        alerts := s.alerts.raise .noteDone }) ∧
    (n.attempts < s.port.config.noteAttempts → ∀ a, exec (.noteAttemptLimit a) s = .next s)

/-! ## The message field: what the station receives -/

/-- A received note. A STATION note at its check sequence (R10, R143, R144): one addressed to this station by another, in
MEMBER or WITHDRAWING, is placed with NOTE_IN and answered ACK while the ring has room, or dropped with RING_FULL and
answered BUSY; a disabled driver drives no answer; any other note, or a damaged one, changes nothing. A GROUP or ALL note
at its window's end (R143, R145), from another station and addressed to ALL or to this station's enabled group: placed at
the tail with NOTE_IN while the ring holds fewer than 4 notes, else dropped with RING_FULL; the silence timer restarts
(R14). -/
def Obligations.ReceivedNoteIsPlaced : Prop :=
  ∀ (s : State) (sender : Station) (n : NoteContents), s.Framed →
    let accepted : Prop := n.kind = 0 ∧ n.number = own s ∧ sender ≠ own s ∧
      (s.mode.actual = .member ∨ s.mode.actual = .withdrawing)
    let drives (a : Answer) : LineUnit :=
      if s.line.driverEnable then { s.line with onLine := some (.answer a) } else s.line
    let placed (kind : DestKind) : NoteUnit := { s.notes with ring := s.notes.ring ++
      [.fresh { sender := sender, kind := kind, payload := n.payload, cycle := s.cycle.cycleNumber }] }
    (accepted → s.notes.ring.length < 4 → exec (.noteCheckSequenceReceived (.intact sender n)) s = .next { s with
      line := drives .ack, notes := placed .station, alerts := s.alerts.raise .noteIn }) ∧
    (accepted → 4 ≤ s.notes.ring.length → exec (.noteCheckSequenceReceived (.intact sender n)) s = .next { s with
      line := drives .busy, alerts := s.alerts.raise .ringFull }) ∧
    (¬accepted → exec (.noteCheckSequenceReceived (.intact sender n)) s = .next s) ∧
    exec (.noteCheckSequenceReceived .damaged) s = .next s ∧
    (s.line.onLine = none → s.NotesIdle → sender ≠ own s →
      let line : LineUnit := { s.line with silenceTimer := some 0, wonWindow := false }
      let ours : Prop :=
        n.kind = 2 ∨ n.kind = 1 ∧ s.port.config.groupEnable = true ∧ n.number.val = s.port.config.groupNumber
      (ours → s.notes.ring.length < 4 → exec (.windowEnded (.intact sender (.note n))) s = .next { s with
        line := line, notes := placed (if n.kind = 2 then .all else .group), alerts := s.alerts.raise .noteIn }) ∧
      (ours → 4 ≤ s.notes.ring.length → exec (.windowEnded (.intact sender (.note n))) s = .next { s with
        line := line, alerts := s.alerts.raise .ringFull }) ∧
      (¬ours → exec (.windowEnded (.intact sender (.note n))) s = .next { s with line := line }))

/-- A CLAIM granted from free slots (R57, R63, R103): with an empty queue, an identity and a label held by no slot, and at
least as many FREE slots as its count, it takes the lowest-numbered ones, the j-th of them as part j; every other slot
stays. The claimant's lane, where this station is the claimant and its CLAIM has been sent, becomes HELD with them; one
closed meanwhile stays CANCELLING with them and with outcome GRANTED, its WITHDRAW waiting (R104). -/
def Obligations.ClaimTakesLowestFreeSlots : Prop :=
  ∀ (s : State) (st : Station) (l : LaneNo) (x : Label) (k : Fin 16) (c : SlotClass) (w r : Bool), s.Framed →
    s.cycle.phase = .learned → s.mode.actual = .member → s.MapClean → s.alloc.queue = [] → s.line.onLine = none →
    s.NotesIdle → 1 ≤ k.val → k.val ≤ 8 → k.val ≤ (freeSlots s).length →
    (∀ n h, entryAt s n = .held h → h.label ≠ x ∧ ¬(h.holder = st ∧ h.lane = l)) →
    let slots := (freeSlots s).take k.val
    let granted (t : State) : Prop :=
      (∀ (j : Nat) (n : Slot), slots[j]? = some n → entryAt t n = .held
        { holder := st, lane := l, label := x, cls := c, ret := r, part := j, count := k.val, silence := 0,
          lastUse := .none, mark := .none }) ∧
      (∀ n, n ∉ slots → entryAt t n = entryAt s n) ∧ t.alloc.queue = [] ∧ t.mode = s.mode ∧ t.cycle = s.cycle ∧
      t.line = { s.line with silenceTimer := some 0, wonWindow := false } ∧ t.notes = s.notes ∧
      t.streams.outbox = s.streams.outbox
    (st ≠ own s → ∃ t, exec (.windowEnded (.intact st (.claim l x k c w r))) s = .next t ∧ granted t ∧
      t.streams = s.streams ∧ t.alerts = s.alerts) ∧
    (st = own s → s.line.wonWindow = true → s.StreamsClean → (laneOfState s l).state = .opening →
      (∀ e ∈ s.streams.outbox, e.val ≠ .claim l) →
      ∃ t, exec (.windowEnded (.intact st (.claim l x k c w r))) s = .next t ∧ granted t ∧
        laneOfState t l = { laneOfState s l with
          state := .held, slots := slots, position := none, outcome := .granted, grantCycle := s.cycle.cycleNumber,
          changed := true } ∧
        (∀ j, j ≠ l → laneOfState t j = laneOfState s j) ∧ t.HasAlert .stream) ∧
    (st = own s → s.line.wonWindow = true → s.StreamsClean → (laneOfState s l).state = .cancelling →
      ∃ t, exec (.windowEnded (.intact st (.claim l x k c w r))) s = .next t ∧ granted t ∧
        laneOfState t l = { laneOfState s l with
          slots := slots, position := none, outcome := .granted, grantCycle := s.cycle.cycleNumber, changed := true } ∧
        (∀ j, j ≠ l → laneOfState t j = laneOfState s j) ∧ t.HasAlert .stream)

/-- Pre-emption by an URGENT claim with too few FREE slots and no URGENT entry waiting (R63, R64, R65, R106). NORMAL streams are
revoked one at a time, each time the one that holds the highest-numbered NORMAL slot of those left, until the claim fits;
each is freed in full and requeued at the tail with age 0 where its return flag is set and the queue then holds fewer than 16
entries. The claim takes the lowest slots then FREE, and the surplus stays FREE: here with one victim, and with two in turn. A
victim of this station that is not requeued becomes CLOSED with outcome REVOKED, and a RELEASE or WITHDRAW of it leaves the
outbox. One that is requeued takes the outcome REQUEUED and its position: a HELD lane becomes WAITING, a CLOSING one CANCELLING
with its RELEASE replaced by a WITHDRAW at the tail, and a CANCELLING one with a slot list stays CANCELLING with its WITHDRAW.
Pre-emption by an URGENT head in queue service, here after a RELEASE (R70, R72, R74): the head leaves the queue before the
victim is revoked and requeued behind the entries that wait, and the entry behind the head, which is NORMAL, is granted from
the surplus where it fits and else waits on. -/
def Obligations.UrgentClaimPreempts : Prop :=
  ∀ (s : State) (st : Station) (l : LaneNo) (h : HeldEntry), s.Framed → s.cycle.phase = .learned →
    s.mode.actual = .member → s.MapClean → s.QueueClean → s.line.onLine = none → s.NotesIdle → st ≠ own s →
    let stream (v : HeldEntry) : Prop := v.cls = .normal ∧ (∃ n, entryAt s n = .held v) ∧
      ∀ n g, entryAt s n = .held g → g.holder = v.holder → g.lane = v.lane →
        g.cls = v.cls ∧ g.label = v.label ∧ g.count = v.count ∧ g.ret = v.ret
    let of (v : HeldEntry) (n : Slot) : Prop := (entryAt s n).ofStream v.holder v.lane = true
    let highest (v : HeldEntry) (gone : Slot → Prop) : Prop :=
      ∀ n g, entryAt s n = .held g → g.cls = .normal → ¬gone n → ∃ m, n ≤ m ∧ of v m
    let requeue (v : HeldEntry) (q : List (Stored QueueEntry)) : List (Stored QueueEntry) :=
      if v.ret = true ∧ q.length < 16 then q ++ [.fresh
        { station := v.holder, lane := v.lane, label := v.label, count := v.count, cls := .normal, ret := true, age := 0 }]
      else q
    let entered (t : State) (slots : List Slot) (e : QueueEntry) : Prop :=
      ∀ (j : Nat) (n : Slot), slots[j]? = some n → entryAt t n = .held
        { holder := e.station, lane := e.lane, label := e.label, cls := e.cls, ret := e.ret, part := j, count := e.count,
          silence := 0, lastUse := .none, mark := .none }
    let kept (t : State) : Prop := t.mode = s.mode ∧ t.cycle = s.cycle ∧ t.notes = s.notes ∧
      t.line = { s.line with silenceTimer := some 0, wonWindow := false }
    stream h →
    (∀ (x : Label) (k : Fin 16) (w r : Bool), 1 ≤ k.val → k.val ≤ 8 →
      (∀ n g, entryAt s n = .held g → g.label ≠ x ∧ ¬(g.holder = st ∧ g.lane = l)) →
      (∀ e ∈ s.alloc.queue, e.val.cls = .normal ∧ e.val.label ≠ x ∧ ¬(e.val.station = st ∧ e.val.lane = l)) →
      highest h (fun _ => False) → (freeSlots s).length < k.val → k.val ≤ (freeSlots s).length + normalTotal s →
      let claim : Out := exec (.windowEnded (.intact st (.claim l x k .urgent w r))) s
      let granted (opened : List Slot) (t : State) : Prop := entered t (opened.take k.val)
          { station := st, lane := l, label := x, count := k.val, cls := .urgent, ret := r, age := 0 } ∧
        (∀ n, n ∈ opened → n ∉ opened.take k.val → entryAt t n = .free) ∧
        (∀ n, n ∉ opened → entryAt t n = entryAt s n) ∧ kept t
      -- one victim
      (k.val ≤ (freeSlots s).length + (streamSlots h.holder h.lane s).length →
        let opened := allSlots.filter fun n => entryAt s n = .free || (entryAt s n).ofStream h.holder h.lane
        let requeued : Prop := h.ret = true ∧ s.alloc.queue.length < 16
        (h.holder ≠ own s → ∃ t, claim = .next t ∧ granted opened t ∧ t.alloc.queue = requeue h s.alloc.queue ∧
          t.streams = s.streams ∧ t.alerts = s.alerts) ∧
        let lane := laneOfState s h.lane
        let others : List (Stored OutboxEntry) := s.streams.outbox.filter fun e => e.val.lane? ≠ some h.lane
        let waits (r : Lane) (u : StreamState) : Lane := { r with
          state := u, slots := [], position := some (s.alloc.queue.length + 1), outcome := .requeued, changed := true }
        (h.holder = own s → s.StreamsClean →
          lane.state = .held ∨ lane.state = .closing ∨ lane.state = .cancelling ∧ lane.slots ≠ [] →
          ∃ t, claim = .next t ∧ granted opened t ∧ t.alloc.queue = requeue h s.alloc.queue ∧ t.HasAlert .stream ∧
            (∀ j, j ≠ h.lane → laneOfState t j = laneOfState s j) ∧
            (requeued → lane.state = .held →
              laneOfState t h.lane = waits lane .waiting ∧ t.streams.outbox = s.streams.outbox) ∧
            (requeued → lane.state = .closing → laneOfState t h.lane = waits lane .cancelling ∧
              t.streams.outbox = others ++ [.fresh (.withdraw h.lane)]) ∧
            (requeued → lane.state = .cancelling →
              laneOfState t h.lane = waits lane .cancelling ∧ t.streams.outbox = s.streams.outbox) ∧
            (¬requeued → t.lanes.txFifo.get h.lane = [] ∧ laneOfState t h.lane = { lane with
                state := .closed, slots := [], position := none, outcome := .revoked, closeOnWithdraw := false,
                changed := true } ∧
              t.streams.outbox = if lane.state = .held then s.streams.outbox else others))) ∧
      -- two victims, the second the highest of those that the first leaves
      (∀ g : HeldEntry, stream g → ¬(g.holder = h.holder ∧ g.lane = h.lane) → highest g (of h) →
        h.holder ≠ own s → g.holder ≠ own s →
        (freeSlots s).length + (streamSlots h.holder h.lane s).length < k.val →
        k.val ≤ (freeSlots s).length + (streamSlots h.holder h.lane s).length +
          (streamSlots g.holder g.lane s).length →
        let opened := allSlots.filter fun n => entryAt s n = .free || (entryAt s n).ofStream h.holder h.lane ||
          (entryAt s n).ofStream g.holder g.lane
        ∃ t, claim = .next t ∧ granted opened t ∧ t.alloc.queue = requeue g (requeue h s.alloc.queue) ∧
          t.streams = s.streams ∧ t.alerts = s.alerts)) ∧
    -- an URGENT head in the queue service of a RELEASE
    ∀ (e : Stored QueueEntry) (fs : List (Stored QueueEntry)), s.alloc.queue = e :: fs → e.val.cls = .urgent →
      e.val.station ≠ own s → h.holder ≠ own s → ¬(h.holder = st ∧ h.lane = l) → (∃ n, (entryAt s n).ofStream st l = true) →
      highest h (fun n => (entryAt s n).ofStream st l = true) → (streamSlots h.holder h.lane s).length = h.count →
      let opened := allSlots.filter fun n => entryAt s n = .free || (entryAt s n).ofStream st l
      let room := allSlots.filter fun n => entryAt s n = .free || (entryAt s n).ofStream st l ||
        (entryAt s n).ofStream h.holder h.lane
      opened.length < e.val.count → e.val.count ≤ room.length →
      let release : Out := exec (.windowEnded (.intact st (.release l))) s
      (fs = [] ∨ (∃ f gs, fs = f :: gs ∧ f.val.cls = .normal ∧ room.length - e.val.count < f.val.count) →
        ∃ t, release = .next t ∧ entered t (room.take e.val.count) e.val ∧ kept t ∧
          (∀ n, n ∈ room → n ∉ room.take e.val.count → entryAt t n = .free) ∧
          (∀ n, n ∉ room → entryAt t n = entryAt s n) ∧ t.alloc.queue = requeue h fs ∧
          t.streams = s.streams ∧ t.alerts = s.alerts) ∧
      (∀ f, fs = [f] → f.val.cls = .normal → f.val.station ≠ own s → f.val.count ≤ room.length - e.val.count →
        let used := e.val.count + f.val.count
        ∃ t, release = .next t ∧ entered t (room.take e.val.count) e.val ∧ kept t ∧
          entered t ((room.take used).drop e.val.count) f.val ∧
          (∀ n, n ∈ room → n ∉ room.take used → entryAt t n = .free) ∧
          (∀ n, n ∉ room → entryAt t n = entryAt s n) ∧ t.alloc.queue = requeue h [] ∧
          t.streams = s.streams ∧ t.alerts = s.alerts)

/-- CLAIMs that change no table (R58, R60, R61, R62, R67, R68): a count of 0 or above 8 is ignored; then in this order an
identity already a stream or waiting is REFUSED_ALREADY, a label already carried or waiting REFUSED_LABEL, a claim without
WAIT at a queue that it cannot overtake REFUSED_BUSY, one without WAIT for which neither FREE slots nor pre-emption suffice
NO_ROOM, and one with WAIT at a full queue, NORMAL or behind URGENT entries alone, REFUSED_FULL. Another station's claim so
refused only restarts the silence timer, as every intact message does (R14). This station's own brings its lane the outcome
(R103, R104): an OPENING lane whose CLAIM is sent becomes CLOSED with it, a CANCELLING lane loses its WITHDRAW and becomes
CLOSED with outcome CANCELLED, and a lane in any other state stays. -/
def Obligations.RefusedClaimsChangeNothing : Prop :=
  ∀ (s : State) (st : Station) (l : LaneNo) (x : Label) (k : Fin 16) (c : SlotClass) (w r : Bool), s.Framed →
    s.cycle.phase = .learned ∨ s.cycle.phase = .verify → s.MapClean → s.QueueClean → s.line.onLine = none →
    s.NotesIdle →
    let already : Prop := (∃ n h, entryAt s n = .held h ∧ h.holder = st ∧ h.lane = l) ∨
      ∃ e ∈ s.alloc.queue, e.val.station = st ∧ e.val.lane = l
    let labelled : Prop := (∃ n h, entryAt s n = .held h ∧ h.label = x) ∨ ∃ e ∈ s.alloc.queue, e.val.label = x
    let behind : Prop := c = .normal ∧ s.alloc.queue ≠ [] ∨ c = .urgent ∧ ∃ e ∈ s.alloc.queue, e.val.cls = .urgent
    let noRoom : Prop := (freeSlots s).length < k.val ∧ (c = .urgent → (freeSlots s).length + normalTotal s < k.val)
    let full : Prop := 16 ≤ s.alloc.queue.length ∧ (c = .urgent → ∀ e ∈ s.alloc.queue, e.val.cls = .urgent)
    let refused (o : StreamOutcome) : Prop := already ∧ o = .refusedAlready ∨
      ¬already ∧ (labelled ∧ o = .refusedLabel ∨
        ¬labelled ∧ (w = false ∧ (behind ∧ o = .refusedBusy ∨ ¬behind ∧ noRoom ∧ o = .noRoom) ∨
          w = true ∧ full ∧ o = .refusedFull))
    let heard : State := { s with line := { s.line with silenceTimer := some 0, wonWindow := false } }
    let claim : Out := exec (.windowEnded (.intact st (.claim l x k c w r))) s
    (st ≠ own s ∨ s.line.wonWindow = true → k.val = 0 ∨ 8 < k.val → claim = .next heard) ∧
    ∀ o : StreamOutcome, 1 ≤ k.val → k.val ≤ 8 → refused o →
      let lane := laneOfState s l
      let closedAs (o : StreamOutcome) (box : List (Stored OutboxEntry)) : State := { heard with
        streams := {
          lanes := s.streams.lanes.set l (.fresh { lane with
            state := .closed, slots := [], position := none, outcome := o, closeOnWithdraw := false, changed := true })
          outbox := box }
        lanes := { s.lanes with txFifo := s.lanes.txFifo.set l [] }
        alerts := s.alerts.raise .stream }
      (st ≠ own s → claim = .next heard) ∧
      (st = own s → s.line.wonWindow = true → s.mode.actual = .member → s.StreamsClean →
        (lane.state = .opening → (∀ e ∈ s.streams.outbox, e.val ≠ .claim l) →
          claim = .next (closedAs o s.streams.outbox)) ∧
        (lane.state = .cancelling →
          claim = .next (closedAs .cancelled (s.streams.outbox.filter fun e => e.val.lane? ≠ some l))) ∧
        (lane.state ≠ .opening ∨ (∃ e ∈ s.streams.outbox, e.val = .claim l) → lane.state ≠ .cancelling →
          claim = .next heard))

/-- A CLAIM with WAIT of another station that reaches step 6 (R62, R66, R67), its identity and label in neither table. With
room in the queue a NORMAL one is placed after the last entry, and an URGENT one directly after the last URGENT entry: when
it cannot overtake, whatever is FREE, or when it can and neither FREE slots nor pre-emption suffice. At a full queue that
ends in a NORMAL entry, an URGENT one displaces it. The age of a placed entry is 0. The claim of this station makes its
lane WAITING at its position, or gives one closed meanwhile the position and the outcome QUEUED in CANCELLING; a displaced
WAITING lane of this station becomes CLOSED with outcome DISPLACED, and so does a CANCELLING one with an empty slot list, whose
WITHDRAW leaves the outbox (R103, R104, R108). -/
def Obligations.WaitingClaimIsQueued : Prop :=
  ∀ (s : State) (st : Station) (l : LaneNo) (x : Label) (k : Fin 16) (r : Bool) (us ns : List (Stored QueueEntry)),
    s.Framed → s.cycle.phase = .learned → s.MapClean → s.QueueClean → s.line.onLine = none → s.NotesIdle →
    1 ≤ k.val → k.val ≤ 8 →
    (∀ n h, entryAt s n = .held h → h.label ≠ x ∧ ¬(h.holder = st ∧ h.lane = l)) →
    (∀ e ∈ s.alloc.queue, e.val.label ≠ x ∧ ¬(e.val.station = st ∧ e.val.lane = l)) →
    s.alloc.queue = us ++ ns → (∀ e ∈ us, e.val.cls = .urgent) → (∀ e ∈ ns, e.val.cls = .normal) →
    let entry (c : SlotClass) : Stored QueueEntry :=
      .fresh { station := st, lane := l, label := x, count := k.val, cls := c, ret := r, age := 0 }
    let queued (q : List (Stored QueueEntry)) : State := { s with
      line := { s.line with silenceTimer := some 0, wonWindow := false }, alloc := { s.alloc with queue := q } }
    let claim (c : SlotClass) : Out := exec (.windowEnded (.intact st (.claim l x k c true r))) s
    let urgentWaits : Prop := us ≠ [] ∨ (freeSlots s).length < k.val ∧ (freeSlots s).length + normalTotal s < k.val
    let normalWaits : Prop := s.alloc.queue ≠ [] ∨ (freeSlots s).length < k.val
    (st ≠ own s → s.alloc.queue.length < 16 →
      (normalWaits → claim .normal = .next (queued (us ++ ns ++ [entry .normal]))) ∧
      (urgentWaits → claim .urgent = .next (queued (us ++ [entry .urgent] ++ ns)))) ∧
    (st ≠ own s → s.alloc.queue.length = 16 → urgentWaits → ∀ ms e, ns = ms ++ [e] →
      (e.val.station ≠ own s → claim .urgent = .next (queued (us ++ [entry .urgent] ++ ms))) ∧
      (e.val.station = own s → s.mode.actual = .member → s.StreamsClean →
        let waiting : Prop := (laneOfState s e.val.lane).state = .waiting
        waiting ∨ (laneOfState s e.val.lane).state = .cancelling ∧ (laneOfState s e.val.lane).slots = [] →
        ∃ t, claim .urgent = .next t ∧
          t.alloc = (queued (us ++ [entry .urgent] ++ ms)).alloc ∧ t.mode = s.mode ∧ t.HasAlert .stream ∧
          (waiting → t.streams.outbox = s.streams.outbox) ∧
          (¬waiting → t.streams.outbox = s.streams.outbox.filter fun b => b.val.lane? ≠ some e.val.lane) ∧
          laneOfState t e.val.lane = { laneOfState s e.val.lane with
            state := .closed, slots := [], position := none, outcome := .displaced, closeOnWithdraw := false,
            changed := true })) ∧
    (st = own s → s.line.wonWindow = true → s.mode.actual = .member → s.StreamsClean → s.alloc.queue.length < 16 →
      normalWaits →
      let lane := laneOfState s l
      let placed (t : State) : Prop := claim .normal = .next t ∧ t.mode = s.mode ∧ t.HasAlert .stream ∧
        t.alloc = (queued (us ++ ns ++ [entry .normal])).alloc ∧ t.streams.outbox = s.streams.outbox
      (lane.state = .opening → (∀ e ∈ s.streams.outbox, e.val ≠ .claim l) → ∃ t, placed t ∧ laneOfState t l = { lane with
        state := .waiting, slots := [], position := some (s.alloc.queue.length + 1), outcome := .queued,
        changed := true }) ∧
      (lane.state = .cancelling → ∃ t, placed t ∧ laneOfState t l = { lane with
        position := some (s.alloc.queue.length + 1), outcome := .queued, changed := true }))

/-- A RELEASE and a WITHDRAW at a learned MEMBER station (R57, R70 to R74, R105, R109). A stream named by either is freed in
full, an entry named by a WITHDRAW leaves the queue and those behind it move forward, and one that names nothing has no
effect. Queue service then runs once: here over an empty queue, over a NORMAL head that does not fit, or over one entry
that fits, which is granted the lowest FREE slots. The station's own RELEASE closes its CLOSING lane with outcome RELEASED,
its own WITHDRAW its CANCELLING lane with outcome CANCELLED, and a grant by service makes its WAITING lane HELD. -/
def Obligations.ReleaseAndWithdrawServeTheQueue : Prop :=
  ∀ (s : State) (st : Station) (l : LaneNo), s.Framed → s.cycle.phase = .learned → s.mode.actual = .member →
    s.MapClean → s.QueueClean → s.line.onLine = none → s.NotesIdle →
    let ends (b : Body) : Out := exec (.windowEnded (.intact st b)) s
    let heard : State := { s with line := { s.line with silenceTimer := some 0, wonWindow := false } }
    let isStream : Prop := ∃ n h, entryAt s n = .held h ∧ h.holder = st ∧ h.lane = l
    let waiting : Prop := ∃ e ∈ s.alloc.queue, e.val.station = st ∧ e.val.lane = l
    let freed (t : State) : Prop := ∀ n, entryAt t n = if (entryAt s n).ofStream st l then .free else entryAt s n
    let opened := allSlots.filter fun n => entryAt s n = .free || (entryAt s n).ofStream st l
    let closedAs (o : StreamOutcome) (t : State) : Prop := t.HasAlert .stream ∧ t.lanes.txFifo.get l = [] ∧
      laneOfState t l = { laneOfState s l with
        state := .closed, slots := [], position := none, outcome := o, closeOnWithdraw := false, changed := true } ∧
      (∀ j, j ≠ l → laneOfState t j = laneOfState s j)
    let noFit (q : List (Stored QueueEntry)) (n : Nat) : Prop :=
      q = [] ∨ ∃ e es, q = e :: es ∧ e.val.cls = .normal ∧ n < e.val.count
    (st ≠ own s →
      (¬isStream → ends (.release l) = .next heard) ∧
      (¬isStream → ¬waiting → ends (.withdraw l) = .next heard) ∧
      (isStream → noFit s.alloc.queue opened.length → ∀ b, b = .release l ∨ b = .withdraw l ∧ ¬waiting →
        ∃ t, ends b = .next t ∧ freed t ∧ t = { heard with alloc := { s.alloc with map := t.alloc.map } }) ∧
      (∀ a e b, s.alloc.queue = a ++ e :: b → e.val.station = st → e.val.lane = l →
        (∀ v ∈ a, ¬(v.val.station = st ∧ v.val.lane = l)) → noFit (a ++ b) (freeSlots s).length →
        ends (.withdraw l) = .next { heard with alloc := { s.alloc with queue := a ++ b } })) ∧
    (∀ e : Stored QueueEntry, st ≠ own s → isStream → s.alloc.queue = [e] → e.val.count ≤ opened.length →
      ¬(e.val.station = st ∧ e.val.lane = l) →
      let slots := opened.take e.val.count
      let granted (t : State) : Prop := t.alloc.queue = [] ∧
        (∀ (j : Nat) (n : Slot), slots[j]? = some n → entryAt t n = .held
          { holder := e.val.station, lane := e.val.lane, label := e.val.label, cls := e.val.cls, ret := e.val.ret,
            part := j, count := e.val.count, silence := 0, lastUse := .none, mark := .none }) ∧
        (∀ n, n ∈ opened → n ∉ slots → entryAt t n = .free) ∧ (∀ n, n ∉ opened → entryAt t n = entryAt s n) ∧
        t.mode = s.mode ∧ t.cycle = s.cycle ∧ t.notes = s.notes ∧ t.streams.outbox = s.streams.outbox
      ∀ b, b = .release l ∨ b = .withdraw l →
        (e.val.station ≠ own s → ∃ t, ends b = .next t ∧ granted t ∧ t.streams = s.streams) ∧
        (e.val.station = own s → s.StreamsClean → (laneOfState s e.val.lane).state = .waiting →
          ∃ t, ends b = .next t ∧ granted t ∧ t.HasAlert .stream ∧
            laneOfState t e.val.lane = { laneOfState s e.val.lane with
              state := .held, slots := slots, position := none, outcome := .granted,
              grantCycle := s.cycle.cycleNumber, changed := true })) ∧
    (st = own s → s.line.wonWindow = true → s.StreamsClean → s.alloc.queue = [] → isStream →
      ((laneOfState s l).state = .closing → ∃ t, ends (.release l) = .next t ∧ freed t ∧ closedAs .released t ∧
        t.mode = s.mode ∧ t.streams.outbox = s.streams.outbox ∧ t.alloc.queue = []) ∧
      ((laneOfState s l).state = .cancelling → ∃ t, ends (.withdraw l) = .next t ∧ freed t ∧ closedAs .cancelled t ∧
        t.mode = s.mode ∧ t.streams.outbox = s.streams.outbox ∧ t.alloc.queue = [])) ∧
    (st = own s → s.line.wonWindow = true → s.StreamsClean → (laneOfState s l).state = .cancelling →
      ∀ e, s.alloc.queue = [e] → e.val.station = st → e.val.lane = l →
      ∃ t, ends (.withdraw l) = .next t ∧ t.alloc = { s.alloc with queue := [] } ∧ closedAs .cancelled t ∧
        t.mode = s.mode)

/-- A RESTART of another station, or this station's own in a window that it won (R55, R75, R110), in phases ADOPT, REBUILD,
VERIFY and LEARNED and a mode other than WITHDRAWING: both tables are cleared, the alert RESTART is set, every lane that is
not CLOSED becomes CLOSED with outcome RESTART, the outbox is emptied, REBUILD goes back to ADOPT and any other phase
stays. -/
def Obligations.RestartClearsEverything : Prop :=
  ∀ (s : State) (st : Station), s.Framed → s.cycle.phase ≠ .idle → s.mode.actual ≠ .withdrawing → s.StreamsClean →
    s.line.onLine = none → s.NotesIdle → st ≠ own s ∨ s.line.wonWindow = true →
    ∃ t, exec (.windowEnded (.intact st .restart)) s = .next t ∧ t.TablesEmpty ∧ t.HasAlert .restart ∧ t.StreamsIdle ∧
      (∀ l, (laneOfState s l).state ≠ .closed → (laneOfState t l).outcome = .restart) ∧
      (∀ l, (laneOfState s l).state = .closed → laneOfState t l = laneOfState s l) ∧
      t.cycle = { s.cycle with phase := if s.cycle.phase = .rebuild then .adopt else s.cycle.phase } ∧
      t.mode = s.mode ∧ t.notes = s.notes ∧ t.line = { s.line with silenceTimer := some 0, wonWindow := false }

/-! ## Contention, silence and founding -/

/-- Contention for a mark and for a founding (R5, R11, R15, R16, R86, 12.1.3). A MEMBER station with its driver enabled takes
part in mark contention, any other does not; a JOINING station with a founding pending and its driver enabled enters
founding contention, by its own start or by joining another's. In both it sends its 6-bit station number, most significant
bit first. The winner of mark contention begins the next mark with its cycle number plus 1, its own number, its configured
patience and reclaim count, and its queue in order; one that has left MEMBER or whose driver is disabled sends nothing. The
winner of a founding sets its cycle number to 0, is framed and begins a mark with cycle number 0, its own number and stamp,
and no entries. That the winner begins its mark within MARK_CONTENTION_WON is log 17 (DEDUCED); that MARK_CONTENTION_WON
without contention changes nothing is log 6 (DESIGN CHOICE). -/
def Obligations.ContentionBeginsTheMark : Prop :=
  ∀ s : State,
    let number : List Bool := (List.range 6).map fun i => (own s).val.testBit (5 - i)
    let contends (c : Contention) : State := { s with line := { s.line with contention := c } }
    sentInContention (contends .mark) = some number ∧ sentInContention (contends .founding) = some number ∧
    sentInContention (contends .none) = none ∧
    (s.Framed →
      (s.mode.actual = .member ∧ s.line.driverEnable = true → exec .markContention s = .next (contends .mark)) ∧
      (s.mode.actual ≠ .member ∨ s.line.driverEnable = false → exec .markContention s = .next s) ∧
      (s.line.contention = .mark → s.mode.actual = .member → s.line.driverEnable = true → s.QueueClean →
        exec .markContentionWon s = .next { s with
          line := { s.line with
            contention := .none
            onLine := some (.mark
              { cycle := s.cycle.cycleNumber + 1, marker := own s, patience := s.port.config.patience,
                reclaim := s.port.config.reclaim, summary := s.alloc.queue.map fun w => w.val.toSummary } false) } }) ∧
      (s.line.contention = .mark → s.mode.actual ≠ .member ∨ s.line.driverEnable = false →
        exec .markContentionWon s = .next (contends .none)) ∧
      (s.line.contention ≠ .mark → exec .markContentionWon s = .next s)) ∧
    (s.Running → s.mode.actual = .joining → s.line.driverEnable = true →
      (s.cycle.foundingPending = true → s.line.contention = .none →
        exec .foundingContentionStart s = .next (contends .founding) ∧
        exec .foundingContentionJoined s = .next (contends .founding)) ∧
      (s.cycle.foundingPending = false →
        exec .foundingContentionStart s = .next s ∧ exec .foundingContentionJoined s = .next s) ∧
      (s.line.contention = .founding → exec .foundingContentionWon s = .next { s with
        cycle := { s.cycle with cycleNumber := 0 }
        line := { s.line with
          framed := true
          txSlots := []
          contention := .none
          onLine := some (.mark
            { cycle := 0, marker := own s, patience := s.port.config.patience, reclaim := s.port.config.reclaim,
              summary := [] } true) } }))

/-- Line silence by the mode (R14, R15, R28, R32, R34): the silence timer restarts in every mode but OFF; a JOINING station
with its driver enabled makes a founding pending, and awaits a winner's mark no longer (log 38, DESIGN CHOICE), and with it
disabled does no more; a LISTEN station learns from the beginning; a RESYNC station becomes JOINING in phase ADOPT with its
streams CLOSED(FAULT), the outbox emptied and cause SILENCE; a WITHDRAWING station leaves for its target at once with its
streams CLOSED(ABANDONED). In MEMBER only the timer restarts (log 22). A CLAIM closed in its window that the end of a
withdrawal cuts in its contention becomes CLOSED(CANCELLED) (R8, R13, R102; its bit times: log 8). That the withdrawal target
and count are kept in LISTEN after the withdrawal is log 14 (DESIGN CHOICE). -/
def Obligations.LineSilenceByMode : Prop :=
  ∀ s : State, s.Running →
    let timed : State := { s with line := { s.line with silenceTimer := some 0 } }
    (s.mode.actual = .joining →
      (s.line.driverEnable = true →
        exec .lineSilence s = .next { timed with
          cycle := { s.cycle with foundingPending := true, winnerMarkDue := false } }) ∧
      (s.line.driverEnable = false → exec .lineSilence s = .next timed)) ∧
    (s.mode.actual = .listen → ∃ t, exec .lineSilence s = .next t ∧ t.TablesEmpty ∧
      t = { timed with
        cycle := { s.cycle with phase := .adopt }
        alloc := { t.alloc with rebuildList := [], heldNotices := [], fieldConflict := s.alloc.fieldConflict,
                                mapFoundWrong := false } }) ∧
    (s.mode.actual = .resync → ∃ t, exec .lineSilence s = .next t ∧
      t.mode = { s.mode with actual := .joining, cause := .silence } ∧ t.cycle.phase = .adopt ∧ t.StreamsIdle ∧
      (∀ l, (laneOfState s l).state ≠ .closed → (laneOfState t l).outcome = .fault) ∧ t.line.driverEnable = true ∧
      t.line.silenceTimer = some 0 ∧ t.HasAlert .mode ∧ t.alloc.map = s.alloc.map ∧ t.alloc.queue = s.alloc.queue) ∧
    (s.mode.actual = .withdrawing → s.mode.target ≠ .none → ∃ t, exec .lineSilence s = .next t ∧ t.StreamsIdle ∧
      t.ClosedFrom s .abandoned ∧ t.HasAlert .mode ∧ t.line.onLine = none ∧
      (s.mode.target = .listen → t.mode = { s.mode with actual := .listen } ∧ t.line.silenceTimer = some 0 ∧
        t.cycle.phase = (if s.cycle.phase = .learned then .verify else s.cycle.phase) ∧
        t.alloc = s.alloc) ∧
      (s.mode.target = .off → t.mode =
          { s.mode with actual := .off, requested := .off, target := .none, withdrawCount := 0 } ∧
        t.line.silenceTimer = none ∧ t.cycle.phase = .idle ∧ t.TablesEmpty)) ∧
    (s.mode.actual = .member → exec .lineSilence s = .next timed)

/-- The founding mark's good completion (R16, R30) at a JOINING station with no stream open: MEMBER, phase LEARNED, cycle
number 0, empty tables, the alert MODE; a mismatch leaves it JOINING in phase ADOPT with no founding pending. Both
OWN_TRANSMISSION_COMPLETED and FOUNDED report it; that FOUNDED is a command of its own beside the completion is the model's
reading of the table (log 5, DESIGN CHOICE). The founder, a learned MEMBER station with cycle number 0, then receives its own
founding mark as the mark of cycle 0, in sequence although it carries the number held (R16, R29): it stays MEMBER and LEARNED,
the tick of cycle 0 falls on an empty queue, and its founding mark is due no longer. The same mark a second time is out of
sequence and starts a resync. -/
def Obligations.FoundedStationIsMember : Prop :=
  (∀ (s : State) (m : MarkContents), s.Running → s.mode.actual = .member → s.cycle.phase = .learned →
    s.cycle.cycleNumber = 0 → s.alloc.queue = [] → s.port.snap.armed = false →
    m = { cycle := 0, marker := own s, patience := s.port.config.patience, reclaim := s.port.config.reclaim,
          summary := [] } →
    (s.cycle.foundingMarkDue = true → exec (.markReceived (.intact m)) s = .next { s with
      line := { s.line with framed := true, txSlots := [], silenceTimer := some 0 }
      cycle := { s.cycle with marker := own s, foundingMarkDue := false, winnerMarkDue := false, tickDone := true } }) ∧
    (s.cycle.foundingMarkDue = false → ∃ t, exec (.markReceived (.intact m)) s = .next t ∧
      t.mode = { s.mode with actual := .resync } ∧ t.cycle.phase = .rebuild ∧ t.HasAlert .conflict)) ∧
  ∀ (s : State) (m : MarkContents), s.Running → s.mode.actual = .joining → s.StreamsClean → s.StreamsIdle →
    s.line.onLine = some (.mark m true) →
    let founded (t : State) : Prop := t.mode = { s.mode with actual := .member } ∧ t.TablesEmpty ∧
      t.cycle = { s.cycle with
        phase := .learned, cycleNumber := 0, foundingPending := false, foundingMarkDue := true, winnerMarkDue := false,
        tickDone := false } ∧
      t.streams = s.streams ∧ t.HasAlert .mode ∧ t.line = { s.line with onLine := none, driverFaultCount := 0 }
    (∃ t, exec .founded s = .next t ∧ founded t) ∧
    (∃ t, exec (.ownTransmissionCompleted .good .none) s = .next t ∧ founded t) ∧
    (s.line.driverFaultCount < 3 → ∃ t, exec (.ownTransmissionCompleted .mismatch .none) s = .next t ∧
      t.mode = s.mode ∧ t.cycle = { s.cycle with phase := .adopt, foundingPending := false } ∧ t.line.onLine = none ∧
      t.line.driverFaultCount = s.line.driverFaultCount + 1)

/-! ## The Sample Port -/

/-- The Sample Port. The beginning of a word period (R119, R121): the first receive lane after the one last served, wrapping
from 7 to 0, whose FIFO is not empty gives its oldest word, which leaves it, and becomes the lane last served; the outgoing
word carries valid 1, the lane, reserved bits 0 and the sample; with every FIFO empty it is all 0 and the lane stays. A period
in progress is cut: its word and the bits collected in it are lost. SMPSYNC held high begins no further period. SMPOUT changes
at falling edges only: falling edge n of a period drives bit 32 - n of its word and leaves the level until the next; a falling
edge between periods, and RESETN, hold it low. The 32nd falling edge ends the period, and a rising edge with SMPSYNC high after
a low sample may begin the next, whose first bit of SMPIN it collects. The end of a period (R119, R120): a word with valid 0, or
for a CLOSED lane, is discarded; any other is added to its lane's transmit FIFO, a full one dropping its oldest word with
TX_OVERRUN and the alert LANE. That the end brings the 32 SMPCLK periods together, with SMPSYNC low again and the falling edge
after them, is log 35 (DEDUCED); that an end without a period changes nothing is log 6 (DESIGN CHOICE). -/
def Obligations.SamplePortWords : Prop :=
  (∀ s : State, s.pins.resetnLow = true →
    smpOutLevel s = false ∧ smpOutLevel (fallingEdge s) = false ∧ ∀ sync input, risingEdge sync input s = s) ∧
  ∀ s : State, s.Running →
    let begun (u : LaneUnit) (out : BitVec 32) : LaneUnit :=
      { u with smpSync := true, period := some { out := out, collected := [] } }
    (∀ (d : Fin 8) (w : Stored Sample) (ws : List (Stored Sample)),
      let l : LaneNo := s.lanes.lastServed + 1 + d
      (∀ e < d, s.lanes.rxFifo.get (s.lanes.lastServed + 1 + e) = []) → s.lanes.rxFifo.get l = w :: ws →
      w.health = .clean →
      exec .wordPeriodBegin s = .next { s with
        lanes := begun { s.lanes with rxFifo := s.lanes.rxFifo.set l ws, lastServed := l }
          (BitVec.ofNat 32 (2 ^ 31 + 2 ^ 28 * l.val + w.val.toNat)) }) ∧
    ((∀ l, s.lanes.rxFifo.get l = []) → exec .wordPeriodBegin s = .next { s with lanes := begun s.lanes 0 }) ∧
    (s.lanes.smpSync = true → sampleSync true s = s) ∧
    (s.lanes.smpSync = false → exec .wordPeriodBegin s = .next (sampleSync true s)) ∧
    (∀ sync input, smpOutLevel (risingEdge sync input s) = smpOutLevel s) ∧
    (s.lanes.smpSync = false → (∀ l, s.lanes.rxFifo.get l = []) → ∀ input,
      risingEdge true input s = { s with
        lanes := { s.lanes with smpSync := true, period := some { out := 0, collected := [input] } } }) ∧
    (s.lanes.period = none → smpOutLevel (fallingEdge s) = false ∧ ∀ w, exec (.wordPeriodEnd w) s = .next s) ∧
    ∀ p : WordPeriod, s.lanes.period = some p →
      (p.collected = [] → ∀ bits : List Bool, 1 ≤ bits.length →
        (bits.length < 32 →
          smpOutLevel (bits.foldl clockBit s) = p.out.getLsbD (32 - bits.length) ∧
          (bits.foldl clockBit s).lanes.period = some { p with collected := bits }) ∧
        (bits.length = 32 → s.StreamsClean →
          smpOutLevel (bits.foldl clockBit s) = p.out.getLsbD 0 ∧
          (bits.foldl clockBit s).lanes.period = none ∧
          smpOutLevel (fallingEdge (bits.foldl clockBit s)) = false)) ∧
      ∀ (l : LaneNo) (x : Sample) (junk : Fin 16), s.StreamsClean →
        let word (valid : Nat) : BitVec 32 :=
          BitVec.ofNat 32 (2 ^ 31 * valid + 2 ^ 28 * l.val + 2 ^ 24 * junk.val + x.toNat)
        let ended (u : LaneUnit) : LaneUnit := { u with smpSync := false, period := none, smpOut := false }
        let quiet : State := { s with lanes := ended s.lanes }
        exec (.wordPeriodEnd (word 0)) s = .next quiet ∧
        ((laneOfState s l).state = .closed → exec (.wordPeriodEnd (word 1)) s = .next quiet) ∧
        ((laneOfState s l).state ≠ .closed → (s.lanes.txFifo.get l).length < 32 →
          exec (.wordPeriodEnd (word 1)) s = .next { s with lanes := ended { s.lanes with
            txFifo := s.lanes.txFifo.set l (s.lanes.txFifo.get l ++ [.fresh x]) } }) ∧
        ((laneOfState s l).state ≠ .closed → 32 ≤ (s.lanes.txFifo.get l).length →
          exec (.wordPeriodEnd (word 1)) s = .next { s with
            lanes := ended { s.lanes with
              txFifo := s.lanes.txFifo.set l ((s.lanes.txFifo.get l).tail ++ [.fresh x])
              txOverrun := s.lanes.txOverrun.set l true }
            alerts := s.alerts.raise .lane })

/-! ## Frames that are not executed, and the lapse timer -/

/-- A frame that is cut short or fails one of checks 1 to 4 (R157, R158, R169): the first failing check decides the
response, FORMAT for a length above 40, CHECK for a CRC that differs, UNKNOWN for a code that names no command, FORMAT
for another length than the command requires; CMD_ERROR is set by all but an unknown code; only a frame that passes check 2
reloads the lapse timer; nothing else changes. The assembler stands in COMMAND until the last CRC byte or a length byte
above 40, and in TURNAROUND from there (Table 10-1). -/
def Obligations.BadFramesAreRefused : Prop :=
  (∀ s : State, s.HostReady →
    let turned (st : Status) : State := { s with
      port := { s.port with assembler := .turnaround 0, response := some ⟨st, []⟩ } }
    exec .frameCutShort s = .next { s with
      port := { s.port with assembler := .idle, response := none }, alerts := s.alerts.raise .cmdError } ∧
    ∀ (code length : Byte) (payload : List Byte) (crc : BitVec 16),
      let fails : Out := exec (.frameCheckFailed code length payload crc) s
      (40 < length.toNat → fails = .next { turned .format with alerts := s.alerts.raise .cmdError }) ∧
      (length.toNat ≤ 40 → crc ≠ frameCrc (code :: length :: payload) →
        fails = .next { turned .check with alerts := s.alerts.raise .cmdError }) ∧
      (length.toNat ≤ 40 → crc = frameCrc (code :: length :: payload) → payloadRange code = none →
        fails = .next (s.answered .unknown [])) ∧
      (∀ least greatest, length.toNat ≤ 40 → crc = frameCrc (code :: length :: payload) →
        payloadRange code = some (least, greatest) → length.toNat < least ∨ greatest < length.toNat →
        fails = .next { s.answered .format [] with alerts := s.alerts.raise .cmdError })) ∧
  (∀ bytes : List Byte, bytes.length ≤ 1 → assemblerAfter bytes = .command) ∧
  ∀ (code length : Byte) (rest : List Byte),
    assemblerAfter (code :: length :: rest) =
      if 40 < length.toNat ∨ length.toNat + 2 ≤ rest.length then .turnaround 0 else .command

/-- The expiry of a running lapse timer (R33, R38, R170): the alert LAPSE is set and the timer STOPPED; in OFF, LISTEN and
WITHDRAWING nothing else changes; a JOINING station goes to LISTEN at once with its streams CLOSED(ABANDONED) and cause
LAPSE; a MEMBER or RESYNC station enters WITHDRAWING with target LISTEN and cause LAPSE, its HELD lanes becoming CLOSING
with a RELEASE, its WAITING lanes CANCELLING with a WITHDRAW and its held CLAIMs removed; with no stream open and nothing
to send it is in LISTEN by that, LEARNED carried over as VERIFY; a STOPPED timer does not expire, and that the command then
changes nothing is log 6 (DESIGN CHOICE). A CLAIM closed in its window that the entry into LISTEN cuts in its contention
becomes CLOSED(CANCELLED) (R8, R13, R102; its bit times: log 8). -/
def Obligations.LapseActsByMode : Prop :=
  ∀ s : State, s.Running →
    let expired (t : State) : Prop := exec .lapseTimerExpired s = .next t ∧ t.mode.requested = .listen ∧
      t.mode.cause = .lapse ∧ t.HasAlert .lapse ∧ t.HasAlert .mode ∧ t.port.lapse = none
    (s.port.lapse ≠ none → s.mode.actual = .off ∨ s.mode.actual = .listen ∨ s.mode.actual = .withdrawing →
      exec .lapseTimerExpired s = .next { s with
        port := { s.port with lapse := none, lapseBits := 0 }, alerts := s.alerts.raise .lapse }) ∧
    (s.port.lapse ≠ none → s.mode.actual = .joining → ∃ t, expired t ∧
      t.mode = { s.mode with actual := .listen, requested := .listen, cause := .lapse } ∧ t.StreamsIdle ∧
      t.ClosedFrom s .abandoned ∧ t.cycle.phase = s.cycle.phase ∧ t.alloc = s.alloc) ∧
    (s.port.lapse ≠ none → s.mode.actual = .member ∨ s.mode.actual = .resync → s.StreamsClean →
      (s.StreamsIdle → ∃ t, expired t ∧ t.mode.actual = .listen ∧ t.streams = s.streams ∧ t.alloc = s.alloc ∧
        t.cycle.phase = if s.cycle.phase = .learned then .verify else s.cycle.phase) ∧
      (s.ListsFit → s.line.onLine = none → (∃ l, (laneOfState s l).state = .held ∨ (laneOfState s l).state = .waiting) →
        ∃ t, expired t ∧ t.mode.actual = .withdrawing ∧ t.mode.target = .listen ∧ t.mode.withdrawCount = 0 ∧
        t.cycle.phase = s.cycle.phase ∧ t.alloc = s.alloc ∧
        ∀ l, let r := laneOfState s l
          let box' := (t.streams.outbox.map (·.val)).filter fun e => e.lane? = some l
          (r.state = .held → laneOfState t l = { r with state := .closing, changed := true } ∧ box' = [.release l]) ∧
          (r.state = .waiting → laneOfState t l = { r with state := .cancelling, changed := true } ∧
            box' = [.withdraw l]) ∧
          (r.state = .opening → (∃ e ∈ s.streams.outbox, e.val = .claim l) → (laneOfState t l).state = .closed ∧
            (laneOfState t l).outcome = .cancelled ∧ box' = []) ∧
          (r.state = .opening → (∀ e ∈ s.streams.outbox, e.val.lane? ≠ some l) →
            laneOfState t l = { r with state := .cancelling, changed := true } ∧ box' = [.withdraw l]) ∧
          (r.state = .closed ∨ r.state = .closing ∨ r.state = .cancelling → laneOfState t l = r))) ∧
    (s.port.lapse = none → exec .lapseTimerExpired s = .next s)

/-! ## Host commands -/

/-- STATUS (R161), in every mode: DONE with the Mode Controller's five items, the Cycle Engine's four, the station number,
the driver enable and the six configuration values as they stand; it changes nothing but the lapse timer and the frame's
own state; right after a reset it shows the reset values. -/
def Obligations.StatusReturnsTheState : Prop :=
  (∀ s : State, s.HostReady → exec .status s = .next (s.answered .done
    ([s.mode.actual.code, s.mode.requested.code, s.mode.target.code, byteOf s.mode.withdrawCount, s.mode.cause.code,
      s.cycle.phase.code, s.cycle.cycleNumber.extractLsb' 8 8, s.cycle.cycleNumber.extractLsb' 0 8,
      byteOf s.cycle.marker.val, byteOf s.cycle.resyncAttempts, byteOf s.pins.station.val,
      (if s.line.driverEnable then 1 else 0), s.port.config.patience, s.port.config.reclaim.setWidth 8,
      byteOf s.port.config.noteAttempts, byteOf s.port.config.noteSpacing,
      byteOf ((if s.port.config.groupEnable then 128 else 0) + s.port.config.groupNumber),
      byteOf s.port.config.lapsePeriod]))) ∧
  (∀ n : Station, exec .status { State.reset with pins := ⟨n, false⟩ } = .next (State.answered
    { State.reset with pins := ⟨n, false⟩ } .done
    [0, 0, 0, 0, 0, 0, 0, 0, 0, 0, BitVec.ofNat 8 n.val, 0, 40, 8, 4, 2, 0, 0]))

/-- CONFIGURE (R162, R169): in OFF, with all six parameters in range, the whole configuration is replaced, the lapse timer
reloaded with the new period, and the answer is DONE; one parameter out of range makes it BAD_PARAM and writes nothing; in
any other mode it is REFUSED_MODE. -/
def Obligations.ConfigureReplacesTheConfiguration : Prop :=
  ∀ (s : State) (p r a sp g lp : Byte), s.HostReady →
    let inRange : Prop := 1 ≤ p.toNat ∧ 2 ≤ r.toNat ∧ r.toNat ≤ 15 ∧ 1 ≤ a.toNat ∧ a.toNat ≤ 8 ∧ sp.toNat ≤ 7 ∧
      g.toNat % 128 ≤ 15
    (inRange → s.mode.actual = .off → exec (.configure p r a sp g lp) s = .next { s with
      port := { s.port with
        assembler := .turnaround 0
        response := some ⟨.done, []⟩
        config :=
          { patience := p, reclaim := BitVec.ofNat 4 r.toNat, noteAttempts := a.toNat, noteSpacing := sp.toNat,
            groupEnable := g.getLsbD 7, groupNumber := g.toNat % 16, lapsePeriod := lp.toNat }
        lapse := if lp.toNat = 0 then none else some lp.toNat
        lapseBits := 0 } }) ∧
    (inRange → s.mode.actual ≠ .off → exec (.configure p r a sp g lp) s = .next (s.answered .refusedMode [])) ∧
    (¬inRange → exec (.configure p r a sp g lp) s = .next (s.answered .badParam []))

/-- SET_MODE, as the table of R37 says for every actual mode (R14, R22, R30, R33, R34, R36, R37): a byte that names no
requested mode is BAD_PARAM; a request for the mode held changes nothing; OFF goes to LISTEN in phase ADOPT, or to JOINING
with the driver enabled, and empty tables; LISTEN goes to OFF, or to JOINING with LEARNED become VERIFY; JOINING and RESYNC
go to LISTEN with the phase carried over, or to OFF, their streams CLOSED(ABANDONED) and the outbox emptied; a MEMBER station
enters WITHDRAWING with the target asked for, each HELD lane becoming CLOSING, or, with no stream open and nothing to send,
is in its target mode by that; WITHDRAWING answers BUSY to MEMBER and takes another target. The notes are discarded at the
entry into WITHDRAWING (R141). A CLAIM closed in its window that an entry into LISTEN or OFF cuts in its contention
becomes CLOSED(CANCELLED) (R8, R13, R102; its bit times: log 8). That the withdrawal target and count are kept in LISTEN after
the withdrawal is log 14, and that a change of mode ends the wait for a winner's mark is log 38 (DESIGN CHOICE both). -/
def Obligations.SetModeChangesTheMode : Prop :=
  ∀ s : State, s.HostReady → s.Quiet →
    let answers (t : State) (st : Status) : Prop := t.port.response = some ⟨st, []⟩
    let off (t : State) : Prop :=
      t.mode = { s.mode with actual := .off, requested := .off, target := .none, withdrawCount := 0 } ∧
      t.line.driverEnable = false ∧ t.line.framed = false ∧ t.line.silenceTimer = none ∧ t.line.onLine = none ∧
      t.line.driverFaultCount = 0 ∧ t.cycle.phase = .idle ∧ t.cycle.resyncAttempts = 0 ∧
      t.cycle.cycleNumber = s.cycle.cycleNumber ∧ t.cycle.marker = s.cycle.marker ∧ t.TablesEmpty ∧
      (∀ l, t.lanes.txFifo.get l = [] ∧ t.lanes.rxFifo.get l = []) ∧ t.lanes.lastServed = 7 ∧
      t.lanes.listen = s.lanes.listen ∧ t.port.snap.armed = false ∧ t.port.config = s.port.config ∧
      t.notes.ring = s.notes.ring ∧ t.HasAlert .mode
    (∀ b : Byte, b ≠ 0 → b ≠ 1 → b ≠ 3 → exec (.setMode b) s = .next (s.answered .badParam [])) ∧
    (s.mode.actual = .off → exec (.setMode 0) s = .next (s.answered .done []) ∧
      exec (.setMode 1) s = .next { s.answered .done [] with
        mode := { s.mode with actual := .listen, requested := .listen }
        line := { s.line with silenceTimer := some 0, framed := false }
        cycle := { s.cycle with phase := .adopt, foundingPending := false, winnerMarkDue := false }
        alloc := { s.alloc with rebuildList := [], heldNotices := [] }
        alerts := s.alerts.raise .mode } ∧
      ∃ t, exec (.setMode 3) s = .next t ∧ t.mode = { s.mode with actual := .joining, requested := .member } ∧
        t.line = { s.line with silenceTimer := some 0, framed := false, driverEnable := true } ∧
        t.cycle = { s.cycle with phase := .adopt, foundingPending := false, winnerMarkDue := false } ∧ t.TablesEmpty ∧
        t.streams = s.streams ∧ t.HasAlert .mode ∧ answers t .accepted) ∧
    (s.mode.actual = .listen → exec (.setMode 1) s = .next (s.answered .done []) ∧
      (∃ t, exec (.setMode 0) s = .next t ∧ off t ∧ t.streams = s.streams ∧ t.alerts = s.alerts.raise .mode ∧
        answers t .done) ∧
      exec (.setMode 3) s = .next { s.answered .accepted [] with
        mode := { s.mode with actual := .joining, requested := .member }
        line := { s.line with driverEnable := true }
        cycle := { s.cycle with
          phase := if s.cycle.phase = .learned then .verify else s.cycle.phase, foundingPending := false,
          winnerMarkDue := false }
        alerts := s.alerts.raise .mode }) ∧
    (s.mode.actual = .joining ∨ s.mode.actual = .resync → exec (.setMode 3) s = .next (s.answered .done []) ∧
      (s.StreamsClean → (∃ t, exec (.setMode 0) s = .next t ∧ off t ∧ t.StreamsIdle ∧ t.ClosedFrom s .abandoned ∧
          answers t .done) ∧
        ∃ t, exec (.setMode 1) s = .next t ∧ t.mode = { s.mode with actual := .listen, requested := .listen } ∧
          t.cycle = { s.cycle with foundingPending := false, winnerMarkDue := false } ∧ t.alloc = s.alloc ∧ t.StreamsIdle ∧
          t.ClosedFrom s .abandoned ∧ t.line.onLine = none ∧ t.line.contention = .none ∧ t.HasAlert .mode ∧
          answers t .done)) ∧
    (s.mode.actual = .member → exec (.setMode 3) s = .next (s.answered .done []) ∧
      (s.StreamsClean → s.StreamsIdle →
        (∃ t, exec (.setMode 0) s = .next t ∧ off t ∧ t.streams = s.streams ∧ answers t .accepted) ∧
        ∃ t, exec (.setMode 1) s = .next t ∧ t.streams = s.streams ∧ t.alloc = s.alloc ∧ t.HasAlert .mode ∧
          t.mode = { s.mode with actual := .listen, requested := .listen, target := .listen, withdrawCount := 0 } ∧
          t.cycle.phase = (if s.cycle.phase = .learned then .verify else s.cycle.phase) ∧ answers t .accepted) ∧
      ∀ b : Byte, b = 0 ∨ b = 1 → s.StreamsClean → (∃ l, (laneOfState s l).state = .held) →
        ∃ t, exec (.setMode b) s = .next t ∧ t.mode = { s.mode with
          actual := .withdrawing
          requested := if b = 0 then .off else .listen
          target := if b = 0 then .off else .listen
          withdrawCount := 0 } ∧
        (∀ l, (laneOfState s l).state = .held → (laneOfState t l).state = .closing ∧
          (laneOfState t l).slots = (laneOfState s l).slots) ∧
        (∀ l, (laneOfState s l).state = .closed → laneOfState t l = laneOfState s l) ∧
        t.cycle.phase = s.cycle.phase ∧ t.alloc = s.alloc ∧ t.HasAlert .mode ∧ t.HasAlert .stream ∧
        (s.NotesClean → t.notes.tx = s.discarded ∧ ((∃ n ∈ s.notes.tx, n.state = .pending) → t.HasAlert .noteDone)) ∧
        answers t .accepted) ∧
    (s.mode.actual = .withdrawing → exec (.setMode 3) s = .next (s.answered .busy []) ∧
      exec (.setMode 0) s = .next { s.answered .accepted [] with
        mode := { s.mode with target := .off, requested := .off } } ∧
      exec (.setMode 1) s = .next { s.answered .accepted [] with
        mode := { s.mode with target := .listen, requested := .listen } })

/-- OPEN_STREAM and RESTART_BUS append to the outbox. OPEN_STREAM (R97, R100): in JOINING, MEMBER and RESYNC a CLOSED lane
with no outbox entry becomes OPENING with the values given, its CLAIM at the tail of the outbox, its changed flag and the
alert STREAM; any other lane is BUSY; a lane above 7, a count outside 1 to 8 or an undefined flag is BAD_PARAM; in another
mode it is REFUSED_MODE. RESTART_BUS (R164): in MEMBER a RESTART is appended at the tail of an outbox that holds none, with
ACCEPTED; with one waiting or in its window the answer is BUSY and nothing changes; in any other mode it is REFUSED_MODE. -/
def Obligations.OpenStreamAndRestartBusAppend : Prop :=
  ∀ s : State, s.HostReady → s.StreamsClean →
    (∀ (l : LaneNo) (lane label count flags : Byte), lane.toNat = l.val →
      let inRange : Prop := 1 ≤ count.toNat ∧ count.toNat ≤ 8 ∧ flags.toNat < 8
      let opens : Prop := s.mode.actual = .joining ∨ s.mode.actual = .member ∨ s.mode.actual = .resync
      let free : Prop := (laneOfState s l).state = .closed ∧ ∀ e ∈ s.streams.outbox, e.val.lane? ≠ some l
      (inRange → opens → free → exec (.openStream lane label count flags) s = .next { s.answered .accepted [] with
        streams := { s.streams with
          lanes := s.streams.lanes.set l (.fresh { laneOfState s l with
            state := .opening, label := label, count := count.toNat,
            cls := if flags.getLsbD 0 then .urgent else .normal, wait := flags.getLsbD 1, ret := flags.getLsbD 2,
            slots := [], position := none, gapCount := 0, changed := true })
          outbox := s.streams.outbox ++ [.fresh (.claim l)] }
        alerts := s.alerts.raise .stream }) ∧
      (inRange → opens → ¬free → exec (.openStream lane label count flags) s = .next (s.answered .busy [])) ∧
      (inRange → ¬opens → exec (.openStream lane label count flags) s = .next (s.answered .refusedMode [])) ∧
      (¬inRange → exec (.openStream lane label count flags) s = .next (s.answered .badParam [])) ∧
      (∀ bad : Byte, 8 ≤ bad.toNat → exec (.openStream bad label count flags) s = .next (s.answered .badParam []))) ∧
    (s.mode.actual = .member → (∀ e ∈ s.streams.outbox, e.val ≠ .restart) → exec .restartBus s = .next
      { s.answered .accepted [] with
        streams := { s.streams with outbox := s.streams.outbox ++ [.fresh .restart] } }) ∧
    (s.mode.actual = .member → (∃ e ∈ s.streams.outbox, e.val = .restart) →
      exec .restartBus s = .next (s.answered .busy [])) ∧
    (s.mode.actual ≠ .member → exec .restartBus s = .next (s.answered .refusedMode []))

/-- CLOSE_STREAM (R101, R102): a CLOSED lane is left alone; an OPENING lane whose CLAIM is held becomes CLOSED(CANCELLED) and
the CLAIM leaves the outbox, one whose CLAIM is in its window becomes CANCELLING and the CLAIM stays, one whose CLAIM is sent
becomes CANCELLING with a WITHDRAW appended, as a WAITING lane does; a HELD lane becomes CLOSING with a RELEASE appended;
every other lane stays; a lane above 7 is BAD_PARAM. In WITHDRAWING the same holds while another lane is open, and the close
of the last lane, with nothing else to send, leaves for the target at once (R34); that the target and the count are kept in
LISTEN is log 14 (DESIGN CHOICE). A lane with no CLAIM of its own has no other entry to append behind (R98). -/
def Obligations.CloseStreamByState : Prop :=
  ∀ (s : State) (l : LaneNo) (lane : Byte), s.HostReady → s.StreamsClean → lane.toNat = l.val →
    let r := laneOfState s l
    let becomes (st : Status) (r' : Lane) (box : List (Stored OutboxEntry)) : State := { s.answered st [] with
      streams := { s.streams with lanes := s.streams.lanes.set l (.fresh { r' with changed := true }), outbox := box }
      alerts := s.alerts.raise .stream }
    let cancelled : Lane := { r with
      state := .closed, slots := [], position := none, outcome := .cancelled, closeOnWithdraw := false }
    let noEntry : Prop := ∀ e ∈ s.streams.outbox, e.val.lane? ≠ some l
    let withdrawn : Prop := exec (.closeStream lane) s = .next (becomes .accepted { r with state := .cancelling }
      (s.streams.outbox ++ [.fresh (.withdraw l)]))
    (s.mode.actual ≠ .withdrawing ∨ (∃ k, k ≠ l ∧ (laneOfState s k).state ≠ .closed) →
      (r.state = .closed → exec (.closeStream lane) s = .next (s.answered .done [])) ∧
      (r.state = .opening → claimInWindow l s = true → exec (.closeStream lane) s = .next
        (becomes .accepted { r with state := .cancelling } s.streams.outbox)) ∧
      (r.state = .opening → claimInWindow l s = false → noEntry → withdrawn) ∧
      (r.state = .waiting → noEntry → withdrawn) ∧
      (r.state = .held → noEntry → exec (.closeStream lane) s = .next (becomes .accepted { r with state := .closing }
        (s.streams.outbox ++ [.fresh (.release l)]))) ∧
      (r.state = .opening → claimInWindow l s = false → (∃ e ∈ s.streams.outbox, e.val = .claim l) →
        exec (.closeStream lane) s = .next
          { becomes .done cancelled (s.streams.outbox.filter fun e => e.val.lane? ≠ some l) with
            lanes := { s.lanes with txFifo := s.lanes.txFifo.set l [] } }) ∧
      (r.state = .cancelling ∨ r.state = .closing → exec (.closeStream lane) s = .next (s.answered .done []))) ∧
    (∀ h, s.mode.actual = .withdrawing → s.mode.target = .listen → (∀ k, k ≠ l → (laneOfState s k).state = .closed) →
      s.streams.outbox = [⟨.claim l, h⟩] → s.line.onLine = none → r.state = .opening →
      ∃ t, exec (.closeStream lane) s = .next t ∧ t.mode = { s.mode with actual := .listen } ∧
        t.cycle.phase = (if s.cycle.phase = .learned then .verify else s.cycle.phase) ∧ t.StreamsIdle ∧
        laneOfState t l = { cancelled with changed := true } ∧ t.HasAlert .mode ∧ t.port.response = some ⟨.done, []⟩) ∧
    (∀ bad : Byte, 8 ≤ bad.toNat → exec (.closeStream bad) s = .next (s.answered .badParam []))

/-- The lane records and the Listen Table (R97, R125, R130): READ_STREAM returns the lane's record and clears that lane's
changed flag alone; READ_LANES returns the fill levels, overrun bits and gap counts and clears every overrun bit;
SET_LISTEN writes every field of one entry; READ_LISTEN returns an entry; operands out of range are BAD_PARAM. -/
def Obligations.LaneAndListenCommands : Prop :=
  ∀ s : State, s.HostReady → s.StreamsClean →
    (∀ (l : LaneNo) (b : Byte), b.toNat = l.val → exec (.readStream b) s = .next
      { s.answered .done (streamRecord l (laneOfState s l)) with
        streams := { s.streams with
          lanes := s.streams.lanes.set l (.fresh { laneOfState s l with changed := false }) } }) ∧
    exec .readLanes s = .next { s.answered .done (laneStatusRecord s) with
      lanes := { s.lanes with txOverrun := .replicate 8 false, rxOverrun := .replicate 8 false } } ∧
    (∀ (e : Fin 16) (l : LaneNo) (eb flags label mask lb : Byte), eb.toNat = e.val → lb.toNat = l.val →
      let written : ListenEntry :=
        { enabled := flags.getLsbD 0, label := label, mask := mask, lane := l, acceptOwn := flags.getLsbD 1 }
      (flags.toNat < 4 → exec (.setListen eb flags label mask lb) s = .next { s.answered .done [] with
        lanes := { s.lanes with listen := s.lanes.listen.set e written } }) ∧
      (4 ≤ flags.toNat → exec (.setListen eb flags label mask lb) s = .next (s.answered .badParam [])) ∧
      exec (.readListen eb) s = .next (s.answered .done
        (let r := s.lanes.listen.get e
         [eb, byteOf ((if r.enabled then 1 else 0) + (if r.acceptOwn then 2 else 0)), r.label, r.mask,
          byteOf r.lane.val]))) ∧
    (∀ b flags label mask lane : Byte,
      (8 ≤ b.toNat → exec (.readStream b) s = .next (s.answered .badParam [])) ∧
      (16 ≤ b.toNat → exec (.readListen b) s = .next (s.answered .badParam []) ∧
        exec (.setListen b flags label mask lane) s = .next (s.answered .badParam [])) ∧
      (8 ≤ lane.toNat → exec (.setListen b flags label mask lane) s = .next (s.answered .badParam [])))

/-- SEND_NOTE (R132), carrying 1 to 32 note bytes: BAD_PARAM for a length outside 1 to 32 or other than the bytes carried,
a kind that names none, a STATION number above 63 or this station's own, a GROUP number above 15; else REFUSED_MODE out
of MEMBER; else FULL with 4 entries, whatever their states; else a new entry at the tail, PENDING, with attempts made 0,
countdown 0 and no outcome, number 0 for ALL, and ACCEPTED. -/
def Obligations.SendNoteAppendsAnEntry : Prop :=
  ∀ (s : State) (tag kind number length : Byte) (payload : List Byte), s.HostReady → 1 ≤ payload.length →
    payload.length ≤ 32 →
    let bad : Prop := length.toNat < 1 ∨ 32 < length.toNat ∨ length.toNat ≠ payload.length ∨ 2 < kind.toNat ∨
      (kind = 0 ∧ (63 < number.toNat ∨ number.toNat = (own s).val)) ∨ (kind = 1 ∧ 15 < number.toNat)
    let send : Out := exec (.sendNote tag kind number length payload) s
    let entry (k : DestKind) (n : Nat) : TxNote :=
      { tag := tag, kind := k, number := n, payload := payload, state := .pending, attempts := 0, countdown := 0,
        outcome := none, ending := .none, control := .clean, body := .clean }
    let accepted (k : DestKind) (n : Nat) : State := { s.answered .accepted [] with
      notes := { s.notes with tx := s.notes.tx ++ [entry k n] } }
    (bad → send = .next (s.answered .badParam [])) ∧
    (¬bad → s.mode.actual ≠ .member → send = .next (s.answered .refusedMode [])) ∧
    (¬bad → s.mode.actual = .member → 4 ≤ s.notes.tx.length → send = .next (s.answered .full [])) ∧
    (¬bad → s.mode.actual = .member → s.notes.tx.length < 4 →
      (kind = 0 → send = .next (accepted .station number.toNat)) ∧
      (kind = 1 → send = .next (accepted .group number.toNat)) ∧
      (kind = 2 → send = .next (accepted .all 0)))

/-- NOTE_OUTCOME, ABORT_NOTES and TAKE_NOTE (R139, R140, R146), in every mode: the oldest DONE entry is returned and freed,
or EMPTY; every entry that is not DONE becomes DONE with outcome ABORTED and NOTE_DONE, but for an ACTIVE one in its window,
which is left to it as abort-pending, or as discard-pending where it was so, with the answer ACCEPTED; the oldest received
note is returned and removed, or EMPTY, and NOTE_IN is not changed. That ABORT_NOTES writes the control words without
reading them, so that an error in one is overwritten and not recorded, is log 3 (DESIGN CHOICE). -/
def Obligations.NoteCommands : Prop :=
  ∀ s : State, s.HostReady →
    let aborted (inWindow : Bool) : NoteUnit := { s.notes with tx := s.notes.tx.map fun n =>
        if n.state = .done then n
        else if inWindow && n.state = .active then
          { n with ending := if n.ending = .discard then .discard else .abort }
        else { n with state := .done, outcome := some .aborted, countdown := 0, ending := .none, control := .clean } }
    (∀ a n b, s.notes.tx = a ++ n :: b → (∀ m ∈ a, m.state ≠ .done) → n.state = .done → n.control = .clean →
      n.body = .clean → ∀ o, n.outcome = some o → exec .noteOutcome s = .next
        { s.answered .done [n.tag, o.code, byteOf n.attempts] with notes := { s.notes with tx := a ++ b } }) ∧
    ((∀ m ∈ s.notes.tx, m.state ≠ .done) → exec .noteOutcome s = .next (s.answered .empty [])) ∧
    ((∀ m ∈ s.notes.tx, m.state = .done) → exec .abortNotes s = .next (s.answered .done [])) ∧
    (noteInWindow s = false → (∃ m ∈ s.notes.tx, m.state ≠ .done) → exec .abortNotes s = .next
      { s.answered .done [] with notes := aborted false, alerts := s.alerts.raise .noteDone }) ∧
    (noteInWindow s = true → (∃ m ∈ s.notes.tx, m.state = .active) →
      ((∃ m ∈ s.notes.tx, m.state = .pending) → exec .abortNotes s = .next
        { s.answered .accepted [] with notes := aborted true, alerts := s.alerts.raise .noteDone }) ∧
      ((∀ m ∈ s.notes.tx, m.state ≠ .pending) → exec .abortNotes s = .next
        { s.answered .accepted [] with notes := aborted true })) ∧
    (∀ w ws, s.notes.ring = w :: ws → w.health = .clean → exec .takeNote s = .next
      { s.answered .done ([0, byteOf w.val.sender.val, w.val.kind.code, byteOf w.val.payload.length,
          w.val.cycle.extractLsb' 8 8, w.val.cycle.extractLsb' 0 8] ++ w.val.payload) with
        notes := { s.notes with ring := ws } }) ∧
    (s.notes.ring = [] → exec .takeNote s = .next (s.answered .empty []))

/-- SNAPSHOT and the capture (R166, R167): REFUSED_MODE in OFF; elsewhere it arms the capture with ACCEPTED, or answers
DONE where it is armed; at an intact mark, here one adopted in LISTEN, the tables as that mark leaves them are copied
without field marks, the buffer is valid, the capture armed no longer, and the alert SNAPSHOT set. -/
def Obligations.SnapshotIsArmedAndCaptured : Prop :=
  ∀ s : State, s.HostReady →
    (s.mode.actual = .off → exec .snapshot s = .next (s.answered .refusedMode [])) ∧
    (s.mode.actual ≠ .off → s.port.snap.armed = true → exec .snapshot s = .next (s.answered .done [])) ∧
    (s.mode.actual ≠ .off → s.port.snap.armed = false → ∃ t, exec .snapshot s = .next t ∧
      t = { s.answered .accepted [] with port := t.port } ∧
      t.port = { (s.answered .accepted []).port with snap := { s.port.snap with armed := true } }) ∧
    (∀ m : MarkContents, s.mode.actual = .listen → s.cycle.phase = .adopt → s.port.snap.armed = true → s.MapClean →
      m.patience = s.port.config.patience → m.reclaim = s.port.config.reclaim → lawful m = true →
      m.summary.length ≤ 16 → m.cycle.toNat % 1024 ≠ 0 →
      ∃ t, exec (.markReceived (.intact m)) s = .next t ∧ t.port.snap.valid = true ∧ t.port.snap.armed = false ∧
        t.port.snap.cycle = .fresh m.cycle ∧ t.port.snap.queue = m.summary.map (fun e => .fresh (entryOfSummary e)) ∧
        (∀ n, entryAt s n = .free → t.port.snap.map.get n = .fresh .free) ∧
        (∀ n h, entryAt s n = .held h → t.port.snap.map.get n = .fresh (.held { h with mark := .none })) ∧
        t.HasAlert .snapshot ∧ t.alloc.map = s.alloc.map)

/-- READ_SNAPSHOT (R149, R150, R155, R156, R166, R168). Part 0 returns the header and the map records of consecutive slots,
part 1 the header and those of the queue positions asked for that the capture holds; of an intact buffer it changes nothing,
and single errors are corrected. A double error in the captured cycle number or in a record asked for, after words that give
data: NOT_READY, the buffer invalid, the record and MEM_FAILED; tables, mode and the armed flag stay. Every READ_SNAPSHOT of
an invalid buffer is NOT_READY and reads no word; a capture makes the buffer valid again; operands out of range are
BAD_PARAM. That the cycle number is read first, and then the records in ascending order, is log 3 (DESIGN CHOICE). -/
def Obligations.SnapshotReads : Prop :=
  ∀ (s : State) (part first count : Byte), s.HostReady →
    let f := first.toNat
    let c := count.toNat
    let snap := s.port.snap
    let read : Out := exec (.readSnapshot part first count) s
    let header (records : Nat) : List Byte :=
      [snap.cycle.val.extractLsb' 8 8, snap.cycle.val.extractLsb' 0 8, byteOf snap.queue.length, byteOf records]
    let ofMap : Prop := part = 0 ∧ 1 ≤ c ∧ c ≤ 8 ∧ f + c ≤ 48
    let ofQueue : Prop := part = 1 ∧ 1 ≤ c ∧ c ≤ 8 ∧ 1 ≤ f ∧ f + c ≤ 17
    let mapBytes : List Byte := header c ++ ((allSlots.drop f).take c).flatMap fun n => mapRecord (snap.map.get n).val
    let records := (snap.queue.drop (f - 1)).take c
    let queueBytes : List Byte := header records.length ++ records.flatMap fun w => queueRecord w.val
    let fails (index : Nat) : Prop := ∃ t, read = .next t ∧
      t.port.response = some ⟨.notReady, []⟩ ∧ t.port.snap.valid = false ∧ t.port.snap.armed = snap.armed ∧
      t.errorRecord = some ⟨.snapshot, index, .double⟩ ∧ t.HasAlert .memFailed ∧ t.alloc = s.alloc ∧
      t.mode = s.mode ∧ t.cycle = s.cycle ∧ t.streams = s.streams
    (snap.valid = true → ofMap → snap.cycle.health = .clean → (∀ n, (snap.map.get n).health = .clean) →
      read = .next (s.answered .done mapBytes)) ∧
    (snap.valid = true → ofQueue → snap.cycle.health = .clean → (∀ w ∈ snap.queue, w.health = .clean) →
      read = .next (s.answered .done queueBytes)) ∧
    (snap.valid = true → ofMap ∨ ofQueue → snap.cycle.health = .double → fails 64) ∧
    (snap.valid = true → ofMap → snap.cycle.health ≠ .double →
      ∀ n : Slot, f ≤ n.val → n.val < f + c → (snap.map.get n).health = .double →
        (∀ m : Slot, f ≤ m.val → m < n → (snap.map.get m).health ≠ .double) → fails n.val) ∧
    (snap.valid = true → ofQueue → snap.cycle.health ≠ .double →
      ∀ i w, f ≤ i + 1 → i + 1 < f + c → snap.queue[i]? = some w → w.health = .double →
        (∀ j v, f ≤ j + 1 → j < i → snap.queue[j]? = some v → v.health ≠ .double) → fails (48 + i)) ∧
    (snap.valid = true → ofMap → snap.cycle.health ≠ .double →
      (∀ n : Slot, f ≤ n.val → n.val < f + c → (snap.map.get n).health ≠ .double) →
      ∃ t, read = .next t ∧ t.port.response = some ⟨.done, mapBytes⟩ ∧ t.port.snap.valid = true ∧
        t.port.snap.cycle = .fresh snap.cycle.val ∧
        (∀ n : Slot, f ≤ n.val → n.val < f + c → t.port.snap.map.get n = .fresh (snap.map.get n).val ∧
          ((snap.map.get n).health = .single → t.HasAlert .memCorrected))) ∧
    (snap.valid = true → ofQueue → snap.cycle.health ≠ .double → (∀ w ∈ records, w.health ≠ .double) →
      ∃ t, read = .next t ∧ t.port.response = some ⟨.done, queueBytes⟩ ∧ t.port.snap.valid = true ∧
        t.port.snap.cycle = .fresh snap.cycle.val ∧
        (t.port.snap.queue.drop (f - 1)).take c = records.map (fun w => .fresh w.val) ∧
        (∀ w ∈ records, w.health = .single → t.HasAlert .memCorrected)) ∧
    (snap.valid = false → ofMap ∨ ofQueue → read = .next (s.answered .notReady [])) ∧
    (¬ofMap → ¬ofQueue → read = .next (s.answered .badParam [])) ∧
    (captured s).valid = true

/-- The alerts (R156, R171 to R175): READ_ALERTS returns flags, masks and lane changed flags and changes none;
CLEAR_ALERTS clears the flags named and no other, but sets NOTE_IN again while the ring holds a note; SET_ALERT_MASK
replaces the masks alone; a set with a bit above 17 is BAD_PARAM; READ_MEMORY_ERROR returns and empties the record; and
ATTN is low exactly when an enabled flag is set. That lane n is bit n of the lane changed byte is log 39 (DESIGN
CHOICE). -/
def Obligations.AlertCommands : Prop :=
  (∀ s : State, attnLow s = true ↔ ∃ a : Alert, s.HasAlert a ∧ s.alerts.masks.getLsbD a.bit.val = true) ∧
  ∀ s : State, s.HostReady →
    (s.StreamsClean → exec .readAlerts s = .next (s.answered .done (bytes24 (s.alerts.flags.setWidth 24) ++
      bytes24 (s.alerts.masks.setWidth 24) ++
      [byteOf (((List.finRange 8).map fun l => if (laneOfState s l).changed then 2 ^ l.val else 0).sum)]))) ∧
    (∀ w : BitVec 24, w.toNat < 2 ^ 18 → ∃ t, exec (.clearAlerts w) s = .next t ∧
      t = { s.answered .done (bytes24 (t.alerts.flags.setWidth 24)) with alerts := t.alerts } ∧
      t.alerts.masks = s.alerts.masks ∧
      ∀ a : Alert, t.HasAlert a ↔
        if w.getLsbD a.bit.val then a = .noteIn ∧ s.notes.ring ≠ [] else s.HasAlert a) ∧
    (∀ w : BitVec 24, w.toNat < 2 ^ 18 → exec (.setAlertMask w) s = .next { s.answered .done [] with
      alerts := { s.alerts with masks := w.setWidth 18 } }) ∧
    (∀ w : BitVec 24, 2 ^ 18 ≤ w.toNat → exec (.clearAlerts w) s = .next (s.answered .badParam []) ∧
      exec (.setAlertMask w) s = .next (s.answered .badParam [])) ∧
    (s.errorRecord = none → exec .readMemoryError s = .next (s.answered .empty [])) ∧
    (∀ r, s.errorRecord = some r → exec .readMemoryError s = .next
      { s.answered .done [r.region.code, byteOf r.index, r.kind.code] with errorRecord := none })

/-! ## Layouts -/

/-- The value codes of 12.2.1 and the record bytes of 12.2.2, written out (R97, R125, R146, R156, R159, R168, R171, R179): the
codes of the stream states and outcomes, the statuses, the modes, the requested modes, the withdrawal targets, the fault causes,
the learning phases, the note outcomes, the destination kinds, the memory regions and error kinds; the bit of each alert flag in
the order of Table 11-1; and the stream record of 20 bytes, the lane status record of 34, the snapshot map and queue records of
5, the note record, the memory error record, and the response frame. -/
def Obligations.RecordBytes : Prop :=
  ([StreamState.closed, .opening, .waiting, .held, .cancelling, .closing].map (·.code) = [0, 1, 2, 3, 4, 5]) ∧
  ([StreamOutcome.none, .granted, .queued, .refusedAlready, .refusedLabel, .refusedBusy, .refusedFull, .noRoom, .revoked,
    .requeued, .reclaimed, .expired, .displaced, .cancelled, .released, .lost, .restart, .fault, .abandoned].map (·.code)
    = [0, 1, 2, 3, 4, 5, 6, 7, 8, 9, 10, 11, 12, 13, 14, 15, 16, 17, 18]) ∧
  ([Status.done, .accepted, .refusedMode, .busy, .full, .empty, .notReady, .badParam, .check, .format, .unknown].map
    (·.code) = [0, 1, 2, 3, 4, 5, 6, 7, 8, 9, 10]) ∧
  ([Mode.off, .listen, .joining, .member, .resync, .withdrawing].map (·.code) = [0, 1, 2, 3, 4, 5]) ∧
  ([Requested.off, .listen, .member].map (·.code) = [0, 1, 3]) ∧
  ([Target.none, .off, .listen].map (·.code) = [0, 1, 2]) ∧
  ([FaultCause.none, .driverFault, .duplicate, .memory, .resyncFailed, .configMismatch, .lapse, .silence].map (·.code)
    = [0, 1, 2, 3, 4, 5, 6, 7]) ∧
  ([Phase.idle, .adopt, .rebuild, .verify, .learned].map (·.code) = [0, 1, 2, 3, 4]) ∧
  ([NoteOutcome.delivered, .sent, .busy, .noAnswer, .aborted, .discarded, .corrupt].map (·.code)
    = [1, 2, 3, 4, 5, 6, 7]) ∧
  ([DestKind.station, .group, .all].map (·.code) = [0, 1, 2]) ∧
  ([Region.map, .queue, .streams, .lanes, .notes, .snapshot].map (·.code) = [0, 1, 2, 3, 4, 5]) ∧
  ([ErrorKind.single, .double].map (·.code) = [1, 2]) ∧
  ([Alert.start, .mode, .stream, .queueAdopted, .conflict, .restart, .noteIn, .noteDone, .ringFull, .lane, .driverFault,
    .duplicate, .configMismatch, .lapse, .cmdError, .memCorrected, .memFailed, .snapshot].map (·.bit)
    = [0, 1, 2, 3, 4, 5, 6, 7, 8, 9, 10, 11, 12, 13, 14, 15, 16, 17]) ∧
  let byte (n : Nat) : Byte := BitVec.ofNat 8 n
  let two (n : Nat) : List Byte := [byte (n / 256), byte (n % 256)]
  let bit (b : Bool) (place : Nat) : Nat := if b then 2 ^ place else 0
  (∀ (l : LaneNo) (r : Lane), r.slots.length ≤ 8 → streamRecord l r =
    [byte l.val, r.state.code, r.label, byte r.count,
      byte (bit (r.cls = .urgent) 0 + bit r.wait 1 + bit r.ret 2 + bit r.changed 7), byte r.slots.length] ++
    r.slots.map (fun n => byte n.val) ++ List.replicate (8 - r.slots.length) 0xFF ++
    [byte (r.position.getD 0), r.outcome.code] ++ two r.gapCount ++ two r.grantCycle.toNat) ∧
  (∀ s : State, laneStatusRecord s =
    (List.finRange 8).map (fun l => byte (s.lanes.txFifo.get l).length) ++
    (List.finRange 8).map (fun l => byte (s.lanes.rxFifo.get l).length) ++
    [byte (((List.finRange 8).map fun l => bit (s.lanes.txOverrun.get l) l.val).sum),
     byte (((List.finRange 8).map fun l => bit (s.lanes.rxOverrun.get l) l.val).sum)] ++
    (List.finRange 8).flatMap (fun l => two (laneOfState s l).gapCount)) ∧
  mapRecord .free = [0, 0, 0, 0, 0] ∧
  (∀ h : HeldEntry, h.part < 8 → h.count ≤ 8 → h.silence ≤ 15 → mapRecord (.held h) =
    [byte (128 + bit (h.cls = .urgent) 6 + bit h.ret 5 + (match h.lastUse with | .none => 0 | .live => 1 | .hold => 2)),
     byte h.holder.val, byte (16 * h.lane.val + h.part), h.label, byte (16 * h.count + h.silence)]) ∧
  (∀ e : QueueEntry, e.count ≤ 8 → queueRecord e =
    [byte e.station.val, byte (16 * e.lane.val + e.count), e.label, byte (bit (e.cls = .urgent) 6 + bit e.ret 5),
     byte e.age]) ∧
  (∀ n : RxNote, noteRecord n =
    [0, byte n.sender.val, (match n.kind with | .station => 0 | .group => 1 | .all => 2), byte n.payload.length] ++
    two n.cycle.toNat ++ n.payload) ∧
  (∀ r : ErrorRecord, errorBytes r =
    [r.region.code, byte r.index, (match r.kind with | .single => 1 | .double => 2)]) ∧
  (∀ r : Response, responseFrame r = [r.status.code, byte r.payload.length] ++ r.payload ++
    two (frameCrc ([r.status.code, byte r.payload.length] ++ r.payload)).toNat)

/-- The frames of the host, byte by byte and bit by bit (R157, R158, R159, R177, R179, Table 10-1, Table 10-2). The frame of a
host command, as 12.2 lays it out, is read back as that command with every operand; and so are its bits on SDI, each byte most
significant bit first and each bit taken at the rising edge of SCK, whatever bits follow them in the chip-select period. One
that ends at any bit before the last of its CRC is cut short, and one without a rising edge is no frame. A frame that fails one
of checks 1 to 4 is that failed check, with the bytes collected: nothing is collected behind a length byte above 40. On SDO a
chip-select period carries ones while the frame is collected and for the turnaround byte, then each byte of the response frame
most significant bit first, a further bit at each falling edge, and ones after it; in IDLE it carries nothing. When the bit of a
response passes in the model's clocking, three bit times for each, is log 20 (DESIGN CHOICE). -/
def Obligations.CommandFramesReadBack : Prop :=
  (∀ b : Byte, byteBits [b] = [b.getLsbD 7, b.getLsbD 6, b.getLsbD 5, b.getLsbD 4, b.getLsbD 3, b.getLsbD 2, b.getLsbD 1,
    b.getLsbD 0]) ∧
  (∀ bits : List Bool, sdiBits false (bits.flatMap fun b => [(false, b), (true, b)]) = bits) ∧
  (∀ (i : Instr) (bytes : List Byte), i.wellFormed = true → commandFrame i = some bytes →
    readCommandFrame bytes = some i ∧
    (∀ more : List Bool, frameEvent (byteBits bytes ++ more) = some i) ∧
    (∀ k, 1 ≤ k → k < 8 * bytes.length → frameEvent ((byteBits bytes).take k) = some .frameCutShort)) ∧
  frameEvent [] = none ∧
  (∀ (code length : Byte) (more : List Bool), 40 < length.toNat →
    frameEvent (byteBits [code, length] ++ more) = some (.frameCheckFailed code length [] 0)) ∧
  (∀ (code : Byte) (payload : List Byte) (crc : BitVec 16) (more : List Bool), payload.length ≤ 40 →
    let length : Byte := BitVec.ofNat 8 payload.length
    frameFailure code length payload crc ≠ none →
    frameEvent (byteBits (code :: length :: payload ++ bytes16 crc) ++ more) =
      some (.frameCheckFailed code length payload crc)) ∧
  (∀ (collected : Nat) (r : Response) (falls : Nat),
    let start := 8 * (collected + 1)
    (falls < start → sdoAfter collected r falls = true) ∧
    (∀ k b, (responseFrame r)[k / 8]? = some b → sdoAfter collected r (start + k) = b.getLsbD (7 - k % 8)) ∧
    (start + 8 * (r.payload.length + 4) ≤ falls → sdoAfter collected r falls = true)) ∧
  (∀ p : CommandPort, p.assembler = .idle → sdoBit p = none) ∧
  (∀ (p : CommandPort) (n : Nat), p.assembler = .command ∨ p.assembler = .turnaround n ∨ p.assembler = .trailing →
    sdoBit p = some true) ∧
  (∀ (p : CommandPort) (r : Response) (n collected : Nat), p.assembler = .response n → p.response = some r →
    sdoBit p = some (sdoAfter collected r (8 * (collected + 1) + n / 3)))

/-- A tag, a mark, a message and a contention, sent in the layouts of 12.1, are read back with every field (R3, R7, R10, R11,
R15, R177, R178): a mark with at most 16 entries, a note of 1 to 32 bytes, the answer of a STATION note at the bit times 310
and 311 of its window, which are 302 and 303 after the start sequence. A tag, mark or message of those that ends before its
check sequence is complete is damaged, wherever it ends, but for a slot with no bit of a tag, which is silent. The lower of
two station numbers wins a contention, and the lower precedence a window (R1, R8). Every bit of an own tag, mark, message
body or answer is read back (R2; which bits: log 44, DEDUCED): at the first that differs the station stops driving, the line is
left recessive, and the report is a mismatch without an answer; a field whose every bit reads as sent is good, and a note to one
station then carries the answer read. Of two fields that first differ where one is dominant, that one is good and the other a
mismatch. -/
def Obligations.LineFieldsReadBack : Prop :=
  (∀ t : TagContents, readTag (tagBits t) = .intact t) ∧
  (∀ m : MarkContents, m.summary.length ≤ 16 → readMark (markBits m) = .intact m) ∧
  (∀ (sender : Station) (b : Body) (bits : List Bool), (∀ n, b = .note n → n.wellFormed = true) →
    messageBits sender b = some bits → readMessage bits = .intact sender b) ∧
  (∀ n : Station, (contentionField n).length = 120 ∧ readContention (contentionField n) = n) ∧
  (∀ (sender : Station) (n : NoteContents) (a : Answer) (bits : List Bool), n.wellFormed = true → n.kind = 0 →
    windowBits sender (.note n) a = some bits → bits.length = 376 ∧ readMessage bits = .intact sender (.note n) ∧
      readWindowAnswer bits = a ∧ (bits[302]? = some false ↔ a = .ack) ∧ (bits[303]? = some false ↔ a = .busy)) ∧
  (∀ (t : TagContents) (k : Nat), 1 ≤ k → k < 59 → readTag ((tagBits t).take k) = .damaged) ∧
  (∀ (m : MarkContents) (k : Nat), m.summary.length ≤ 16 → k < 55 + 31 * m.summary.length →
    readMark ((markBits m).take k) = .damaged) ∧
  (∀ (sender : Station) (b : Body) (bits : List Bool) (k : Nat), (∀ n, b = .note n → n.wellFormed = true) →
    messageBits sender b = some bits → k < bits.length → readMessage (bits.take k) = .damaged) ∧
  (∀ a b : Station, a < b → losesArbitration (contentionBits b) (lineOf (contentionBits a) (contentionBits b)) = true ∧
    losesArbitration (contentionBits a) (lineOf (contentionBits a) (contentionBits b)) = false) ∧
  (∀ (m n : Station) (b c : Body) (p q : Nat), precedence m b = some p → precedence n c = some q → p < q →
    losesArbitration (bitsOf 9 q) (lineOf (bitsOf 9 p) (bitsOf 9 q)) = true ∧
    losesArbitration (bitsOf 9 p) (lineOf (bitsOf 9 p) (bitsOf 9 q)) = false) ∧
  (∀ (pre sent read : List Bool) (x y : Bool), x ≠ y → sent.length = read.length →
    drivenBits (pre ++ x :: sent) (pre ++ y :: read) = pre ++ x :: List.replicate sent.length true ∧
    readbackOf (pre ++ x :: sent) (pre ++ y :: read) = .mismatch ∧
    let good := pre ++ false :: read
    let bad := pre ++ true :: sent
    readbackOf good (lineOf good bad) = .good ∧ drivenBits good (lineOf good bad) = good ∧
    readbackOf bad (lineOf good bad) = .mismatch) ∧
  (∀ bits : List Bool, drivenBits bits bits = bits ∧ readbackOf bits bits = .good) ∧
  (∀ (f : OwnField) (read : List Bool) (a : Answer),
    (read ≠ f.comparedBits → completionReport f read (answerBits a) = .ownTransmissionCompleted .mismatch .none) ∧
    (∀ (src : Source) (sender : Station) (n : NoteContents), f = .message src sender (.note n) → n.kind = 0 →
      completionReport f f.comparedBits (answerBits a) = .ownTransmissionCompleted .good a) ∧
    ((∀ (src : Source) (sender : Station) (n : NoteContents), f = .message src sender (.note n) → n.kind ≠ 0) →
      completionReport f f.comparedBits (answerBits a) = .ownTransmissionCompleted .good .none)) ∧
  (∀ (n : Slot) (g : TagContents), (OwnField.tag n g).comparedBits = (tagBits g).take 59) ∧
  (∀ (m : MarkContents) (founding : Bool), m.summary.length ≤ 16 →
    (OwnField.mark m founding).comparedBits = (markBits m).take (55 + 31 * m.summary.length)) ∧
  (∀ (src : Source) (sender : Station) (b : Body) (bits : List Bool), messageBits sender b = some bits →
    bits = bits.take 9 ++ (OwnField.message src sender b).comparedBits) ∧
  (OwnField.answer .ack).comparedBits = [false, true] ∧ (OwnField.answer .busy).comparedBits = [true, false]
end

