-- ==== Sys2Proof/Laws/State.lean ====
section
/-! SUPPORT. What each shared operation leaves unchanged: one lemma per operation, so that no later proof unfolds a record
update. -/

namespace Sys2Proof.Machine

@[simp] theorem raise_frame (a : Alert) (s : State) :
    (raise a s).line = s.line ∧ (raise a s).cycle = s.cycle ∧ (raise a s).mode = s.mode ∧ (raise a s).alloc =
    s.alloc ∧ (raise a s).streams = s.streams ∧ (raise a s).lanes = s.lanes ∧ (raise a s).notes = s.notes ∧ (raise a
    s).port = s.port ∧ (raise a s).errorRecord = s.errorRecord ∧ (raise a s).pins = s.pins ∧ (raise a s).pending =
    s.pending :=
  ⟨rfl, rfl, rfl, rfl, rfl, rfl, rfl, rfl, rfl, rfl, rfl⟩

@[simp] theorem recordSingle_frame (r : Region) (i : Nat) (s : State) :
    (recordSingle r i s).line = s.line ∧ (recordSingle r i s).cycle = s.cycle ∧ (recordSingle r i s).mode = s.mode ∧
    (recordSingle r i s).alloc = s.alloc ∧ (recordSingle r i s).streams = s.streams ∧ (recordSingle r i s).lanes =
    s.lanes ∧ (recordSingle r i s).notes = s.notes ∧ (recordSingle r i s).port = s.port ∧ (recordSingle r i s).pins
    = s.pins ∧ (recordSingle r i s).pending = s.pending :=
  ⟨rfl, rfl, rfl, rfl, rfl, rfl, rfl, rfl, rfl, rfl⟩

@[simp] theorem recordDouble_frame (r : Region) (i : Nat) (s : State) :
    (recordDouble r i s).line = s.line ∧ (recordDouble r i s).cycle = s.cycle ∧ (recordDouble r i s).mode = s.mode ∧
    (recordDouble r i s).alloc = s.alloc ∧ (recordDouble r i s).streams = s.streams ∧ (recordDouble r i s).lanes =
    s.lanes ∧ (recordDouble r i s).notes = s.notes ∧ (recordDouble r i s).port = s.port ∧ (recordDouble r i s).pins
    = s.pins ∧ (recordDouble r i s).pending = s.pending :=
  ⟨rfl, rfl, rfl, rfl, rfl, rfl, rfl, rfl, rfl, rfl⟩

@[simp] theorem recordRead_frame (r : Region) (i : Nat) (h : Health) (s : State) :
    (recordRead r i h s).line = s.line ∧ (recordRead r i h s).cycle = s.cycle ∧ (recordRead r i h s).mode = s.mode ∧
    (recordRead r i h s).alloc = s.alloc ∧ (recordRead r i h s).streams = s.streams ∧ (recordRead r i h s).lanes =
    s.lanes ∧ (recordRead r i h s).notes = s.notes ∧ (recordRead r i h s).port = s.port ∧ (recordRead r i h s).pins
    = s.pins ∧ (recordRead r i h s).pending = s.pending := by
  cases h <;> simp [recordRead]

@[simp] theorem recordScan_frame {α : Type} (r : Region) (ix : Nat → Nat) (sc : Scan α) (s : State) :
    (recordScan r ix sc s).line = s.line ∧ (recordScan r ix sc s).cycle = s.cycle ∧ (recordScan r ix sc s).mode =
    s.mode ∧ (recordScan r ix sc s).alloc = s.alloc ∧ (recordScan r ix sc s).streams = s.streams ∧ (recordScan r ix
    sc s).lanes = s.lanes ∧ (recordScan r ix sc s).notes = s.notes ∧ (recordScan r ix sc s).port = s.port ∧
    (recordScan r ix sc s).pins = s.pins ∧ (recordScan r ix sc
    s).pending = s.pending := by
  unfold recordScan
  cases sc.single <;> cases sc.failed <;> simp

@[simp] theorem putLane_frame (l : LaneNo) (r : Lane) (s : State) :
    (putLane l r s).line = s.line ∧ (putLane l r s).cycle = s.cycle ∧ (putLane l r s).mode = s.mode ∧ (putLane l r
    s).alloc = s.alloc ∧ (putLane l r s).lanes = s.lanes ∧ (putLane l r s).notes = s.notes ∧ (putLane l r s).port =
    s.port ∧ (putLane l r s).alerts = s.alerts ∧ (putLane l r s).errorRecord = s.errorRecord ∧ (putLane l r s).pins
    = s.pins ∧ (putLane l r s).pending = s.pending :=
  ⟨rfl, rfl, rfl, rfl, rfl, rfl, rfl, rfl, rfl, rfl, rfl⟩

@[simp] theorem updateLane_frame (l : LaneNo) (f : Lane → Lane) (s : State) :
    (updateLane l f s).line = s.line ∧ (updateLane l f s).cycle = s.cycle ∧ (updateLane l f s).mode = s.mode ∧
    (updateLane l f s).alloc = s.alloc ∧ (updateLane l f s).lanes = s.lanes ∧ (updateLane l f s).notes = s.notes ∧
    (updateLane l f s).port = s.port ∧ (updateLane l f s).alerts = s.alerts ∧ (updateLane l f s).errorRecord =
    s.errorRecord ∧ (updateLane l f s).pins = s.pins ∧ (updateLane
    l f s).pending = s.pending :=
  ⟨rfl, rfl, rfl, rfl, rfl, rfl, rfl, rfl, rfl, rfl, rfl⟩

@[simp] theorem changeLane_frame (l : LaneNo) (f : Lane → Lane) (s : State) :
    (changeLane l f s).line = s.line ∧ (changeLane l f s).cycle = s.cycle ∧ (changeLane l f s).mode = s.mode ∧
    (changeLane l f s).alloc = s.alloc ∧ (changeLane l f s).lanes = s.lanes ∧ (changeLane l f s).notes = s.notes ∧
    (changeLane l f s).port = s.port ∧ (changeLane l f s).errorRecord = s.errorRecord ∧ (changeLane l f s).pins =
    s.pins ∧ (changeLane l f s).pending = s.pending :=
  ⟨rfl, rfl, rfl, rfl, rfl, rfl, rfl, rfl, rfl, rfl⟩

@[simp] theorem flushTx_frame (l : LaneNo) (s : State) :
    (flushTx l s).line = s.line ∧ (flushTx l s).cycle = s.cycle ∧ (flushTx l s).mode = s.mode ∧ (flushTx l s).alloc
    = s.alloc ∧ (flushTx l s).streams = s.streams ∧ (flushTx l s).notes = s.notes ∧ (flushTx l s).port = s.port ∧
    (flushTx l s).alerts = s.alerts ∧ (flushTx l s).errorRecord = s.errorRecord ∧ (flushTx l s).pins = s.pins ∧
    (flushTx l s).pending = s.pending :=
  ⟨rfl, rfl, rfl, rfl, rfl, rfl, rfl, rfl, rfl, rfl, rfl⟩

@[simp] theorem closeLane_frame (l : LaneNo) (o : StreamOutcome) (s : State) :
    (closeLane l o s).line = s.line ∧ (closeLane l o s).cycle = s.cycle ∧ (closeLane l o s).mode = s.mode ∧
    (closeLane l o s).alloc = s.alloc ∧ (closeLane l o s).notes = s.notes ∧ (closeLane l o s).port = s.port ∧
    (closeLane l o s).errorRecord = s.errorRecord ∧ (closeLane l o s).pins = s.pins ∧ (closeLane l o s).pending =
    s.pending :=
  ⟨rfl, rfl, rfl, rfl, rfl, rfl, rfl, rfl, rfl⟩

@[simp] theorem appendEntry_frame (e : OutboxEntry) (s : State) :
    (appendEntry e s).line = s.line ∧ (appendEntry e s).cycle = s.cycle ∧ (appendEntry e s).mode = s.mode ∧
    (appendEntry e s).alloc = s.alloc ∧ (appendEntry e s).lanes = s.lanes ∧ (appendEntry e s).notes = s.notes ∧
    (appendEntry e s).port = s.port ∧ (appendEntry e s).alerts = s.alerts ∧ (appendEntry e s).errorRecord =
    s.errorRecord ∧ (appendEntry e s).pins = s.pins ∧ (appendEntry e
    s).pending = s.pending :=
  ⟨rfl, rfl, rfl, rfl, rfl, rfl, rfl, rfl, rfl, rfl, rfl⟩

@[simp] theorem removeEntry_frame (l : LaneNo) (s : State) :
    (removeEntry l s).line = s.line ∧ (removeEntry l s).cycle = s.cycle ∧ (removeEntry l s).mode = s.mode ∧
    (removeEntry l s).alloc = s.alloc ∧ (removeEntry l s).lanes = s.lanes ∧ (removeEntry l s).notes = s.notes ∧
    (removeEntry l s).port = s.port ∧ (removeEntry l s).alerts = s.alerts ∧ (removeEntry l s).errorRecord =
    s.errorRecord ∧ (removeEntry l s).pins = s.pins ∧ (removeEntry l
    s).pending = s.pending :=
  ⟨rfl, rfl, rfl, rfl, rfl, rfl, rfl, rfl, rfl, rfl, rfl⟩

@[simp] theorem emptyOutbox_frame (s : State) :
    (emptyOutbox s).line = s.line ∧ (emptyOutbox s).cycle = s.cycle ∧ (emptyOutbox s).mode = s.mode ∧ (emptyOutbox
    s).alloc = s.alloc ∧ (emptyOutbox s).lanes = s.lanes ∧ (emptyOutbox s).notes = s.notes ∧ (emptyOutbox s).port =
    s.port ∧ (emptyOutbox s).alerts = s.alerts ∧ (emptyOutbox s).errorRecord = s.errorRecord ∧ (emptyOutbox s).pins
    = s.pins ∧ (emptyOutbox s).pending = s.pending :=
  ⟨rfl, rfl, rfl, rfl, rfl, rfl, rfl, rfl, rfl, rfl, rfl⟩

@[simp] theorem closeOpenLanes_frame (o : StreamOutcome) (ls : List LaneNo) (s : State) :
    (closeOpenLanes o ls s).line = s.line ∧ (closeOpenLanes o ls s).cycle = s.cycle ∧ (closeOpenLanes o ls s).mode =
    s.mode ∧ (closeOpenLanes o ls s).alloc = s.alloc ∧ (closeOpenLanes o ls s).notes = s.notes ∧ (closeOpenLanes o
    ls s).port = s.port ∧ (closeOpenLanes o ls s).errorRecord = s.errorRecord ∧ (closeOpenLanes o ls s).pins =
    s.pins ∧ (closeOpenLanes o ls s).pending = s.pending := by
  induction ls generalizing s with
  | nil => simp [closeOpenLanes]
  | cons l ls ih =>
    unfold closeOpenLanes
    split <;> simp [ih]

@[simp] theorem dropStreams_frame (o : StreamOutcome) (s : State) :
    (dropStreams o s).line = s.line ∧ (dropStreams o s).cycle = s.cycle ∧ (dropStreams o s).mode = s.mode ∧
    (dropStreams o s).alloc = s.alloc ∧ (dropStreams o s).notes = s.notes ∧ (dropStreams o s).port = s.port ∧
    (dropStreams o s).errorRecord = s.errorRecord ∧ (dropStreams o s).pins = s.pins ∧ (dropStreams o s).pending =
    s.pending := by
  simp [dropStreams]

@[simp] theorem checkLane_frame (l : LaneNo) (s : State) :
    (checkLane l s).1.line = s.line ∧ (checkLane l s).1.cycle = s.cycle ∧ (checkLane l s).1.mode = s.mode ∧
    (checkLane l s).1.alloc = s.alloc ∧ (checkLane l s).1.lanes = s.lanes ∧ (checkLane l s).1.notes = s.notes ∧
    (checkLane l s).1.port = s.port ∧ (checkLane l s).1.pins = s.pins ∧ (checkLane l s).1.pending = s.pending := by
  simp [checkLane]

@[simp] theorem checkLanes_frame (ls : List LaneNo) (s : State) :
    (checkLanes ls s).1.line = s.line ∧ (checkLanes ls s).1.cycle = s.cycle ∧ (checkLanes ls s).1.mode = s.mode ∧
    (checkLanes ls s).1.alloc = s.alloc ∧ (checkLanes ls s).1.lanes = s.lanes ∧ (checkLanes ls s).1.notes = s.notes
    ∧ (checkLanes ls s).1.port = s.port ∧ (checkLanes ls s).1.pins = s.pins ∧ (checkLanes ls s).1.pending = s.pending
    := by
  induction ls generalizing s with
  | nil => simp [checkLanes]
  | cons l ls ih =>
    unfold checkLanes
    have h := checkLane_frame l s
    split <;> simp_all

@[simp] theorem checkOutbox_frame (s : State) :
    (checkOutbox s).1.line = s.line ∧ (checkOutbox s).1.cycle = s.cycle ∧ (checkOutbox s).1.mode = s.mode ∧
    (checkOutbox s).1.alloc = s.alloc ∧ (checkOutbox s).1.lanes = s.lanes ∧ (checkOutbox s).1.notes = s.notes ∧
    (checkOutbox s).1.port = s.port ∧ (checkOutbox s).1.pins = s.pins ∧ (checkOutbox s).1.pending = s.pending := by
  simp [checkOutbox]

@[simp] theorem checkOutboxHead_frame (s : State) :
    (checkOutboxHead s).1.line = s.line ∧ (checkOutboxHead s).1.cycle = s.cycle ∧ (checkOutboxHead s).1.mode =
    s.mode ∧ (checkOutboxHead s).1.alloc = s.alloc ∧ (checkOutboxHead s).1.lanes = s.lanes ∧ (checkOutboxHead
    s).1.notes = s.notes ∧ (checkOutboxHead s).1.port = s.port ∧ (checkOutboxHead s).1.pins = s.pins ∧
    (checkOutboxHead s).1.pending = s.pending := by
  unfold checkOutboxHead
  split <;> simp

@[simp] theorem addTx_frame (l : LaneNo) (x : Sample) (s : State) :
    (addTx l x s).line = s.line ∧ (addTx l x s).cycle = s.cycle ∧ (addTx l x s).mode = s.mode ∧ (addTx l x s).alloc
    = s.alloc ∧ (addTx l x s).streams = s.streams ∧ (addTx l x s).notes = s.notes ∧ (addTx l x s).port = s.port ∧
    (addTx l x s).errorRecord = s.errorRecord ∧ (addTx l x s).pins = s.pins ∧ (addTx l x s).pending = s.pending := by
  simp only [addTx]
  split <;> simp

@[simp] theorem addRx_frame (l : LaneNo) (x : Sample) (s : State) :
    (addRx l x s).line = s.line ∧ (addRx l x s).cycle = s.cycle ∧ (addRx l x s).mode = s.mode ∧ (addRx l x s).alloc
    = s.alloc ∧ (addRx l x s).streams = s.streams ∧ (addRx l x s).notes = s.notes ∧ (addRx l x s).port = s.port ∧
    (addRx l x s).errorRecord = s.errorRecord ∧ (addRx l x s).pins = s.pins ∧ (addRx l x s).pending = s.pending := by
  simp only [addRx]
  split <;> simp

@[simp] theorem takeTx_frame (l : LaneNo) (s : State) :
    (takeTx l s).1.line = s.line ∧ (takeTx l s).1.cycle = s.cycle ∧ (takeTx l s).1.mode = s.mode ∧ (takeTx l
    s).1.alloc = s.alloc ∧ (takeTx l s).1.streams = s.streams ∧ (takeTx l s).1.notes = s.notes ∧ (takeTx l s).1.port
    = s.port ∧ (takeTx l s).1.pins = s.pins ∧ (takeTx l s).1.pending =
    s.pending := by
  unfold takeTx
  split <;> simp

@[simp] theorem takeRx_frame (l : LaneNo) (s : State) :
    (takeRx l s).1.line = s.line ∧ (takeRx l s).1.cycle = s.cycle ∧ (takeRx l s).1.mode = s.mode ∧ (takeRx l
    s).1.alloc = s.alloc ∧ (takeRx l s).1.streams = s.streams ∧ (takeRx l s).1.notes = s.notes ∧ (takeRx l s).1.port
    = s.port ∧ (takeRx l s).1.pins = s.pins ∧ (takeRx l s).1.pending =
    s.pending := by
  unfold takeRx
  split <;> simp

@[simp] theorem answer_frame (st : Status) (p : List Byte) (s : State) :
    (answer st p s).line = s.line ∧ (answer st p s).cycle = s.cycle ∧ (answer st p s).mode = s.mode ∧ (answer st p
    s).alloc = s.alloc ∧ (answer st p s).streams = s.streams ∧ (answer st p s).lanes = s.lanes ∧ (answer st p
    s).notes = s.notes ∧ (answer st p s).alerts = s.alerts ∧ (answer st p s).errorRecord = s.errorRecord ∧ (answer
    st p s).pins = s.pins ∧ (answer st p s).pending = s.pending :=
  ⟨rfl, rfl, rfl, rfl, rfl, rfl, rfl, rfl, rfl, rfl, rfl⟩

@[simp] theorem reloadLapse_frame (s : State) :
    (reloadLapse s).line = s.line ∧ (reloadLapse s).cycle = s.cycle ∧ (reloadLapse s).mode = s.mode ∧ (reloadLapse
    s).alloc = s.alloc ∧ (reloadLapse s).streams = s.streams ∧ (reloadLapse s).lanes = s.lanes ∧ (reloadLapse
    s).notes = s.notes ∧ (reloadLapse s).alerts = s.alerts ∧ (reloadLapse s).errorRecord = s.errorRecord ∧
    (reloadLapse s).pins = s.pins ∧ (reloadLapse s).pending =
    s.pending :=
  ⟨rfl, rfl, rfl, rfl, rfl, rfl, rfl, rfl, rfl, rfl, rfl⟩

@[simp] theorem resetStation_frame (s : State) :
    (resetStation s).pins = s.pins ∧ (resetStation s).pending =
    s.pending :=
  ⟨rfl, rfl⟩

@[simp] theorem csnRise_frame (s : State) :
    (csnRise s).pins = s.pins ∧ (csnRise s).pending = s.pending := by
  unfold csnRise
  split <;> exact ⟨rfl, rfl⟩

/-- A rise of CSN with no RESET_STATION armed ends the frame and nothing else. -/
theorem csnRise_unarmed {s : State} (h : s.port.resetArmed = false) : csnRise s = endFrame s := by
  unfold csnRise
  simp [h]

/-- A rise of CSN with a RESET_STATION armed resets the station. -/
theorem csnRise_armed {s : State} (h : s.port.resetArmed = true) : csnRise s = resetStation s := by
  unfold csnRise
  simp [h]

@[simp] theorem frameCollected_frame (s : State) :
    (frameCollected s).pins = s.pins ∧ (frameCollected s).pending =
    s.pending := by
  simp [frameCollected, frameBegun]

/-- A frame collected with no RESET_STATION armed: the assembler in TURNAROUND, the response before it gone. -/
theorem frameCollected_unarmed {s : State} (h : s.port.resetArmed = false) : frameCollected s =
    { s with port := { s.port with assembler := .turnaround 0, response := none } } := by
  simp only [frameCollected, frameBegun, csnRise_unarmed h]
  rfl

@[simp] theorem restartSilence_frame (s : State) :
    (restartSilence s).cycle = s.cycle ∧ (restartSilence s).mode = s.mode ∧ (restartSilence s).alloc = s.alloc ∧
    (restartSilence s).streams = s.streams ∧ (restartSilence s).lanes = s.lanes ∧ (restartSilence s).notes = s.notes
    ∧ (restartSilence s).port = s.port ∧ (restartSilence s).alerts = s.alerts ∧ (restartSilence s).errorRecord =
    s.errorRecord ∧ (restartSilence s).pins = s.pins ∧
    (restartSilence s).pending = s.pending :=
  ⟨rfl, rfl, rfl, rfl, rfl, rfl, rfl, rfl, rfl, rfl, rfl⟩

@[simp] theorem updateTx_frame (i : Nat) (f : TxNote → TxNote) (s : State) :
    (updateTx i f s).line = s.line ∧ (updateTx i f s).cycle = s.cycle ∧ (updateTx i f s).mode = s.mode ∧ (updateTx i
    f s).alloc = s.alloc ∧ (updateTx i f s).streams = s.streams ∧ (updateTx i f s).lanes = s.lanes ∧ (updateTx i f
    s).port = s.port ∧ (updateTx i f s).alerts = s.alerts ∧ (updateTx i f s).errorRecord = s.errorRecord ∧ (updateTx
    i f s).pins = s.pins ∧ (updateTx i f s).pending = s.pending :=
  ⟨rfl, rfl, rfl, rfl, rfl, rfl, rfl, rfl, rfl, rfl, rfl⟩

@[simp] theorem finishNote_frame (i : Nat) (o : NoteOutcome) (s : State) :
    (finishNote i o s).line = s.line ∧ (finishNote i o s).cycle = s.cycle ∧ (finishNote i o s).mode = s.mode ∧
    (finishNote i o s).alloc = s.alloc ∧ (finishNote i o s).streams = s.streams ∧ (finishNote i o s).lanes = s.lanes
    ∧ (finishNote i o s).port = s.port ∧ (finishNote i o s).errorRecord = s.errorRecord ∧ (finishNote i o s).pins =
    s.pins ∧ (finishNote i o s).pending = s.pending :=
  ⟨rfl, rfl, rfl, rfl, rfl, rfl, rfl, rfl, rfl, rfl⟩

@[simp] theorem readTx_frame (i : Nat) (n : TxNote) (s : State) :
    (readTx i n s).1.line = s.line ∧ (readTx i n s).1.cycle = s.cycle ∧ (readTx i n s).1.mode = s.mode ∧ (readTx i n
    s).1.alloc = s.alloc ∧ (readTx i n s).1.streams = s.streams ∧ (readTx i n s).1.lanes = s.lanes ∧ (readTx i n
    s).1.port = s.port ∧ (readTx i n s).1.pins = s.pins ∧ (readTx i n
    s).1.pending = s.pending := by
  unfold readTx
  simp only []
  split <;> (try split) <;> simp

@[simp] theorem corruptNote_frame (i : Nat) (s : State) :
    (corruptNote i s).line = s.line ∧ (corruptNote i s).cycle = s.cycle ∧ (corruptNote i s).mode = s.mode ∧
    (corruptNote i s).alloc = s.alloc ∧ (corruptNote i s).streams = s.streams ∧ (corruptNote i s).lanes = s.lanes ∧
    (corruptNote i s).port = s.port ∧ (corruptNote i s).errorRecord = s.errorRecord ∧ (corruptNote i s).pins =
    s.pins ∧ (corruptNote i s).pending = s.pending :=
  ⟨rfl, rfl, rfl, rfl, rfl, rfl, rfl, rfl, rfl, rfl⟩

@[simp] theorem noteLost_frame (s : State) :
    (noteLost s).line = s.line ∧ (noteLost s).cycle = s.cycle ∧ (noteLost s).mode = s.mode ∧ (noteLost s).alloc =
    s.alloc ∧ (noteLost s).streams = s.streams ∧ (noteLost s).lanes = s.lanes ∧ (noteLost s).port = s.port ∧
    (noteLost s).errorRecord = s.errorRecord ∧ (noteLost s).pins = s.pins
    ∧ (noteLost s).pending = s.pending := by
  unfold noteLost
  split <;> (try split) <;> (try split) <;> simp

@[simp] theorem judgeNote_frame (i : Nat) (n : TxNote) (rb : Readback) (a : Answer) (s : State) :
    (judgeNote i n rb a s).line = s.line ∧ (judgeNote i n rb a s).cycle = s.cycle ∧ (judgeNote i n rb a s).mode =
    s.mode ∧ (judgeNote i n rb a s).alloc = s.alloc ∧ (judgeNote i n rb a s).streams = s.streams ∧ (judgeNote i n rb
    a s).lanes = s.lanes ∧ (judgeNote i n rb a s).port = s.port ∧ (judgeNote i n rb a s).errorRecord = s.errorRecord
    ∧ (judgeNote i n rb a s).pins = s.pins ∧ (judgeNote i n rb
    a s).pending = s.pending := by
  unfold judgeNote
  simp only []
  split <;> (try split) <;> simp

@[simp] theorem noteCompleted_frame (rb : Readback) (a : Answer) (s : State) :
    (noteCompleted rb a s).line = s.line ∧ (noteCompleted rb a s).cycle = s.cycle ∧ (noteCompleted rb a s).mode =
    s.mode ∧ (noteCompleted rb a s).alloc = s.alloc ∧ (noteCompleted rb a s).streams = s.streams ∧ (noteCompleted rb
    a s).lanes = s.lanes ∧ (noteCompleted rb a s).port = s.port ∧ (noteCompleted rb a s).pins = s.pins ∧
    (noteCompleted rb a s).pending = s.pending := by
  unfold noteCompleted
  split <;> (try split) <;> (try simp)
  rename_i i _ _ n _
  have h := readTx_frame i n s
  split <;> simp_all

@[simp] theorem endNotes_frame (o : NoteOutcome) (m : Ending → Ending) (s : State) :
    (endNotes o m s).line = s.line ∧ (endNotes o m s).cycle = s.cycle ∧ (endNotes o m s).mode = s.mode ∧ (endNotes o
    m s).alloc = s.alloc ∧ (endNotes o m s).streams = s.streams ∧ (endNotes o m s).lanes = s.lanes ∧ (endNotes o m
    s).port = s.port ∧ (endNotes o m s).errorRecord = s.errorRecord ∧ (endNotes o m s).pins = s.pins ∧ (endNotes o m
    s).pending = s.pending := by
  unfold endNotes
  simp only []
  split <;> simp

@[simp] theorem discardNotes_frame (s : State) :
    (discardNotes s).line = s.line ∧ (discardNotes s).cycle = s.cycle ∧ (discardNotes s).mode = s.mode ∧
    (discardNotes s).alloc = s.alloc ∧ (discardNotes s).streams = s.streams ∧ (discardNotes s).lanes = s.lanes ∧
    (discardNotes s).port = s.port ∧ (discardNotes s).errorRecord = s.errorRecord ∧ (discardNotes s).pins = s.pins ∧
    (discardNotes s).pending = s.pending := by
  simp [discardNotes]

@[simp] theorem decreaseCountdown_frame (i : Nat) (n : TxNote) (s : State) :
    (decreaseCountdown i n s).line = s.line ∧ (decreaseCountdown i n s).cycle = s.cycle ∧ (decreaseCountdown i n
    s).mode = s.mode ∧ (decreaseCountdown i n s).alloc = s.alloc ∧ (decreaseCountdown i n s).streams = s.streams
    ∧ (decreaseCountdown i n s).lanes = s.lanes ∧ (decreaseCountdown i n s).port = s.port ∧ (decreaseCountdown i
    n s).pins = s.pins ∧ (decreaseCountdown i n
    s).pending = s.pending := by
  unfold decreaseCountdown
  simp only []
  split <;> simp

@[simp] theorem spaceActive_frame (due : Nat → Bool) (s : State) :
    (spaceActive due s).line = s.line ∧ (spaceActive due s).cycle = s.cycle ∧ (spaceActive due s).mode = s.mode
    ∧ (spaceActive due s).alloc = s.alloc ∧ (spaceActive due s).streams = s.streams ∧ (spaceActive due s).lanes
    = s.lanes ∧ (spaceActive due s).port = s.port ∧ (spaceActive due s).pins = s.pins ∧ (spaceActive due s).pending =
    s.pending := by
  unfold spaceActive
  split <;> (try split) <;> (try split) <;> simp

@[simp] theorem spaceNotes_frame (s : State) :
    (spaceNotes s).line = s.line ∧ (spaceNotes s).cycle = s.cycle ∧ (spaceNotes s).mode = s.mode ∧ (spaceNotes
    s).alloc = s.alloc ∧ (spaceNotes s).streams = s.streams ∧ (spaceNotes s).lanes = s.lanes ∧ (spaceNotes
    s).port = s.port ∧ (spaceNotes s).pins = s.pins ∧ (spaceNotes
    s).pending = s.pending := by
  unfold spaceNotes
  split <;> simp

@[simp] theorem placeNote_frame (n : RxNote) (s : State) :
    (placeNote n s).line = s.line ∧ (placeNote n s).cycle = s.cycle ∧ (placeNote n s).mode = s.mode ∧ (placeNote n
    s).alloc = s.alloc ∧ (placeNote n s).streams = s.streams ∧ (placeNote n s).lanes = s.lanes ∧ (placeNote n
    s).port = s.port ∧ (placeNote n s).errorRecord = s.errorRecord ∧ (placeNote n s).pins = s.pins ∧ (placeNote n
    s).pending = s.pending := by
  unfold placeNote
  split <;> simp

@[simp] theorem removeHead_frame (s : State) :
    (removeHead s).line = s.line ∧ (removeHead s).cycle = s.cycle ∧ (removeHead s).mode = s.mode ∧ (removeHead
    s).alloc = s.alloc ∧ (removeHead s).lanes = s.lanes ∧ (removeHead s).notes = s.notes ∧ (removeHead s).port =
    s.port ∧ (removeHead s).alerts = s.alerts ∧ (removeHead s).errorRecord = s.errorRecord ∧ (removeHead s).pins =
    s.pins ∧ (removeHead s).pending = s.pending :=
  ⟨rfl, rfl, rfl, rfl, rfl, rfl, rfl, rfl, rfl, rfl, rfl⟩

@[simp] theorem controlLost_frame (b : Body) (s : State) :
    (controlLost b s).line = s.line ∧ (controlLost b s).cycle = s.cycle ∧ (controlLost b s).mode = s.mode ∧
    (controlLost b s).alloc = s.alloc ∧ (controlLost b s).notes = s.notes ∧ (controlLost b s).port = s.port ∧
    (controlLost b s).errorRecord = s.errorRecord ∧ (controlLost b s).pins = s.pins ∧ (controlLost b s).pending =
    s.pending := by
  unfold controlLost
  split <;> (try split) <;> simp

@[simp] theorem controlMismatch_frame (b : Body) (s : State) :
    (controlMismatch b s).line = s.line ∧ (controlMismatch b s).cycle = s.cycle ∧ (controlMismatch b s).mode =
    s.mode ∧ (controlMismatch b s).alloc = s.alloc ∧ (controlMismatch b s).notes = s.notes ∧ (controlMismatch b
    s).port = s.port ∧ (controlMismatch b s).errorRecord = s.errorRecord ∧ (controlMismatch b s).pins = s.pins ∧
    (controlMismatch b s).pending = s.pending := by
  unfold controlMismatch
  split <;> (try split) <;> simp

@[simp] theorem cutControl_frame {report : Body → State → State} (h : report = controlLost ∨ report = controlMismatch)
    (b : Body) (s : State) :
    (cutControl report b s).line = s.line ∧ (cutControl report b s).cycle = s.cycle ∧ (cutControl report b
    s).mode = s.mode ∧ (cutControl report b s).alloc = s.alloc ∧ (cutControl report b s).notes = s.notes ∧
    (cutControl report b s).port = s.port ∧ (cutControl report b s).errorRecord = s.errorRecord ∧ (cutControl
    report b s).pins = s.pins ∧ (cutControl report b
    s).pending = s.pending := by
  unfold cutControl
  rcases h with rfl | rfl <;> split <;> (try split) <;> simp

@[simp] theorem messageCut_frame (src : Source) (b : Body) (s : State) :
    (messageCut src b s).cycle = s.cycle ∧ (messageCut src b s).mode = s.mode ∧ (messageCut src b s).alloc
    = s.alloc ∧ (messageCut src b s).port = s.port ∧ (messageCut src b s).pins = s.pins ∧ (messageCut src b
    s).pending = s.pending := by
  unfold messageCut
  cases src <;> cases contending s <;> simp

@[simp] theorem reportCut_frame (s : State) :
    (reportCut s).cycle = s.cycle ∧ (reportCut s).mode = s.mode ∧ (reportCut s).alloc = s.alloc ∧ (reportCut
    s).port = s.port ∧ (reportCut s).pins = s.pins ∧ (reportCut s).pending = s.pending := by
  unfold reportCut
  split <;> simp

@[simp] theorem cutTransmission_frame (s : State) :
    (cutTransmission s).cycle = s.cycle ∧ (cutTransmission s).mode = s.mode ∧ (cutTransmission s).alloc =
    s.alloc ∧ (cutTransmission s).port = s.port ∧ (cutTransmission s).pins = s.pins ∧ (cutTransmission
    s).pending = s.pending := by
  simp [cutTransmission]

@[simp] theorem clearMap_frame (s : State) :
    (clearMap s).line = s.line ∧ (clearMap s).cycle = s.cycle ∧ (clearMap s).mode = s.mode ∧ (clearMap s).streams =
    s.streams ∧ (clearMap s).lanes = s.lanes ∧ (clearMap s).notes = s.notes ∧ (clearMap s).port = s.port ∧ (clearMap
    s).alerts = s.alerts ∧ (clearMap s).errorRecord = s.errorRecord ∧ (clearMap s).pins = s.pins ∧ (clearMap s).pending =
    s.pending :=
  ⟨rfl, rfl, rfl, rfl, rfl, rfl, rfl, rfl, rfl, rfl, rfl⟩

@[simp] theorem clearMap_queue (s : State) : (clearMap s).alloc.queue = s.alloc.queue := rfl

@[simp] theorem clearMap_foundWrong (s : State) : (clearMap s).alloc.mapFoundWrong = false := rfl

@[simp] theorem clearTables_frame (s : State) :
    (clearTables s).line = s.line ∧ (clearTables s).cycle = s.cycle ∧ (clearTables s).mode = s.mode ∧ (clearTables
    s).streams = s.streams ∧ (clearTables s).lanes = s.lanes ∧ (clearTables s).notes = s.notes ∧ (clearTables
    s).port = s.port ∧ (clearTables s).alerts = s.alerts ∧ (clearTables s).errorRecord = s.errorRecord ∧
    (clearTables s).pins = s.pins ∧ (clearTables s).pending =
    s.pending :=
  ⟨rfl, rfl, rfl, rfl, rfl, rfl, rfl, rfl, rfl, rfl, rfl⟩

@[simp] theorem toAdopt_frame (s : State) :
    (toAdopt s).line = s.line ∧ (toAdopt s).mode = s.mode ∧ (toAdopt s).streams = s.streams ∧ (toAdopt s).lanes =
    s.lanes ∧ (toAdopt s).notes = s.notes ∧ (toAdopt s).port = s.port ∧ (toAdopt s).alerts = s.alerts ∧ (toAdopt
    s).errorRecord = s.errorRecord ∧ (toAdopt s).pins = s.pins ∧ (toAdopt
    s).pending = s.pending :=
  ⟨rfl, rfl, rfl, rfl, rfl, rfl, rfl, rfl, rfl, rfl⟩

@[simp] theorem relearn_frame (s : State) :
    (relearn s).line = s.line ∧ (relearn s).mode = s.mode ∧ (relearn s).streams = s.streams ∧ (relearn s).lanes =
    s.lanes ∧ (relearn s).notes = s.notes ∧ (relearn s).port = s.port ∧ (relearn s).alerts = s.alerts ∧ (relearn
    s).errorRecord = s.errorRecord ∧ (relearn s).pins = s.pins ∧ (relearn
    s).pending = s.pending :=
  ⟨rfl, rfl, rfl, rfl, rfl, rfl, rfl, rfl, rfl, rfl⟩

@[simp] theorem rewriteLane_frame (l : LaneNo) (s : State) :
    (rewriteLane l s).line = s.line ∧ (rewriteLane l s).cycle = s.cycle ∧ (rewriteLane l s).mode = s.mode ∧
    (rewriteLane l s).alloc = s.alloc ∧ (rewriteLane l s).notes = s.notes ∧ (rewriteLane l s).port = s.port ∧
    (rewriteLane l s).errorRecord = s.errorRecord ∧ (rewriteLane l s).pins = s.pins ∧ (rewriteLane l s).pending =
    s.pending :=
  ⟨rfl, rfl, rfl, rfl, rfl, rfl, rfl, rfl, rfl⟩

@[simp] theorem rewriteLanes_frame (ls : List LaneNo) (s : State) :
    (rewriteLanes ls s).line = s.line ∧ (rewriteLanes ls s).cycle = s.cycle ∧ (rewriteLanes ls s).mode = s.mode ∧
    (rewriteLanes ls s).alloc = s.alloc ∧ (rewriteLanes ls s).notes = s.notes ∧ (rewriteLanes ls s).port = s.port ∧
    (rewriteLanes ls s).pins = s.pins ∧ (rewriteLanes ls
    s).pending = s.pending := by
  induction ls generalizing s with
  | nil => simp [rewriteLanes]
  | cons l ls ih =>
    unfold rewriteLanes
    have h := checkLane_frame l s
    split <;> simp_all

@[simp] theorem faultItems_frame (c : FaultCause) (s : State) :
    (faultItems c s).line = s.line ∧ (faultItems c s).cycle = s.cycle ∧ (faultItems c s).alloc = s.alloc ∧
    (faultItems c s).streams = s.streams ∧ (faultItems c s).lanes = s.lanes ∧ (faultItems c s).notes = s.notes ∧
    (faultItems c s).port = s.port ∧ (faultItems c s).alerts = s.alerts ∧ (faultItems c s).errorRecord =
    s.errorRecord ∧ (faultItems c s).pins = s.pins ∧ (faultItems c
    s).pending = s.pending :=
  ⟨rfl, rfl, rfl, rfl, rfl, rfl, rfl, rfl, rfl, rfl, rfl⟩

@[simp] theorem removeRestart_frame (s : State) :
    (removeRestart s).line = s.line ∧ (removeRestart s).cycle = s.cycle ∧ (removeRestart s).mode = s.mode ∧
    (removeRestart s).alloc = s.alloc ∧ (removeRestart s).lanes = s.lanes ∧ (removeRestart s).notes = s.notes ∧
    (removeRestart s).port = s.port ∧ (removeRestart s).alerts = s.alerts ∧ (removeRestart s).errorRecord =
    s.errorRecord ∧ (removeRestart s).pins = s.pins ∧ (removeRestart
    s).pending = s.pending := by
  unfold removeRestart
  split <;> simp

@[simp] theorem changeMode_frame (m : Mode) (s : State) :
    (changeMode m s).alloc = s.alloc ∧ (changeMode m s).port = s.port ∧ (changeMode m s).pins = s.pins ∧
    (changeMode m s).pending = s.pending := by
  unfold changeMode
  simp only []
  split <;> split <;> simp

@[simp] theorem takeGranted_frame (l : LaneNo) (ns : List Slot) (c : CycleNo) (s : State) :
    (takeGranted l ns c s).line = s.line ∧ (takeGranted l ns c s).cycle = s.cycle ∧ (takeGranted l ns c s).mode =
    s.mode ∧ (takeGranted l ns c s).alloc = s.alloc ∧ (takeGranted l ns c s).notes = s.notes ∧ (takeGranted l ns c
    s).port = s.port ∧ (takeGranted l ns c s).errorRecord = s.errorRecord ∧ (takeGranted l ns c s).pins = s.pins ∧
    (takeGranted l ns c s).pending = s.pending := by
  unfold takeGranted
  split <;> (try split) <;> simp

@[simp] theorem takeQueued_frame (l : LaneNo) (p : Nat) (s : State) :
    (takeQueued l p s).line = s.line ∧ (takeQueued l p s).cycle = s.cycle ∧ (takeQueued l p s).mode = s.mode ∧
    (takeQueued l p s).alloc = s.alloc ∧ (takeQueued l p s).notes = s.notes ∧ (takeQueued l p s).port = s.port ∧
    (takeQueued l p s).errorRecord = s.errorRecord ∧ (takeQueued l p s).pins = s.pins ∧ (takeQueued l p s).pending =
    s.pending := by
  unfold takeQueued
  split <;> (try split) <;> simp

@[simp] theorem takeRefused_frame (l : LaneNo) (r : RefusalReason) (s : State) :
    (takeRefused l r s).line = s.line ∧ (takeRefused l r s).cycle = s.cycle ∧ (takeRefused l r s).mode = s.mode ∧
    (takeRefused l r s).alloc = s.alloc ∧ (takeRefused l r s).notes = s.notes ∧ (takeRefused l r s).port = s.port ∧
    (takeRefused l r s).errorRecord = s.errorRecord ∧ (takeRefused l r s).pins = s.pins ∧ (takeRefused l r s).pending
    = s.pending := by
  unfold takeRefused
  split <;> (try split) <;> simp

@[simp] theorem takeRevoked_frame (l : LaneNo) (p : Option Nat) (s : State) :
    (takeRevoked l p s).line = s.line ∧ (takeRevoked l p s).cycle = s.cycle ∧ (takeRevoked l p s).mode = s.mode ∧
    (takeRevoked l p s).alloc = s.alloc ∧ (takeRevoked l p s).notes = s.notes ∧ (takeRevoked l p s).port = s.port ∧
    (takeRevoked l p s).errorRecord = s.errorRecord ∧ (takeRevoked l p s).pins = s.pins ∧ (takeRevoked l p s).pending
    = s.pending := by
  unfold takeRevoked
  split <;> (try split) <;> simp

@[simp] theorem takeReclaimed_frame (l : LaneNo) (s : State) :
    (takeReclaimed l s).line = s.line ∧ (takeReclaimed l s).cycle = s.cycle ∧ (takeReclaimed l s).mode = s.mode ∧
    (takeReclaimed l s).alloc = s.alloc ∧ (takeReclaimed l s).notes = s.notes ∧ (takeReclaimed l s).port = s.port ∧
    (takeReclaimed l s).errorRecord = s.errorRecord ∧ (takeReclaimed l s).pins = s.pins ∧ (takeReclaimed l s).pending
    = s.pending := by
  unfold takeReclaimed
  split <;> (try split) <;> simp

@[simp] theorem takeRemoved_frame (l : LaneNo) (o : StreamOutcome) (s : State) :
    (takeRemoved l o s).line = s.line ∧ (takeRemoved l o s).cycle = s.cycle ∧ (takeRemoved l o s).mode = s.mode ∧
    (takeRemoved l o s).alloc = s.alloc ∧ (takeRemoved l o s).notes = s.notes ∧ (takeRemoved l o s).port = s.port ∧
    (takeRemoved l o s).errorRecord = s.errorRecord ∧ (takeRemoved l o s).pins = s.pins ∧ (takeRemoved l o s).pending
    = s.pending := by
  unfold takeRemoved
  split <;> (try split) <;> simp

@[simp] theorem takeReleased_frame (l : LaneNo) (s : State) :
    (takeReleased l s).line = s.line ∧ (takeReleased l s).cycle = s.cycle ∧ (takeReleased l s).mode = s.mode ∧
    (takeReleased l s).alloc = s.alloc ∧ (takeReleased l s).notes = s.notes ∧ (takeReleased l s).port = s.port ∧
    (takeReleased l s).errorRecord = s.errorRecord ∧ (takeReleased l s).pins = s.pins ∧ (takeReleased l s).pending =
    s.pending := by
  unfold takeReleased
  split <;> simp

@[simp] theorem takeCancelled_frame (l : LaneNo) (s : State) :
    (takeCancelled l s).line = s.line ∧ (takeCancelled l s).cycle = s.cycle ∧ (takeCancelled l s).mode = s.mode ∧
    (takeCancelled l s).alloc = s.alloc ∧ (takeCancelled l s).notes = s.notes ∧ (takeCancelled l s).port = s.port ∧
    (takeCancelled l s).errorRecord = s.errorRecord ∧ (takeCancelled l s).pins = s.pins ∧ (takeCancelled l s).pending
    = s.pending := by
  unfold takeCancelled
  split <;> simp

@[simp] theorem takeRestart_frame (s : State) :
    (takeRestart s).line = s.line ∧ (takeRestart s).cycle = s.cycle ∧ (takeRestart s).mode = s.mode ∧ (takeRestart
    s).alloc = s.alloc ∧ (takeRestart s).notes = s.notes ∧ (takeRestart s).port = s.port ∧ (takeRestart
    s).errorRecord = s.errorRecord ∧ (takeRestart s).pins = s.pins ∧
    (takeRestart s).pending = s.pending := by
  simp [takeRestart]

@[simp] theorem takeNotice_frame (n : Notice) (s : State) :
    (takeNotice n s).line = s.line ∧ (takeNotice n s).cycle = s.cycle ∧ (takeNotice n s).mode = s.mode ∧ (takeNotice
    n s).alloc = s.alloc ∧ (takeNotice n s).notes = s.notes ∧ (takeNotice n s).port = s.port ∧ (takeNotice n
    s).errorRecord = s.errorRecord ∧ (takeNotice n s).pins = s.pins ∧
    (takeNotice n s).pending = s.pending := by
  cases n <;> simp [takeNotice]

@[simp] theorem endLane_frame (l : LaneNo) (s : State) :
    (endLane l s).line = s.line ∧ (endLane l s).cycle = s.cycle ∧ (endLane l s).mode = s.mode ∧ (endLane l s).alloc
    = s.alloc ∧ (endLane l s).notes = s.notes ∧ (endLane l s).port = s.port ∧ (endLane l s).errorRecord =
    s.errorRecord ∧ (endLane l s).pins = s.pins ∧ (endLane l s).pending
    = s.pending := by
  unfold endLane
  split <;> (try split) <;> simp

@[simp] theorem controlGood_frame (b : Body) (s : State) :
    (controlGood b s).line = s.line ∧ (controlGood b s).cycle = s.cycle ∧ (controlGood b s).mode = s.mode ∧
    (controlGood b s).alloc = s.alloc ∧ (controlGood b s).notes = s.notes ∧ (controlGood b s).port = s.port ∧
    (controlGood b s).errorRecord = s.errorRecord ∧ (controlGood b s).pins = s.pins ∧ (controlGood b s).pending =
    s.pending := by
  unfold controlGood
  simp only []
  split <;> (try split) <;> simp

@[simp] theorem recordPosition_frame (l : LaneNo) (p : Nat) (s : State) :
    (recordPosition l p s).line = s.line ∧ (recordPosition l p s).cycle = s.cycle ∧ (recordPosition l p s).mode =
    s.mode ∧ (recordPosition l p s).alloc = s.alloc ∧ (recordPosition l p s).lanes = s.lanes ∧ (recordPosition l p
    s).notes = s.notes ∧ (recordPosition l p s).port = s.port ∧ (recordPosition l p s).alerts = s.alerts ∧
    (recordPosition l p s).errorRecord = s.errorRecord ∧ (recordPosition l p s).pins = s.pins ∧ (recordPosition l p
    s).pending = s.pending := by
  unfold recordPosition
  simp only []
  split <;> simp

@[simp] theorem appendIfNone_frame (e : OutboxEntry) (l : LaneNo) (s : State) :
    (appendIfNone e l s).line = s.line ∧ (appendIfNone e l s).cycle = s.cycle ∧ (appendIfNone e l s).mode = s.mode ∧
    (appendIfNone e l s).alloc = s.alloc ∧ (appendIfNone e l s).lanes = s.lanes ∧ (appendIfNone e l s).notes =
    s.notes ∧ (appendIfNone e l s).port = s.port ∧ (appendIfNone e l s).alerts = s.alerts ∧ (appendIfNone e l
    s).errorRecord = s.errorRecord ∧ (appendIfNone e l s).pins = s.pins ∧ (appendIfNone e l s).pending = s.pending := by
  unfold appendIfNone
  split <;> simp

@[simp] theorem settleLane_frame (l : LaneNo) (f : Lane → Lane) (s : State) :
    (settleLane l f s).line = s.line ∧ (settleLane l f s).cycle = s.cycle ∧ (settleLane l f s).mode = s.mode ∧
    (settleLane l f s).alloc = s.alloc ∧ (settleLane l f s).lanes = s.lanes ∧ (settleLane l f s).notes = s.notes
    ∧ (settleLane l f s).port = s.port ∧ (settleLane l f s).errorRecord = s.errorRecord ∧ (settleLane l f
    s).pins = s.pins ∧ (settleLane l f s).pending = s.pending := by
  unfold settleLane
  split <;> simp

@[simp] theorem reconcileHeld_frame (l : LaneNo) (ns : List Slot) (b : Label) (k : Nat) (c : SlotClass) (r : Bool) (s
    : State) :
    (reconcileHeld l ns b k c r s).line = s.line ∧ (reconcileHeld l ns b k c r s).cycle = s.cycle ∧ (reconcileHeld l
    ns b k c r s).mode = s.mode ∧ (reconcileHeld l ns b k c r s).alloc = s.alloc ∧ (reconcileHeld l ns b k c r
    s).lanes = s.lanes ∧ (reconcileHeld l ns b k c r s).notes = s.notes ∧ (reconcileHeld l ns b k c r s).port =
    s.port ∧ (reconcileHeld l ns b k c r s).errorRecord = s.errorRecord ∧ (reconcileHeld l ns b k c r s).pins =
    s.pins ∧ (reconcileHeld l ns b k c r s).pending =
    s.pending :=
  ⟨rfl, rfl, rfl, rfl, rfl, rfl, rfl, rfl, rfl, rfl⟩

@[simp] theorem reconcileWaiting_frame (l : LaneNo) (o : StreamOutcome) (p : Nat) (b : Label) (k : Nat) (c :
    SlotClass) (r : Bool) (s : State) :
    (reconcileWaiting l o p b k c r s).line = s.line ∧ (reconcileWaiting l o p b k c r s).cycle = s.cycle ∧
    (reconcileWaiting l o p b k c r s).mode = s.mode ∧ (reconcileWaiting l o p b k c r s).alloc = s.alloc ∧
    (reconcileWaiting l o p b k c r s).lanes = s.lanes ∧ (reconcileWaiting l o p b k c r s).notes = s.notes ∧
    (reconcileWaiting l o p b k c r s).port = s.port ∧ (reconcileWaiting l o p b k c r s).errorRecord =
    s.errorRecord ∧ (reconcileWaiting l o p b k c r s).pins = s.pins ∧ (reconcileWaiting l o p b k c r s).pending =
    s.pending :=
  ⟨rfl, rfl, rfl, rfl, rfl, rfl, rfl, rfl, rfl, rfl⟩

@[simp] theorem reconcileWith_frame (l : LaneNo) (f : Found) (s : State) :
    (reconcileWith l f s).line = s.line ∧ (reconcileWith l f s).cycle = s.cycle ∧ (reconcileWith l f s).mode =
    s.mode ∧ (reconcileWith l f s).alloc = s.alloc ∧ (reconcileWith l f s).notes = s.notes ∧ (reconcileWith l f
    s).port = s.port ∧ (reconcileWith l f s).errorRecord = s.errorRecord ∧ (reconcileWith l f s).pins = s.pins ∧
    (reconcileWith l f s).pending = s.pending := by
  unfold reconcileWith
  split <;> (try split) <;> simp

/-! ## What the map answers about a label (R42) -/

/-- The identity answered is that of a HELD entry that carries the label. -/
theorem labelStream_eq_some {x : Label} {s : State} {id : Station × LaneNo} (h : labelStream x s = some id) :
    ∃ e ∈ heldEntries s, e.label = x ∧ (e.holder, e.lane) = id := by
  unfold labelStream at h
  obtain ⟨e, he, rfl⟩ := Option.map_eq_some_iff.mp h
  exact ⟨e, List.mem_of_find?_eq_some he, by simpa using List.find?_some he, rfl⟩

/-- A label is in the map where a HELD entry carries it. -/
theorem labelHeld_iff (x : Label) (s : State) : labelHeld x s = true ↔ ∃ e ∈ heldEntries s, e.label = x := by
  simp [labelHeld, labelStream]

end Sys2Proof.Machine
end

