-- ==== Sys2Proof/Laws/Tables.lean ====
section
/-! SUPPORT. The tables of fixed size, the alert flags, and the course of an event. -/

namespace Sys2Proof

namespace Table

variable {α β : Type} {n : Nat}

theorem ext_cells {t u : Table α n} (h : t.cells = u.cells) : t = u := by
  cases t; cases u; simp only at h; subst h; rfl

@[simp] theorem get_replicate (a : α) (i : Fin n) : (Table.replicate n a).get i = a := by
  simp [Table.get, Table.replicate]

@[simp] theorem get_set_self (t : Table α n) (i : Fin n) (a : α) : (t.set i a).get i = a := by
  simp [Table.get, Table.set]

theorem get_set_ne (t : Table α n) (i j : Fin n) (a : α) (h : j ≠ i) : (t.set i a).get j = t.get j := by
  have h' : i.val ≠ j.val := fun e => h (Fin.ext e.symm)
  simp [Table.get, Table.set, h']

theorem get_set (t : Table α n) (i j : Fin n) (a : α) : (t.set i a).get j = if j = i then a else t.get j := by
  by_cases h : j = i
  · subst h; simp
  · rw [get_set_ne t i j a h, if_neg h]

@[simp] theorem get_mapIdx (f : Fin n → α → β) (t : Table α n) (i : Fin n) : (t.mapIdx f).get i = f i (t.get i) := by
  simp [Table.get, Table.mapIdx]

@[simp] theorem get_map (f : α → β) (t : Table α n) (i : Fin n) : (t.map f).get i = f (t.get i) := by
  simp [Table.get, Table.map]

/-- Tables are equal when every cell is. -/
theorem ext_get {t u : Table α n} (h : ∀ i, t.get i = u.get i) : t = u := by
  apply ext_cells
  apply List.ext_getElem (by rw [t.size, u.size])
  intro i h1 h2
  have := h ⟨i, by rw [← t.size]; exact h1⟩
  simpa [Table.get] using this

theorem mem_cells {t : Table α n} {a : α} : a ∈ t.cells ↔ ∃ i, t.get i = a := by
  constructor
  · intro h
    obtain ⟨i, hi, rfl⟩ := List.mem_iff_getElem.mp h
    exact ⟨⟨i, by rw [← t.size]; exact hi⟩, rfl⟩
  · rintro ⟨i, rfl⟩
    simp [Table.get]

end Table

namespace Machine

/-! ## Alerts -/

@[simp] theorem AlertUnit.isSet_raise_self (u : AlertUnit) (a : Alert) : (u.raise a).isSet a = true := by
  cases a <;> simp [AlertUnit.isSet, AlertUnit.raise, Alert.only, Alert.bit]

/-- Setting one flag leaves every other as it was. -/
theorem AlertUnit.isSet_raise_ne (u : AlertUnit) (a b : Alert) (h : b ≠ a) : (u.raise a).isSet b = u.isSet b := by
  cases a <;> cases b <;> first | exact absurd rfl h | simp [AlertUnit.isSet, AlertUnit.raise, Alert.only, Alert.bit]

/-- A flag set stays set. -/
theorem AlertUnit.isSet_raise (u : AlertUnit) (a b : Alert) : (u.raise a).isSet b = (b = a || u.isSet b) := by
  by_cases h : b = a
  · subst h; simp
  · simp [h, AlertUnit.isSet_raise_ne u a b h]

@[simp] theorem AlertUnit.masks_raise (u : AlertUnit) (a : Alert) : (u.raise a).masks = u.masks := rfl

@[simp] theorem raise_alerts (a : Alert) (s : State) : (raise a s).alerts = s.alerts.raise a := rfl

/-! ## Courses -/

@[simp] theorem Course.state_on (s : State) : (Course.on s).state = s := rfl
@[simp] theorem Course.state_abandoned (s : State) : (Course.abandoned s).state = s := rfl
@[simp] theorem Course.next_on (s : State) (f : State → Course) : (Course.on s).next f = f s := rfl
@[simp] theorem Course.next_abandoned (s : State) (f : State → Course) : (Course.abandoned s).next f = .abandoned s := rfl
@[simp] theorem Course.finally_on (s : State) (f : State → State) : (Course.on s).finally f = .on (f s) := rfl
@[simp] theorem Course.finally_abandoned (s : State) (f : State → State) :
    (Course.abandoned s).finally f = .abandoned s := rfl

/-- What holds of the state an event has reached holds after its next step, if the step keeps it. -/
theorem Course.next_keeps {P : State → Prop} {c : Course} {f : State → Course} (hc : P c.state)
    (hf : ∀ s, P s → P (f s).state) : P (c.next f).state := by
  cases c with
  | on s => exact hf s hc
  | abandoned s => exact hc

/-- The same for a last step. -/
theorem Course.finally_keeps {P : State → Prop} {c : Course} {f : State → State} (hc : P c.state)
    (hf : ∀ s, P s → P (f s)) : P (c.finally f).state :=
  Course.next_keeps hc hf

/-- The same for the check that the station is not in OFF. -/
theorem Course.alive_keeps {P : State → Prop} {c : Course} (hc : P c.state) : P c.alive.state := by
  apply Course.next_keeps hc
  intro s hs
  by_cases h : s.mode.actual = .off <;> simp [h, hs]

end Machine

end Sys2Proof
end

