-- ==== Sys2Proof/Laws/Modes.lean ====
section
/-! SUPPORT. What each operation of the Mode Controller does to the mode, the learning phase and the silence timer. -/

namespace Sys2Proof.Machine

/-- A report about a cut changes nothing of the Line Unit but that the station may have won its window (R13, R19). -/
theorem reportCut_line (s : State) : ∃ w, (reportCut s).line = { s.line with wonWindow := w } := by
  unfold reportCut
  split
  · rename_i src _ b _
    cases hc : contending s <;> cases src
    · exact ⟨true, by simp [messageCut, hc]⟩
    · exact ⟨true, by simp [messageCut, hc]⟩
    · exact ⟨s.line.wonWindow, by simp [messageCut, hc]⟩
    · exact ⟨s.line.wonWindow, by simp [messageCut, hc]⟩
  all_goals exact ⟨s.line.wonWindow, rfl⟩

/-- After a cut nothing of the station is on the line, it takes part in no contention, and the rest of the Line Unit is as
before but that the station may have won its window (R13, R19). -/
theorem cutTransmission_line (s : State) :
    ∃ w, (cutTransmission s).line = { s.line with onLine := none, contention := .none, wonWindow := w } := by
  obtain ⟨w, h⟩ := reportCut_line s
  exact ⟨w, by simp [cutTransmission, h]⟩

@[simp] theorem cutTransmission_timer (s : State) :
    (cutTransmission s).line.silenceTimer = s.line.silenceTimer := by
  obtain ⟨w, h⟩ := cutTransmission_line s
  rw [h]

@[simp] theorem cutTransmission_onLine (s : State) : (cutTransmission s).line.onLine = none := rfl
@[simp] theorem cutTransmission_contention (s : State) : (cutTransmission s).line.contention = .none := rfl

@[simp] theorem changeMode_mode (m : Mode) (s : State) : (changeMode m s).mode = { s.mode with actual := m } := by
  unfold changeMode
  simp only []
  split <;> split <;> simp

@[simp] theorem changeMode_cycle (m : Mode) (s : State) :
    (changeMode m s).cycle = { s.cycle with foundingPending := false, winnerMarkDue := false } := by
  unfold changeMode
  simp only []
  split <;> split <;> simp

/-- A change of mode leaves the Line Unit as it is, but for what an entry into OFF or LISTEN cuts (R13). -/
theorem changeMode_line (m : Mode) (s : State) :
    if m = .off ∨ m = .listen then
      ∃ w, (changeMode m s).line = { s.line with onLine := none, contention := .none, wonWindow := w }
    else (changeMode m s).line = s.line := by
  unfold changeMode
  simp only []
  split
  · have h (x : State) (hx : x.line = s.line) : ∃ w, (cutTransmission x).line =
        { s.line with onLine := none, contention := .none, wonWindow := w } := hx ▸ cutTransmission_line x
    exact h _ (by split <;> simp)
  · split <;> simp

theorem changeMode_line_keeps (m : Mode) (s : State) :
    (changeMode m s).line.silenceTimer = s.line.silenceTimer ∧
    (changeMode m s).line.driverEnable = s.line.driverEnable ∧ (changeMode m s).line.framed = s.line.framed ∧
    (changeMode m s).line.txSlots = s.line.txSlots ∧
    (changeMode m s).line.driverFaultCount = s.line.driverFaultCount := by
  have h := changeMode_line m s
  split at h
  · obtain ⟨w, h⟩ := h
    rw [h]
    exact ⟨rfl, rfl, rfl, rfl, rfl⟩
  · rw [h]
    exact ⟨rfl, rfl, rfl, rfl, rfl⟩

@[simp] theorem changeMode_timer (m : Mode) (s : State) :
    (changeMode m s).line.silenceTimer = s.line.silenceTimer := (changeMode_line_keeps m s).1

@[simp] theorem changeMode_driverEnable (m : Mode) (s : State) :
    (changeMode m s).line.driverEnable = s.line.driverEnable := (changeMode_line_keeps m s).2.1

@[simp] theorem changeMode_framed (m : Mode) (s : State) :
    (changeMode m s).line.framed = s.line.framed := (changeMode_line_keeps m s).2.2.1

/-- After an entry into OFF or LISTEN nothing of the station is on the line and it takes part in no contention (R13). -/
theorem changeMode_cut {m : Mode} (hm : m = .off ∨ m = .listen) (s : State) :
    (changeMode m s).line.onLine = none ∧ (changeMode m s).line.contention = .none := by
  have h := changeMode_line m s
  rw [if_pos hm] at h
  obtain ⟨w, h⟩ := h
  rw [h]
  exact ⟨rfl, rfl⟩

/-- An entry into another mode than OFF and LISTEN cuts nothing. -/
theorem changeMode_uncut {m : Mode} (hm : ¬(m = .off ∨ m = .listen)) (s : State) :
    (changeMode m s).line = s.line ∧ (changeMode m s).streams = s.streams ∧ (changeMode m s).lanes = s.lanes := by
  unfold changeMode
  simp only [if_neg hm]
  split <;> simp

/-- A cut changes no stream of a station whose every lane is CLOSED. -/
theorem reportCut_closed {s : State} (h : ∀ l, (laneOfState s l).state = .closed) :
    (reportCut s).streams = s.streams := by
  have hl (b : Body) (x : State) (hx : x.streams = s.streams) : (cutControl controlLost b x).streams = s.streams := by
    have hc (l : LaneNo) : (laneOfState x l).state = .closed := by unfold laneOfState; rw [hx]; exact h l
    unfold cutControl controlLost
    split <;> simp_all
  have hg (b : Body) (x : State) (hx : x.streams = s.streams) :
      (cutControl controlMismatch b x).streams = s.streams := by
    have hc (l : LaneNo) : (laneOfState x l).state = .closed := by unfold laneOfState; rw [hx]; exact h l
    unfold cutControl controlMismatch
    split <;> simp_all
  unfold reportCut
  split
  · rename_i src _ b _
    unfold messageCut
    cases contending s <;> cases src
    · exact hg b _ rfl
    · simp
    · exact hl b _ rfl
    · simp
  all_goals rfl

/-- A change of mode changes no stream of a station whose every lane is CLOSED. -/
theorem changeMode_closed (m : Mode) {s : State} (h : ∀ l, (laneOfState s l).state = .closed) :
    (changeMode m s).streams = s.streams := by
  unfold changeMode
  simp only []
  have hx (x : State) (e : x.streams = s.streams) : (cutTransmission x).streams = s.streams := by
    rw [← e]
    exact reportCut_closed fun l => by unfold laneOfState; rw [e]; exact h l
  split <;> split <;> first | exact hx _ (by simp) | simp

@[simp] theorem toAdopt_cycle (s : State) : (toAdopt s).cycle = { s.cycle with phase := .adopt } := rfl
@[simp] theorem relearn_cycle (s : State) : (relearn s).cycle = { s.cycle with phase := .adopt } := rfl
@[simp] theorem faultItems_mode (c : FaultCause) (s : State) : (faultItems c s).mode =
    { s.mode with requested := .listen, target := .none, withdrawCount := 0, cause := c } := rfl

end Sys2Proof.Machine
end

