-- ==== Sys2Proof/Laws/Reads.lean ====
section
/-! SUPPORT. Reads of stored words: on clean words they change nothing; on any words an event that goes on has changed
only the words read, the alerts and the error record. -/

namespace Sys2Proof.Machine

/-! ## Scans -/

theorem scan_clean {α : Type} (ws : List (Stored α)) (h : ∀ w ∈ ws, w.health = .clean) :
    ∀ pos, scan pos ws = ⟨ws, none, none⟩ := by
  induction ws with
  | nil => intro pos; rfl
  | cons w ws ih =>
    intro pos
    have hw : w.health = .clean := h w (by simp)
    have ht := ih (fun v hv => h v (by simp [hv])) (pos + 1)
    unfold scan
    simp [hw, ht]

/-- A read leaves every word's contents as they were. -/
theorem scan_vals {α : Type} (ws : List (Stored α)) : ∀ pos, (scan pos ws).words.map (·.val) = ws.map (·.val) := by
  induction ws with
  | nil => intro pos; rfl
  | cons w ws ih => intro pos; unfold scan; cases w.health <;> simp [ih, Stored.fresh]

@[simp] theorem recordScan_clean {α : Type} (r : Region) (ix : Nat → Nat) (ws : List (Stored α)) (s : State) :
    recordScan r ix ⟨ws, none, none⟩ s = s := rfl

theorem recordRead_shape (r : Region) (i : Nat) (h : Health) (s : State) :
    ∃ u e, recordRead r i h s = { s with alerts := u, errorRecord := e } := by
  cases h
  · exact ⟨s.alerts, s.errorRecord, rfl⟩
  · exact ⟨_, _, rfl⟩
  · exact ⟨_, _, rfl⟩

theorem recordScan_shape {α : Type} (r : Region) (ix : Nat → Nat) (sc : Scan α) (s : State) :
    ∃ u e, recordScan r ix sc s = { s with alerts := u, errorRecord := e } := by
  unfold recordScan
  cases sc.single <;> cases sc.failed
  · exact ⟨s.alerts, s.errorRecord, rfl⟩
  · exact ⟨_, _, rfl⟩
  · exact ⟨_, _, rfl⟩
  · exact ⟨_, _, rfl⟩

@[simp] theorem afterRead_clean {α : Type} (w : Stored α) (h : w.health = .clean) : w.afterRead = w := by
  simp [Stored.afterRead, h]

@[simp] theorem afterRead_val {α : Type} (w : Stored α) : w.afterRead.val = w.val := by
  unfold Stored.afterRead
  split <;> simp [Stored.fresh]

theorem set_get_self {α : Type} {n : Nat} (t : Table α n) (i : Fin n) : t.set i (t.get i) = t := by
  apply Table.ext_get
  intro j
  rw [Table.get_set]
  split
  · rename_i h; rw [h]
  · rfl

/-! ## MAP and QUEUE -/

theorem scanTable_clean {α : Type} {n : Nat} (t : Table (Stored α) n) (h : ∀ i, (t.get i).health = .clean) :
    scanTable t = t := by
  apply Table.ext_cells
  show (scan 0 t.cells).words = t.cells
  rw [scan_clean t.cells]
  intro w hw
  obtain ⟨i, rfl⟩ := Table.mem_cells.mp hw
  exact h i

theorem scan_cells_clean {α : Type} {n : Nat} (t : Table (Stored α) n) (h : ∀ i, (t.get i).health = .clean)
    (pos : Nat) : scan pos t.cells = ⟨t.cells, none, none⟩ := by
  apply scan_clean
  intro w hw
  obtain ⟨i, rfl⟩ := Table.mem_cells.mp hw
  exact h i

/-- A read of a clean Slot Map changes nothing. -/
theorem readMap_clean {s : State} (h : s.MapClean) : readMap s = .on s := by
  unfold readMap
  simp [scan_cells_clean s.alloc.map h, scanTable_clean s.alloc.map h]

/-- A read of a clean entry changes nothing. -/
theorem readMapEntry_clean {s : State} {n : Slot} (h : (s.alloc.map.get n).health = .clean) :
    readMapEntry n s = .on s := by
  unfold readMapEntry
  simp [h, set_get_self, recordRead]

/-- A read of a clean Claim Queue changes nothing. -/
theorem readQueue_clean {s : State} (h : s.QueueClean) : readQueue s = .on s := by
  unfold readQueue
  simp [scan_clean s.alloc.queue h]

/-- A read of a clean head changes nothing. -/
theorem readQueueHead_clean {s : State} (h : s.QueueClean) : readQueueHead s = .on s := by
  unfold readQueueHead
  cases hq : s.alloc.queue with
  | nil => rfl
  | cons w ws =>
    have hw : w.health = .clean := h w (by simp [hq])
    simp [hw, recordRead, ← hq]

/-- A state that differs in the shared tables, the alerts and the error record alone. -/
abbrev AllocChanged (s t : State) : Prop :=
  ∃ a u e, t = { s with alloc := a, alerts := u, errorRecord := e }

theorem readMap_on {s t : State} (h : readMap s = .on t) : AllocChanged s t := by
  unfold readMap at h
  simp only [] at h
  split at h
  · cases h
  · cases h
    obtain ⟨u, e, hr⟩ := recordScan_shape .map id (scan 0 s.alloc.map.cells)
      { s with alloc.map := scanTable s.alloc.map }
    exact ⟨_, u, e, hr⟩

theorem readMapEntry_on {s t : State} {n : Slot} (h : readMapEntry n s = .on t) : AllocChanged s t := by
  unfold readMapEntry at h
  simp only [] at h
  split at h
  · cases h
  · cases h
    obtain ⟨u, e, hr⟩ := recordRead_shape .map n.val (s.alloc.map.get n).health
      { s with alloc.map := s.alloc.map.set n (s.alloc.map.get n).afterRead }
    exact ⟨_, u, e, hr⟩

theorem readQueue_on {s t : State} (h : readQueue s = .on t) : AllocChanged s t := by
  unfold readQueue at h
  simp only [] at h
  split at h
  · cases h
  · cases h
    obtain ⟨u, e, hr⟩ := recordScan_shape .queue id (scan 1 s.alloc.queue)
      { s with alloc.queue := (scan 1 s.alloc.queue).words }
    exact ⟨_, u, e, hr⟩

theorem readQueueHead_on {s t : State} (h : readQueueHead s = .on t) : AllocChanged s t := by
  unfold readQueueHead at h
  split at h
  · cases h; exact ⟨s.alloc, s.alerts, s.errorRecord, rfl⟩
  · rename_i w ws _
    simp only [] at h
    split at h
    · cases h
    · cases h
      obtain ⟨u, e, hr⟩ := recordRead_shape .queue 1 w.health { s with alloc.queue := w.afterRead :: ws }
      exact ⟨_, u, e, hr⟩

/-! ## STREAMS -/

theorem checkLane_clean {s : State} {l : LaneNo} (h : (s.streams.lanes.get l).health = .clean) :
    checkLane l s = (s, true) := by
  unfold checkLane
  simp [h, set_get_self, recordRead]

theorem checkLanes_clean (ls : List LaneNo) {s : State} (h : ∀ l ∈ ls, (s.streams.lanes.get l).health = .clean) :
    checkLanes ls s = (s, none) := by
  induction ls with
  | nil => rfl
  | cons l ls ih =>
    unfold checkLanes
    rw [checkLane_clean (h l (by simp))]
    exact ih (fun k hk => h k (by simp [hk]))

theorem checkOutbox_clean {s : State} (h : ∀ w ∈ s.streams.outbox, w.health = .clean) : checkOutbox s = (s, true) := by
  unfold checkOutbox
  simp [scan_clean s.streams.outbox h]

theorem checkOutboxHead_clean {s : State} (h : ∀ w ∈ s.streams.outbox, w.health = .clean) :
    checkOutboxHead s = (s, true) := by
  unfold checkOutboxHead
  cases ho : s.streams.outbox with
  | nil => rfl
  | cons w ws =>
    have hw : w.health = .clean := h w (by simp [ho])
    simp [hw, recordRead, ← ho]

/-- A read of clean lanes and a clean outbox changes nothing. -/
theorem readStreams_clean (ls : List LaneNo) (box : Bool) {s : State} (h : s.StreamsClean) :
    readStreams ls box s = .on s := by
  unfold readStreams
  rw [checkLanes_clean ls (fun l _ => h.1 l)]
  simp only [checkOutbox_clean h.2]
  split <;> rfl

/-- A state that differs in the STREAMS region, the alerts and the error record alone, every lane's record and every
outbox entry being as they were. -/
abbrev StreamsRead (s t : State) : Prop :=
  ∃ c u e, t = { s with streams := c, alerts := u, errorRecord := e } ∧
    (∀ l, (c.lanes.get l).val = (s.streams.lanes.get l).val) ∧ c.outbox.map (·.val) = s.streams.outbox.map (·.val)

theorem StreamsRead.refl (s : State) : StreamsRead s s :=
  ⟨s.streams, s.alerts, s.errorRecord, rfl, fun _ => rfl, rfl⟩

theorem StreamsRead.trans {s t v : State} (h : StreamsRead s t) (g : StreamsRead t v) : StreamsRead s v := by
  obtain ⟨c, u, e, rfl, hl, hb⟩ := h
  obtain ⟨c2, u2, e2, rfl, hl2, hb2⟩ := g
  exact ⟨c2, u2, e2, rfl, fun l => (hl2 l).trans (hl l), hb2.trans hb⟩

theorem checkLane_read (l : LaneNo) (s : State) : StreamsRead s (checkLane l s).1 := by
  obtain ⟨u, e, hr⟩ := recordRead_shape .streams l.val (s.streams.lanes.get l).health
    { s with streams.lanes := s.streams.lanes.set l (s.streams.lanes.get l).afterRead }
  refine ⟨{ s.streams with lanes := s.streams.lanes.set l (s.streams.lanes.get l).afterRead }, u, e, hr, ?_, rfl⟩
  intro k
  simp only [Table.get_set]
  split
  · rename_i h; rw [h]; simp
  · rfl

theorem checkLanes_read (ls : List LaneNo) : ∀ s, StreamsRead s (checkLanes ls s).1 := by
  induction ls with
  | nil => intro s; exact StreamsRead.refl s
  | cons l ls ih =>
    intro s
    have h := checkLane_read l s
    unfold checkLanes
    split
    · rename_i s1 heq; rw [heq] at h; exact h.trans (ih s1)
    · rename_i s1 heq; rw [heq] at h; exact h

theorem checkOutbox_read (s : State) : StreamsRead s (checkOutbox s).1 := by
  obtain ⟨u, e, hr⟩ := recordScan_shape .streams (8 + ·) (scan 0 s.streams.outbox)
    { s with streams.outbox := (scan 0 s.streams.outbox).words }
  exact ⟨{ s.streams with outbox := (scan 0 s.streams.outbox).words }, u, e, hr, fun _ => rfl, scan_vals _ _⟩

theorem readStreams_on {ls : List LaneNo} {box : Bool} {s t : State} (h : readStreams ls box s = .on t) :
    StreamsRead s t := by
  have h1 := checkLanes_read ls s
  unfold readStreams at h
  split at h
  · cases h
  · rename_i s1 heq
    rw [heq] at h1
    split at h
    · have h2 := checkOutbox_read s1
      split at h
      · rename_i s2 heq2
        cases h
        rw [heq2] at h2
        exact h1.trans h2
      · cases h
    · cases h; exact h1

end Sys2Proof.Machine
end

