-- ==== Sys2Proof/Laws/Closed.lean ====
section
/-! SUPPORT. Properties kept by the parts of an event are kept by every event: what a property must be closed under
(`Closed`), and the Allocation Unit's events built from these parts. -/

namespace Sys2Proof.Machine

/-- Two states that agree in what the modes, the learning phase, the station's streams and its sending rest on. A field on
the line or a contention may have ended. -/
def SameCore (s t : State) : Prop :=
  t.mode.actual = s.mode.actual ∧ t.mode.target = s.mode.target ∧ t.mode.withdrawCount = s.mode.withdrawCount ∧
  t.cycle.phase = s.cycle.phase ∧ t.cycle.resyncAttempts = s.cycle.resyncAttempts ∧
  t.line.silenceTimer = s.line.silenceTimer ∧ (t.line.onLine = s.line.onLine ∨ t.line.onLine = none) ∧
  (t.line.contention = s.line.contention ∨ t.line.contention = .none) ∧ t.streams = s.streams ∧ t.pins = s.pins ∧
  t.pending = s.pending

theorem SameCore.refl (s : State) : SameCore s s :=
  ⟨rfl, rfl, rfl, rfl, rfl, rfl, .inl rfl, .inl rfl, rfl, rfl, rfl⟩

theorem AllocChanged.sameCore {s t : State} (h : AllocChanged s t) : SameCore s t := by
  obtain ⟨a, u, e, rfl⟩ := h
  exact ⟨rfl, rfl, rfl, rfl, rfl, rfl, .inl rfl, .inl rfl, rfl, rfl, rfl⟩

/-- What a property of states must be closed under to be kept by every command. `ok` says which learning phases the
property lets a mode have: those of `phaseFits`, or any. -/
structure Closed (ok : Mode → Phase → Prop) (P : State → Prop) : Prop where
  /-- the phase of a state is one its mode may have -/
  fits : ∀ {s}, P s → ok s.mode.actual s.cycle.phase
  okOf : ∀ {m p}, phaseFits m p = true → ok m p
  /-- a mode that may be learning may be at any step of it -/
  okMove : ∀ {m p q}, p = .adopt ∨ p = .rebuild ∨ p = .verify → q = .adopt ∨ q = .rebuild ∨ q = .verify →
    ok m p → ok m q
  /-- changes elsewhere than in the core -/
  data : ∀ {s t}, P s → SameCore s t → P t
  /-- a read of the STREAMS region -/
  streams : ∀ {ls box s}, P s → P (readStreams ls box s).state
  /-- a notice -/
  deliver : ∀ {n s}, P s → P (deliver n s)
  /-- a lane's record rewritten without a change of its state -/
  lane : ∀ {l : LaneNo} {f s}, (∀ r : Lane, (f r).state = r.state) → P s → P (updateLane l f s)
  /-- a double error in MAP or QUEUE -/
  failed : ∀ {s}, P s → P (mapQueueFailed s)
  /-- a phase that fits the mode -/
  phase : ∀ {s p}, ok s.mode.actual p → P s → P { s with cycle.phase := p }
  /-- the silence timer at an intact field -/
  silence : ∀ {s}, s.mode.actual ≠ .off → P s → P (restartSilence s)
  /-- a field sent or a contention entered -/
  sent : ∀ {s l}, s.mode.actual ≠ .off → s.mode.actual ≠ .listen → l.silenceTimer = s.line.silenceTimer → P s →
    P { s with line := l }
  /-- reports about the station's own control messages -/
  report : ∀ {s b eff}, s.line.onLine ≠ none → (eff = controlLost ∨ eff = controlGood ∨ eff = controlMismatch) → P s →
    P (controlReport eff b s)
  /-- reconciliation -/
  reconciled : ∀ {s}, s.mode.actual = .member ∨ s.mode.actual = .withdrawing → P s → P (reconcile s).state
  /-- MEMBER with phase LEARNED, from a state in JOINING or RESYNC -/
  joined : ∀ {s : State}, s.mode.actual = .joining ∨ s.mode.actual = .resync → P s →
    P (changeMode .member { s with cycle.phase := .learned })
  resync : ∀ {s}, s.mode.actual = .member → P s → P (enterResync s)
  fault : ∀ {c s}, P s → P (faultEntry c s)
  withdraw : ∀ {t s}, s.mode.actual = .member ∨ s.mode.actual = .resync → t ≠ .none → P s →
    P (enterWithdrawing t s).state
  ended : ∀ {s}, s.mode.actual = .withdrawing → P s → P (endWithdrawal s)
  counted : ∀ {s}, s.mode.actual = .withdrawing → P s → P (countWithdrawal s)
  attempt : ∀ {s}, P s → P (countAttempt s)
  toListen : ∀ {s}, s.mode.actual = .joining ∨ s.mode.actual = .resync → P s → P (listenFromLearning s)
  toOff : ∀ {s}, s.mode.actual = .joining ∨ s.mode.actual = .resync → P s → P (offFromLearning s)
  silent : ∀ {s}, P s → P (silenceNotice s)
  leave : ∀ {s}, s.mode.actual = .off → P s → P (listenFromOff s)
  join : ∀ {s}, s.mode.actual = .off ∨ s.mode.actual = .listen → P s → P (enterJoining s)
  off : ∀ {s}, s.mode.actual = .listen → P s → P (enterOff s)
  opened : ∀ {p s}, opensStreams s.mode.actual = true → P s → P (openLane p s)
  closed : ∀ {l s}, P s → P (exitCheck (endLane l s))
  restart : ∀ {s}, s.mode.actual = .member → P s → P (appendEntry .restart s)
  retarget : ∀ {s t}, t ≠ .none → s.mode.actual = .withdrawing → P s → P { s with mode.target := t }
  head : ∀ {s}, P s → P (checkOutboxHead s).1
  headFailed : ∀ {s}, P s → P (streamsFailed none s)
  /-- a RESET_STATION that the rise of CSN carries out -/
  reset : ∀ {s}, P s → P (resetStation s)

end Sys2Proof.Machine
end

