-- ==== Sys2Proof/Laws/Events.lean ====
section
/-! SUPPORT. A property closed under the parts of an event is kept by every event of the Allocation Unit and of the Cycle
Engine. -/

namespace Sys2Proof.Machine

namespace Closed

variable {ok : Mode → Phase → Prop} {P : State → Prop} {s : State}

/-! ## Changes outside the core -/

theorem alloc (hc : Closed ok P) {a : AllocationUnit} (h : P s) : P { s with alloc := a } :=
  hc.data h ⟨rfl, rfl, rfl, rfl, rfl, rfl, .inl rfl, .inl rfl, rfl, rfl, rfl⟩

theorem notes (hc : Closed ok P) {a : NoteUnit} (h : P s) : P { s with notes := a } :=
  hc.data h ⟨rfl, rfl, rfl, rfl, rfl, rfl, .inl rfl, .inl rfl, rfl, rfl, rfl⟩

theorem lanes (hc : Closed ok P) {a : LaneUnit} (h : P s) : P { s with lanes := a } :=
  hc.data h ⟨rfl, rfl, rfl, rfl, rfl, rfl, .inl rfl, .inl rfl, rfl, rfl, rfl⟩

theorem port (hc : Closed ok P) {a : CommandPort} (h : P s) : P { s with port := a } :=
  hc.data h ⟨rfl, rfl, rfl, rfl, rfl, rfl, .inl rfl, .inl rfl, rfl, rfl, rfl⟩

theorem alerts (hc : Closed ok P) {u : AlertUnit} (h : P s) : P { s with alerts := u } :=
  hc.data h ⟨rfl, rfl, rfl, rfl, rfl, rfl, .inl rfl, .inl rfl, rfl, rfl, rfl⟩

theorem record (hc : Closed ok P) {u : AlertUnit} {e : Option ErrorRecord} (h : P s) :
    P { s with alerts := u, errorRecord := e } :=
  hc.data h ⟨rfl, rfl, rfl, rfl, rfl, rfl, .inl rfl, .inl rfl, rfl, rfl, rfl⟩

/-- A change of the Cycle Engine's items but for the phase and the resync count. -/
theorem cycle (hc : Closed ok P) {c : CycleEngine} (h1 : c.phase = s.cycle.phase)
    (h2 : c.resyncAttempts = s.cycle.resyncAttempts) (h : P s) : P { s with cycle := c } :=
  hc.data h ⟨rfl, rfl, rfl, h1, h2, rfl, .inl rfl, .inl rfl, rfl, rfl, rfl⟩

/-- A change of the Mode Controller's cause and requested mode. -/
theorem mode (hc : Closed ok P) {m : ModeController} (h1 : m.actual = s.mode.actual) (h2 : m.target = s.mode.target)
    (h3 : m.withdrawCount = s.mode.withdrawCount) (h : P s) : P { s with mode := m } :=
  hc.data h ⟨h1, h2, h3, rfl, rfl, rfl, .inl rfl, .inl rfl, rfl, rfl, rfl⟩

/-- A change of the Line Unit but for the timer, where a field or a contention may have ended. -/
theorem line (hc : Closed ok P) {l : LineUnit} (h1 : l.silenceTimer = s.line.silenceTimer)
    (h2 : l.onLine = s.line.onLine ∨ l.onLine = none)
    (h3 : l.contention = s.line.contention ∨ l.contention = .none) (h : P s) : P { s with line := l } :=
  hc.data h ⟨rfl, rfl, rfl, rfl, rfl, h1, h2, h3, rfl, rfl, rfl⟩

theorem raise (hc : Closed ok P) {a : Alert} (h : P s) : P (raise a s) := hc.alerts h

theorem recordScan (hc : Closed ok P) {α : Type} {r : Region} {ix : Nat → Nat} {sc : Scan α} (h : P s) :
    P (recordScan r ix sc s) := by
  obtain ⟨u, e, hr⟩ := recordScan_shape r ix sc s
  rw [hr]
  exact hc.record h

theorem recordRead (hc : Closed ok P) {r : Region} {i : Nat} {w : Health} (h : P s) : P (recordRead r i w s) := by
  obtain ⟨u, e, hr⟩ := recordRead_shape r i w s
  rw [hr]
  exact hc.record h

theorem toAdopt (hc : Closed ok P) (hm : ok s.mode.actual .adopt) (h : P s) : P (toAdopt s) := by
  have h1 := hc.phase hm h
  exact hc.alloc (a := { s.alloc with rebuildList := [], heldNotices := [] }) h1

theorem clearMap (hc : Closed ok P) (h : P s) : P (clearMap s) :=
  hc.alloc (a := { s.alloc with map := .replicate 48 (.fresh .free), mapFoundWrong := false }) h

theorem clearTables (hc : Closed ok P) (h : P s) : P (clearTables s) :=
  hc.alloc (a := { (Machine.clearMap s).alloc with queue := [] }) (hc.clearMap h)

theorem relearn (hc : Closed ok P) (hm : ok s.mode.actual .adopt) (h : P s) : P (relearn s) :=
  hc.clearTables (hc.toAdopt hm h)

/-! ## Reads -/

theorem readMap (hc : Closed ok P) (h : P s) : P (readMap s).state := by
  have h1 : P (Machine.recordScan .map id (scan 0 s.alloc.map.cells) { s with alloc.map := scanTable s.alloc.map }) :=
    hc.recordScan (hc.alloc h)
  unfold Machine.readMap
  simp only []
  split
  · exact hc.failed h1
  · exact h1

theorem readMapEntry (hc : Closed ok P) {n : Slot} (h : P s) : P (readMapEntry n s).state := by
  have h1 : P (Machine.recordRead .map n.val (s.alloc.map.get n).health
      { s with alloc.map := s.alloc.map.set n (s.alloc.map.get n).afterRead }) := hc.recordRead (hc.alloc h)
  unfold Machine.readMapEntry
  simp only []
  split
  · exact hc.failed h1
  · exact h1

theorem readQueue (hc : Closed ok P) (h : P s) : P (readQueue s).state := by
  have h1 : P (Machine.recordScan .queue id (scan 1 s.alloc.queue)
      { s with alloc.queue := (scan 1 s.alloc.queue).words }) := hc.recordScan (hc.alloc h)
  unfold Machine.readQueue
  simp only []
  split
  · exact hc.failed h1
  · exact h1

theorem readQueueHead (hc : Closed ok P) (h : P s) : P (readQueueHead s).state := by
  unfold Machine.readQueueHead
  split
  · exact h
  · rename_i w ws _
    have h1 : P (Machine.recordRead .queue 1 w.health { s with alloc.queue := w.afterRead :: ws }) :=
      hc.recordRead (hc.alloc h)
    simp only []
    split
    · exact hc.failed h1
    · exact h1

/-! ## Notices, grants, revocations, service -/

theorem send (hc : Closed ok P) {hold : Bool} {n : Notice} (h : P s) : P (send hold n s) := by
  unfold Machine.send
  split
  · exact hc.alloc h
  · exact hc.deliver h

theorem tell (hc : Closed ok P) {st : Station} {hold : Bool} {n : Notice} (h : P s) : P (tell st hold n s) := by
  unfold Machine.tell
  split
  · exact hc.send h
  · exact h

theorem grant (hc : Closed ok P) {hold : Bool} {st : Station} {l : LaneNo} {label : Label} {cls : SlotClass} {ret : Bool}
    {k : Nat} (h : P s) : P (grant hold st l label cls ret k s) := by
  unfold Machine.grant
  split
  · exact h
  · exact hc.tell (hc.alloc h)

theorem revoke (hc : Closed ok P) {hold : Bool} {e : HeldEntry} (h : P s) : P (revoke hold e s) := by
  unfold Machine.revoke
  simp only []
  split
  · exact hc.tell (hc.alloc (hc.alloc h))
  · exact hc.tell (hc.alloc h)

theorem preempt (hc : Closed ok P) {hold : Bool} {k : Nat} (fuel : Nat) : ∀ {s}, P s → P (preempt fuel hold k s) := by
  induction fuel with
  | zero => intro s h; exact h
  | succ fuel ih =>
    intro s h
    unfold Machine.preempt
    split
    · exact h
    · split
      · exact h
      · exact ih (hc.revoke h)

theorem serviceLoop (hc : Closed ok P) {hold : Bool} (fuel : Nat) :
    ∀ {s}, P s → P (serviceLoop fuel hold s).state := by
  induction fuel with
  | zero => intro s h; exact h
  | succ fuel ih =>
    intro s h
    unfold Machine.serviceLoop
    refine Course.next_keeps (hc.readQueueHead h) ?_
    intro s1 h1
    split
    · exact h1
    · refine Course.next_keeps (hc.readMap h1) ?_
      intro s2 h2
      simp only []
      split
      · exact ih (hc.grant (hc.alloc h2))
      · split
        · exact ih (hc.grant (hc.preempt 48 (hc.alloc h2)))
        · exact h2

theorem service (hc : Closed ok P) {hold : Bool} (h : P s) : P (service hold s).state := hc.serviceLoop _ h

/-! ## Control messages -/

theorem insertQueued (hc : Closed ok P) {i : Nat} {e : QueueEntry} (h : P s) : P (insertQueued i e s) := by
  unfold Machine.insertQueued
  split
  · exact h
  · exact hc.alloc h

theorem placeClaim (hc : Closed ok P) {e : QueueEntry} (h : P s) : P (placeClaim e s) := by
  unfold Machine.placeClaim
  split
  · exact hc.tell (hc.insertQueued h)
  · split
    · simp only []
      split
      · exact hc.tell (hc.insertQueued (hc.tell (hc.alloc h)))
      · exact hc.tell h
    · exact hc.tell h
    · exact hc.tell h

theorem grantRule (hc : Closed ok P) {e : QueueEntry} {wait : Bool} (h : P s) : P (grantRule e wait s) := by
  unfold Machine.grantRule
  simp only []
  split
  · exact hc.tell h
  · split
    · exact hc.tell h
    · split
      · split
        · exact hc.placeClaim h
        · exact hc.tell h
      · split
        · exact hc.grant h
        · split
          · exact hc.grant (hc.preempt 48 h)
          · split
            · exact hc.placeClaim h
            · exact hc.tell h

theorem applyClaim (hc : Closed ok P) {st : Station} {l : LaneNo} {label : Label} {k : Nat} {cls : SlotClass}
    {wait ret : Bool} (h : P s) : P (applyClaim st l label k cls wait ret s).state := by
  unfold Machine.applyClaim
  split
  · exact h
  · exact Course.finally_keeps (Course.next_keeps (hc.readMap h) fun _ => hc.readQueue) fun _ => hc.grantRule

theorem applyRelease (hc : Closed ok P) {st : Station} {l : LaneNo} (h : P s) : P (applyRelease st l s).state := by
  unfold Machine.applyRelease
  refine Course.next_keeps (hc.readMap h) ?_
  intro s1 h1
  split
  · exact h1
  · exact hc.service (hc.tell (hc.alloc h1))

theorem applyWithdraw (hc : Closed ok P) {st : Station} {l : LaneNo} (h : P s) : P (applyWithdraw st l s).state := by
  unfold Machine.applyWithdraw
  refine Course.next_keeps (hc.readQueue h) ?_
  intro s1 h1
  split
  · exact hc.service (hc.tell (hc.alloc h1))
  · refine Course.next_keeps (hc.readMap h1) ?_
    intro s2 h2
    split
    · exact h2
    · exact hc.service (hc.tell (hc.alloc h2))

/-- In phase REBUILD the mode may be at any step of learning. -/
theorem fromRebuild (hc : Closed ok P) {q : Phase} (hq : q = .adopt ∨ q = .rebuild ∨ q = .verify) (h : P s)
    (hp : s.cycle.phase = .rebuild) : ok s.mode.actual q :=
  hc.okMove (.inr (.inl rfl)) hq (hp ▸ hc.fits h)

theorem applyRestart (hc : Closed ok P) (h : P s) : P (applyRestart s) := by
  unfold Machine.applyRestart
  simp only []
  split
  · rename_i hp
    exact hc.deliver (hc.raise (hc.toAdopt (s := Machine.clearTables s) (hc.fromRebuild (s := s) (.inl rfl) h hp) (hc.clearTables h)))
  · exact hc.deliver (hc.raise (hc.clearTables h))

theorem applyMessage (hc : Closed ok P) {st : Station} {b : Body} (h : P s) : P (applyMessage st b s).state := by
  unfold Machine.applyMessage
  cases b with
  | claim l label k cls wait ret =>
    simp only []
    split
    · exact hc.applyClaim h
    · exact h
  | release l =>
    simp only []
    split
    · exact hc.applyRelease h
    · exact h
  | withdraw l =>
    simp only []
    split
    · exact hc.applyWithdraw h
    · exact h
  | restart =>
    simp only []
    split
    · exact h
    · exact hc.applyRestart h
  | note n => exact h
  | noKind => exact h

/-! ## Ageing and positions -/

theorem expireEntries (hc : Closed ok P) (fuel : Nat) : ∀ {s}, P s → P (expireEntries fuel s) := by
  induction fuel with
  | zero => intro s h; exact h
  | succ fuel ih =>
    intro s h
    unfold Machine.expireEntries
    split
    · exact h
    · split
      · exact h
      · exact ih (hc.tell (hc.alloc h))

theorem expire (hc : Closed ok P) {b : Bool} (h : P s) : P (expire b s).state := by
  unfold Machine.expire
  split
  · simp only []
    split
    · exact hc.service (hc.expireEntries _ h)
    · exact hc.expireEntries _ h
  · exact h

theorem ageAll (hc : Closed ok P) {b : Bool} (h : P s) : P (ageAll b s).state := by
  unfold Machine.ageAll
  simp only []
  split
  · exact hc.failed (hc.recordScan (hc.alloc h))
  · exact hc.expire (hc.recordScan (hc.alloc h))

theorem markTick (hc : Closed ok P) {b : Bool} (h : P s) : P (markTick b s).state := by
  unfold Machine.markTick
  split
  · exact hc.ageAll (hc.cycle rfl rfl h)
  · exact h

theorem recordPosition (hc : Closed ok P) {l : LaneNo} {p : Nat} (h : P s) : P (recordPosition l p s) := by
  unfold Machine.recordPosition
  simp only []
  split
  · exact hc.lane (fun _ => rfl) h
  · exact h

theorem recordPositions (hc : Closed ok P) (es : List QueueEntry) :
    ∀ {p s}, P s → P (recordPositions p es s).state := by
  induction es with
  | nil => intro p s h; exact h
  | cons e es ih =>
    intro p s h
    unfold Machine.recordPositions
    split
    · exact Course.next_keeps (hc.streams h) fun s1 h1 => ih (hc.recordPosition h1)
    · exact ih h

theorem positionReport (hc : Closed ok P) (h : P s) : P (positionReport s).state :=
  Course.next_keeps (hc.readQueue h) fun _ h1 => hc.recordPositions _ h1

/-! ## The close of the slot field -/

theorem reclaimStreams (hc : Closed ok P) (fuel : Nat) : ∀ {s}, P s → P (reclaimStreams fuel s) := by
  induction fuel with
  | zero => intro s h; exact h
  | succ fuel ih =>
    intro s h
    unfold Machine.reclaimStreams
    split
    · exact h
    · exact ih (hc.tell (hc.alloc h))

theorem reclaim (hc : Closed ok P) (h : P s) : P (reclaim s).state := by
  unfold Machine.reclaim
  split
  · exact hc.service (hc.reclaimStreams 48 h)
  · exact h

theorem closeLearned (hc : Closed ok P) (h : P s) : P (closeLearned s).state :=
  Course.next_keeps (hc.readMap h) fun _ h1 => hc.reclaim (hc.alloc (hc.alloc h1))

theorem rebuildMap (hc : Closed ok P) (h : P s) : P (rebuildMap s).state := by
  unfold Machine.rebuildMap
  refine Course.finally_keeps ?_ fun _ h1 => hc.alloc h1
  unfold Machine.readRebuildList
  simp only []
  split
  · exact hc.failed (hc.recordScan (hc.alloc (hc.clearMap h)))
  · exact hc.recordScan (hc.alloc (hc.clearMap h))

theorem purge (hc : Closed ok P) (h : P s) : P (purge s).state := by
  unfold Machine.purge
  simp only []
  split_ifs
  · exact hc.failed (hc.recordScan (hc.alloc h))
  · exact hc.service (hc.recordScan (hc.alloc h))
  · exact hc.recordScan (hc.alloc h)

/-! ## What a held service leaves as it was (R91) -/

end Closed

/-- The mode, the phase and the timer of an event that holds its notices. -/
def SameModes (s t : State) : Prop := t.mode = s.mode ∧ t.cycle = s.cycle ∧ t.line = s.line

theorem SameModes.trans {s t v : State} (h : SameModes s t) (g : SameModes t v) : SameModes s v :=
  ⟨g.1.trans h.1, g.2.1.trans h.2.1, g.2.2.trans h.2.2⟩

theorem AllocChanged.sameModes {s t : State} (h : AllocChanged s t) : SameModes s t := by
  obtain ⟨a, u, e, rfl⟩ := h
  exact ⟨rfl, rfl, rfl⟩

theorem sameModes_alloc (s : State) (a : AllocationUnit) : SameModes s { s with alloc := a } := ⟨rfl, rfl, rfl⟩

theorem tell_held (st : Station) (n : Notice) (s : State) : SameModes s (tell st true n s) := by
  unfold tell
  split
  · exact ⟨rfl, rfl, rfl⟩
  · exact ⟨rfl, rfl, rfl⟩

theorem grant_held (st : Station) (l : LaneNo) (label : Label) (cls : SlotClass) (ret : Bool) (k : Nat) (s : State) :
    SameModes s (grant true st l label cls ret k s) := by
  unfold grant
  split
  · exact ⟨rfl, rfl, rfl⟩
  · exact tell_held _ _ _

theorem revoke_held (e : HeldEntry) (s : State) : SameModes s (revoke true e s) := by
  unfold revoke
  simp only []
  split
  · exact tell_held _ _ _
  · exact tell_held _ _ _

theorem preempt_held (k : Nat) (fuel : Nat) : ∀ s, SameModes s (preempt fuel true k s) := by
  induction fuel with
  | zero => intro s; exact ⟨rfl, rfl, rfl⟩
  | succ fuel ih =>
    intro s
    unfold preempt
    split
    · exact ⟨rfl, rfl, rfl⟩
    · split
      · exact ⟨rfl, rfl, rfl⟩
      · exact (revoke_held _ _).trans (ih _)

theorem serviceLoop_held (fuel : Nat) : ∀ {s t}, serviceLoop fuel true s = .on t → SameModes s t := by
  induction fuel with
  | zero => intro s t h; cases h; exact ⟨rfl, rfl, rfl⟩
  | succ fuel ih =>
    intro s t h
    unfold serviceLoop at h
    cases hq : readQueueHead s with
    | abandoned s1 => rw [hq] at h; cases h
    | on s1 =>
      rw [hq] at h
      have h1 := (readQueueHead_on hq).sameModes
      simp only [Course.next_on] at h
      split at h
      · cases h; exact h1
      · cases hm : readMap s1 with
        | abandoned s2 => rw [hm] at h; cases h
        | on s2 =>
          rw [hm] at h
          have h2 := h1.trans (readMap_on hm).sameModes
          simp only [Course.next_on] at h
          split_ifs at h
          · exact h2.trans (SameModes.trans (sameModes_alloc _ _) ((grant_held _ _ _ _ _ _ _).trans (ih h)))
          · exact h2.trans (SameModes.trans (sameModes_alloc _ _)
              ((preempt_held _ _ _).trans ((grant_held _ _ _ _ _ _ _).trans (ih h))))
          · cases h; exact h2

theorem recordScan_sameModes {α : Type} (r : Region) (ix : Nat → Nat) (sc : Scan α) (s : State) :
    SameModes s (recordScan r ix sc s) := by
  refine ⟨?_, ?_, ?_⟩ <;> simp

theorem purge_held {s t : State} (h : purge s = .on t) : SameModes s t := by
  unfold purge at h
  simp only [] at h
  split_ifs at h
  · exact SameModes.trans (sameModes_alloc _ _) ((recordScan_sameModes _ _ _ _).trans (serviceLoop_held _ h))
  · cases h
    exact SameModes.trans (sameModes_alloc _ _) (recordScan_sameModes _ _ _ _)

theorem rebuildMap_on {s t : State} (h : rebuildMap s = .on t) : SameModes s t := by
  unfold rebuildMap readRebuildList at h
  simp only [] at h
  split_ifs at h
  · cases h
  · cases h
    obtain ⟨u, e, hr⟩ := recordScan_shape .map (fun _ => 48) (scan 0 (clearMap s).alloc.rebuildList)
      { clearMap s with alloc.rebuildList := (scan 0 (clearMap s).alloc.rebuildList).words }
    refine ⟨?_, ?_, ?_⟩ <;> simp

namespace Closed

variable {ok : Mode → Phase → Prop} {P : State → Prop} {s : State}

/-- The close in phase REBUILD leaves a phase that fits the mode (R26). -/
theorem closeRebuild (hc : Closed ok P) (hm : ok s.mode.actual .verify) (h : P s) :
    P (closeRebuild s).state := by
  unfold Machine.closeRebuild
  have h1 : P ((Machine.rebuildMap s).next Machine.purge).state :=
    Course.next_keeps (hc.rebuildMap h) fun _ => hc.purge
  cases hr : Machine.rebuildMap s with
  | abandoned s1 => rw [hr] at h1; exact h1
  | on s1 =>
    rw [hr] at h1
    simp only [Course.next_on] at h1 ⊢
    cases hp : Machine.purge s1 with
    | abandoned s2 => rw [hp] at h1; exact h1
    | on s2 =>
      rw [hp] at h1
      have hs := (rebuildMap_on hr).trans (purge_held hp)
      have h2 := hc.phase (s := s2) (p := .verify) (by rw [hs.1]; exact hm) h1
      exact hc.alloc (a := { s2.alloc with rebuildList := [] }) h2

/-- The close of a slot field (R24, R26, R49). -/
theorem closeField (hc : Closed ok P) (h : P s) : P (closeField s).state := by
  unfold Machine.closeField
  split
  · split
    · exact hc.closeLearned h
    · exact hc.alloc h
  · rename_i hp
    exact Course.finally_keeps (hc.closeRebuild (hc.fromRebuild (.inr (.inr rfl)) h hp) h) fun _ => hc.alloc
  · exact hc.alloc h
  · exact hc.alloc h
  · exact hc.alloc h

end Closed

end Sys2Proof.Machine
end

