-- ==== Sys2Proof/Laws/Learning.lean ====
section
/-! SUPPORT. A property closed under the parts of an event is kept by every mark. -/

namespace Sys2Proof.Machine

/-! ## Where a notice can take the mode -/

/-- The mode stays, or becomes OFF or LISTEN. -/
def ModeFalls (s t : State) : Prop :=
  t.mode.actual = s.mode.actual ∨ t.mode.actual = .off ∨ t.mode.actual = .listen

theorem ModeFalls.of_mode {s t : State} (h : t.mode = s.mode) : ModeFalls s t := .inl (by rw [h])

theorem ModeFalls.trans {s t v : State} (h : ModeFalls s t) (g : ModeFalls t v) : ModeFalls s v := by
  rcases g with g | g
  · rcases h with h | h
    · exact .inl (g.trans h)
    · exact .inr (h.imp (fun x => g.trans x) (fun x => g.trans x))
  · exact .inr g

@[simp] theorem enterOff_mode (s : State) : (enterOff s).mode.actual = .off := by
  simp [enterOff, offEffects]

theorem leaveForTarget_falls (s : State) : ModeFalls s (leaveForTarget s) := by
  unfold leaveForTarget
  split
  · exact .inr (.inl (enterOff_mode s))
  · simp only []
    split
    · exact .inr (.inr (by simp))
    · exact .inr (.inr (by simp))
  · exact .inl rfl

theorem exitCheck_falls (s : State) : ModeFalls s (exitCheck s) := by
  unfold exitCheck
  split
  · exact leaveForTarget_falls s
  · exact .inl rfl

theorem streamsFailed_falls (f : Option LaneNo) (s : State) : ModeFalls s (streamsFailed f s) := by
  unfold streamsFailed
  split
  · simp only []
    split
    · exact .inl (by simp)
    · exact .inl (by simp)
  · exact .inr (.inr (by simp))

theorem readStreams_falls (ls : List LaneNo) (box : Bool) (s : State) : ModeFalls s (readStreams ls box s).state := by
  have h1 := (checkLanes_frame ls s).2.2.1
  unfold readStreams
  split
  · rename_i s1 l heq
    rw [heq] at h1
    exact (ModeFalls.of_mode h1).trans (streamsFailed_falls (some l) s1)
  · rename_i s1 heq
    rw [heq] at h1
    split
    · have h2 := (checkOutbox_frame s1).2.2.1
      split
      · rename_i s2 heq2
        rw [heq2] at h2
        exact .of_mode (h2.trans h1)
      · rename_i s2 heq2
        rw [heq2] at h2
        exact (ModeFalls.of_mode (h2.trans h1)).trans (streamsFailed_falls none s2)
    · exact .of_mode h1

theorem deliver_falls (n : Notice) (s : State) : ModeFalls s (deliver n s) := by
  have h := readStreams_falls n.lanes true s
  unfold deliver
  cases hr : readStreams n.lanes true s with
  | on t => rw [hr] at h; exact (h.trans (.of_mode (by simp))).trans (exitCheck_falls _)
  | abandoned t => rw [hr] at h; exact h.trans (exitCheck_falls _)

theorem tell_falls (st : Station) (n : Notice) (s : State) : ModeFalls s (tell st false n s) := by
  unfold tell send
  split
  · exact deliver_falls n s
  · exact .inl rfl

theorem expireEntries_falls (fuel : Nat) : ∀ s, ModeFalls s (expireEntries fuel s) := by
  induction fuel with
  | zero => intro s; exact .inl rfl
  | succ fuel ih =>
    intro s
    unfold expireEntries
    split
    · exact .inl rfl
    · split
      · exact .inl rfl
      · rename_i i _ _ w _
        have h1 : ModeFalls s (removeQueued i s) := .inl rfl
        have h2 := tell_falls w.val.station (.expired w.val.lane) (removeQueued i s)
        exact (h1.trans h2).trans (ih _)

theorem expire_falls {s t : State} (h : expire false s = .on t) : ModeFalls s t := by
  unfold expire at h
  simp only [Bool.false_eq_true, if_false] at h
  split_ifs at h
  · cases h; exact expireEntries_falls _ _
  · cases h; exact .inl rfl

/-- The tick of an adoption that goes on (R89). -/
theorem markTick_falls {s t : State} (h : markTick false s = .on t) : ModeFalls s t := by
  unfold markTick at h
  split_ifs at h
  · unfold ageAll at h
    simp only [] at h
    split_ifs at h
    · exact (ModeFalls.of_mode (by simp)).trans (expire_falls h)
  · cases h; exact .inl rfl

theorem faultEntry_falls (c : FaultCause) (s : State) : ModeFalls s (faultEntry c s) := by
  unfold faultEntry
  split
  · exact .inl rfl
  · exact .inl rfl
  · simp only []
    split
    · exact .inr (.inr (by simp))
    · exact .inr (.inr (by simp))

theorem countAttempt_falls (s : State) : ModeFalls s (countAttempt s) := by
  unfold countAttempt
  split
  · simp only []
    split
    · exact ModeFalls.trans (.inl rfl) (faultEntry_falls _ _)
    · exact .inl rfl
  · exact .inl rfl

/-! ## Marks -/

namespace Closed

variable {ok : Mode → Phase → Prop} {P : State → Prop} {s : State}

/-- Learning may go on after a fall of the mode that has not reached OFF. -/
theorem okFalls (hc : Closed ok P) {t : State} {p q : Phase} (hp : p = .adopt ∨ p = .rebuild ∨ p = .verify)
    (hq : q = .adopt ∨ q = .rebuild ∨ q = .verify) (h : ok s.mode.actual p) (hf : ModeFalls s t)
    (ho : t.mode.actual ≠ .off) : ok t.mode.actual q := by
  rcases hf with hf | hf | hf
  · rw [hf]; exact hc.okMove hp hq h
  · exact absurd hf ho
  · rw [hf]
    apply hc.okOf
    rcases hq with rfl | rfl | rfl <;> rfl

theorem noteMismatch (hc : Closed ok P) (h : P s) : P (noteMismatch s) :=
  hc.mode rfl rfl rfl (hc.raise (a := .configMismatch) h)

theorem takeMark (hc : Closed ok P) {m : MarkContents} (h : P s) : P (takeMark m s) := hc.cycle rfl rfl h

theorem adoptMismatch (hc : Closed ok P) (h : P s) : P (adoptMismatch s) := by
  unfold Machine.adoptMismatch
  split
  · rename_i hm
    exact hc.toListen (.inl hm) (hc.noteMismatch h)
  · exact hc.fault (hc.noteMismatch h)
  · exact hc.noteMismatch h
  · exact hc.noteMismatch h
  · exact hc.noteMismatch h
  · exact h

theorem adopt (hc : Closed ok P) {c : Bool} {m : MarkContents} (ha : ok s.mode.actual .adopt) (h : P s) :
    P (adopt c m s).state := by
  unfold Machine.adopt
  split
  · split
    · have h1 : P (Machine.raise .queueAdopted (replaceQueue m (Machine.takeMark m s))) :=
        hc.raise (hc.alloc (hc.takeMark h))
      cases hk : Machine.markTick false (Machine.raise .queueAdopted (replaceQueue m (Machine.takeMark m s))) with
      | abandoned t =>
        have h2 := hc.markTick (b := false) h1
        rw [hk] at h2
        exact h2
      | on t =>
        have h2 := hc.markTick (b := false) h1
        rw [hk] at h2
        have hf := markTick_falls hk
        unfold Course.alive
        by_cases ho : t.mode.actual = .off
        · simp only [Course.next_on, ho, if_true]
          exact h2
        · simp only [Course.next_on, ho, if_false]
          have h3 := hc.phase (s := t) (p := .rebuild)
            (hc.okFalls (s := s) (.inl rfl) (.inr (.inl rfl)) ha (ModeFalls.trans (.inl rfl) hf) ho) h2
          exact hc.alloc (a := { t.alloc with rebuildList := [] }) h3
    · show P (if c then Machine.countAttempt s else s)
      split
      · exact hc.attempt h
      · exact h
  · exact hc.adoptMismatch h

theorem deliverAll (hc : Closed ok P) (ns : List Notice) : ∀ {s}, P s → P (deliverAll ns s) := by
  induction ns with
  | nil => intro s h; exact h
  | cons n ns ih => intro s h; exact ih (hc.deliver h)

theorem releaseHeld (hc : Closed ok P) (h : P s) : P (releaseHeld s).state := by
  unfold Machine.releaseHeld
  refine Course.finally_keeps ?_ fun _ h1 => hc.deliverAll _ (hc.alloc h1)
  unfold readHeld
  simp only []
  split
  · exact hc.failed (hc.recordScan (hc.alloc h))
  · exact hc.recordScan (hc.alloc h)

/-- What an event that is checked to be out of OFF goes on with is out of OFF. -/
theorem alive_next {c : Course} {f : State → Course} (hcP : P c.state)
    (hf : ∀ s, P s → s.mode.actual ≠ .off → P (f s).state) : P (c.alive.next f).state := by
  cases c with
  | abandoned t => exact hcP
  | on t =>
    unfold Course.alive
    by_cases ho : t.mode.actual = .off
    · simp only [Course.next_on, ho, if_true]; exact hcP
    · simp only [Course.next_on, ho, if_false]; exact hf t hcP ho

theorem becomeLearned (hc : Closed ok P) (ho : s.mode.actual ≠ .off) (h : P s) : P (becomeLearned s) := by
  unfold Machine.becomeLearned
  simp only []
  split
  · rename_i hm
    exact hc.joined hm h
  · rename_i hm
    apply hc.phase _ h
    apply hc.okOf
    revert hm ho
    cases s.mode.actual <;> simp [phaseFits]

theorem reconcileVerified (hc : Closed ok P) (h : P s) : P (reconcileVerified s).state := by
  unfold Machine.reconcileVerified
  split
  · rename_i hm
    exact hc.reconciled hm h
  · exact h

theorem verifyPass (hc : Closed ok P) {m : MarkContents} (h : P s) : P (verifyPass m s).state := by
  unfold Machine.verifyPass
  refine Course.next_keeps ?_ fun s1 h1 => hc.reconcileVerified (hc.positionReport h1)
  unfold Course.finally
  refine alive_next ?_ fun s1 h1 ho => hc.becomeLearned ho h1
  exact alive_next (hc.releaseHeld (hc.takeMark h)) fun s1 h1 _ => hc.markTick h1

theorem verify (hc : Closed ok P) {m : MarkContents} (ha : ok s.mode.actual .adopt) (ho : s.mode.actual ≠ .off)
    (h : P s) : P (verify m s).state := by
  have h1 := hc.readQueue h
  unfold Machine.verify
  cases hq : Machine.readQueue s with
  | abandoned t => rw [hq] at h1; exact h1
  | on t =>
    rw [hq] at h1
    obtain ⟨a, u, e, rfl⟩ := readQueue_on hq
    simp only [Course.next_on]
    split
    · exact hc.verifyPass h1
    · have h2 := hc.toAdopt (s := { s with alloc := a, alerts := u, errorRecord := e }) ha h1
      have h3 := hc.attempt h2
      have hf := countAttempt_falls (Machine.toAdopt { s with alloc := a, alerts := u, errorRecord := e })
      refine hc.adopt ?_ h3
      by_cases hoff : (Machine.countAttempt
          (Machine.toAdopt { s with alloc := a, alerts := u, errorRecord := e })).mode.actual = .off
      · exfalso
        revert hoff
        unfold Machine.countAttempt
        split
        · simp only []
          split
          · rename_i hm _
            simp only [faultEntry]
            rw [show (Machine.toAdopt { s with alloc := a, alerts := u, errorRecord := e }).mode.actual = .resync from hm]
            simp
          · exact ho
        · exact ho
      · exact hc.okFalls (s := s) (.inl rfl) (.inl rfl) ha (ModeFalls.trans (.inl rfl) hf) hoff

theorem keepQueue (hc : Closed ok P) (h : P s) : P (keepQueue s).state := by
  unfold Machine.keepQueue
  simp only []
  split
  · exact hc.positionReport (hc.markTick h)
  · exact hc.markTick h

theorem relearnListen (hc : Closed ok P) (hm : s.mode.actual = .listen) (h : P s) : P (Machine.relearn s) :=
  hc.relearn (hc.okOf (by rw [hm]; rfl)) h

theorem learnedDamaged (hc : Closed ok P) (h : P s) : P (learnedDamaged s).state := by
  have h1 : P { s with cycle.cycleNumber := s.cycle.cycleNumber + 1 } := hc.cycle rfl rfl h
  unfold Machine.learnedDamaged
  simp only []
  split
  · rename_i hm; exact hc.resync hm h1
  · rename_i hm
    exact hc.relearnListen (s := { s with cycle.cycleNumber := s.cycle.cycleNumber + 1 }) hm h1
  · exact hc.keepQueue h1
  · exact h
  · exact h
  · exact h

theorem adoptListen (hc : Closed ok P) {c : Bool} {m : MarkContents} (hm : s.mode.actual = .listen) (h : P s) :
    P (Machine.adopt c m (Machine.relearn s)).state :=
  hc.adopt (hc.okOf (by rw [show (Machine.relearn s).mode = s.mode from rfl, hm]; rfl)) (hc.relearnListen hm h)

theorem learnedMismatch (hc : Closed ok P) {m : MarkContents} (h : P s) : P (learnedMismatch m s).state := by
  have h1 := hc.noteMismatch h
  unfold Machine.learnedMismatch
  split
  · rename_i hm
    refine Course.next_keeps (hc.withdraw (.inl hm) (by simp) h1) fun _ h2 => hc.keepQueue (hc.takeMark h2)
  · rename_i hm; exact hc.adoptListen hm h1
  · exact hc.keepQueue (hc.takeMark h1)
  · exact h
  · exact h
  · exact h

theorem learnedUnequal (hc : Closed ok P) {m : MarkContents} (h : P s) : P (learnedUnequal m s).state := by
  unfold Machine.learnedUnequal
  split
  · rename_i hm
    refine hc.adopt (hc.okOf ?_) (hc.resync hm h)
    simp [enterResync, phaseFits]
  · rename_i hm; exact hc.adoptListen hm h
  · exact hc.keepQueue (hc.takeMark h)
  · exact h
  · exact h
  · exact h

theorem compareSummary (hc : Closed ok P) {m : MarkContents} (h : P s) : P (compareSummary m s).state := by
  have h1 := hc.readQueue h
  unfold Machine.compareSummary
  split
  · rename_i t hq
    rw [hq] at h1
    exact hc.takeMark h1
  · rename_i t hq
    rw [hq] at h1
    split
    · exact hc.keepQueue (hc.takeMark h1)
    · exact hc.learnedUnequal h1

theorem learnedIntact (hc : Closed ok P) {m : MarkContents} (h : P s) : P (learnedIntact m s).state := by
  unfold Machine.learnedIntact
  split
  · exact hc.learnedMismatch h
  · split
    · exact hc.compareSummary h
    · exact hc.learnedUnequal h

theorem intactMark (hc : Closed ok P) {m : MarkContents} (ho : s.mode.actual ≠ .off) (h : P s) :
    P (intactMark m s).state := by
  have hf := hc.fits h
  unfold Machine.intactMark
  split
  · exact h
  · rename_i hp; rw [hp] at hf; exact hc.adopt hf h
  · exact h
  · rename_i hp
    rw [hp] at hf
    have ha := hc.okMove (.inr (.inr rfl)) (.inl rfl) hf
    split
    · exact hc.adopt ha (hc.toAdopt ha h)
    · exact hc.verify ha ho h
  · exact hc.learnedIntact h

theorem damagedMark (hc : Closed ok P) (h : P s) : P (damagedMark s).state := by
  have hf := hc.fits h
  unfold Machine.damagedMark
  split
  · exact h
  · exact hc.attempt h
  · exact h
  · rename_i hp
    rw [hp] at hf
    exact hc.attempt (hc.toAdopt (hc.okMove (.inr (.inr rfl)) (.inl rfl) hf) h)
  · exact hc.learnedDamaged h

theorem capture (hc : Closed ok P) (h : P s) : P (capture s) := by
  have h1 : P ((Machine.readMap s).next Machine.readQueue).state :=
    Course.next_keeps (hc.readMap h) fun _ => hc.readQueue
  unfold Machine.capture
  split
  · split
    · rename_i t hr; rw [hr] at h1; exact h1
    · rename_i t hr; rw [hr] at h1; exact hc.raise (hc.port h1)
  · exact h

end Closed

end Sys2Proof.Machine
end

