-- ==== Sys2Proof/Laws/Commands.lean ====
section
/-! SUPPORT. A property closed under the parts of an event is kept by every command but the resets. -/

namespace Sys2Proof.Machine

namespace Closed

variable {ok : Mode → Phase → Prop} {P : State → Prop} {s : State}

theorem lineEvent (_ : Closed ok P) {f : State → State} (hf : s.mode.actual ≠ .off → P s → P (f s)) (h : P s) :
    P (lineEvent f s) := by
  unfold Machine.lineEvent
  split
  · exact h
  · rename_i hn
    exact hf (by intro hm; simp [hm] at hn) h

theorem framedEvent (_ : Closed ok P) {f : State → State} (hf : s.mode.actual ≠ .off → P s → P (f s)) (h : P s) :
    P (framedEvent f s) := by
  unfold Machine.framedEvent
  split
  · exact h
  · rename_i hn
    exact hf (by intro hm; simp [hm] at hn) h

/-! ## Marks -/

theorem markEnd (hc : Closed ok P) {w : Bool} (h : P s) : P (markEnd w s) := by
  have h1 : P { s with cycle.foundingMarkDue := false, cycle.winnerMarkDue := false } := hc.cycle rfl rfl h
  unfold Machine.markEnd
  simp only []
  split
  · by_cases hm : s.mode.actual = .withdrawing
    · exact hc.counted (s := { s with cycle.foundingMarkDue := false, cycle.winnerMarkDue := false }) hm h1
    · unfold countWithdrawal
      rw [if_neg hm]
      exact h1
  · exact h1

theorem takeDamagedMark (hc : Closed ok P) (h : P s) : P (takeDamagedMark s) := hc.markEnd (hc.damagedMark h)

theorem takeIntactMark (hc : Closed ok P) {m : MarkContents} (ho : s.mode.actual ≠ .off) (h : P s) :
    P (takeIntactMark m s) :=
  hc.capture (hc.markEnd (hc.intactMark ho (hc.silence ho h)))

theorem markStart (hc : Closed ok P) (h : P s) : P (markStart s) :=
  hc.data h ⟨rfl, rfl, rfl, rfl, rfl, rfl, .inl rfl, .inl rfl, rfl, rfl, rfl⟩

theorem execMarkReceived (hc : Closed ok P) (r : MarkReport) {t : State} (h : P s)
    (he : execMarkReceived r s = .next t) : P t := by
  cases he
  refine hc.lineEvent (fun ho h => ?_) h
  cases r with
  | missing =>
    simp only []
    split
    · exact hc.takeDamagedMark
        (hc.data h ⟨rfl, rfl, rfl, rfl, rfl, rfl, .inl rfl, .inl rfl, rfl, rfl, rfl⟩)
    · exact h
  | damaged => exact hc.takeDamagedMark (hc.markStart h)
  | intact m =>
    simp only []
    split
    · exact hc.takeDamagedMark (hc.markStart h)
    · exact hc.takeIntactMark ho (hc.markStart h)

theorem execAgeTick (hc : Closed ok P) {t : State} (h : P s) (he : execAgeTick s = .next t) : P t := by
  cases he
  refine hc.lineEvent (fun _ h => ?_) h
  split
  · exact hc.markTick h
  · exact h

theorem execQueueEntryExpired (hc : Closed ok P) {t : State} (h : P s) (he : execQueueEntryExpired s = .next t) :
    P t := by
  cases he
  exact hc.lineEvent (fun _ h => Course.next_keeps (hc.readQueue h) fun _ => hc.expire) h

theorem execWithdrawalLimit (hc : Closed ok P) {t : State} (h : P s) (he : execWithdrawalLimit s = .next t) : P t := by
  cases he
  refine hc.lineEvent (fun _ h => ?_) h
  split
  · rename_i hm
    simp only [Bool.and_eq_true, decide_eq_true_eq] at hm
    exact hc.ended hm.1 h
  · exact h

theorem execResyncAttemptLimit (hc : Closed ok P) {t : State} (h : P s) (he : execResyncAttemptLimit s = .next t) :
    P t := by
  cases he
  refine hc.lineEvent (fun _ h => ?_) h
  split
  · exact hc.fault h
  · exact h

/-! ## The slot field -/

theorem markDamaged (hc : Closed ok P) {n : Slot} (h : P s) : P (markDamaged n s) := by
  unfold Machine.markDamaged
  split
  · exact h
  · split
    · exact hc.alloc h
    · exact h

theorem unmatchedTag (hc : Closed ok P) {n : Slot} (h : P s) : P (unmatchedTag n s) := by
  unfold Machine.unmatchedTag
  split
  · rename_i hm; exact hc.resync hm h
  · exact hc.markDamaged (hc.raise (hc.alloc h))
  · exact hc.markDamaged h
  · exact h
  · exact h
  · exact h

theorem tagAtMap (hc : Closed ok P) {n : Slot} {r : TagReport} (h : P s) : P (tagAtMap n r s).state := by
  unfold Machine.tagAtMap
  split
  · split
    · unfold collectTag
      simp only [Course.state_on]
      split
      · exact hc.alloc h
      · exact h
    · exact h
    · exact h
  · split
    · unfold checkTag
      split
      · exact Course.finally_keeps (hc.readMapEntry h) fun _ => hc.markDamaged
      · split
        · exact h
        · exact Course.finally_keeps (hc.readMapEntry h) fun _ => hc.markDamaged
        · refine Course.finally_keeps (hc.readMapEntry h) fun s1 h1 => ?_
          unfold learnedTag
          split
          · exact hc.unmatchedTag h1
          · split
            · exact hc.alloc h1
            · exact hc.unmatchedTag h1
    · exact h
  · exact h
  · exact h
  · exact h

theorem addRx (hc : Closed ok P) {l : LaneNo} {x : Sample} (h : P s) : P (addRx l x s) := by
  unfold Machine.addRx
  simp only []
  split
  · exact hc.raise (hc.lanes h)
  · exact hc.lanes h

theorem addTx (hc : Closed ok P) {l : LaneNo} {x : Sample} (h : P s) : P (addTx l x s) := by
  unfold Machine.addTx
  simp only []
  split
  · exact hc.raise (hc.lanes h)
  · exact hc.lanes h

theorem takeTx (hc : Closed ok P) {l : LaneNo} (h : P s) : P (takeTx l s).1 := by
  unfold Machine.takeTx
  split
  · exact h
  · exact hc.recordRead (hc.lanes h)

theorem takeRx (hc : Closed ok P) {l : LaneNo} (h : P s) : P (takeRx l s).1 := by
  unfold Machine.takeRx
  split
  · exact h
  · exact hc.recordRead (hc.lanes h)

theorem deliverTag (hc : Closed ok P) {t : TagContents} (h : P s) : P (deliverTag t s) := by
  unfold Machine.deliverTag
  split
  · split
    · exact h
    · exact hc.addRx h
  · exact h

theorem duplicateFound (hc : Closed ok P) (h : P s) : P (duplicateFound s) := hc.fault (hc.raise h)

theorem execTagReceived (hc : Closed ok P) (n : Slot) (r : TagReport) {t : State} (h : P s)
    (he : execTagReceived n r s = .next t) : P t := by
  cases he
  refine hc.framedEvent (fun ho h => ?_) h
  cases r with
  | silent => exact hc.tagAtMap h
  | damaged => exact hc.tagAtMap h
  | intact g =>
    have h1 := hc.silence ho h
    simp only []
    split
    · exact hc.deliverTag (hc.duplicateFound h1)
    · exact hc.deliverTag (hc.tagAtMap h1)

theorem execSlotFieldClosed (hc : Closed ok P) {t : State} (h : P s) (he : execSlotFieldClosed s = .next t) : P t := by
  cases he
  exact hc.framedEvent (fun _ h => hc.alloc (hc.closeField h)) h

theorem execSilenceReclaim (hc : Closed ok P) {t : State} (h : P s) (he : execSilenceReclaim s = .next t) : P t := by
  cases he
  refine hc.framedEvent (fun _ h => ?_) h
  split
  · exact Course.next_keeps (hc.readMap h) fun _ => hc.reclaim
  · exact h

theorem execSlotStart (hc : Closed ok P) (n : Slot) {t : State} (h : P s) (he : execSlotStart n s = .next t) :
    P t := by
  cases he
  refine hc.framedEvent (fun _ h => ?_) h
  split
  · rename_i hm
    have h1 := hc.streams (ls := allLanes) (box := false) h
    cases hr : readStreams allLanes false s with
    | abandoned u => rw [hr] at h1; exact h1
    | on u =>
      rw [hr] at h1
      obtain ⟨c, al, e, rfl, -⟩ := readStreams_on hr
      simp only [Course.finally_on, Course.state_on] at h1 ⊢
      have hoff : s.mode.actual ≠ .off := by intro hx; rw [hx] at hm; cases hm
      have hlis : s.mode.actual ≠ .listen := by intro hx; rw [hx] at hm; cases hm
      split
      · exact h1
      · rename_i l _
        have hw : P (slotWord l { s with streams := c, alerts := al, errorRecord := e }).1 ∧
            (slotWord l { s with streams := c, alerts := al, errorRecord := e }).1.mode = s.mode := by
          unfold slotWord
          split
          · exact ⟨h1, rfl⟩
          · have h2 := hc.takeTx (l := l) h1
            have h3 := (takeTx_frame l { s with streams := c, alerts := al, errorRecord := e }).2.2.1
            split
            · rename_i hx; rw [hx] at h2 h3; exact ⟨h2, h3⟩
            · rename_i hx; rw [hx] at h2 h3; exact ⟨hc.lane (f := fun r => { r with gapCount := min (r.gapCount + 1) 65535 }) (fun _ => rfl) h2, h3⟩
        unfold nameSlot sendTag
        simp only []
        split
        · exact hc.sent (by rw [hw.2]; exact hoff) (by rw [hw.2]; exact hlis) rfl hw.1
        · exact hw.1
  · exact h

/-! ## Contention, silence, founding -/

theorem execMarkContention (hc : Closed ok P) {t : State} (h : P s) (he : execMarkContention s = .next t) : P t := by
  cases he
  refine hc.framedEvent (fun _ h => ?_) h
  split
  · rename_i hm
    simp only [Bool.and_eq_true, decide_eq_true_eq] at hm
    exact hc.sent (by rw [hm.1]; simp) (by rw [hm.1]; simp) rfl h
  · exact h

/-- A queue read of a MEMBER station leaves it in MEMBER, or in RESYNC after a double error (R151). -/
theorem readQueue_member {s : State} (hm : s.mode.actual = .member) :
    (Machine.readQueue s).state.mode.actual = .member ∨ (Machine.readQueue s).state.mode.actual = .resync := by
  cases hr : Machine.readQueue s with
  | on u =>
    obtain ⟨a, b, c, rfl⟩ := readQueue_on hr
    exact .inl hm
  | abandoned u =>
    right
    unfold Machine.readQueue at hr
    simp only [] at hr
    split at hr
    · cases hr
      obtain ⟨u, e, hu⟩ := recordScan_shape .queue id (scan 1 s.alloc.queue)
        { s with alloc.queue := (scan 1 s.alloc.queue).words }
      rw [hu]
      simp [mapQueueFailed, hm, enterResync]
    · cases hr

theorem execMarkContentionWon (hc : Closed ok P) {t : State} (h : P s) (he : execMarkContentionWon s = .next t) :
    P t := by
  cases he
  refine hc.framedEvent (fun _ h => ?_) h
  split
  · rename_i hm
    have h1 : P ({ s with line := { s.line with contention := .none } } : State) :=
      hc.line rfl (.inl rfl) (.inr rfl) h
    have h2 := hc.readQueue h1
    simp only []
    split
    · rename_i hx
      simp only [Bool.and_eq_true, decide_eq_true_eq] at hx
      have h3 := readQueue_member (s := ({ s with line := { s.line with contention := .none } } : State)) hx.1
      rcases h3 with hx | hx
      · exact hc.sent (by rw [hx]; simp) (by rw [hx]; simp) rfl h2
      · exact hc.sent (by rw [hx]; simp) (by rw [hx]; simp) rfl h2
    · exact h1
  · exact h

theorem execLineSilence (hc : Closed ok P) {t : State} (h : P s) (he : execLineSilence s = .next t) : P t := by
  cases he
  exact hc.lineEvent (fun _ => hc.silent) h

theorem contendFounding (hc : Closed ok P) (h : P s) :
    P (if foundingReady s then contendFounding s else s) := by
  split
  · rename_i hm
    simp only [foundingReady, Bool.and_eq_true, decide_eq_true_eq] at hm
    exact hc.sent (by rw [hm.1.1.2]; simp) (by rw [hm.1.1.2]; simp) rfl h
  · exact h

theorem execFoundingContentionStart (hc : Closed ok P) {t : State} (h : P s)
    (he : execFoundingContentionStart s = .next t) : P t := by
  cases he
  exact hc.lineEvent (fun _ => hc.contendFounding) h

theorem execFoundingContentionJoined (hc : Closed ok P) {t : State} (h : P s)
    (he : execFoundingContentionJoined s = .next t) : P t := by
  cases he
  exact hc.lineEvent (fun _ => hc.contendFounding) h

theorem execFoundingContentionWon (hc : Closed ok P) {t : State} (h : P s)
    (he : execFoundingContentionWon s = .next t) : P t := by
  cases he
  refine hc.lineEvent (fun _ h => ?_) h
  split
  · rename_i hm
    simp only [Bool.and_eq_true, decide_eq_true_eq] at hm
    have h1 : P { s with cycle.cycleNumber := 0 } := hc.cycle rfl rfl h
    exact hc.sent (s := { s with cycle.cycleNumber := 0 }) (by simp [hm.1.2]) (by simp [hm.1.2]) rfl h1
  · exact h

/-- A joining station, not in phase IDLE, found (R30). -/
theorem foundedReport (hc : Closed ok P) (hm : s.mode.actual = .joining) (h : P s) : P (foundedReport s) := by
  have h1 := hc.joined (.inl hm) h
  unfold Machine.foundedReport
  simp only []
  refine hc.reconciled (.inl ?_) ?_
  · simp
  · refine hc.data h1 ⟨?_, ?_, ?_, ?_, ?_, ?_, ?_, ?_, ?_, ?_, ?_⟩ <;>
      simp [fun x => changeMode_uncut (m := .member) (by decide) x]

theorem foundingCompleted (hc : Closed ok P) {rb : Readback} (h : P s) : P (foundingCompleted rb s) := by
  unfold Machine.foundingCompleted
  split
  · rename_i hm
    cases rb with
    | good => exact hc.foundedReport hm h
    | mismatch => exact hc.cycle rfl rfl (hc.toAdopt (hc.okOf (by rw [hm]; rfl)) h)
  · exact h

theorem execFounded (hc : Closed ok P) {t : State} (h : P s) (he : execFounded s = .next t) : P t := by
  cases he
  refine hc.lineEvent (fun _ h => ?_) h
  split
  · exact hc.foundingCompleted (hc.line rfl (.inr rfl) (.inl rfl) h)
  · exact h
  · exact h
  · exact h
  · exact h
  · exact h

end Closed

end Sys2Proof.Machine
end

