-- ==== Sys2Proof/Laws/Host.lean ====
section
/-! SUPPORT. A property closed under the parts of an event is kept by the commands of the message field, of the Sample Port
and of the host, and by every command but the resets. -/

namespace Sys2Proof.Machine

namespace Closed

variable {ok : Mode → Phase → Prop} {P : State → Prop} {s : State}

/-! ## Notes -/

theorem updateTx (hc : Closed ok P) {i : Nat} {f : TxNote → TxNote} (h : P s) : P (updateTx i f s) := hc.notes h

theorem finishNote (hc : Closed ok P) {i : Nat} {o : NoteOutcome} (h : P s) : P (finishNote i o s) :=
  hc.raise (hc.updateTx h)

theorem corruptNote (hc : Closed ok P) {i : Nat} (h : P s) : P (corruptNote i s) := hc.finishNote h

theorem readTx (hc : Closed ok P) {i : Nat} {n : TxNote} (h : P s) : P (readTx i n s).1 := by
  unfold Machine.readTx
  simp only []
  split
  · exact hc.recordRead h
  · split
    · exact hc.recordRead (hc.recordRead h)
    · exact hc.updateTx (hc.recordRead (hc.recordRead h))

theorem noteLost (hc : Closed ok P) (h : P s) : P (noteLost s) := by
  unfold Machine.noteLost
  split
  · exact h
  · split
    · exact h
    · split
      · exact hc.finishNote h
      · exact hc.finishNote h
      · exact h

theorem judgeNote (hc : Closed ok P) {i : Nat} {n : TxNote} {rb : Readback} {a : Answer} (h : P s) :
    P (judgeNote i n rb a s) := by
  have h1 : P (Machine.updateTx i (fun m => { m with attempts := n.attempts + 1 }) s) := hc.updateTx h
  unfold Machine.judgeNote
  simp only []
  split
  · exact hc.finishNote h1
  · split
    · exact hc.finishNote h1
    · exact hc.finishNote h1
    · exact hc.notes (hc.updateTx h1)

theorem noteCompleted (hc : Closed ok P) {rb : Readback} {a : Answer} (h : P s) : P (noteCompleted rb a s) := by
  unfold Machine.noteCompleted
  split
  · exact h
  · rename_i i _
    split
    · exact h
    · rename_i n _
      have h1 := hc.readTx (i := i) (n := n) h
      split
      · rename_i hr; rw [hr] at h1; exact hc.judgeNote h1
      · rename_i hr; rw [hr] at h1; exact hc.corruptNote h1

theorem spaceActive (hc : Closed ok P) {due : Nat → Bool} (h : P s) : P (spaceActive due s) := by
  unfold Machine.spaceActive
  split
  · exact h
  · split
    · exact h
    · split
      · unfold decreaseCountdown
        simp only []
        split
        · exact hc.corruptNote (hc.recordRead h)
        · exact hc.updateTx (hc.recordRead h)
      · exact h

theorem spaceNotes (hc : Closed ok P) (h : P s) : P (spaceNotes s) := by
  unfold Machine.spaceNotes
  split
  · exact hc.notes h
  · exact hc.spaceActive h

theorem placeNote (hc : Closed ok P) {n : RxNote} (h : P s) : P (placeNote n s) := by
  unfold Machine.placeNote
  split
  · exact hc.raise (hc.notes h)
  · exact hc.raise h

theorem endNotes (hc : Closed ok P) {o : NoteOutcome} {m : Ending → Ending} (h : P s) : P (endNotes o m s) := by
  unfold Machine.endNotes
  simp only []
  split
  · exact hc.raise (hc.notes h)
  · exact hc.notes h

/-! ## Windows -/

theorem wonWindow (hc : Closed ok P) {b : Bool} (h : P s) : P ({ s with line.wonWindow := b } : State) :=
  hc.line rfl (.inl rfl) (.inl rfl) h

theorem offLine (hc : Closed ok P) (h : P s) : P ({ s with line.onLine := none } : State) :=
  hc.line rfl (.inr rfl) (.inl rfl) h

theorem contenderLost (hc : Closed ok P) (h : P s) : P (contenderLost s) := by
  unfold Machine.contenderLost
  split
  · rename_i ho; exact hc.report (by rw [ho]; simp) (.inl rfl) h
  · exact hc.noteLost (hc.offLine h)
  · exact h
  · exact h
  · exact h
  · exact h

theorem execArbitrationLost (hc : Closed ok P) {t : State} (h : P s) (he : execArbitrationLost s = .next t) : P t := by
  cases he
  refine hc.lineEvent (fun _ h => ?_) h
  split
  · exact hc.line rfl (.inl rfl) (.inr rfl) h
  · exact hc.cycle (s := ({ s with line.contention := .none } : State)) (c := { s.cycle with
        foundingPending := false, winnerMarkDue := s.mode.actual = .joining })
      rfl rfl (hc.line rfl (.inl rfl) (.inr rfl) h)
  · exact hc.contenderLost h

/-- A station that may send. -/
theorem takeContender (hc : Closed ok P) {src : Source} {b : Body} (h1 : s.mode.actual ≠ .off)
    (h2 : s.mode.actual ≠ .listen) (h : P s) : P (takeContender src b s) := by
  unfold Machine.takeContender
  split
  · exact hc.sent h1 h2 rfl h
  · exact h

theorem offerHead (hc : Closed ok P) {e : OutboxEntry} (h1 : s.mode.actual ≠ .off) (h2 : s.mode.actual ≠ .listen)
    (h : P s) : P (offerHead e s) := by
  have h3 := hc.head h
  have hm : (checkOutboxHead s).1.mode = s.mode := by simp
  unfold Machine.offerHead
  split
  · rename_i hr; rw [hr] at h3; exact hc.headFailed h3
  · rename_i s1 hr
    rw [hr] at h3 hm
    simp only [] at hm
    have h4 := hc.streams (ls := offerReads e) (box := false) h3
    cases hx : readStreams (offerReads e) false s1 with
    | abandoned u => rw [hx] at h4; exact h4
    | on u =>
      rw [hx] at h4
      obtain ⟨c, al, er, rfl, -⟩ := readStreams_on hx
      simp only [Course.finally_on, Course.state_on] at h4 ⊢
      exact hc.takeContender (by simpa [hm] using h1) (by simpa [hm] using h2) h4

theorem offerNote (hc : Closed ok P) (h1 : s.mode.actual ≠ .off) (h2 : s.mode.actual ≠ .listen) (h : P s) :
    P (offerNote s) := by
  unfold Machine.offerNote
  split
  · exact h
  · rename_i i _
    split
    · exact h
    · rename_i n _
      split
      · have h3 := hc.readTx (i := i) (n := n) h
        have hm : (Machine.readTx i n s).1.mode = s.mode := by simp
        split
        · rename_i hr; rw [hr] at h3; exact hc.corruptNote h3
        · rename_i s1 hr
          rw [hr] at h3 hm
          simp only [] at hm
          split
          · exact hc.takeContender (by simpa [hm] using h1) (by simpa [hm] using h2) (hc.updateTx h3)
          · exact h3
      · exact h

theorem offer (hc : Closed ok P) (h : P s) : P (offer s) := by
  unfold Machine.offer
  split
  · split
    · rename_i hm
      simp only [offersHead, Bool.or_eq_true, Bool.and_eq_true, decide_eq_true_eq] at hm
      rcases hm with hm | hm
      · exact hc.offerHead (by rw [hm]; simp) (by rw [hm]; simp) h
      · exact hc.offerHead (by rw [hm.1]; simp) (by rw [hm.1]; simp) h
    · exact h
  · split
    · rename_i hm
      exact hc.offerNote (by rw [hm]; simp) (by rw [hm]; simp) h
    · exact h

theorem execWindowStart (hc : Closed ok P) {t : State} (h : P s) (he : execWindowStart s = .next t) : P t := by
  cases he
  exact hc.framedEvent (fun _ h => hc.offer (hc.wonWindow (hc.contenderLost h))) h

theorem driverFaultFound (hc : Closed ok P) (h : P s) : P (driverFaultFound s) :=
  hc.fault (hc.raise (hc.line rfl (.inl rfl) (.inl rfl) h))

theorem countReadback (hc : Closed ok P) {rb : Readback} (h : P s) : P (countReadback rb s) := by
  unfold Machine.countReadback
  split
  · exact h
  · split
    · exact hc.line rfl (.inl rfl) (.inl rfl) h
    · have h1 : P ({ s with line.driverFaultCount := s.line.driverFaultCount + 1 } : State) :=
        hc.line rfl (.inl rfl) (.inl rfl) h
      simp only []
      split
      · exact hc.driverFaultFound h1
      · exact h1

theorem completeField (hc : Closed ok P) {rb : Readback} {a : Answer} {f : OwnField} (ho : s.line.onLine = some f)
    (h : P s) : P (completeField rb a f s) := by
  have h1 : P ({ s with line.onLine := none } : State) := hc.offLine h
  unfold Machine.completeField
  simp only []
  split
  · exact h1
  · split
    · exact hc.foundingCompleted h1
    · exact h1
  · unfold controlCompleted
    split
    · exact hc.report (s := ({ s with line.wonWindow := true } : State)) (by simp [ho]) (.inr (.inl rfl)) (hc.wonWindow h)
    · exact hc.report (s := ({ s with line.wonWindow := true } : State)) (by simp [ho]) (.inr (.inr rfl)) (hc.wonWindow h)
  · exact hc.noteCompleted (hc.wonWindow (s := ({ s with line.onLine := none } : State)) h1)
  · exact h1

theorem execOwnTransmissionCompleted (hc : Closed ok P) (rb : Readback) (a : Answer) {t : State} (h : P s)
    (he : execOwnTransmissionCompleted rb a s = .next t) : P t := by
  cases he
  refine hc.lineEvent (fun _ h => ?_) h
  split
  · exact h
  · rename_i f ho
    exact hc.countReadback (hc.completeField ho h)

theorem execDriverFault (hc : Closed ok P) {t : State} (h : P s) (he : execDriverFault s = .next t) : P t := by
  cases he
  exact hc.lineEvent (fun _ => hc.driverFaultFound) h

theorem execNoteAttemptLimit (hc : Closed ok P) (a : Answer) {t : State} (h : P s)
    (he : execNoteAttemptLimit a s = .next t) : P t := by
  cases he
  refine hc.lineEvent (fun _ h => ?_) h
  split
  · exact h
  · split
    · exact h
    · split
      · exact hc.finishNote h
      · exact h

theorem decideNote (hc : Closed ok P) {st : Station} {n : NoteContents} (h : P s) : P (decideNote st n s) := by
  unfold Machine.decideNote
  split
  · rename_i hm
    simp only [Bool.and_eq_true, decide_eq_true_eq] at hm
    have h1 := hc.placeNote (n := ringEntry st n s) h
    have hmode : (Machine.placeNote (ringEntry st n s) s).mode = s.mode := by simp
    have hx : s.mode.actual = .member ∨ s.mode.actual = .withdrawing := by
      have := hm.2
      unfold acceptsNote at this
      rw [show destKindOf n.kind.val = some .station by rw [hm.1]; rfl] at this
      simp only [Bool.and_eq_true, Bool.or_eq_true, decide_eq_true_eq] at this
      exact this.2.2
    unfold driveAnswer
    split
    · refine hc.sent ?_ ?_ rfl h1
      · rw [hmode]; rcases hx with hx | hx <;> rw [hx] <;> simp
      · rw [hmode]; rcases hx with hx | hx <;> rw [hx] <;> simp
    · exact h1
  · exact h

theorem execNoteCheckSequenceReceived (hc : Closed ok P) (r : NoteReport) {t : State} (h : P s)
    (he : execNoteCheckSequenceReceived r s = .next t) : P t := by
  cases he
  refine hc.framedEvent (fun _ h => ?_) h
  split
  · exact h
  · exact hc.decideNote h

theorem execSpacingCountdownExpired (hc : Closed ok P) {t : State} (h : P s)
    (he : execSpacingCountdownExpired s = .next t) : P t := by
  cases he
  exact hc.lineEvent (fun _ h => hc.spaceActive h) h

theorem takeWindowNote (hc : Closed ok P) {st : Station} {b : Body} (h : P s) : P (takeWindowNote st b s) := by
  unfold Machine.takeWindowNote
  split
  · split
    · exact hc.placeNote h
    · exact h
  all_goals exact h

theorem takeWindow (hc : Closed ok P) {r : WindowReport} (ho : s.mode.actual ≠ .off) (h : P s) :
    P (takeWindow r s) := by
  unfold Machine.takeWindow
  refine hc.wonWindow (hc.spaceNotes ?_)
  cases r with
  | empty => exact h
  | damaged => exact h
  | intact st b =>
    simp only []
    unfold takeMessage
    refine hc.takeWindowNote (hc.applyMessage ?_)
    split
    · exact hc.duplicateFound (hc.silence ho h)
    · exact hc.silence ho h

theorem execWindowEnded (hc : Closed ok P) (r : WindowReport) {t : State} (h : P s)
    (he : execWindowEnded r s = .next t) : P t := by
  cases he
  refine hc.framedEvent (fun _ h => ?_) h
  have h1 := hc.contenderLost h
  simp only []
  split
  · exact h1
  · rename_i ho; exact hc.takeWindow ho h1

/-! ## The Sample Port and the frames that are not executed -/

theorem chooseWord (hc : Closed ok P) (h : P s) : P (chooseWord s) := by
  unfold Machine.chooseWord
  split
  · exact hc.lanes h
  · rename_i l _
    have h1 := hc.takeRx (l := l) h
    split
    · rename_i hr; rw [hr] at h1; exact hc.lanes h1
    · rename_i hr; rw [hr] at h1; exact hc.lanes (hc.lanes h1)

theorem sampleSync (hc : Closed ok P) {level : Bool} (h : P s) : P (sampleSync level s) := by
  unfold Machine.sampleSync
  simp only []
  split
  · exact hc.chooseWord (hc.lanes h)
  · exact hc.lanes h

theorem takeWord (hc : Closed ok P) {w : BitVec 32} (h : P s) : P (takeWord w s) := by
  unfold Machine.takeWord
  split
  · refine Course.finally_keeps (hc.streams h) fun s1 h1 => ?_
    split
    · exact h1
    · exact hc.addTx h1
  · exact h

theorem collectBit (hc : Closed ok P) {b : Bool} (h : P s) : P (collectBit s b) := by
  unfold Machine.collectBit
  split
  · exact h
  · split
    · exact hc.lanes h
    · exact h

theorem driveOut (hc : Closed ok P) {level : Bool} (h : P s) : P (driveOut level s) := hc.lanes h

theorem driveBit (hc : Closed ok P) (h : P s) : P (driveBit s) := by
  unfold Machine.driveBit
  split
  · exact hc.driveOut h
  · simp only []
    split
    · exact hc.driveOut h
    · exact hc.takeWord (hc.lanes (hc.driveOut h))

theorem clockBits (hc : Closed ok P) (bits : List Bool) : ∀ {s : State}, P s → P (bits.foldl clockBit s) := by
  induction bits with
  | nil => exact id
  | cons b bits ih =>
    intro s h
    exact ih (hc.driveBit (hc.collectBit h))

theorem execWordPeriodBegin (hc : Closed ok P) {t : State} (h : P s) (he : execWordPeriodBegin s = .next t) : P t := by
  cases he
  split
  · exact h
  · exact hc.sampleSync (hc.sampleSync h)

theorem execWordPeriodEnd (hc : Closed ok P) (w : BitVec 32) {t : State} (h : P s)
    (he : execWordPeriodEnd w s = .next t) : P t := by
  cases he
  split
  · exact h
  · split
    · exact h
    · exact hc.driveOut (hc.clockBits _ (hc.sampleSync (hc.lanes h)))

theorem answer (hc : Closed ok P) {st : Status} {p : List Byte} (h : P s) : P (answer st p s) := hc.port h

theorem reloadLapse (hc : Closed ok P) (h : P s) : P (reloadLapse s) := hc.port h

theorem csnRise (hc : Closed ok P) (h : P s) : P (csnRise s) := by
  unfold Machine.csnRise
  split
  · exact hc.reset h
  · exact hc.port h

theorem frameBegun (hc : Closed ok P) (h : P s) : P (frameBegun s) := hc.port (hc.csnRise h)

theorem frameCollected (hc : Closed ok P) (h : P s) : P (frameCollected s) := hc.port (hc.frameBegun h)

theorem execFrameCutShort (hc : Closed ok P) {t : State} (h : P s) (he : execFrameCutShort s = .next t) : P t := by
  cases he
  split
  · exact h
  · exact hc.raise (hc.port (hc.frameBegun h))

theorem execFrameCheckFailed (hc : Closed ok P) (c l : Byte) (p : List Byte) (x : BitVec 16) {t : State} (h : P s)
    (he : execFrameCheckFailed c l p x s = .next t) : P t := by
  cases he
  split
  · exact h
  · split
    · exact h
    · have h1 := hc.frameCollected h
      unfold refuseFrame
      split
      · exact hc.answer (hc.raise h1)
      · exact hc.answer (hc.raise h1)
      · exact hc.answer (hc.reloadLapse h1)
      · exact hc.answer (hc.reloadLapse (hc.raise h1))

theorem lapseExpired (hc : Closed ok P) (h : P s) : P (lapseExpired s) := by
  have h1 : P (Machine.raise .lapse { s with port.lapse := none, port.lapseBits := 0 }) := hc.raise (hc.port h)
  have h2 : P ({ Machine.raise .lapse { s with port.lapse := none, port.lapseBits := 0 } with mode.cause := .lapse } :
      State) := hc.mode rfl rfl rfl h1
  unfold Machine.lapseExpired
  simp only []
  split
  · rename_i hm; exact hc.withdraw (.inl hm) (by simp) h2
  · rename_i hm; exact hc.withdraw (.inr hm) (by simp) h2
  · rename_i hm; exact hc.toListen (.inl hm) h2
  all_goals exact h1

theorem execLapseTimerExpired (hc : Closed ok P) {t : State} (h : P s) (he : execLapseTimerExpired s = .next t) :
    P t := by
  cases he
  split
  · exact h
  · exact hc.lapseExpired h

/-! ## Host commands -/

theorem hostFrame (hc : Closed ok P) {α : Type} {params : Option α} {permitted : Mode → Bool}
    {body : α → State → State} (hb : ∀ a s, permitted s.mode.actual = true → P s → P (body a s)) (h : P s) :
    P (hostFrame params permitted body s) := by
  unfold Machine.hostFrame
  split
  · exact h
  · have h1 := hc.reloadLapse (hc.frameCollected h)
    simp only []
    split
    · exact hc.answer h1
    · split
      · rename_i hp; exact hb _ _ hp h1
      · exact hc.answer h1

/-- A change of mode out of a learning mode that first reads the STREAMS region. -/
theorem withStreamsRead (hc : Closed ok P) {f : State → State}
    (hf : ∀ t, t.mode = s.mode → P t → P (f t)) (h : P s) : P (withStreamsRead f s).state := by
  have h1 := hc.streams (ls := allLanes) (box := true) h
  unfold Machine.withStreamsRead
  cases hr : readStreams allLanes true s with
  | abandoned u => rw [hr] at h1; exact h1
  | on u =>
    rw [hr] at h1
    obtain ⟨c, al, e, rfl, -⟩ := readStreams_on hr
    exact hf _ rfl h1

theorem requestOff (hc : Closed ok P) (hm : s.mode.actual = .joining ∨ s.mode.actual = .resync) (h : P s) :
    P (Machine.withStreamsRead (fun s => Machine.answer .done [] (offFromLearning s)) s).state :=
  hc.withStreamsRead (fun t ht h1 => hc.answer (hc.toOff (by rw [ht]; exact hm) h1)) h

theorem requestListen (hc : Closed ok P) (hm : s.mode.actual = .joining ∨ s.mode.actual = .resync) (h : P s) :
    P (Machine.withStreamsRead (fun s => Machine.answer .done [] (listenFromLearning s)) s).state :=
  hc.withStreamsRead (fun t ht h1 => hc.answer (hc.toListen (by rw [ht]; exact hm) h1)) h

theorem requestMode (hc : Closed ok P) {r : Requested} (h : P s) : P (requestMode r s).state := by
  unfold Machine.requestMode
  split
  · exact hc.answer h
  · rename_i hm; exact hc.answer (hc.leave hm h)
  · rename_i hm; exact hc.answer (hc.join (.inl hm) h)
  · rename_i hm; exact hc.answer (hc.off hm h)
  · exact hc.answer h
  · rename_i hm; exact hc.answer (hc.join (.inr hm) h)
  · rename_i hm; exact hc.requestOff (.inl hm) h
  · rename_i hm; exact hc.requestListen (.inl hm) h
  · exact hc.answer h
  · rename_i hm; exact Course.finally_keeps (hc.withdraw (.inl hm) (by simp) h) fun _ => hc.answer
  · rename_i hm; exact Course.finally_keeps (hc.withdraw (.inl hm) (by simp) h) fun _ => hc.answer
  · exact hc.answer h
  · rename_i hm; exact hc.requestOff (.inr hm) h
  · rename_i hm; exact hc.requestListen (.inr hm) h
  · exact hc.answer h
  · rename_i hm
    exact hc.answer (hc.mode (s := ({ s with mode.target := .off } : State)) rfl rfl rfl (hc.retarget (by simp) hm h))
  · rename_i hm
    exact hc.answer (hc.mode (s := ({ s with mode.target := .listen } : State)) rfl rfl rfl (hc.retarget (by simp) hm h))
  · exact hc.answer h

theorem setModeBody (hc : Closed ok P) {r : Requested} (h : P s) : P (setModeBody r s) := by
  have h1 := hc.requestMode (r := r) h
  unfold Machine.setModeBody
  split
  · rename_i hr; rw [hr] at h1; exact h1
  · rename_i hr; rw [hr] at h1; exact hc.requestMode h1

theorem openBody (hc : Closed ok P) {p : OpenParams} (hm : opensStreams s.mode.actual = true) (h : P s) :
    P (openBody p s) := by
  have h1 := hc.streams (ls := [p.lane]) (box := true) h
  unfold Machine.openBody
  cases hr : readStreams [p.lane] true s with
  | abandoned u => rw [hr] at h1; exact hc.answer h1
  | on u =>
    rw [hr] at h1
    obtain ⟨c, al, e, rfl, -⟩ := readStreams_on hr
    exact hc.opened hm h1

theorem closeBody (hc : Closed ok P) {l : LaneNo} (h : P s) : P (closeBody l s) := by
  have h1 := hc.streams (ls := [l]) (box := true) h
  unfold Machine.closeBody
  split
  · rename_i hr; rw [hr] at h1; exact hc.answer (hc.closed h1)
  · rename_i hr; rw [hr] at h1; exact hc.answer h1

theorem readAllLanes (hc : Closed ok P) (h : P s) : P (readAllLanes s) :=
  hc.streams (ls := allLanes) (box := false) h

theorem restartBody (hc : Closed ok P) (hm : s.mode.actual = .member) (h : P s) : P (restartBody () s) := by
  have h1 := hc.streams (ls := []) (box := true) h
  unfold Machine.restartBody
  cases hr : readStreams [] true s with
  | abandoned u => rw [hr] at h1; exact hc.answer h1
  | on u =>
    rw [hr] at h1
    obtain ⟨c, al, e, rfl, -⟩ := readStreams_on hr
    simp only [Course.state_on] at h1 ⊢
    split
    · exact hc.answer h1
    · exact hc.answer (hc.restart hm h1)

/-! ## Commands on notes and snapshots -/

theorem execSendNote (hc : Closed ok P) (a b c d : Byte) (p : List Byte) {t : State} (h : P s)
    (he : execSendNote a b c d p s = .next t) : P t := by
  cases he
  split
  · refine hc.hostFrame (fun q s _ h => ?_) h
    unfold sendBody
    split
    · exact hc.answer (hc.notes h)
    · exact hc.answer h
  · split
    · exact h
    · split
      · exact hc.answer (hc.raise (hc.frameCollected h))
      · exact hc.answer (hc.reloadLapse (hc.raise (hc.frameCollected h)))

theorem outcomeBody (hc : Closed ok P) (h : P s) : P (outcomeBody () s) := by
  unfold Machine.outcomeBody
  split
  · exact hc.answer h
  · rename_i i _
    split
    · exact hc.answer h
    · rename_i n _
      have h1 := hc.readTx (i := i) (n := n) h
      split
      · rename_i hr; rw [hr] at h1; exact hc.answer (hc.notes h1)
      · rename_i hr; rw [hr] at h1; exact hc.answer (hc.notes h1)

theorem takeBody (hc : Closed ok P) (h : P s) : P (takeBody () s) := by
  unfold Machine.takeBody
  split
  · exact hc.answer h
  · exact hc.answer (hc.recordRead (hc.notes h))

theorem readSnapSlots (hc : Closed ok P) (ns : List Slot) : ∀ {s}, P s → P (readSnapSlots ns s).1 := by
  induction ns with
  | nil => intro s h; exact h
  | cons n ns ih =>
    intro s h
    have h1 : P (Machine.readSnapSlot n s).1 := hc.recordRead (hc.port h)
    unfold Machine.readSnapSlots
    split
    · rename_i hr; rw [hr] at h1; exact h1
    · rename_i hr
      rw [hr] at h1
      have h2 := ih h1
      split
      · rename_i hx; rw [hx] at h2; exact h2
      · rename_i hx; rw [hx] at h2; exact h2

theorem readSnapEntries (hc : Closed ok P) (is : List Nat) : ∀ {s}, P s → P (readSnapEntries is s).1 := by
  induction is with
  | nil => intro s h; exact h
  | cons i is ih =>
    intro s h
    unfold Machine.readSnapEntries
    split
    · exact ih h
    · rename_i w _
      have h1 : P (Machine.readSnapEntry i w s).1 := hc.recordRead (hc.port h)
      split
      · rename_i hr; rw [hr] at h1; exact h1
      · rename_i hr
        rw [hr] at h1
        have h2 := ih h1
        split
        · rename_i hx; rw [hx] at h2; exact h2
        · rename_i hx; rw [hx] at h2; exact h2

theorem snapshotBody (hc : Closed ok P) {p : SnapshotPart} (h : P s) : P (snapshotBody p s) := by
  have h1 : P (Machine.readSnapCycle s).1 := hc.recordRead (hc.port h)
  unfold Machine.snapshotBody
  split
  · split
    · rename_i hr; rw [hr] at h1; exact hc.answer (hc.port h1)
    · rename_i s1 hr
      rw [hr] at h1
      have h2 : P (Machine.readSnapPart p s1).1 := by
        unfold Machine.readSnapPart
        split
        · exact hc.readSnapSlots _ h1
        · exact hc.readSnapEntries _ h1
      split
      · rename_i hx; rw [hx] at h2; exact hc.answer (hc.port h2)
      · rename_i hx; rw [hx] at h2; exact hc.answer h2
  · exact hc.answer h

/-! ## Every command but the resets -/

/-- Every command but the resets keeps a closed property. -/
theorem exec (hc : Closed ok P) {i : Instr} {t : State} (hi : isReset i = false) (h : P s)
    (he : exec i s = .next t) : P t := by
  cases i with
  | powerOnReset _ => cases hi
  | resetnLow => cases hi
  | resetnRelease _ => cases hi
  | resetStationReset => cases hi
  | markReceived r => exact hc.execMarkReceived r h he
  | ageTick => exact hc.execAgeTick h he
  | queueEntryExpired => exact hc.execQueueEntryExpired h he
  | withdrawalLimit => exact hc.execWithdrawalLimit h he
  | resyncAttemptLimit => exact hc.execResyncAttemptLimit h he
  | tagReceived n r => exact hc.execTagReceived n r h he
  | slotFieldClosed => exact hc.execSlotFieldClosed h he
  | silenceReclaim => exact hc.execSilenceReclaim h he
  | windowStart => exact hc.execWindowStart h he
  | arbitrationLost => exact hc.execArbitrationLost h he
  | ownTransmissionCompleted rb a => exact hc.execOwnTransmissionCompleted rb a h he
  | noteAttemptLimit a => exact hc.execNoteAttemptLimit a h he
  | driverFault => exact hc.execDriverFault h he
  | noteCheckSequenceReceived r => exact hc.execNoteCheckSequenceReceived r h he
  | windowEnded r => exact hc.execWindowEnded r h he
  | spacingCountdownExpired => exact hc.execSpacingCountdownExpired h he
  | slotStart n => exact hc.execSlotStart n h he
  | markContention => exact hc.execMarkContention h he
  | markContentionWon => exact hc.execMarkContentionWon h he
  | lineSilence => exact hc.execLineSilence h he
  | foundingContentionStart => exact hc.execFoundingContentionStart h he
  | foundingContentionJoined => exact hc.execFoundingContentionJoined h he
  | foundingContentionWon => exact hc.execFoundingContentionWon h he
  | founded => exact hc.execFounded h he
  | wordPeriodBegin => exact hc.execWordPeriodBegin h he
  | wordPeriodEnd w => exact hc.execWordPeriodEnd w h he
  | frameCutShort => exact hc.execFrameCutShort h he
  | frameCheckFailed c l p x => exact hc.execFrameCheckFailed c l p x h he
  | lapseTimerExpired => exact hc.execLapseTimerExpired h he
  | sendNote a b c d p => exact hc.execSendNote a b c d p h he
  | status => cases he; exact hc.hostFrame (fun _ _ _ h => hc.answer h) h
  | configure _ _ _ _ _ _ =>
    cases he
    exact hc.hostFrame (fun _ _ _ h => hc.answer (hc.reloadLapse (hc.port h))) h
  | setMode _ => cases he; exact hc.hostFrame (fun _ _ _ h => hc.setModeBody h) h
  | openStream _ _ _ _ => cases he; exact hc.hostFrame (fun _ _ hm h => hc.openBody hm h) h
  | closeStream _ => cases he; exact hc.hostFrame (fun _ _ _ h => hc.closeBody h) h
  | readStream _ =>
    cases he
    exact hc.hostFrame (fun _ _ _ h => hc.answer (hc.lane (fun _ => rfl) (hc.streams h))) h
  | setListen _ _ _ _ _ => cases he; exact hc.hostFrame (fun _ _ _ h => hc.answer (hc.lanes h)) h
  | readListen _ => cases he; exact hc.hostFrame (fun _ _ _ h => hc.answer h) h
  | readLanes => cases he; exact hc.hostFrame (fun _ _ _ h => hc.answer (hc.lanes (hc.readAllLanes h))) h
  | noteOutcome => cases he; exact hc.hostFrame (fun _ _ _ h => hc.outcomeBody h) h
  | abortNotes => cases he; exact hc.hostFrame (fun _ _ _ h => hc.answer (hc.endNotes h)) h
  | takeNote => cases he; exact hc.hostFrame (fun _ _ _ h => hc.takeBody h) h
  | snapshot =>
    cases he
    refine hc.hostFrame (fun _ s _ h => ?_) h
    unfold armBody
    split
    · exact hc.answer h
    · exact hc.answer (hc.port h)
  | readSnapshot _ _ _ => cases he; exact hc.hostFrame (fun _ _ _ h => hc.snapshotBody h) h
  | readAlerts => cases he; exact hc.hostFrame (fun _ _ _ h => hc.answer (hc.readAllLanes h)) h
  | clearAlerts _ => cases he; exact hc.hostFrame (fun _ _ _ h => hc.answer (hc.alerts h)) h
  | setAlertMask _ => cases he; exact hc.hostFrame (fun _ _ _ h => hc.answer (hc.alerts h)) h
  | readMemoryError =>
    cases he
    refine hc.hostFrame (fun _ s _ h => ?_) h
    unfold memoryErrorBody
    split
    · exact hc.answer h
    · exact hc.answer (hc.record h)
  | restartBus =>
    cases he
    refine hc.hostFrame (fun _ s hm h => ?_) h
    exact hc.restartBody (by simpa [memberOnly] using hm) h
  | resetStation => cases he; exact hc.hostFrame (fun _ _ _ h => hc.answer (hc.port h)) h

/-- One bit time keeps a closed property that a running silence timer does not touch. -/
theorem tick (hc : Closed ok P)
    (ht : ∀ {s : State} {n}, s.line.silenceTimer = some n → n + 1 < Config.silenceLimit → P s →
      P ({ s with line.silenceTimer := some (n + 1) } : State)) (h : P s) : P (tick s) := by
  have h0 : P (tickMessage s) := by
    unfold tickMessage
    split
    · exact hc.line rfl (.inl rfl) (.inl rfl) h
    all_goals exact h
  have h1 : P (tickSilence (tickMessage s)) := by
    generalize tickMessage s = s at h0
    unfold tickSilence
    split
    · exact h0
    · rename_i n hn
      split
      · exact hc.silent h0
      · rename_i hl; exact ht hn (Nat.lt_of_not_le hl) h0
  unfold Machine.tick Machine.tickFrame
  refine hc.port ?_
  unfold tickLapse
  split
  · exact h1
  · split
    · exact hc.port h1
    · split
      · exact hc.lapseExpired h1
      · exact hc.port h1

end Closed

end Sys2Proof.Machine
end

