-- ==== Sys2Proof/Laws/Queue.lean ====
section
/-! SUPPORT. The queue of commands and the pins are untouched by the parts of an event. -/

namespace Sys2Proof.Machine

/-- The queue of commands and the pins of a state. -/
abbrev outer (s : State) : List Instr × Pins := (s.pending, s.pins)

@[simp] theorem relearn_outer (s : State) : outer (relearn s) = outer s := by simp [outer]

@[simp] theorem enterOff_outer (s : State) : outer (enterOff s) = outer s := by simp [outer, enterOff, offEffects]

@[simp] theorem enterResync_outer (s : State) : outer (enterResync s) = outer s := by simp [outer, enterResync]

@[simp] theorem mapQueueFailed_outer (s : State) : outer (mapQueueFailed s) = outer s := by
  unfold mapQueueFailed
  split <;> (try split) <;> simp [outer, enterResync]

@[simp] theorem streamsFailed_outer (l : Option LaneNo) (s : State) : outer (streamsFailed l s) = outer s := by
  unfold streamsFailed
  cases l <;> (split <;> simp [outer])

@[simp] theorem faultEntry_outer (c : FaultCause) (s : State) : outer (faultEntry c s) = outer s := by
  unfold faultEntry
  split
  · rfl
  · rfl
  · simp only []
    split <;> simp [outer]

theorem readStreams_outer (ls : List LaneNo) (box : Bool) (s : State) :
    outer (readStreams ls box s).state = outer s := by
  have h1 : outer (checkLanes ls s).1 = outer s := by simp [outer]
  unfold readStreams
  split
  · rename_i s1 l hr; rw [hr] at h1; simpa using h1
  · rename_i s1 hr
    rw [hr] at h1
    have h2 : outer (checkOutbox s1).1 = outer s1 := by simp [outer]
    split
    · split
      · rename_i hx; rw [hx] at h2; simpa using h2.trans h1
      · rename_i s2 hx
        rw [hx] at h2
        simpa using h2.trans h1
    · simpa using h1

@[simp] theorem leaveForTarget_outer (s : State) : outer (leaveForTarget s) = outer s := by
  unfold leaveForTarget
  split
  · simp
  · simp only []
    split <;> simp [outer]
  · rfl

@[simp] theorem exitCheck_outer (s : State) : outer (exitCheck s) = outer s := by
  unfold exitCheck
  split <;> simp

/-- A course whose every step keeps the queue and the pins. -/
theorem finally_outer {c : Course} {f : State → State} (hf : ∀ s, outer (f s) = outer s) :
    outer (c.finally f).state = outer c.state := by
  cases c with
  | on s => exact hf s
  | abandoned s => rfl

theorem next_outer {c : Course} {f : State → Course} (hf : ∀ s, outer (f s).state = outer s) :
    outer (c.next f).state = outer c.state := by
  cases c with
  | on s => exact hf s
  | abandoned s => rfl

@[simp] theorem deliver_outer (n : Notice) (s : State) : outer (deliver n s) = outer s := by
  unfold deliver
  rw [exitCheck_outer, finally_outer (fun s => by simp [outer]), readStreams_outer]

theorem endWithdrawal_outer (s : State) : outer (endWithdrawal s) = outer s := by
  unfold endWithdrawal
  rw [leaveForTarget_outer]
  simp [outer]

theorem withdrawLanes_outer (ls : List LaneNo) : ∀ s : State, outer (withdrawLanes ls s).state = outer s := by
  induction ls with
  | nil => intro s; rfl
  | cons l ls ih =>
    intro s
    unfold withdrawLanes
    rw [next_outer (fun s => (ih _).trans (by simp [outer])), readStreams_outer]

theorem enterWithdrawing_outer (t : Target) (s : State) : outer (enterWithdrawing t s).state = outer s := by
  unfold enterWithdrawing
  simp only []
  rw [finally_outer (fun s => by rw [exitCheck_outer]; simp [outer]), withdrawLanes_outer]
  simp [outer]

theorem readMap_outer (s : State) : outer (readMap s).state = outer s := by
  unfold readMap
  simp only []
  split
  · simp only [Course.state_abandoned, mapQueueFailed_outer]; simp [outer]
  · simp [outer]

theorem readQueue_outer (s : State) : outer (readQueue s).state = outer s := by
  unfold readQueue
  simp only []
  split
  · simp only [Course.state_abandoned, mapQueueFailed_outer]; simp [outer]
  · simp [outer]

theorem reconcileLanes_outer (ls : List LaneNo) : ∀ s : State, outer (reconcileLanes ls s).state = outer s := by
  induction ls with
  | nil => intro s; rfl
  | cons l ls ih =>
    intro s
    unfold reconcileLanes
    rw [next_outer (fun s => (ih _).trans (by simp [outer])), next_outer (fun s => readStreams_outer _ _ _),
      next_outer (fun s => readQueue_outer _), readMap_outer]

theorem silenceNotice_outer (s : State) : outer (silenceNotice s) = outer s := by
  unfold silenceNotice
  simp only []
  split
  · rfl
  · split <;> rfl
  · rw [relearn_outer]; rfl
  · simp [outer, silenceInResync]
  · rw [endWithdrawal_outer]; rfl
  · rfl

/-- The queue of commands and the pins are closed under the parts of an event. -/
theorem closed_outer (q : List Instr × Pins) : Closed (fun _ _ => True) (fun s => outer s = q) where
  fits _ := trivial
  okOf _ := trivial
  okMove _ _ _ := trivial
  data := by
    intro s t h ⟨_, _, _, _, _, _, _, _, _, h10, h11⟩
    rw [← h]
    simp [outer, h10, h11]
  streams h := (readStreams_outer _ _ _).trans h
  deliver h := (deliver_outer _ _).trans h
  lane _ h := by rw [← h]; simp [outer]
  failed h := (mapQueueFailed_outer _).trans h
  phase _ h := h
  silence _ h := h
  sent _ _ _ h := h
  report := by
    intro s b eff _ he h
    unfold controlReport
    rw [exitCheck_outer, finally_outer, readStreams_outer]
    · exact h
    · intro t
      rcases he with rfl | rfl | rfl <;> simp [outer]
  reconciled _ h := by
    unfold reconcile
    rw [finally_outer (fun s => exitCheck_outer s), reconcileLanes_outer]
    exact h
  joined _ h := by rw [← h]; simp [outer]
  resync _ h := (enterResync_outer _).trans h
  fault h := (faultEntry_outer _ _).trans h
  withdraw _ _ h := (enterWithdrawing_outer _ _).trans h
  ended _ h := (endWithdrawal_outer _).trans h
  counted := by
    intro s hm h
    unfold countWithdrawal
    rw [if_pos hm]
    simp only []
    split
    · rw [endWithdrawal_outer]; exact h
    · exact h
  attempt := by
    intro s h
    unfold countAttempt
    split
    · simp only []
      split
      · rw [faultEntry_outer]; exact h
      · exact h
    · exact h
  toListen _ h := by rw [← h]; simp [outer, listenFromLearning, abandonStreams]
  toOff _ h := by
    unfold offFromLearning
    rw [enterOff_outer, ← h]
    simp [outer, abandonStreams]
  silent h := (silenceNotice_outer _).trans h
  leave _ h := by rw [← h]; simp [outer, listenFromOff, leaveOff]
  join := by
    intro s _ h
    rw [← h]
    unfold enterJoining
    simp only []
    split
    · simp [outer, leaveOff]
    · split <;> simp [outer]
  off _ h := (enterOff_outer _).trans h
  opened := by
    intro p s _ h
    rw [← h]
    unfold openLane
    split <;> simp [outer]
  closed h := by
    rw [exitCheck_outer, ← h]
    simp [outer]
  restart _ h := by rw [← h]; simp [outer]
  retarget _ _ h := h
  head h := by rw [← h]; simp [outer]
  headFailed h := (streamsFailed_outer _ _).trans h
  reset h := h

end Sys2Proof.Machine
end

