-- ==== Sys2Proof/Laws/Duplicate.lean ====
section
/-! SUPPORT. A message taken from a window leaves the alert DUPLICATE as it was, whatever it is: only a tag or a message
under this station's own number raises it (R19). -/

namespace Sys2Proof.Machine

/-- The alert DUPLICATE of a state. -/
abbrev dup (s : State) : Bool := s.alerts.isSet .duplicate

theorem raise_dup (a : Alert) (s : State) (h : a ≠ .duplicate) : dup (raise a s) = dup s :=
  AlertUnit.isSet_raise_ne s.alerts a .duplicate (Ne.symm h)

theorem recordRead_dup (r : Region) (i : Nat) (h : Health) (s : State) : dup (recordRead r i h s) = dup s := by
  cases h
  · rfl
  · exact raise_dup .memCorrected _ (by decide)
  · exact raise_dup .memFailed _ (by decide)

theorem recordScan_dup {α : Type} (r : Region) (ix : Nat → Nat) (sc : Scan α) (s : State) :
    dup (recordScan r ix sc s) = dup s := by
  unfold recordScan
  cases sc.single <;> cases sc.failed <;>
    simp [dup, recordSingle, recordDouble, AlertUnit.isSet_raise]

/-! ## Lanes, notes and modes -/

theorem changeLane_dup (l : LaneNo) (f : Lane → Lane) (s : State) : dup (changeLane l f s) = dup s :=
  raise_dup .stream _ (by decide)

theorem closeLane_dup (l : LaneNo) (o : StreamOutcome) (s : State) : dup (closeLane l o s) = dup s := changeLane_dup _ _ _

theorem closeOpenLanes_dup (o : StreamOutcome) (ls : List LaneNo) : ∀ s : State, dup (closeOpenLanes o ls s) = dup s := by
  induction ls with
  | nil => intro s; rfl
  | cons l ls ih =>
    intro s
    unfold closeOpenLanes
    rw [ih]
    split
    · rfl
    · exact closeLane_dup _ _ _

theorem emptyOutbox_dup (s : State) : dup (emptyOutbox s) = dup s := rfl

theorem finishNote_dup (i : Nat) (o : NoteOutcome) (s : State) : dup (finishNote i o s) = dup s :=
  raise_dup .noteDone _ (by decide)

theorem discardNotes_dup (s : State) : dup (discardNotes s) = dup s := by
  unfold discardNotes endNotes
  simp only []
  split
  · exact raise_dup .noteDone _ (by decide)
  · rfl

theorem noteLost_dup (s : State) : dup (noteLost s) = dup s := by
  unfold noteLost
  repeat' split
  all_goals first | rfl | exact finishNote_dup _ _ _

theorem readTx_dup (i : Nat) (n : TxNote) (s : State) : dup (readTx i n s).1 = dup s := by
  unfold readTx
  simp only []
  split
  · exact recordRead_dup _ _ _ _
  · split
    · exact (recordRead_dup _ _ _ _).trans (recordRead_dup _ _ _ _)
    · exact (recordRead_dup _ _ _ _).trans (recordRead_dup _ _ _ _)

theorem judgeNote_dup (i : Nat) (n : TxNote) (rb : Readback) (a : Answer) (s : State) :
    dup (judgeNote i n rb a s) = dup s := by
  unfold judgeNote
  repeat' split
  all_goals first | rfl | exact finishNote_dup _ _ _

theorem noteCompleted_dup (rb : Readback) (a : Answer) (s : State) : dup (noteCompleted rb a s) = dup s := by
  unfold noteCompleted
  split
  · rfl
  · rename_i i _
    split
    · rfl
    · rename_i n _
      have h := readTx_dup i n s
      split
      · rename_i hr; rw [hr] at h; exact (judgeNote_dup _ _ _ _ _).trans h
      · rename_i hr; rw [hr] at h; exact (finishNote_dup _ _ _).trans h

theorem controlLost_dup (b : Body) (s : State) : dup (controlLost b s) = dup s := by
  unfold controlLost
  repeat' split
  all_goals first | rfl | exact closeLane_dup _ _ _

theorem controlMismatch_dup (b : Body) (s : State) : dup (controlMismatch b s) = dup s := by
  unfold controlMismatch
  repeat' split
  all_goals rfl

theorem cutControl_dup {eff : Body → State → State} (he : ∀ b s, dup (eff b s) = dup s) (b : Body) (s : State) :
    dup (cutControl eff b s) = dup s := by
  unfold cutControl
  split
  · rfl
  · split
    · exact he b s
    · rfl

theorem messageCut_dup (src : Source) (b : Body) (s : State) : dup (messageCut src b s) = dup s := by
  unfold messageCut
  simp only []
  cases src <;> cases contending s
  · exact cutControl_dup controlMismatch_dup b _
  · exact cutControl_dup controlLost_dup b _
  · exact noteCompleted_dup _ _ _
  · exact noteLost_dup _

theorem cutTransmission_dup (s : State) : dup (cutTransmission s) = dup s := by
  have h : dup (cutTransmission s) = dup (reportCut s) := by
    unfold cutTransmission
    generalize reportCut s = u
    rfl
  rw [h]
  unfold reportCut
  split
  · exact messageCut_dup _ _ _
  all_goals rfl

theorem changeMode_dup (m : Mode) (s : State) : dup (changeMode m s) = dup s := by
  have h1 : dup (raise .mode { s with mode.actual := m, cycle.foundingPending := false, cycle.winnerMarkDue := false }) = dup s :=
    raise_dup .mode _ (by decide)
  have h2 : dup (if s.mode.actual = .member then
      discardNotes (raise .mode { s with mode.actual := m, cycle.foundingPending := false, cycle.winnerMarkDue := false })
      else raise .mode { s with mode.actual := m, cycle.foundingPending := false, cycle.winnerMarkDue := false }) = dup s := by
    split
    · exact (discardNotes_dup _).trans h1
    · exact h1
  unfold changeMode
  simp only []
  split
  · exact (cutTransmission_dup _).trans h2
  · exact h2

theorem leaveForTarget_dup (s : State) : dup (leaveForTarget s) = dup s := by
  unfold leaveForTarget
  split
  · exact changeMode_dup .off s
  · simp only []
    split <;> exact changeMode_dup .listen s
  · rfl

theorem exitCheck_dup (s : State) : dup (exitCheck s) = dup s := by
  unfold exitCheck
  split
  · exact leaveForTarget_dup s
  · rfl

theorem mapQueueFailed_dup (s : State) : dup (mapQueueFailed s) = dup s := by
  unfold mapQueueFailed
  repeat' split
  all_goals first
    | rfl
    | exact (raise_dup .conflict _ (by decide)).trans (changeMode_dup .resync s)

/-! ## Reads -/

/-- What a course does after its first part, where each part leaves the alert. -/
theorem next_dup {c : Course} {f : State → Course} (hf : ∀ s, dup (f s).state = dup s) :
    dup (c.next f).state = dup c.state := by
  cases c with
  | on s => exact hf s
  | abandoned s => rfl

theorem finally_dup {c : Course} {f : State → State} (hf : ∀ s, dup (f s) = dup s) :
    dup (c.finally f).state = dup c.state := by
  cases c with
  | on s => exact hf s
  | abandoned s => rfl

theorem readMap_dup (s : State) : dup (readMap s).state = dup s := by
  unfold readMap
  simp only []
  split
  · exact (mapQueueFailed_dup _).trans (recordScan_dup _ _ _ _)
  · exact recordScan_dup _ _ _ _

theorem readQueue_dup (s : State) : dup (readQueue s).state = dup s := by
  unfold readQueue
  simp only []
  split
  · exact (mapQueueFailed_dup _).trans (recordScan_dup _ _ _ _)
  · exact recordScan_dup _ _ _ _

theorem readQueueHead_dup (s : State) : dup (readQueueHead s).state = dup s := by
  unfold readQueueHead
  split
  · rfl
  · simp only []
    split
    · exact (mapQueueFailed_dup _).trans (recordRead_dup _ _ _ _)
    · exact recordRead_dup _ _ _ _

theorem checkLane_dup (l : LaneNo) (s : State) : dup (checkLane l s).1 = dup s := recordRead_dup _ _ _ _

theorem checkLanes_dup (ls : List LaneNo) : ∀ s : State, dup (checkLanes ls s).1 = dup s := by
  induction ls with
  | nil => intro s; rfl
  | cons l ls ih =>
    intro s
    have h := checkLane_dup l s
    unfold checkLanes
    split
    · rename_i hc; rw [hc] at h; exact (ih _).trans h
    · rename_i hc; rw [hc] at h; exact h

theorem rewriteLane_dup (l : LaneNo) (s : State) : dup (rewriteLane l s) = dup s := changeLane_dup _ _ _

theorem rewriteLanes_dup (ls : List LaneNo) : ∀ s : State, dup (rewriteLanes ls s) = dup s := by
  induction ls with
  | nil => intro s; rfl
  | cons l ls ih =>
    intro s
    have h := checkLane_dup l s
    unfold rewriteLanes
    split
    · rename_i hc; rw [hc] at h; rw [ih, closeLane_dup, h]
    · rename_i hc; rw [hc] at h; rw [ih, rewriteLane_dup, h]

theorem faultItems_dup (c : FaultCause) (s : State) : dup (faultItems c s) = dup s := rfl

theorem streamsFailed_dup (l : Option LaneNo) (s : State) : dup (streamsFailed l s) = dup s := by
  unfold streamsFailed
  split
  · cases l with
    | none => rfl
    | some l => exact rewriteLane_dup _ _
  · rw [faultItems_dup, emptyOutbox_dup, rewriteLanes_dup, discardNotes_dup, changeMode_dup]

theorem readStreams_dup (ls : List LaneNo) (box : Bool) (s : State) : dup (readStreams ls box s).state = dup s := by
  have h1 := checkLanes_dup ls s
  unfold readStreams
  split
  · rename_i hr; rw [hr] at h1; simp only [Course.state_abandoned]; rw [streamsFailed_dup, h1]
  · rename_i s1 hr
    rw [hr] at h1
    have h2 : dup (checkOutbox s1).1 = dup s1 := recordScan_dup _ _ _ _
    split
    · split
      · rename_i hx; rw [hx] at h2; exact h2.trans h1
      · rename_i hx; rw [hx] at h2; simp only [Course.state_abandoned]; rw [streamsFailed_dup, h2, h1]
    · exact h1

/-! ## Notices -/

theorem takeNotice_dup (n : Notice) (s : State) : dup (takeNotice n s) = dup s := by
  cases n with
  | restart =>
    have h : dup (takeRestart s) = dup (closeOpenLanes .restart allLanes s) := by
      unfold takeRestart
      generalize closeOpenLanes .restart allLanes s = u
      rfl
    exact h.trans (closeOpenLanes_dup _ _ _)
  | _ =>
    simp only [takeNotice, takeGranted, takeQueued, takeRefused, takeRevoked, takeRemoved, takeReleased, takeCancelled,
      takeReclaimed]
    repeat' split
    all_goals first
      | (rw [closeLane_dup]; rfl)
      | rw [closeLane_dup]
      | (rw [changeLane_dup]; rfl)
      | rw [changeLane_dup]
      | rfl

theorem deliver_dup (n : Notice) (s : State) : dup (deliver n s) = dup s := by
  unfold deliver
  rw [exitCheck_dup, finally_dup (takeNotice_dup n), readStreams_dup]

theorem tell_dup (st : Station) (hold : Bool) (n : Notice) (s : State) : dup (tell st hold n s) = dup s := by
  unfold tell send
  repeat' split
  all_goals first | rfl | exact deliver_dup n s

/-! ## The Allocation Unit -/

theorem grant_dup (hold : Bool) (st : Station) (l : LaneNo) (label : Label) (cls : SlotClass) (ret : Bool) (k : Nat)
    (s : State) : dup (grant hold st l label cls ret k s) = dup s := by
  unfold grant
  split
  · rfl
  · exact tell_dup _ _ _ _

theorem revoke_dup (hold : Bool) (h : HeldEntry) (s : State) : dup (revoke hold h s) = dup s := by
  unfold revoke
  simp only []
  split <;> exact tell_dup _ _ _ _

theorem preempt_dup (hold : Bool) (k : Nat) (fuel : Nat) : ∀ s : State, dup (preempt fuel hold k s) = dup s := by
  induction fuel with
  | zero => intro s; rfl
  | succ fuel ih =>
    intro s
    unfold preempt
    repeat' split
    all_goals first | rfl | exact (ih _).trans (revoke_dup _ _ _)

theorem serviceLoop_dup (hold : Bool) (fuel : Nat) : ∀ s : State, dup (serviceLoop fuel hold s).state = dup s := by
  induction fuel with
  | zero => intro s; rfl
  | succ fuel ih =>
    intro s
    unfold serviceLoop
    refine (next_dup fun s1 => ?_).trans (readQueueHead_dup s)
    split
    · rfl
    · refine (next_dup fun s2 => ?_).trans (readMap_dup s1)
      simp only []
      split
      · exact (ih _).trans (grant_dup _ _ _ _ _ _ _ _)
      · split
        · exact ((ih _).trans (grant_dup _ _ _ _ _ _ _ _)).trans (preempt_dup _ _ _ _)
        · rfl

theorem service_dup (hold : Bool) (s : State) : dup (service hold s).state = dup s := serviceLoop_dup _ _ _

theorem placeClaim_dup (e : QueueEntry) (s : State) : dup (placeClaim e s) = dup s := by
  have hi (i : Nat) (e : QueueEntry) (s : State) : dup (insertQueued i e s) = dup s := by
    unfold insertQueued; split <;> rfl
  unfold placeClaim
  repeat' split
  all_goals first
    | exact tell_dup _ _ _ _
    | exact (tell_dup _ _ _ _).trans (hi _ _ _)
    | exact ((tell_dup _ _ _ _).trans (hi _ _ _)).trans (tell_dup _ _ _ _)

theorem grantRule_dup (e : QueueEntry) (wait : Bool) (s : State) : dup (grantRule e wait s) = dup s := by
  unfold grantRule
  simp only []
  repeat' split
  all_goals first
    | rw [grant_dup, preempt_dup]
    | rw [tell_dup]
    | rw [placeClaim_dup]
    | rw [grant_dup]

/-- A received message applied leaves the alert DUPLICATE as it was. -/
theorem applyMessage_dup (st : Station) (b : Body) (s : State) : dup (applyMessage st b s).state = dup s := by
  unfold applyMessage
  cases b with
  | claim l label k cls wait ret =>
    simp only []
    split
    · unfold applyClaim
      split
      · rfl
      · rw [finally_dup (grantRule_dup _ _), next_dup readQueue_dup, readMap_dup]
    · rfl
  | release l =>
    simp only []
    split
    · refine (next_dup fun s1 => ?_).trans (readMap_dup s)
      split
      · rfl
      · exact (service_dup _ _).trans (tell_dup _ _ _ _)
    · rfl
  | withdraw l =>
    simp only []
    split
    · refine (next_dup fun s1 => ?_).trans (readQueue_dup s)
      split
      · exact (service_dup _ _).trans (tell_dup _ _ _ _)
      · refine (next_dup fun s2 => ?_).trans (readMap_dup s1)
        split
        · rfl
        · exact (service_dup _ _).trans (tell_dup _ _ _ _)
    · rfl
  | restart =>
    simp only []
    split
    · rfl
    · unfold applyRestart
      simp only [Course.state_on]
      rw [deliver_dup, raise_dup _ _ (by decide)]
      split <;> rfl
  | note n => rfl
  | noKind => rfl

end Sys2Proof.Machine
end

