-- ==== Sys2Proof/Laws/SamplePort.lean ====
section
/-! SUPPORT. Bits and the numbers they spell, and what the Sample Port does with the 32 bits of a word period. -/

namespace Sys2Proof

/-! ## Bits -/

@[simp] theorem length_bitsOf (width n : Nat) : (bitsOf width n).length = width := by
  induction width generalizing n with
  | zero => rfl
  | succ w ih => simp [bitsOf, ih]

/-- Reading the low bits of a number after others shifts these and adds the low bits' value. -/
theorem foldl_bitsOf (width n : Nat) : ∀ a : Nat,
    (bitsOf width n).foldl (fun k b => 2 * k + b.toNat) a = a * 2 ^ width + n % 2 ^ width := by
  induction width with
  | zero => intro a; simp [bitsOf, Nat.mod_one]
  | succ w ih =>
    intro a
    rw [bitsOf, List.foldl_cons, ih, Nat.mod_pow_succ, Nat.pow_succ, Nat.toNat_testBit]
    ring

/-- The bits of a number that fits their width spell it. -/
theorem natOf_bitsOf {width n : Nat} (h : n < 2 ^ width) : natOf (bitsOf width n) = n := by
  rw [natOf, foldl_bitsOf, Nat.mod_eq_of_lt h]
  simp

namespace Machine

/-! ## The bits of a word period (R119) -/

/-- SMPCLK periods that do not fill the word period: the bits are collected, SMPOUT carries the bit of the outgoing word that
the last of them has driven, and nothing else changes. -/
theorem clockBits_short (bits : List Bool) : ∀ (s : State) (p : WordPeriod), s.lanes.period = some p →
    p.collected.length + bits.length < 32 →
    bits.foldl clockBit s = { s with
      lanes.period := some { p with collected := p.collected ++ bits }
      lanes.smpOut := if bits = [] then s.lanes.smpOut else p.out.getMsbD (p.collected.length + bits.length - 1) } := by
  induction bits with
  | nil =>
    intro s p hp _
    simp only [List.foldl_nil, List.append_nil, if_true]
    rw [← hp]
  | cons b bits ih =>
    intro s p hp hl
    simp only [List.length_cons] at hl
    have h1 : clockBit s b = { s with
        lanes.period := some { p with collected := p.collected ++ [b] }
        lanes.smpOut := p.out.getMsbD p.collected.length } := by
      unfold clockBit driveBit collectBit driveOut
      simp only [hp, if_pos (show p.collected.length < 32 by omega), List.length_append, List.length_cons, List.length_nil]
      rw [if_pos (by omega)]
      simp
    rw [List.foldl_cons, h1, ih _ { p with collected := p.collected ++ [b] } rfl (by simp; omega)]
    cases bits with
    | nil => simp
    | cons c cs =>
      simp only [List.append_assoc, List.singleton_append, List.length_append, List.length_cons, List.length_nil,
        reduceCtorEq, if_false]
      congr 3
      omega

/-- The SMPCLK period that fills the word period drives bit 0 of its outgoing word and ends it, and the word that the 32 bits
spell is taken. -/
theorem clockBit_last (s : State) (p : WordPeriod) (b : Bool) (hp : s.lanes.period = some p)
    (hl : p.collected.length = 31) :
    clockBit s b = takeWord (BitVec.ofNat 32 (natOf (p.collected ++ [b])))
      { s with lanes.period := none, lanes.smpOut := p.out.getMsbD 31 } := by
  unfold clockBit driveBit collectBit driveOut
  simp [hp, hl]

/-- The 32 bits of a word, clocked from the beginning of a period, end it and hand the word on. -/
theorem clockBits_word (s : State) (w out : BitVec 32) (hp : s.lanes.period = some { out := out, collected := [] }) :
    (wordBits w).foldl clockBit s =
      takeWord w { s with lanes.period := none, lanes.smpOut := out.getMsbD 31 } := by
  have hne : wordBits w ≠ [] := fun h => by simpa [wordBits] using congrArg List.length h
  obtain ⟨bits, b, hb⟩ : ∃ bits b, wordBits w = bits ++ [b] := ⟨_, _, (List.dropLast_append_getLast hne).symm⟩
  have hl : bits.length = 31 := by
    have := congrArg List.length hb
    simp [wordBits] at this
    omega
  have hw : BitVec.ofNat 32 (natOf (bits ++ [b])) = w := by
    rw [← hb, wordBits, natOf_bitsOf w.isLt, BitVec.ofNat_toNat, BitVec.setWidth_eq]
  rw [hb, List.foldl_append, clockBits_short bits s _ hp (by simp [hl])]
  simp only [List.foldl_cons, List.foldl_nil]
  rw [clockBit_last _ { out := out, collected := [] ++ bits } b rfl (by simp [hl])]
  simp only [List.nil_append, hw]

/-- WORD_PERIOD_END hands its word on, ends the period in progress and leaves SMPOUT low. -/
theorem execWordPeriodEnd_eq (s : State) (w : BitVec 32) (p : WordPeriod) (hr : s.pins.resetnLow = false)
    (hp : s.lanes.period = some p) :
    execWordPeriodEnd w s = .next (driveOut false (takeWord w
      { s with lanes.smpSync := false, lanes.period := none, lanes.smpOut := p.out.getMsbD 31 })) := by
  unfold execWordPeriodEnd
  rw [hr, hp]
  simp only [Bool.false_eq_true, if_false]
  rw [clockBits_word (sampleSync false (openPeriod p.out s)) w p.out rfl]
  rfl

/-- WORD_PERIOD_BEGIN chooses the outgoing word, whatever SMPSYNC was before. -/
theorem execWordPeriodBegin_eq (s : State) (hr : s.pins.resetnLow = false) :
    execWordPeriodBegin s = .next (chooseWord { s with lanes.smpSync := true }) := by
  unfold execWordPeriodBegin
  rw [hr]
  rfl

end Machine

end Sys2Proof
end

