-- ==== Sys2Proof/Laws/Frames.lean ====
section
/-! SUPPORT. The bits of a chip-select period against its bytes (R157): what SDI carries spells the bytes sent, most
significant bit first, and a frame sent bit by bit is the row it stands for. -/

namespace Sys2Proof.Machine

/-- Bytes sent bit by bit are read back, and the bits of further bytes follow. -/
theorem bytesOfBits_byteBits (bytes : List Byte) : ∀ (n : Nat) (rest : List Bool),
    bytesOfBits (bytes.length + n) (byteBits bytes ++ rest) = bytes ++ bytesOfBits n rest := by
  induction bytes with
  | nil => intro n rest; simp [byteBits]
  | cons b bs ih =>
    intro n rest
    have hb : byteBits (b :: bs) ++ rest = bitsOf 8 b.toNat ++ (byteBits bs ++ rest) := by
      simp [byteBits, List.append_assoc]
    have hl : (b :: bs).length + n = (bs.length + n) + 1 := by simp; omega
    rw [hb, hl, bytesOfBits, List.take_left' (by simp), List.drop_left' (by simp), ih, natOf_bitsOf b.isLt,
      BitVec.ofNat_toNat, BitVec.setWidth_eq]
    rfl

@[simp] theorem length_byteBits (bytes : List Byte) : (byteBits bytes).length = 8 * bytes.length := by
  induction bytes with
  | nil => rfl
  | cons b bs ih =>
    have : byteBits (b :: bs) = bitsOf 8 b.toNat ++ byteBits bs := rfl
    rw [this, List.length_append, ih, length_bitsOf, List.length_cons]
    omega

/-- The whole bytes of bits that begin with the bits of bytes: these bytes, and the whole bytes of what follows. -/
theorem wholeBytes_byteBits (bytes : List Byte) (rest : List Bool) :
    wholeBytes (byteBits bytes ++ rest) = bytes ++ wholeBytes rest := by
  have hl : (byteBits bytes ++ rest).length / 8 = bytes.length + rest.length / 8 := by
    rw [List.length_append, length_byteBits]
    omega
  rw [wholeBytes, hl, bytesOfBits_byteBits]
  rfl

/-- Bits that do not fill a byte are no byte. -/
theorem wholeBytes_short {bits : List Bool} (h : bits.length < 8) : wholeBytes bits = [] := by
  rw [wholeBytes, Nat.div_eq_of_lt h]
  rfl

/-- Each bit driven on SDI for a low and a high half of SCK is sampled once, at the rising edge. -/
theorem sdiBits_clocked (bits : List Bool) :
    sdiBits false (bits.flatMap fun b => [(false, b), (true, b)]) = bits ∧
    sdiBits true (bits.flatMap fun b => [(false, b), (true, b)]) = bits := by
  induction bits with
  | nil => exact ⟨rfl, rfl⟩
  | cons b bs ih => simp [sdiBits, ih.2]

end Sys2Proof.Machine
end

