-- ==== Sys2Proof/Laws/Gates.lean ====
section
/-! SUPPORT. When an event of the line is taken, and the three ways a host command's frame ends. -/

namespace Sys2Proof.Machine

theorem lineEvent_on {f : State → State} {s : State} (h1 : s.Running) (h2 : s.mode.actual ≠ .off) :
    lineEvent f s = f s := by
  unfold lineEvent
  simp [h1, h2]

theorem framedEvent_on {f : State → State} {s : State} (h : s.Framed) : framedEvent f s = f s := by
  unfold framedEvent
  simp [h.1, h.2.1, h.2.2]

variable {s : State}

/-- A host command's frame as collected, with the lapse timer reloaded (R158, R169). -/
abbrev collected (s : State) : State := reloadLapse (frameCollected s)

/-- The frame collected in a chip-select period of its own: the assembler and the lapse timer change, and nothing else. -/
theorem collected_eq (h : s.port.resetArmed = false) : collected s = { s.frameTaken with port.response := none } := by
  unfold collected reloadLapse
  rw [frameCollected_unarmed h]

theorem collected_mode (h : s.port.resetArmed = false) : (collected s).mode = s.mode := by rw [collected_eq h]

theorem answer_collected (h : s.port.resetArmed = false) (st : Status) (payload : List Byte) :
    answer st payload (collected s) = s.answered st payload := by
  rw [collected_eq h]
  rfl

variable {α : Type} {params : Option α} {permitted : Mode → Bool} {body : α → State → State}

theorem hostFrame_low (h : s.pins.resetnLow = true) : hostFrame params permitted body s = s := by
  unfold hostFrame
  simp [h]

theorem hostFrame_bad (h : s.HostReady) (hp : params = none) :
    hostFrame params permitted body s = s.answered .badParam [] := by
  unfold hostFrame
  simp only [h.1, hp, Bool.false_eq_true, if_false]
  exact answer_collected h.2 _ _

theorem hostFrame_refused {a : α} (h : s.HostReady) (hp : params = some a) (hm : permitted s.mode.actual = false) :
    hostFrame params permitted body s = s.answered .refusedMode [] := by
  subst hp
  have hc : permitted (collected s).mode.actual = false := (collected_mode h.2).symm ▸ hm
  unfold hostFrame
  simp only [h.1, Bool.false_eq_true, if_false]
  rw [if_neg (by rw [hc]; simp)]
  exact answer_collected h.2 _ _

theorem hostFrame_runs {a : α} (h : s.HostReady) (hp : params = some a) (hm : permitted s.mode.actual = true) :
    hostFrame params permitted body s = body a { s.frameTaken with port.response := none } := by
  subst hp
  have hc : permitted (collected s).mode.actual = true := (collected_mode h.2).symm ▸ hm
  unfold hostFrame
  simp only [h.1, Bool.false_eq_true, if_false]
  rw [if_pos hc, ← collected_eq h.2]

/-- A frame collected after an armed RESET_STATION finds the station reset (R157, R165). -/
theorem frameBegun_armed (h : s.port.resetArmed = true) : frameBegun s = frameBegun (resetStation s) := by
  unfold frameBegun
  rw [csnRise_armed h]
  rfl

theorem hostFrame_armed (h : s.port.resetArmed = true) :
    hostFrame params permitted body s = if s.pins.resetnLow then s else hostFrame params permitted body (resetStation s) := by
  unfold hostFrame frameCollected
  rw [frameBegun_armed h]
  split
  · rfl
  · rename_i hr
    rw [if_neg (by exact hr)]

end Sys2Proof.Machine
end

