-- ==== Sys2Proof/Laws/HeldService.lean ====
section
/-! SUPPORT. What queue service does when it holds its notices, as the purge calls it (R91): which entries leave the queue,
which are requeued, and which notices are held. -/

namespace Sys2Proof.Machine

/-- From `s` to `t` with the notices held: `granted` are the entries taken from the head, `requeued` those appended at the tail,
`notices` those held, in order. Nothing changes but the map, the queue and the notices; an own entry taken has a GRANTED, and an
own stream that is gone from the map a REVOKED. -/
structure HeldStep (granted requeued : List (Stored QueueEntry)) (notices : List (Stored Notice)) (s t : State) : Prop where
  rest : t = { s with
    alloc.map := t.alloc.map, alloc.queue := t.alloc.queue, alloc.heldNotices := t.alloc.heldNotices }
  mapClean : s.MapClean → t.MapClean
  requeuedFresh : ∀ r ∈ requeued, r.health = .clean ∧ r.val.cls = .normal ∧ r.val.ret = true ∧ r.val.age = 0
  queue : granted ++ t.alloc.queue = s.alloc.queue ++ requeued
  held : t.alloc.heldNotices = s.alloc.heldNotices ++ notices
  kinds : ∀ w ∈ notices, (∃ l slots, w = .fresh (.granted l slots s.cycle.cycleNumber)) ∨ ∃ l at?, w = .fresh (.revoked l at?)
  told : ∀ e ∈ granted, e.val.station = own s →
    ∃ slots, .fresh (.granted e.val.lane slots s.cycle.cycleNumber) ∈ notices
  revoked : ∀ l, (∃ n, (entryAt s n).ofStream (own s) l = true) → (∀ n, (entryAt t n).ofStream (own s) l = false) →
    ∃ at?, .fresh (.revoked l at?) ∈ notices

namespace HeldStep

variable {s t v : State} {g g2 r r2 : List (Stored QueueEntry)} {ns ns2 : List (Stored Notice)}

theorem refl (s : State) : HeldStep [] [] [] s s where
  rest := rfl
  mapClean := id
  requeuedFresh := by simp
  queue := by simp
  held := by simp
  kinds := by simp
  told := by simp
  revoked := by
    rintro l ⟨n, hn⟩ h
    rw [h n] at hn
    cases hn

theorem pins (h : HeldStep g r ns s t) : t.pins = s.pins := by rw [h.rest]

theorem own_eq (h : HeldStep g r ns s t) : own t = own s := by rw [own, h.pins]; rfl

theorem cycle (h : HeldStep g r ns s t) : t.cycle = s.cycle := by rw [h.rest]

theorem mode (h : HeldStep g r ns s t) : t.mode = s.mode := by rw [h.rest]

theorem trans (h : HeldStep g r ns s t) (k : HeldStep g2 r2 ns2 t v) :
    HeldStep (g ++ g2) (r ++ r2) (ns ++ ns2) s v where
  rest := by
    conv_lhs => rw [k.rest, h.rest]
  mapClean := k.mapClean ∘ h.mapClean
  requeuedFresh := by
    intro w hw
    rcases List.mem_append.mp hw with hw | hw
    · exact h.requeuedFresh w hw
    · exact k.requeuedFresh w hw
  queue := by rw [List.append_assoc, k.queue, ← List.append_assoc, h.queue, List.append_assoc]
  held := by rw [k.held, h.held, List.append_assoc]
  kinds := by
    intro w hw
    rcases List.mem_append.mp hw with hw | hw
    · exact h.kinds w hw
    · simpa only [h.cycle] using k.kinds w hw
  told := by
    intro e he ho
    rcases List.mem_append.mp he with he | he
    · obtain ⟨slots, hm⟩ := h.told e he ho
      exact ⟨slots, List.mem_append_left _ hm⟩
    · obtain ⟨slots, hm⟩ := k.told e he (by rw [h.own_eq, ho])
      exact ⟨slots, List.mem_append_right _ (by simpa only [h.cycle] using hm)⟩
  revoked := by
    intro l hs hv
    by_cases ht : ∃ n, (entryAt t n).ofStream (own s) l = true
    · obtain ⟨p, hm⟩ := k.revoked l (by rw [h.own_eq]; exact ht) (by rw [h.own_eq]; exact hv)
      exact ⟨p, List.mem_append_right _ hm⟩
    · obtain ⟨p, hm⟩ := h.revoked l hs (by simpa using ht)
      exact ⟨p, List.mem_append_left _ hm⟩

/-- Clean words stay clean. -/
theorem queueClean (h : HeldStep g r ns s t) (hs : s.QueueClean) : t.QueueClean := by
  intro w hw
  have hm : w ∈ s.alloc.queue ++ r := by rw [← h.queue]; exact List.mem_append_right _ hw
  rcases List.mem_append.mp hm with hm | hm
  · exact hs w hm
  · exact (h.requeuedFresh w hm).1

end HeldStep

/-! ## The steps of queue service -/

/-- Another stream's entries stay when a stream is freed. -/
theorem ofStream_freeStream (st : Station) (l : LaneNo) (s : State) (n : Slot) (st' : Station) (l' : LaneNo)
    (h : (entryAt s n).ofStream st' l' = true) (hne : ¬(st' = st ∧ l' = l)) :
    (entryAt (freeStream st l s) n).ofStream st' l' = true := by
  have hn : (entryAt s n).ofStream st l = false := by
    cases he : entryAt s n with
    | free => rfl
    | held e =>
      rw [he] at h
      simp only [SlotEntry.ofStream, Bool.and_eq_true, decide_eq_true_eq] at h
      simp only [SlotEntry.ofStream, Bool.and_eq_false_iff, decide_eq_false_iff_not]
      by_contra hc
      push Not at hc
      exact hne ⟨h.1.symm.trans hc.1, h.2.symm.trans hc.2⟩
  have : entryAt (freeStream st l s) n = entryAt s n := by
    simp only [entryAt] at hn
    simp [entryAt, freeStream, hn]
  rw [this, h]

theorem freeStream_mapClean (st : Station) (l : LaneNo) (s : State) (h : s.MapClean) : (freeStream st l s).MapClean := by
  intro n
  simp only [freeStream, Table.get_map]
  split
  · rfl
  · exact h n

/-- A revocation holds its notice and requeues at most the stream it revokes (R65). -/
theorem revoke_heldStep (h : HeldEntry) (s : State) :
    ∃ r ns, HeldStep [] r ns s (revoke true h s) := by
  have hrev : ∀ (t : State) (p : Option Nat) (ns : List (Stored Notice)),
      (∀ n, entryAt t n = entryAt (freeStream h.holder h.lane s) n) →
      (h.holder = own s → .fresh (.revoked h.lane p) ∈ ns) →
      ∀ l, (∃ n, (entryAt s n).ofStream (own s) l = true) → (∀ n, (entryAt t n).ofStream (own s) l = false) →
        ∃ at?, .fresh (.revoked l at?) ∈ ns := by
    rintro t p ns ht hm l ⟨n, hn⟩ hv
    by_cases he : own s = h.holder ∧ l = h.lane
    · exact ⟨p, by rw [he.2]; exact hm he.1.symm⟩
    · have := ofStream_freeStream h.holder h.lane s n (own s) l hn he
      rw [← ht n, hv n] at this
      cases this
  unfold revoke tell send
  simp only [if_true]
  split
  · rename_i hr
    simp only [Bool.and_eq_true] at hr
    split
    · rename_i ho
      refine ⟨[_], [_], rfl, freeStream_mapClean _ _ _, ?_, rfl, rfl, ?_, by simp, hrev _ _ _ (fun _ => rfl) (fun _ => List.mem_singleton_self _)⟩
      · simp [Stored.fresh]
      · intro w hw
        exact .inr ⟨_, _, List.mem_singleton.mp hw⟩
    · rename_i ho
      refine ⟨[_], [], rfl, freeStream_mapClean _ _ _, ?_, rfl, (List.append_nil _).symm, by simp, by simp,
        hrev _ none _ (fun _ => rfl) (fun h => absurd h ho)⟩
      simp [Stored.fresh]
  · split
    · rename_i ho
      refine ⟨[], [_], rfl, freeStream_mapClean _ _ _, by simp, (List.append_nil _).symm, rfl, ?_, by simp,
        hrev _ _ _ (fun _ => rfl) (fun _ => List.mem_singleton_self _)⟩
      intro w hw
      exact .inr ⟨_, _, List.mem_singleton.mp hw⟩
    · rename_i ho
      exact ⟨[], [], rfl, freeStream_mapClean _ _ _, by simp, (List.append_nil _).symm, (List.append_nil _).symm, by simp,
        by simp, hrev _ none _ (fun _ => rfl) (fun h => absurd h ho)⟩

/-- Pre-emption holds its notices (R64). -/
theorem preempt_heldStep (k : Nat) (fuel : Nat) : ∀ s, ∃ r ns, HeldStep [] r ns s (preempt fuel true k s) := by
  induction fuel with
  | zero => intro s; exact ⟨[], [], .refl s⟩
  | succ fuel ih =>
    intro s
    unfold preempt
    split
    · exact ⟨[], [], .refl s⟩
    · split
      · exact ⟨[], [], .refl s⟩
      · rename_i h _
        obtain ⟨r, ns, h1⟩ := revoke_heldStep h s
        obtain ⟨r2, ns2, h2⟩ := ih (revoke true h s)
        exact ⟨r ++ r2, ns ++ ns2, h1.trans h2⟩

/-- A slot that is not FREE keeps its entry when a stream is entered in FREE slots. -/
theorem entryAt_enterStream (st : Station) (l : LaneNo) (label : Label) (cls : SlotClass) (ret : Bool) (k : Nat) (s : State)
    (n : Slot) (h : entryAt s n ≠ .free) :
    entryAt (enterStream st l label cls ret k ((freeSlots s).take k) s) n = entryAt s n := by
  have hn : ((freeSlots s).take k).findIdx? (· = n) = none := by
    rw [List.findIdx?_eq_none_iff]
    intro m hm
    have := (List.mem_filter.mp (List.mem_of_mem_take hm)).2
    simp only [decide_eq_true_eq] at this
    simp only [decide_eq_false_iff_not]
    rintro rfl
    exact h this
  simp only [entryAt, enterStream, Table.get_mapIdx, hn]

theorem enterStream_mapClean (st : Station) (l : LaneNo) (label : Label) (cls : SlotClass) (ret : Bool) (k : Nat)
    (slots : List Slot) (s : State) (h : s.MapClean) : (enterStream st l label cls ret k slots s).MapClean := by
  intro n
  simp only [enterStream, Table.get_mapIdx]
  split
  · exact h n
  · rfl

/-- The grant of an entry that has left the head of the queue (R63, R72). -/
theorem grant_heldStep (w : Stored QueueEntry) (s t : State) (r : List (Stored QueueEntry)) (ns : List (Stored Notice))
    (hm : t.mode.actual ≠ .off) (h : HeldStep [] r ns { s with alloc.queue := s.alloc.queue.tail } t)
    (hq : s.alloc.queue = w :: s.alloc.queue.tail) :
    ∃ ns2, HeldStep [w] r ns2 s (grant true w.val.station w.val.lane w.val.label w.val.cls w.val.ret w.val.count t) := by
  have hcy : t.cycle = s.cycle := h.cycle
  have hqq : [w] ++ t.alloc.queue = s.alloc.queue ++ r := by
    have := h.queue
    simp only [List.nil_append] at this
    rw [this, hq]
    rfl
  have hheld : t.alloc.heldNotices = s.alloc.heldNotices ++ ns := h.held
  have hown : own t = own s := h.own_eq
  have hrev : ∀ (v : State), (∀ n, entryAt t n ≠ .free → entryAt v n = entryAt t n) →
      ∀ l, (∃ n, (entryAt s n).ofStream (own s) l = true) → (∀ n, (entryAt v n).ofStream (own s) l = false) →
        ∃ at?, .fresh (.revoked l at?) ∈ ns := by
    intro v hv l hs hno
    refine h.revoked l hs (fun n => ?_)
    by_cases hf : entryAt t n = .free
    · rw [hf]; rfl
    · have := hno n
      rw [hv n hf] at this
      exact this
  have hrest : ∀ v : State, v = { t with alloc.map := v.alloc.map, alloc.heldNotices := v.alloc.heldNotices } →
      v = { s with
        alloc.map := v.alloc.map, alloc.queue := v.alloc.queue, alloc.heldNotices := v.alloc.heldNotices } := by
    intro v hv
    have hvq : v.alloc.queue = t.alloc.queue := by rw [hv]
    rw [hvq]
    conv_lhs => rw [hv, h.rest]
  unfold grant tell send
  rw [if_neg hm]
  simp only [if_true]
  split
  · rename_i ho
    refine ⟨ns ++ [.fresh (.granted w.val.lane ((freeSlots t).take w.val.count) t.cycle.cycleNumber)], hrest _ rfl, ?_, h.requeuedFresh, hqq, ?_, ?_, ?_, ?_⟩
    · exact fun hc => enterStream_mapClean _ _ _ _ _ _ _ _ (h.mapClean hc)
    · show t.alloc.heldNotices ++ [_] = _
      rw [hheld, List.append_assoc]
    · intro x hx
      rcases List.mem_append.mp hx with hx | hx
      · exact h.kinds x hx
      · exact .inl ⟨_, _, by rw [List.mem_singleton.mp hx, hcy]⟩
    · intro e he hs
      rw [List.mem_singleton.mp he]
      exact ⟨_, List.mem_append_right _ (by rw [← hcy]; exact List.mem_singleton_self _)⟩
    · intro l hs hno
      obtain ⟨p, hp⟩ := hrev _ (fun n hn => entryAt_enterStream _ _ _ _ _ _ _ _ hn) l hs hno
      exact ⟨p, List.mem_append_left _ hp⟩
  · rename_i ho
    refine ⟨ns, hrest _ rfl, ?_, h.requeuedFresh, hqq, hheld, h.kinds, ?_, ?_⟩
    · exact fun hc => enterStream_mapClean _ _ _ _ _ _ _ _ (h.mapClean hc)
    · intro e he hs
      rw [List.mem_singleton.mp he] at hs
      exact absurd (hs.trans hown.symm) ho
    · exact hrev _ (fun n hn => entryAt_enterStream _ _ _ _ _ _ _ _ hn)

/-- Queue service with its notices held, over words without error and out of OFF, goes on to its end (R72 to R74, R91). -/
theorem serviceLoop_heldStep (fuel : Nat) : ∀ s : State, s.mode.actual ≠ .off → s.MapClean → s.QueueClean →
    ∃ t g r ns, serviceLoop fuel true s = .on t ∧ HeldStep g r ns s t := by
  induction fuel with
  | zero => intro s _ _ _; exact ⟨s, [], [], [], rfl, .refl s⟩
  | succ fuel ih =>
    intro s hm hmap hqc
    unfold serviceLoop
    rw [readQueueHead_clean hqc, Course.next_on]
    cases hq : s.alloc.queue with
    | nil => exact ⟨s, [], [], [], rfl, .refl s⟩
    | cons w ws =>
      simp only []
      rw [readMap_clean hmap, Course.next_on]
      have hq' : s.alloc.queue = w :: s.alloc.queue.tail := by rw [hq]; rfl
      have hws : ({ s with alloc.queue := ws } : State) = { s with alloc.queue := s.alloc.queue.tail } := by rw [hq]; rfl
      have go : ∀ (t : State) (r : List (Stored QueueEntry)) (ns : List (Stored Notice)),
          HeldStep [] r ns { s with alloc.queue := s.alloc.queue.tail } t →
          ∃ v g r2 ns2, serviceLoop fuel true
            (grant true w.val.station w.val.lane w.val.label w.val.cls w.val.ret w.val.count t) = .on v ∧
            HeldStep g r2 ns2 s v := by
        intro t r ns ht
        have htm : t.mode.actual ≠ .off := by rw [ht.mode]; exact hm
        obtain ⟨ns1, h1⟩ := grant_heldStep w s t r ns htm ht hq'
        obtain ⟨v, g2, r2, ns2, hv, h2⟩ := ih _ (by rw [h1.mode]; exact hm) (h1.mapClean hmap) (h1.queueClean hqc)
        exact ⟨v, _, _, _, hv, h1.trans h2⟩
      rw [hws]
      split_ifs
      · exact go _ [] [] (.refl _)
      · obtain ⟨r, ns, hp⟩ := preempt_heldStep w.val.count 48 { s with alloc.queue := s.alloc.queue.tail }
        exact go _ r ns hp
      · exact ⟨s, [], [], [], rfl, .refl s⟩

end Sys2Proof.Machine
end

