-- ==== Sys2Proof/Laws/Legal.lean ====
section
/-! SUPPORT. The legal mode state is closed under the parts of an event. -/

namespace Sys2Proof.Machine

/-- The legal mode state rests on the mode items, the phase, the resync count and the silence timer alone. -/
theorem Legal_of_eq {s t : State} (h : s.Legal) (hm : t.mode = s.mode) (hc : t.cycle = s.cycle)
    (hl : t.line.silenceTimer = s.line.silenceTimer) : t.Legal := by
  unfold State.Legal at *
  rw [hm, hc, hl]
  exact h

/-- A legal mode state but for the two limits, which a count may just have reached. -/
structure State.Nearly (s : State) : Prop where
  fits : phaseFits s.mode.actual s.cycle.phase = true
  withdraw : s.mode.withdrawCount ≤ 16
  attempts : s.cycle.resyncAttempts ≤ 4
  timer : s.line.silenceTimer = none ↔ s.mode.actual = .off
  below : s.line.silenceTimer.getD 0 < 24576

theorem State.Legal.nearly {s : State} (h : s.Legal) : s.Nearly :=
  ⟨h.1, h.2.2.2.1, h.2.2.2.2.1, h.2.2.2.2.2.1, h.2.2.2.2.2.2⟩

theorem phase_ne_idle {s : State} (h : s.Nearly) (ho : s.mode.actual ≠ .off) : s.cycle.phase ≠ .idle := by
  have h1 := h.fits
  intro hp
  rw [hp] at h1
  revert h1 ho
  cases s.mode.actual <;> simp [phaseFits]

/-- A station that is not in OFF moved to LISTEN, with a phase other than IDLE. -/
theorem Legal_listen {s t : State} (h : s.Nearly) (ho : s.mode.actual ≠ .off) (hm : t.mode.actual = .listen)
    (hw : t.mode.withdrawCount ≤ 16) (ha : t.cycle.resyncAttempts ≤ 4) (hp : t.cycle.phase ≠ .idle)
    (hl : t.line.silenceTimer = s.line.silenceTimer) : t.Legal := by
  refine ⟨by simp [hm, phaseFits, hp], by simp [hm], by simp [hm], hw, ha, ?_, by rw [hl]; exact h.below⟩
  rw [hl, hm, h.timer]
  simp [ho]

/-- A station that is not in OFF moved to JOINING, with a phase of learning. -/
theorem Legal_joining {s t : State} (h : s.Nearly) (ho : s.mode.actual ≠ .off) (hm : t.mode.actual = .joining)
    (hw : t.mode.withdrawCount ≤ 16) (ha : t.cycle.resyncAttempts ≤ 4) (hp : t.cycle.phase ≠ .idle)
    (hp2 : t.cycle.phase ≠ .learned) (hl : t.line.silenceTimer = s.line.silenceTimer) : t.Legal := by
  refine ⟨by simp [hm, phaseFits, hp, hp2], by simp [hm], by simp [hm], hw, ha, ?_, by rw [hl]; exact h.below⟩
  rw [hl, hm, h.timer]
  simp [ho]

theorem enterOff_legal (s : State) : (enterOff s).Legal := by
  refine ⟨?_, ?_, ?_, ?_, ?_, ?_, ?_⟩ <;> simp [enterOff, offEffects, phaseFits]

theorem adopt_legal {s : State} (h : s.Legal) (hm : phaseFits s.mode.actual .adopt = true) : (toAdopt s).Legal := by
  obtain ⟨h1, h2⟩ := h
  exact ⟨hm, h2⟩

theorem enterResync_legal {s : State} (h : s.Legal) (hm : s.mode.actual = .member) : (enterResync s).Legal := by
  obtain ⟨h1, h2, h3, h4, h5, h6, h7⟩ := h
  refine ⟨?_, ?_, ?_, ?_, ?_, ?_, ?_⟩ <;> simp [enterResync, phaseFits]
  · exact h4
  · rw [h6, hm]; simp
  · exact h7

theorem mapQueueFailed_legal {s : State} (h : s.Legal) : (mapQueueFailed s).Legal := by
  unfold mapQueueFailed
  split
  · exact h
  · rename_i hm; exact enterResync_legal h hm
  · rename_i hm
    split
    · exact Legal_of_eq (adopt_legal h (by rw [hm]; rfl)) rfl rfl rfl
    · exact adopt_legal h (by rw [hm]; rfl)
  · rename_i hm
    split
    · exact h
    · exact adopt_legal h (by rw [hm]; rfl)
  · rename_i hm; exact adopt_legal h (by rw [hm]; rfl)
  · rename_i hm; exact adopt_legal h (by rw [hm]; rfl)

theorem streamsFailed_legal {l : Option LaneNo} {s : State} (h : s.Legal) : (streamsFailed l s).Legal := by
  obtain ⟨h1, h2, h3, h4, h5, h6, h7⟩ := id h
  unfold streamsFailed
  split
  · rename_i hm
    cases l
    · exact h
    · refine ⟨?_, ?_, ?_, ?_, ?_, ?_, ?_⟩ <;> simp [rewriteLane] <;> assumption
  · rename_i hm
    simp only [not_or] at hm
    refine Legal_listen h.nearly hm.1 ?_ ?_ ?_ ?_ ?_
    · simp
    · simp
    · simpa using h5
    · simpa using phase_ne_idle h.nearly hm.1
    · simp

theorem relearn_legal {s : State} (h : s.Legal) (hm : phaseFits s.mode.actual .adopt = true) : (relearn s).Legal :=
  Legal_of_eq (adopt_legal h hm) (by simp) (by simp) (by simp)

theorem faultListen_legal {c : FaultCause} {s : State} (h : s.Nearly) (ho : s.mode.actual ≠ .off) :
    (faultItems c (dropStreams .fault (discardNotes (changeMode .listen s)))).Legal := by
  refine Legal_listen h ho ?_ ?_ ?_ ?_ ?_
  · simp
  · simp
  · simpa using h.attempts
  · simpa using phase_ne_idle h ho
  · simp

/-- The direct fault entry out of a mode other than OFF and LISTEN. -/
theorem faultEntry_out {c : FaultCause} {s : State} (h1 : s.mode.actual ≠ .off) (h2 : s.mode.actual ≠ .listen) :
    faultEntry c s =
      if c = .resyncFailed ∨ c = .configMismatch then
        relearn (faultItems c (dropStreams .fault (discardNotes (changeMode .listen s))))
      else faultItems c (dropStreams .fault (discardNotes (changeMode .listen s))) := by
  unfold faultEntry
  revert h1 h2
  cases s.mode.actual <;> simp

theorem faultEntry_nearly {c : FaultCause} {s : State} (h1 : s.mode.actual ≠ .off) (h2 : s.mode.actual ≠ .listen)
    (h : s.Nearly) : (faultEntry c s).Legal := by
  rw [faultEntry_out h1 h2]
  have hb := faultListen_legal (c := c) h h1
  split
  · exact relearn_legal hb (by simp [phaseFits])
  · exact hb

theorem faultEntry_legal {c : FaultCause} {s : State} (h : s.Legal) : (faultEntry c s).Legal := by
  by_cases h1 : s.mode.actual = .off
  · unfold faultEntry
    rw [h1]
    exact h
  · by_cases h2 : s.mode.actual = .listen
    · unfold faultEntry
      rw [h2]
      exact h
    · exact faultEntry_nearly h1 h2 h.nearly

theorem readStreams_legal {ls : List LaneNo} {box : Bool} {s : State} (h : s.Legal) :
    (readStreams ls box s).state.Legal := by
  have h1 : (checkLanes ls s).1.Legal := Legal_of_eq h (by simp) (by simp) (by simp)
  unfold readStreams
  split
  · rename_i s1 l hr
    rw [hr] at h1
    exact streamsFailed_legal (l := some l) (s := s1) h1
  · rename_i s1 hr
    rw [hr] at h1
    have h2 : (checkOutbox s1).1.Legal := Legal_of_eq h1 (by simp) (by simp) (by simp)
    split
    · split
      · rename_i hx; rw [hx] at h2; exact h2
      · rename_i s2 hx
        rw [hx] at h2
        exact streamsFailed_legal (l := none) (s := s2) h2
    · exact h1

theorem leaveForTarget_legal {s : State} (h : s.Nearly) (hm : s.mode.actual = .withdrawing)
    (ht : s.mode.target ≠ .none) : (leaveForTarget s).Legal := by
  have ho : s.mode.actual ≠ .off := by rw [hm]; simp
  have hp := phase_ne_idle h ho
  unfold leaveForTarget
  split
  · exact enterOff_legal s
  · simp only []
    split
    · exact Legal_listen h ho (by simp) (by simpa using h.withdraw) (by simpa using h.attempts) (by simp) (by simp)
    · exact Legal_listen h ho (by simp) (by simpa using h.withdraw) (by simpa using h.attempts) (by simpa using hp)
        (by simp)
  · rename_i hn; exact absurd hn ht

theorem exitCheck_legal {s : State} (h : s.Legal) : (exitCheck s).Legal := by
  unfold exitCheck
  split
  · rename_i he
    simp only [exitReady, Bool.and_eq_true, decide_eq_true_eq] at he
    exact leaveForTarget_legal h.nearly he.1.1 (h.2.1 he.1.1).1
  · exact h

theorem deliver_legal {n : Notice} {s : State} (h : s.Legal) : (deliver n s).Legal := by
  unfold deliver
  refine exitCheck_legal (Course.finally_keeps (readStreams_legal h) fun s1 h1 => ?_)
  exact Legal_of_eq h1 (by simp) (by simp) (by simp)

theorem controlReport_legal {s : State} {b : Body} {eff : Body → State → State}
    (he : eff = controlLost ∨ eff = controlGood ∨ eff = controlMismatch) (h : s.Legal) :
    (controlReport eff b s).Legal := by
  unfold controlReport
  have h0 : ({ s with line.onLine := none } : State).Legal := Legal_of_eq h rfl rfl rfl
  refine exitCheck_legal (Course.finally_keeps (readStreams_legal h0) fun s1 h1 => ?_)
  rcases he with rfl | rfl | rfl <;> exact Legal_of_eq h1 (by simp) (by simp) (by simp)

theorem endWithdrawal_legal {s : State} (h : s.Nearly) (hm : s.mode.actual = .withdrawing)
    (ht : s.mode.target ≠ .none) : (endWithdrawal s).Legal := by
  unfold endWithdrawal
  refine leaveForTarget_legal ⟨?_, ?_, ?_, ?_, ?_⟩ (by simp [hm]) (by simpa using ht)
  · simpa using h.fits
  · simpa using h.withdraw
  · simpa using h.attempts
  · simpa using h.timer
  · simpa using h.below

theorem listenFromLearning_legal {s : State} (h : s.Legal) (ho : s.mode.actual ≠ .off) :
    (listenFromLearning s).Legal := by
  obtain ⟨h1, h2, h3, h4, h5, h6, h7⟩ := id h
  refine Legal_listen h.nearly ho ?_ ?_ ?_ ?_ ?_
  · simp [listenFromLearning, abandonStreams]
  · simpa [listenFromLearning, abandonStreams] using h4
  · simpa [listenFromLearning, abandonStreams] using h5
  · simpa [listenFromLearning, abandonStreams] using phase_ne_idle h.nearly ho
  · simp [listenFromLearning, abandonStreams]

theorem restartSilence_legal {s : State} (h : s.Legal) (ho : s.mode.actual ≠ .off) : (restartSilence s).Legal := by
  obtain ⟨h1, h2, h3, h4, h5, h6, h7⟩ := h
  refine ⟨h1, h2, h3, h4, h5, ?_, ?_⟩
  · constructor
    · intro h; cases h
    · intro h; exact absurd h ho
  · show (0 : Nat) < 24576
    decide

theorem silenceNotice_legal {s : State} (h : s.Legal) : (silenceNotice s).Legal := by
  by_cases ho : s.mode.actual = .off
  · unfold silenceNotice
    rw [ho]
    exact h
  · have h1 := restartSilence_legal h ho
    unfold silenceNotice
    simp only []
    split
    · exact h
    · split
      · exact ⟨h1.1, h1.2⟩
      · exact h1
    · rename_i hm; exact relearn_legal h1 (by simp [hm, phaseFits])
    · obtain ⟨a1, a2, a3, a4, a5, a6, a7⟩ := id h1
      refine Legal_joining h1.nearly ho ?_ ?_ ?_ ?_ ?_ ?_
      · simp [silenceInResync]
      · simpa [silenceInResync] using a4
      · simpa [silenceInResync] using a5
      · simp [silenceInResync]
      · simp [silenceInResync]
      · simp [silenceInResync]
    · rename_i hm
      exact endWithdrawal_legal h1.nearly hm (h.2.1 hm).1
    · exact h1

theorem withdrawLanes_legal (ls : List LaneNo) : ∀ {s : State}, s.Legal → (withdrawLanes ls s).state.Legal := by
  induction ls with
  | nil => intro s h; exact h
  | cons l ls ih =>
    intro s h
    unfold withdrawLanes
    exact Course.next_keeps (readStreams_legal h) fun s1 h1 => ih (Legal_of_eq h1 (by simp) (by simp) (by simp))

theorem enterWithdrawing_legal {t : Target} {s : State} (hm : s.mode.actual = .member ∨ s.mode.actual = .resync)
    (ht : t ≠ .none) (h : s.Legal) : (enterWithdrawing t s).state.Legal := by
  obtain ⟨h1, h2, h3, h4, h5, h6, h7⟩ := id h
  have ho : s.mode.actual ≠ .off := by rcases hm with hm | hm <;> rw [hm] <;> simp
  unfold enterWithdrawing
  refine Course.finally_keeps (withdrawLanes_legal allLanes ?_) fun s3 h3 =>
    exitCheck_legal (Legal_of_eq h3 (by simp) (by simp) (by simp))
  refine ⟨?_, ?_, ?_, ?_, ?_, ?_, ?_⟩
  · simp [phaseFits, phase_ne_idle h.nearly ho]
  · simpa using ht
  · simp
  · simp
  · simpa using h5
  · simp [h6, ho]
  · simpa using h7

theorem countAttempt_legal {s : State} (h : s.Legal) : (countAttempt s).Legal := by
  obtain ⟨h1, h2, h3, h4, h5, h6, h7⟩ := id h
  unfold countAttempt
  split
  · rename_i hm
    have h8 := h3 hm
    simp only []
    split
    · refine faultEntry_nearly (by simp [hm]) (by simp [hm]) ⟨h1, h4, ?_, h6, h7⟩
      show s.cycle.resyncAttempts + 1 ≤ 4
      omega
    · rename_i hl
      simp only [Config.resyncLimit] at hl
      refine ⟨h1, h2, fun _ => ?_, h4, ?_, h6, h7⟩
      · show s.cycle.resyncAttempts + 1 < 4
        omega
      · show s.cycle.resyncAttempts + 1 ≤ 4
        omega
  · exact h

theorem countWithdrawal_legal {s : State} (h : s.Legal) : (countWithdrawal s).Legal := by
  obtain ⟨h1, h2, h3, h4, h5, h6, h7⟩ := id h
  unfold countWithdrawal
  split
  · rename_i hm
    have h8 := (h2 hm).2
    simp only []
    split
    · refine endWithdrawal_legal ⟨h1, ?_, h5, h6, h7⟩ hm (h2 hm).1
      show s.mode.withdrawCount + 1 ≤ 16
      omega
    · rename_i hl
      simp only [Config.withdrawalLimit] at hl
      refine ⟨h1, fun _ => ⟨(h2 hm).1, ?_⟩, h3, ?_, h5, h6, h7⟩
      · show s.mode.withdrawCount + 1 < 16
        omega
      · show s.mode.withdrawCount + 1 ≤ 16
        omega
  · exact h

theorem reconcileLanes_legal (ls : List LaneNo) : ∀ {s : State}, s.Legal →
    (reconcileLanes ls s).state.Legal := by
  induction ls with
  | nil => intro s h; exact h
  | cons l ls ih =>
    intro s h
    unfold reconcileLanes
    refine Course.next_keeps (Course.next_keeps (Course.next_keeps ?_ ?_) ?_) ?_
    · unfold readMap
      simp only []
      split
      · exact mapQueueFailed_legal (Legal_of_eq h (by simp) (by simp) (by simp))
      · exact Legal_of_eq h (by simp) (by simp) (by simp)
    · intro t h
      unfold readQueue
      simp only []
      split
      · exact mapQueueFailed_legal (Legal_of_eq h (by simp) (by simp) (by simp))
      · exact Legal_of_eq h (by simp) (by simp) (by simp)
    · exact fun t h => readStreams_legal h
    · exact fun t h => ih (Legal_of_eq h (by simp) (by simp) (by simp))

theorem enterJoining_legal {s : State} (h : s.Legal) :
    (enterJoining s).Legal := by
  obtain ⟨h1, h2, h3, h4, h5, h6, h7⟩ := id h
  unfold enterJoining
  simp only []
  split
  · refine ⟨?_, ?_, ?_, ?_, ?_, ?_, ?_⟩ <;> simp [phaseFits, leaveOff] <;> assumption
  · rename_i ho
    split
    · exact Legal_joining h.nearly ho (by simp) (by simpa using h4) (by simpa using h5) (by simp) (by simp) (by simp)
    · rename_i hp
      exact Legal_joining h.nearly ho (by simp) (by simpa using h4) (by simpa using h5)
        (by simpa using phase_ne_idle h.nearly ho) (by simpa using hp) (by simp)

/-- After a reset the mode state is legal (R20, R21). -/
theorem resetStation_legal (s : State) : (resetStation s).Legal := by
  simp [State.Legal, resetStation, State.reset, ModeController.reset, CycleEngine.reset, LineUnit.reset, phaseFits]

/-- The legal mode state is closed under the parts of an event. -/
theorem closed_legal : Closed (fun m p => phaseFits m p = true) State.Legal where
  fits h := h.1
  okOf h := h
  okMove := by
    intro m p q hp hq
    rcases hp with rfl | rfl | rfl <;> rcases hq with rfl | rfl | rfl <;> cases m <;> simp [phaseFits]
  data := by
    intro s t h ⟨h1, h2, h3, h4, h5, h6, _⟩
    unfold State.Legal at *
    rw [h1, h2, h3, h4, h5, h6]
    exact h
  streams := readStreams_legal
  deliver := deliver_legal
  lane _ h := Legal_of_eq h (by simp) (by simp) (by simp)
  failed := mapQueueFailed_legal
  phase hp h := ⟨hp, h.2⟩
  silence ho h := restartSilence_legal h ho
  sent _ _ hl h := Legal_of_eq h rfl rfl hl
  report _ he h := controlReport_legal he h
  reconciled _ h := Course.finally_keeps (reconcileLanes_legal allLanes h) fun _ => exitCheck_legal
  joined := by
    intro s hm h
    obtain ⟨h1, h2, h3, h4, h5, h6, h7⟩ := h
    refine ⟨?_, ?_, ?_, ?_, ?_, ?_, ?_⟩ <;> simp [phaseFits]
    · exact h4
    · exact h5
    · rcases hm with hm | hm <;> simp [h6, hm]
    · exact h7
  resync hm h := enterResync_legal h hm
  fault := faultEntry_legal
  withdraw hm ht h := enterWithdrawing_legal hm ht h
  ended hm h := endWithdrawal_legal h.nearly hm (h.2.1 hm).1
  counted _ h := countWithdrawal_legal h
  attempt := countAttempt_legal
  toListen hm h := listenFromLearning_legal h (by rcases hm with hm | hm <;> rw [hm] <;> simp)
  toOff _ _ := enterOff_legal _
  silent := silenceNotice_legal
  leave := by
    intro s hm h
    obtain ⟨h1, h2, h3, h4, h5, h6, h7⟩ := h
    refine ⟨?_, ?_, ?_, ?_, ?_, ?_, ?_⟩ <;> simp [phaseFits, listenFromOff, leaveOff] <;> assumption
  join _ h := enterJoining_legal h
  off _ _ := enterOff_legal _
  opened := by
    intro p s _ h
    unfold openLane
    split
    · exact Legal_of_eq h (by simp) (by simp) (by simp)
    · exact Legal_of_eq h (by simp) (by simp) (by simp)
  closed h := exitCheck_legal (Legal_of_eq h (by simp) (by simp) (by simp))
  restart _ h := Legal_of_eq h (by simp) (by simp) (by simp)
  retarget ht _ h := ⟨h.1, fun hm => ⟨ht, (h.2.1 hm).2⟩, h.2.2⟩
  head h := Legal_of_eq h (by simp) (by simp) (by simp)
  headFailed := streamsFailed_legal
  reset _ := resetStation_legal _

end Sys2Proof.Machine
end

