-- ==== Sys2Proof/Laws/Quiet.lean ====
section
/-! SUPPORT. That a station in OFF or LISTEN is quiet is closed under the parts of an event. -/

namespace Sys2Proof.Machine

/-- Every lane CLOSED. -/
abbrev State.AllClosed (s : State) : Prop := ∀ l : LaneNo, (s.streams.lanes.get l).val.state = .closed

theorem mem_allLanes (l : LaneNo) : l ∈ allLanes := List.mem_finRange l

/-! ## Closing every lane -/

/-- The state of a lane after another, or the same, is rewritten. -/
theorem lane_putLane (l k : LaneNo) (r : Lane) (s : State) :
    ((putLane l r s).streams.lanes.get k).val = if k = l then r else (s.streams.lanes.get k).val := by
  unfold putLane
  simp only [Table.get_set]
  split <;> rfl

theorem lane_closeLane (l k : LaneNo) (o : StreamOutcome) (s : State) :
    ((closeLane l o s).streams.lanes.get k).val.state =
      if k = l then .closed else (s.streams.lanes.get k).val.state := by
  show ((putLane l _ s).streams.lanes.get k).val.state = _
  rw [lane_putLane]
  split <;> rfl

theorem lane_rewriteLane (l k : LaneNo) (s : State) :
    ((rewriteLane l s).streams.lanes.get k).val.state =
      if k = l then .closed else (s.streams.lanes.get k).val.state := by
  show ((putLane l _ s).streams.lanes.get k).val.state = _
  rw [lane_putLane]
  split <;> rfl

theorem closeOpenLanes_closed (o : StreamOutcome) (ls : List LaneNo) : ∀ (s : State) (k : LaneNo),
    k ∈ ls ∨ (s.streams.lanes.get k).val.state = .closed →
    ((closeOpenLanes o ls s).streams.lanes.get k).val.state = .closed := by
  induction ls with
  | nil => intro s k h; simpa [closeOpenLanes] using h
  | cons l ls ih =>
    intro s k h
    unfold closeOpenLanes
    refine ih _ k ?_
    by_cases hk : k ∈ ls
    · exact .inl hk
    · right
      split
      · rename_i hc
        rcases h with h | h
        · have : k = l := by simpa [hk] using h
          subst this
          exact of_decide_eq_true hc
        · exact h
      · rw [lane_closeLane]
        split
        · rfl
        · rename_i hkl
          rcases h with h | h
          · simp [hk, hkl] at h
          · exact h

theorem dropStreams_closed (o : StreamOutcome) (s : State) : (dropStreams o s).AllClosed := by
  intro k
  have h : ∀ t : State, (emptyOutbox t).streams.lanes = t.streams.lanes := fun _ => rfl
  unfold dropStreams
  rw [h]
  exact closeOpenLanes_closed o allLanes s k (.inl (mem_allLanes k))

theorem dropStreams_outbox (o : StreamOutcome) (s : State) : (dropStreams o s).streams.outbox = [] := by
  simp only [dropStreams, emptyOutbox]

theorem closeOpenLanes_outbox (o : StreamOutcome) (ls : List LaneNo) : ∀ s : State,
    (closeOpenLanes o ls s).streams.outbox = s.streams.outbox := by
  induction ls with
  | nil => intro s; rfl
  | cons l ls ih =>
    intro s
    unfold closeOpenLanes
    rw [ih]
    split <;> rfl

theorem rewriteLanes_closed (ls : List LaneNo) : ∀ (s : State) (k : LaneNo),
    k ∈ ls ∨ (s.streams.lanes.get k).val.state = .closed →
    ((rewriteLanes ls s).streams.lanes.get k).val.state = .closed := by
  induction ls with
  | nil => intro s k h; simpa [rewriteLanes] using h
  | cons l ls ih =>
    intro s k h
    obtain ⟨c, u, e, hr, hv, -⟩ := checkLane_read l s
    unfold rewriteLanes
    split
    · rename_i s1 hx
      rw [hx] at hr
      subst hr
      refine ih _ k ?_
      rcases h with h | h
      · rcases List.mem_cons.mp h with rfl | h
        · right; rw [lane_closeLane]; simp
        · exact .inl h
      · right; rw [lane_closeLane]
        split
        · rfl
        · exact (congrArg Lane.state (hv k)).trans h
    · rename_i s1 hx
      rw [hx] at hr
      subst hr
      refine ih _ k ?_
      rcases h with h | h
      · rcases List.mem_cons.mp h with rfl | h
        · right; rw [lane_rewriteLane]; simp
        · exact .inl h
      · right; rw [lane_rewriteLane]
        split
        · rfl
        · exact (congrArg Lane.state (hv k)).trans h

/-! ## Quiet states -/

theorem Quiet_active {s : State} (h1 : s.mode.actual ≠ .off) (h2 : s.mode.actual ≠ .listen) : s.Quiet := by
  intro h
  rcases h with h | h
  · exact absurd h h1
  · exact absurd h h2

theorem Quiet_of_eq {s t : State} (h : s.Quiet) (hm : t.mode.actual = s.mode.actual)
    (hl : t.line.onLine = s.line.onLine ∨ t.line.onLine = none)
    (hc : t.line.contention = s.line.contention ∨ t.line.contention = .none) (hs : t.streams = s.streams) :
    t.Quiet := by
  intro ht
  rw [hm] at ht
  obtain ⟨a, b, c, d⟩ := h ht
  refine ⟨?_, ?_, ?_, ?_⟩
  · rcases hl with hl | hl <;> simp [hl, a]
  · rcases hc with hc | hc <;> simp [hc, b]
  · rw [hs]; exact c
  · rw [hs]; exact d

theorem Quiet_mk {s : State} (h1 : s.line.onLine = none) (h2 : s.line.contention = .none)
    (h3 : s.streams.outbox = []) (h4 : s.AllClosed) : s.Quiet := fun _ => ⟨h1, h2, h3, h4⟩

/-- A change of the STREAMS region by a read. -/
theorem Quiet_read {s t : State} (h : s.Quiet) (hr : StreamsRead s t) : t.Quiet := by
  obtain ⟨c, u, e, rfl, hv, ho⟩ := hr
  intro ht
  obtain ⟨a, b, x, d⟩ := h ht
  refine ⟨a, b, ?_, fun l => (congrArg Lane.state (hv l)).trans (d l)⟩
  rw [x] at ho
  simpa using ho

theorem streamsFailed_quiet {l : Option LaneNo} {s : State} (h : s.Quiet) : (streamsFailed l s).Quiet := by
  unfold streamsFailed
  split
  · rename_i hm
    obtain ⟨a, b, c, d⟩ := h hm
    cases l with
    | none => exact Quiet_mk a b rfl d
    | some l =>
      refine Quiet_mk (by simpa [rewriteLane] using a) (by simpa [rewriteLane] using b) ?_ ?_
      · exact c
      · intro k
        refine (lane_rewriteLane l k s).trans ?_
        split
        · rfl
        · exact d k
  · have hl := changeMode_cut (m := .listen) (.inr rfl) s
    refine Quiet_mk (by simp [hl]) (by simp [hl]) rfl ?_
    intro k
    exact rewriteLanes_closed allLanes _ k (.inl (mem_allLanes k))

theorem readStreams_quiet {ls : List LaneNo} {box : Bool} {s : State} (h : s.Quiet) :
    (readStreams ls box s).state.Quiet := by
  have h1 := Quiet_read h (checkLanes_read ls s)
  unfold readStreams
  split
  · rename_i s1 l hr
    rw [hr] at h1
    exact streamsFailed_quiet (l := some l) (s := s1) h1
  · rename_i s1 hr
    rw [hr] at h1
    have h2 := Quiet_read h1 (checkOutbox_read s1)
    split
    · split
      · rename_i hx; rw [hx] at h2; exact h2
      · rename_i s2 hx
        rw [hx] at h2
        exact streamsFailed_quiet (l := none) (s := s2) h2
    · exact h1

theorem enterOff_quiet {s : State} (h1 : s.AllClosed) (h2 : s.streams.outbox = []) : (enterOff s).Quiet := by
  have hl := changeMode_cut (m := .off) (.inl rfl) s
  have hs := changeMode_closed .off h1
  refine Quiet_mk ?_ ?_ ?_ ?_
  · simp [enterOff, offEffects, hl]
  · simp [enterOff, offEffects, hl]
  · simpa [enterOff, offEffects, hs] using h2
  · intro k
    have := h1 k
    simpa [enterOff, offEffects, hs] using this

/-- A station moved to LISTEN with every lane CLOSED and the outbox empty. -/
theorem changeMode_quiet {m : Mode} {s : State} (hm : m = .off ∨ m = .listen) (h1 : s.AllClosed)
    (h2 : s.streams.outbox = []) : (changeMode m s).Quiet := by
  have hl := changeMode_cut hm s
  have hs := changeMode_closed m h1
  exact Quiet_mk hl.1 hl.2 (hs ▸ h2) fun k => hs ▸ h1 k

theorem leaveForTarget_quiet {s : State} (h1 : s.AllClosed) (h2 : s.streams.outbox = []) (h : s.Quiet) :
    (leaveForTarget s).Quiet := by
  unfold leaveForTarget
  split
  · exact enterOff_quiet h1 h2
  · have h3 := changeMode_quiet (m := .listen) (.inr rfl) h1 h2
    simp only []
    split
    · exact h3
    · exact h3
  · exact h

theorem exitCheck_quiet {s : State} (h : s.Quiet) : (exitCheck s).Quiet := by
  unfold exitCheck
  split
  · rename_i he
    simp only [exitReady, Bool.and_eq_true, decide_eq_true_eq] at he
    refine leaveForTarget_quiet ?_ (List.isEmpty_iff.mp he.2) h
    intro k
    have := List.all_eq_true.mp he.1.2 k (mem_allLanes k)
    exact of_decide_eq_true this
  · exact h

theorem endWithdrawal_quiet {s : State} (hm : s.mode.actual = .withdrawing) : (endWithdrawal s).Quiet := by
  unfold endWithdrawal
  exact leaveForTarget_quiet (s := dropStreams .abandoned (cutTransmission s)) (dropStreams_closed .abandoned _)
    (dropStreams_outbox .abandoned _) (Quiet_active (by simp [hm]) (by simp [hm]))

/-- The state an operation leaves in OFF or LISTEN after the streams were dropped. -/
theorem Quiet_dropped {s t : State} (o : StreamOutcome) (h1 : t.line.onLine = none) (h2 : t.line.contention = .none)
    (h3 : t.streams = (dropStreams o s).streams) : t.Quiet := by
  refine Quiet_mk h1 h2 ?_ ?_
  · rw [h3]; exact dropStreams_outbox o s
  · intro k; rw [h3]; exact dropStreams_closed o s k

theorem faultEntry_quiet {c : FaultCause} {s : State} (h : s.Quiet) : (faultEntry c s).Quiet := by
  by_cases h1 : s.mode.actual = .off
  · unfold faultEntry
    rw [h1]
    exact h
  · by_cases h2 : s.mode.actual = .listen
    · unfold faultEntry
      rw [h2]
      exact h
    · have hd : ∀ t : State, t.line = (changeMode .listen s).line →
          t.streams = (dropStreams .fault (discardNotes (changeMode .listen s))).streams → t.Quiet := by
        intro t ht hs
        have hl := changeMode_cut (m := .listen) (.inr rfl) s
        exact Quiet_dropped .fault (ht ▸ hl.1) (ht ▸ hl.2) hs
      have hf : faultEntry c s =
          if c = .resyncFailed ∨ c = .configMismatch then
            relearn (faultItems c (dropStreams .fault (discardNotes (changeMode .listen s))))
          else faultItems c (dropStreams .fault (discardNotes (changeMode .listen s))) := by
        unfold faultEntry
        revert h1 h2
        cases s.mode.actual <;> simp
      rw [hf]
      split
      · exact hd _ (by simp) (by simp)
      · exact hd _ (by simp) (by simp)

theorem listenFromLearning_quiet {s : State} : (listenFromLearning s).Quiet := by
  have hl := changeMode_cut (m := .listen) (.inr rfl) s
  refine Quiet_dropped .abandoned (s := discardNotes (changeMode .listen s)) ?_ ?_ ?_
  · simp [listenFromLearning, abandonStreams, hl]
  · simp [listenFromLearning, abandonStreams, hl]
  · simp [listenFromLearning, abandonStreams]

theorem offFromLearning_quiet {s : State} : (offFromLearning s).Quiet := by
  unfold offFromLearning abandonStreams
  exact enterOff_quiet (s := dropStreams .abandoned (discardNotes (cutTransmission s))) (dropStreams_closed .abandoned _)
    (dropStreams_outbox .abandoned _)

theorem mapQueueFailed_quiet {s : State} (h : s.Quiet) : (mapQueueFailed s).Quiet := by
  have hr : (relearn s).Quiet := Quiet_of_eq h (by simp) (.inl (by simp)) (.inl (by simp)) (by simp)
  have ha : (toAdopt s).Quiet := Quiet_of_eq h (by simp) (.inl (by simp)) (.inl (by simp)) (by simp)
  unfold mapQueueFailed
  split
  · exact h
  · exact Quiet_active (by simp [enterResync]) (by simp [enterResync])
  · split
    · exact hr
    · exact ha
  · split
    · exact h
    · exact ha
  · exact ha
  · exact ha

/-! ## Notices and reports -/

/-- A notice to a station whose every lane is CLOSED and whose outbox is empty changes no stream. -/
theorem takeNotice_quiet {n : Notice} {s : State} (h : s.AllClosed) (ho : s.streams.outbox = []) :
    (takeNotice n s).AllClosed ∧ (takeNotice n s).streams.outbox = [] := by
  have hs : ∀ l, (laneOfState s l).state = .closed := h
  cases n with
  | granted l a b => simp only [takeNotice, takeGranted, hs]; exact ⟨h, ho⟩
  | queued l a => simp only [takeNotice, takeQueued, hs]; exact ⟨h, ho⟩
  | refused l a => simp only [takeNotice, takeRefused, hs]; exact ⟨h, ho⟩
  | revoked l a => simp only [takeNotice, takeRevoked, hs]; exact ⟨h, ho⟩
  | displaced l => simp only [takeNotice, takeRemoved, hs]; exact ⟨h, ho⟩
  | released l =>
    simp only [takeNotice, takeReleased, hs]
    simpa using ⟨h, ho⟩
  | cancelled l =>
    simp only [takeNotice, takeCancelled, hs]
    simpa using ⟨h, ho⟩
  | reclaimed l => simp only [takeNotice, takeReclaimed, hs]; exact ⟨h, ho⟩
  | expired l => simp only [takeNotice, takeRemoved, hs]; exact ⟨h, ho⟩
  | restart =>
    have hl : (takeRestart s).streams.lanes = (closeOpenLanes .restart allLanes s).streams.lanes := by
      simp only [takeRestart]
    have hb : (takeRestart s).streams.outbox = [] := by simp [takeRestart, closeOpenLanes_outbox, ho]
    rw [show takeNotice .restart s = takeRestart s from rfl]
    refine ⟨?_, hb⟩
    intro k
    have h1 := closeOpenLanes_closed .restart allLanes s k (.inl (mem_allLanes k))
    rw [← hl] at h1
    exact h1

theorem deliver_quiet {n : Notice} {s : State} (h : s.Quiet) : (deliver n s).Quiet := by
  unfold deliver
  refine exitCheck_quiet (Course.finally_keeps (readStreams_quiet h) fun s1 h1 => ?_)
  by_cases hm : s1.mode.actual = .off ∨ s1.mode.actual = .listen
  · obtain ⟨a, b, c, d⟩ := h1 hm
    obtain ⟨x, y⟩ := takeNotice_quiet (n := n) d c
    exact Quiet_mk (by simp [a]) (by simp [b]) y x
  · simp only [not_or] at hm
    exact Quiet_active (by simp [hm.1]) (by simp [hm.2])

theorem not_silent {s : State} (h : s.Quiet) (ho : s.line.onLine ≠ none) :
    s.mode.actual ≠ .off ∧ s.mode.actual ≠ .listen :=
  ⟨fun hm => ho (h (.inl hm)).1, fun hm => ho (h (.inr hm)).1⟩

theorem controlReport_quiet {s : State} {b : Body} {eff : Body → State → State} (ho : s.line.onLine ≠ none)
    (he : eff = controlLost ∨ eff = controlGood ∨ eff = controlMismatch) (h : s.Quiet) :
    (controlReport eff b s).Quiet := by
  obtain ⟨g1, g2⟩ := not_silent h ho
  have h0 : ({ s with line.onLine := none } : State).Quiet := Quiet_active g1 g2
  have h1 := readStreams_quiet (ls := lanesOfBody b) (box := true) h0
  unfold controlReport
  refine exitCheck_quiet ?_
  cases hr : readStreams (lanesOfBody b) true { s with line.onLine := none } with
  | abandoned u => rw [hr] at h1; exact h1
  | on u =>
    obtain ⟨c, al, e, rfl, -⟩ := readStreams_on hr
    simp only [Course.finally_on, Course.state_on]
    rcases he with rfl | rfl | rfl <;> exact Quiet_active (by simpa using g1) (by simpa using g2)

/-! ## Withdrawal, reconciliation -/

/-- Lanes asked to close by a station that may send. -/
theorem withdrawLanes_quiet (ls : List LaneNo) : ∀ {s : State}, s.mode.actual ≠ .off → s.mode.actual ≠ .listen →
    (withdrawLanes ls s).state.Quiet ∧
      ∀ t, withdrawLanes ls s = .on t → t.mode.actual ≠ .off ∧ t.mode.actual ≠ .listen := by
  induction ls with
  | nil =>
    intro s h1 h2
    exact ⟨Quiet_active h1 h2, fun t ht => by cases ht; exact ⟨h1, h2⟩⟩
  | cons l ls ih =>
    intro s h1 h2
    have h3 := readStreams_quiet (ls := [l]) (box := true) (Quiet_active h1 h2)
    unfold withdrawLanes
    cases hr : readStreams [l] true s with
    | abandoned u =>
      rw [hr] at h3
      exact ⟨h3, fun t ht => by cases ht⟩
    | on u =>
      obtain ⟨c, al, e, rfl, -⟩ := readStreams_on hr
      simp only [Course.next_on]
      exact ih (by simpa using h1) (by simpa using h2)

theorem enterWithdrawing_quiet {t : Target} {s : State} : (enterWithdrawing t s).state.Quiet := by
  unfold enterWithdrawing
  have h := withdrawLanes_quiet allLanes (s := { changeMode .withdrawing s with
    mode.target := t, mode.requested := t.asRequest, mode.withdrawCount := 0 }) (by simp) (by simp)
  simp only []
  cases hw : withdrawLanes allLanes { changeMode .withdrawing s with
      mode.target := t, mode.requested := t.asRequest, mode.withdrawCount := 0 } with
  | abandoned u => rw [hw] at h; exact h.1
  | on u =>
    obtain ⟨a, b⟩ := h.2 u hw
    simp only [Course.finally_on, Course.state_on]
    exact exitCheck_quiet (Quiet_active (by simpa using a) (by simpa using b))

theorem readMap_quiet {s : State} (h : s.Quiet) : (readMap s).state.Quiet := by
  unfold readMap
  simp only []
  split
  · exact mapQueueFailed_quiet (Quiet_of_eq h (by simp) (.inl (by simp)) (.inl (by simp)) (by simp))
  · exact Quiet_of_eq h (by simp) (.inl (by simp)) (.inl (by simp)) (by simp)

theorem readQueue_quiet {s : State} (h : s.Quiet) : (readQueue s).state.Quiet := by
  unfold readQueue
  simp only []
  split
  · exact mapQueueFailed_quiet (Quiet_of_eq h (by simp) (.inl (by simp)) (.inl (by simp)) (by simp))
  · exact Quiet_of_eq h (by simp) (.inl (by simp)) (.inl (by simp)) (by simp)

/-- Lanes reconciled at a station that may send. -/
theorem reconcileLanes_quiet (ls : List LaneNo) : ∀ {s : State}, s.mode.actual ≠ .off → s.mode.actual ≠ .listen →
    (reconcileLanes ls s).state.Quiet := by
  induction ls with
  | nil => intro s h1 h2; exact Quiet_active h1 h2
  | cons l ls ih =>
    intro s h1 h2
    have hm := readMap_quiet (Quiet_active h1 h2)
    unfold reconcileLanes
    cases ha : readMap s with
    | abandoned u => rw [ha] at hm; exact hm
    | on u =>
      obtain ⟨a, x, e, rfl⟩ := readMap_on ha
      have hq := readQueue_quiet (s := { s with alloc := a, alerts := x, errorRecord := e }) (Quiet_active h1 h2)
      simp only [Course.next_on]
      cases hb : readQueue { s with alloc := a, alerts := x, errorRecord := e } with
      | abandoned u => rw [hb] at hq; exact hq
      | on u =>
        obtain ⟨a2, x2, e2, rfl⟩ := readQueue_on hb
        have hs := readStreams_quiet (ls := [l]) (box := true)
          (s := { s with alloc := a2, alerts := x2, errorRecord := e2 }) (Quiet_active h1 h2)
        simp only [Course.next_on]
        cases hc : readStreams [l] true { s with alloc := a2, alerts := x2, errorRecord := e2 } with
        | abandoned u => rw [hc] at hs; exact hs
        | on u =>
          obtain ⟨c, al, e3, rfl, -⟩ := readStreams_on hc
          simp only [Course.next_on]
          exact ih (by simpa using h1) (by simpa using h2)

theorem enterJoining_quiet {s : State} : (enterJoining s).Quiet := by
  unfold enterJoining
  simp only []
  split
  · exact Quiet_active (by simp [leaveOff]) (by simp [leaveOff])
  · split
    · exact Quiet_active (by simp) (by simp)
    · exact Quiet_active (by simp) (by simp)

theorem silenceNotice_quiet {s : State} (h : s.Quiet) : (silenceNotice s).Quiet := by
  have h1 : (restartSilence s).Quiet := Quiet_of_eq h rfl (.inl rfl) (.inl rfl) rfl
  unfold silenceNotice
  simp only []
  split
  · exact h
  · split
    · exact Quiet_of_eq h1 rfl (.inl rfl) (.inl rfl) rfl
    · exact h1
  · exact Quiet_of_eq h1 (by simp) (.inl (by simp)) (.inl (by simp)) (by simp)
  · exact Quiet_active (by simp [silenceInResync]) (by simp [silenceInResync])
  · rename_i hm; exact endWithdrawal_quiet (s := restartSilence s) hm
  · exact h1

/-- That a station in OFF or LISTEN is quiet is closed under the parts of an event. -/
theorem closed_quiet : Closed (fun _ _ => True) State.Quiet where
  fits _ := trivial
  okOf _ := trivial
  okMove _ _ _ := trivial
  data := by
    intro s t h ⟨h1, _, _, _, _, _, h7, h8, h9, _, _⟩
    exact Quiet_of_eq h h1 h7 h8 h9
  streams := readStreams_quiet
  deliver := deliver_quiet
  lane := by
    intro l f s hf h hm
    obtain ⟨a, b, c, d⟩ := h hm
    refine ⟨a, b, c, fun k => ?_⟩
    unfold updateLane
    rw [lane_putLane]
    split
    · rw [hf]; exact d l
    · exact d k
  failed := mapQueueFailed_quiet
  phase _ h := Quiet_of_eq h rfl (.inl rfl) (.inl rfl) rfl
  silence _ h := Quiet_of_eq h rfl (.inl rfl) (.inl rfl) rfl
  sent h1 h2 _ _ := Quiet_active h1 h2
  report ho he h := controlReport_quiet ho he h
  reconciled hm _ := Course.finally_keeps (reconcileLanes_quiet allLanes (by rcases hm with hm | hm <;> rw [hm] <;> simp)
    (by rcases hm with hm | hm <;> rw [hm] <;> simp)) fun _ => exitCheck_quiet
  joined _ _ := Quiet_active (by simp) (by simp)
  resync _ _ := Quiet_active (by simp [enterResync]) (by simp [enterResync])
  fault := faultEntry_quiet
  withdraw _ _ _ := enterWithdrawing_quiet
  ended hm _ := endWithdrawal_quiet hm
  counted := by
    intro s hm h
    have h1 : ({ s with mode.withdrawCount := s.mode.withdrawCount + 1 } : State).Quiet :=
      Quiet_of_eq h rfl (.inl rfl) (.inl rfl) rfl
    unfold countWithdrawal
    rw [if_pos hm]
    simp only []
    split
    · exact endWithdrawal_quiet hm
    · exact h1
  attempt := by
    intro s h
    have h1 : ({ s with cycle.resyncAttempts := s.cycle.resyncAttempts + 1 } : State).Quiet :=
      Quiet_of_eq h rfl (.inl rfl) (.inl rfl) rfl
    unfold countAttempt
    split
    · simp only []
      split
      · exact faultEntry_quiet h1
      · exact h1
    · exact h
  toListen _ _ := listenFromLearning_quiet
  toOff _ _ := offFromLearning_quiet
  silent := silenceNotice_quiet
  leave := by
    intro s hm h
    obtain ⟨a, b, c, d⟩ := h (.inl hm)
    have hl := changeMode_cut (m := .listen) (.inr rfl) s
    have hs := changeMode_closed .listen d
    refine Quiet_mk ?_ ?_ ?_ ?_
    · simp [listenFromOff, leaveOff, hl]
    · simp [listenFromOff, leaveOff, hl]
    · simpa [listenFromOff, leaveOff, hs] using c
    · intro k; simpa [listenFromOff, leaveOff, hs] using d k
  join _ _ := enterJoining_quiet
  off hm h := enterOff_quiet (h (.inr hm)).2.2.2 (h (.inr hm)).2.2.1
  opened := by
    intro p s hm _
    have h1 : s.mode.actual ≠ .off := by intro hx; rw [hx] at hm; cases hm
    have h2 : s.mode.actual ≠ .listen := by intro hx; rw [hx] at hm; cases hm
    unfold openLane
    split
    · exact Quiet_active (by simpa using h1) (by simpa using h2)
    · exact Quiet_active (by simpa using h1) (by simpa using h2)
  closed := by
    intro l s h
    refine exitCheck_quiet ?_
    by_cases hm : s.mode.actual = .off ∨ s.mode.actual = .listen
    · have hc : (laneOfState s l).state = .closed := (h hm).2.2.2 l
      unfold endLane
      rw [hc]
      exact h
    · simp only [not_or] at hm
      exact Quiet_active (by simp [hm.1]) (by simp [hm.2])
  restart hm _ := Quiet_active (by simp [hm]) (by simp [hm])
  retarget _ _ h := Quiet_of_eq h rfl (.inl rfl) (.inl rfl) rfl
  head := by
    intro s h
    unfold checkOutboxHead
    split
    · exact h
    · rename_i w ws hw
      intro hm
      have := (h (by simpa using hm)).2.2.1
      rw [hw] at this
      cases this
  headFailed := streamsFailed_quiet
  reset := by
    intro s _
    refine Quiet_mk rfl rfl rfl fun l => ?_
    simp [resetStation, State.reset, StreamController.reset, Stored.fresh, Lane.default]

end Sys2Proof.Machine
end

