-- ==== Sys2Proof/Laws/Readback.lean ====
section
/-! SUPPORT. The readback of an own field (R2), and one bit time of a message on the line (R4, R8). -/

namespace Sys2Proof.Machine

/-! ## Readback -/

theorem readbackOf_good {sent read : List Bool} : readbackOf sent read = .good ↔ read = sent := by
  unfold readbackOf
  split <;> simp_all

/-- A field that reads back as sent is driven to its end. -/
@[simp] theorem drivenBits_self (bits : List Bool) : drivenBits bits bits = bits := by
  induction bits with
  | nil => rfl
  | cons b bs ih => simp [drivenBits, ih]

/-- What reads back as sent is driven, and what follows goes by itself. -/
theorem drivenBits_append (pre sent read : List Bool) :
    drivenBits (pre ++ sent) (pre ++ read) = pre ++ drivenBits sent read := by
  induction pre with
  | nil => rfl
  | cons b bs ih => simp [drivenBits, ih]

/-- The bit that reads back otherwise is the last one driven. -/
theorem drivenBits_differs {x y : Bool} (h : x ≠ y) (sent read : List Bool) :
    drivenBits (x :: sent) (y :: read) = x :: recessive sent.length := by
  simp [drivenBits, h]

/-- Bits that two senders have in common stand on the line. -/
theorem lineOf_append (pre : List Bool) (as bs : List Bool) : lineOf (pre ++ as) (pre ++ bs) = pre ++ lineOf as bs := by
  induction pre with
  | nil => rfl
  | cons b bs ih => simp [lineOf, ih]

/-- Where two fields first differ, the line carries on with the one that is dominant there. -/
theorem lineOf_dominant (as bs : List Bool) : lineOf (false :: as) (true :: bs) = false :: as := by simp [lineOf]

/-! ## A bit time -/

/-- One bit time of a message changes nothing but its count. -/
theorem tickMessage_eq (s : State) : ∃ n, tickMessage s = { s with line.messageBits := n } := by
  unfold tickMessage
  split <;> exact ⟨_, rfl⟩

@[simp] theorem tickMessage_frame (s : State) :
    (tickMessage s).cycle = s.cycle ∧ (tickMessage s).mode = s.mode ∧ (tickMessage s).alloc = s.alloc ∧
    (tickMessage s).streams = s.streams ∧ (tickMessage s).lanes = s.lanes ∧ (tickMessage s).notes = s.notes ∧
    (tickMessage s).port = s.port ∧ (tickMessage s).alerts = s.alerts ∧
    (tickMessage s).errorRecord = s.errorRecord ∧ (tickMessage s).pins = s.pins ∧
    (tickMessage s).pending = s.pending ∧ (tickMessage s).line.onLine = s.line.onLine ∧
    (tickMessage s).line.silenceTimer = s.line.silenceTimer := by
  obtain ⟨n, h⟩ := tickMessage_eq s
  simp [h]

/-! ## A cut by the bit time (R13) -/

/-- Cut in its contention a control message has lost its arbitration. -/
theorem messageCut_contends {s : State} (h : s.line.messageBits < 17) (b : Body) :
    messageCut .outbox b s = cutControl controlLost b s ∧ messageCut .note b s = noteLost s := by
  have hc : contending s = true := decide_eq_true h
  simp [messageCut, hc]

/-- Cut later it is a readback mismatch in a window that the station has won. -/
theorem messageCut_body {s : State} (h : 17 ≤ s.line.messageBits) (b : Body) :
    messageCut .outbox b s = cutControl controlMismatch b { s with line.wonWindow := true } ∧
    messageCut .note b s = noteCompleted .mismatch .none { s with line.wonWindow := true } := by
  have hc : contending s = false := decide_eq_false (Nat.not_lt.mpr h)
  simp [messageCut, hc]

end Sys2Proof.Machine
end

