-- ==== Sys2Proof/Tests/Slice0.lean ====
section
/-! SUPPORT. Tests of this model's author: what `wellFormed` refuses, single steps on small states, and for each
statement with hypotheses a state that meets them all, clause by clause. -/

namespace Sys2Proof.Tests

open Sys2Proof Sys2Proof.Machine

/-! ## What the check of operands refuses -/

/-- A summary entry. -/
def entry0 : SummaryEntry := { station := 2, lane := 1, label := 9, count := 3, cls := .normal, ret := false, age := 0 }

/-- A mark with the default stamp. -/
def mark (cycle : CycleNo) (summary : List SummaryEntry) : MarkContents :=
  { cycle := cycle, marker := 1, patience := 40, reclaim := 8, summary := summary }

def note (kind : Fin 4) (number : Station) (payload : List Byte) : NoteContents := ⟨kind, number, payload⟩

theorem test_summary_of_seventeen_refused :
    (Instr.markReceived (.intact (mark 5 (List.replicate 17 entry0)))).wellFormed = false ∧
    (Instr.markReceived (.intact (mark 5 (List.replicate 16 entry0)))).wellFormed = true := by decide

theorem test_empty_note_refused : (Instr.windowEnded (.intact 3 (.note (note 2 0 [])))).wellFormed = false := by decide

theorem test_long_note_refused :
    (Instr.windowEnded (.intact 3 (.note (note 2 0 (List.replicate 33 0))))).wellFormed = false ∧
    (Instr.windowEnded (.intact 3 (.note (note 2 0 (List.replicate 32 0))))).wellFormed = true := by decide

theorem test_check_sequence_of_group_note_refused :
    (Instr.noteCheckSequenceReceived (.intact 3 (note 1 0 [1]))).wellFormed = false := by decide

theorem test_check_sequence_of_empty_note_refused :
    (Instr.noteCheckSequenceReceived (.intact 3 (note 0 0 []))).wellFormed = false ∧
    (Instr.noteCheckSequenceReceived (.intact 3 (note 0 0 [1]))).wellFormed = true := by decide

theorem test_answer_on_mismatch_refused :
    (Instr.ownTransmissionCompleted .mismatch .ack).wellFormed = false ∧
    (Instr.ownTransmissionCompleted .mismatch .none).wellFormed = true := by decide

theorem test_attempt_limit_with_ack_refused :
    (Instr.noteAttemptLimit .ack).wellFormed = false ∧ (Instr.noteAttemptLimit .busy).wellFormed = true := by decide

theorem test_send_note_payload_refused :
    (Instr.sendNote 1 2 0 0 []).wellFormed = false ∧
    (Instr.sendNote 1 2 0 33 (List.replicate 33 0)).wellFormed = false ∧
    (Instr.sendNote 1 2 0 1 [7]).wellFormed = true := by decide

set_option maxRecDepth 20000 in
theorem test_good_frame_is_no_failed_check :
    (Instr.frameCheckFailed 0x01 0 [] (frameCrc [0x01, 0])).wellFormed = false ∧
    (Instr.frameCheckFailed 0x01 0 [] (frameCrc [0x01, 0] + 1)).wellFormed = true := by decide

theorem test_failed_check_with_other_length_refused :
    (Instr.frameCheckFailed 0x01 2 [5] 0).wellFormed = false ∧
    (Instr.frameCheckFailed 0x01 41 [5] 0).wellFormed = false ∧
    (Instr.frameCheckFailed 0x01 41 [] 0).wellFormed = true := by decide

/-! ## Check sequences and layouts -/

/-- The nine bytes whose check sequences are published for each generator. -/
def digits : List Byte := [0x31, 0x32, 0x33, 0x34, 0x35, 0x36, 0x37, 0x38, 0x39]

set_option maxRecDepth 20000 in
theorem test_frame_crc : frameCrc digits = 0x29B1 := by decide

set_option maxRecDepth 20000 in
theorem test_line_crc : lineCrc (byteBits digits) = 0xFEE8 := by decide

set_option maxRecDepth 20000 in
theorem test_tag_crc : tagCrc (byteBits digits) = 0xF4 := by decide

theorem test_bits_most_significant_first : bitsOf 6 5 = [false, false, false, true, false, true] := by decide

theorem test_release_bits : (messageBits 5 (.release 3)).map (·.take 12) =
    some [false, false, true, false, false, false, true, false, true, false, true, true] := by decide

theorem test_answer_collision_reads_busy : readAnswer (false, false) = .busy ∧ readAnswer (false, true) = .ack := by
  decide

theorem test_seventeen_entries_read_damaged :
    readMark (bitsOf 34 0 ++ bitsOf 5 17 ++ List.replicate 585 true) = .damaged := by decide

set_option maxRecDepth 20000 in
theorem test_frame_of_close_stream :
    commandFrame (.closeStream 5) = some ([0x11, 1, 5] ++ bytes16 (frameCrc [0x11, 1, 5])) := by decide

/-! ## Small states -/

/-- A station on the bus in a mode and a learning phase. -/
def at_ (m : Mode) (p : Phase) : State :=
  { State.reset with
    mode.actual := m, cycle.phase := p, line.framed := true, line.driverEnable := true, line.silenceTimer := some 3
    pins.station := 7 }

/-- A learned MEMBER station. -/
def member : State := at_ .member .learned

/-- An entry of station 2, lane 1. -/
def held0 : HeldEntry :=
  { holder := 2, lane := 1, label := 9, cls := .normal, ret := false, part := 0, count := 1, silence := 0,
    lastUse := .none, mark := .none }

def withSlot (n : Slot) (h : HeldEntry) (s : State) : State :=
  { s with alloc.map := s.alloc.map.set n (.fresh (.held h)) }

/-- A queue entry of station 2, lane 3. -/
def claim0 : QueueEntry := { station := 2, lane := 3, label := 8, count := 2, cls := .normal, ret := false, age := 4 }

def withQueue (q : List QueueEntry) (s : State) : State := { s with alloc.queue := q.map .fresh }

def withLane (l : LaneNo) (r : Lane) (s : State) : State := { s with streams.lanes := s.streams.lanes.set l (.fresh r) }

/-- A lane that holds slot 5. -/
def heldLane : Lane := { Lane.default with state := .held, slots := [5] }

def withBox (es : List OutboxEntry) (s : State) : State := { s with streams.outbox := es.map .fresh }

def withOnLine (f : OwnField) (s : State) : State := { s with line.onLine := some f }

def tag0 : TagContents :=
  { holder := 2, lane := 1, label := 9, part := 0, countCode := 0, cls := .normal, ret := false, use := .live,
    sample := 0x123456 }

def txNote (k : DestKind) (st : NoteState) : TxNote :=
  { tag := 5, kind := k, number := 3, payload := [1], state := st, attempts := 0, countdown := 0, outcome := none,
    ending := .none, control := .clean, body := .clean }

/-- A DONE note, as it stands ahead of the one that is sent. -/
def doneNote : TxNote := { txNote .all .done with tag := 4, outcome := some .sent, attempts := 1 }

def withNotes (ns : List TxNote) (s : State) : State := { s with notes.tx := ns }

/-- The state a command leaves. -/
def after (i : Instr) (s : State) : Option State :=
  match exec i s with
  | .next t => some t
  | _ => none

/-- The status and payload of the response a command leaves. -/
def response (i : Instr) (s : State) : Option (Status × List Byte) :=
  ((after i s).bind (·.port.response)).map fun r => (r.status, r.payload)

/-- Whether every HELD entry has a property. -/
def everyHeld (s : State) (p : HeldEntry → Bool) : Bool :=
  allSlots.all fun n => match entryAt s n with
    | .free => true
    | .held h => p h

theorem of_everyHeld {s : State} {p : HeldEntry → Bool} (e : everyHeld s p = true) :
    ∀ n h, entryAt s n = .held h → p h = true := by
  intro n h hn
  have hm := List.all_eq_true.mp e n (List.mem_finRange n)
  simpa [hn] using hm

/-! ## Single steps -/

theorem test_status_after_reset : response .status State.reset =
    some (.done, [0, 0, 0, 0, 0, 0, 0, 0, 0, 0, 0, 0, 40, 8, 4, 2, 0, 0]) := by decide

theorem test_listen_from_off : (after (.setMode 1) State.reset).map (fun t => (t.mode.actual, t.cycle.phase)) =
    some (.listen, .adopt) := by decide

theorem test_sample_word : (after .wordPeriodBegin { member with
      lanes.rxFifo := member.lanes.rxFifo.set 3 [.fresh 0xABCDEF], lanes.lastServed := 3 }).map (·.lanes.period) =
    some (some { out := 0xB0ABCDEF, collected := [] }) := by decide

set_option maxRecDepth 20000 in
/-- A word is handed on once: a second end finds no period in progress. -/
theorem test_incoming_word :
    (let s : State := { withLane 3 heldLane member with lanes.period := some { out := 0, collected := [] } };
      (after (.wordPeriodEnd 0xBF000001) s).map (fun t => (t.lanes.txFifo.get 3, t.lanes.period, t.lanes.smpSync)) =
        some ([.fresh 1], none, false) ∧
      ((after (.wordPeriodEnd 0xBF000001) s).bind (after (.wordPeriodEnd 0xBF000001))).map
        (fun t => t.lanes.txFifo.get 3) = some [.fresh 1]) := by decide

/-- A WITHDRAWING station that meets a conflict and reaches LISTEN at its sixteenth mark does not verify the next mark, which its
verify would pass, but takes it as its step (a); without the conflict it is learned. -/
theorem test_map_found_wrong_is_relearned :
    ∀ conflict : Bool,
      ((after (.tagReceived 6 (if conflict then .intact tag0 else .silent)) { at_ .withdrawing .learned with
          mode.target := .listen, mode.withdrawCount := 15 }).bind
        (after (.markReceived (.intact (mark 1 [])))) |>.bind (after (.markReceived (.intact (mark 2 []))))).map
        (fun t => (t.mode.actual, t.cycle.phase)) = some (.listen, if conflict then .rebuild else .learned) := by decide

/-- The first bit of SMPIN is collected at the edge that begins the period, and SMPOUT drives bits 31 and 30 of the word at the
two falling edges that follow, with no change at the rising edge between them. -/
theorem test_edges_of_a_period :
    (let s0 : State := { member with lanes.rxFifo := member.lanes.rxFifo.set 0 [.fresh 1] };
      let s1 := risingEdge true true (risingEdge false true s0);
      let s2 := fallingEdge s1;
      let s3 := risingEdge false false s2;
      [s1, s2, s3, fallingEdge s3].map smpOutLevel = [false, true, true, false] ∧
      s3.lanes.period = some { out := 0x80000001, collected := [true, false] }) := by decide

/-- The loser of a founding contention in phase VERIFY with cycle number 65535 and an empty queue takes the winner's founding
mark, which its verify would pass, as its step (a). -/
theorem test_loser_adopts_the_winners_mark :
    ((after .arbitrationLost { at_ .joining .verify with
        line.contention := .founding, cycle.cycleNumber := 65535, cycle.foundingPending := true }).bind
      (after (.markReceived (.intact { mark 0 [] with marker := 9 })))).map
      (fun t => (t.mode.actual, t.cycle.phase, t.cycle.cycleNumber, t.cycle.winnerMarkDue)) =
    some (.joining, .rebuild, 0, false) := by decide

/-- An entry purged ahead of a failing one has left the queue, so that the record names position 1. -/
theorem test_purge_records_the_position :
    ((after (.tagReceived 6 (.intact tag0)) { at_ .joining .rebuild with
        alloc.queue := [.fresh { claim0 with lane := 1 }, ⟨{ claim0 with lane := 4, label := 7 }, .double⟩] }).bind
      (after .slotFieldClosed)).map (·.errorRecord) = some (some ⟨.queue, 1, .double⟩) := by decide

/-- A tick that its queue service leaves at a double error in the map still ends with the position report. -/
theorem test_abandoned_tick_reports_positions :
    let e : QueueEntry := { claim0 with age := 39 };
    let f : QueueEntry := { claim0 with station := 7, lane := 4, label := 7 };
    (after (.markReceived (.intact (mark 1024 [e.toSummary, f.toSummary])))
      { withLane 4 { Lane.default with state := .waiting } (withQueue [e, f] (at_ .withdrawing .learned)) with
        cycle.cycleNumber := 1023, mode.target := .off
        alloc.map := member.alloc.map.set 0 ⟨.free, .double⟩ }).map
      (fun t => (t.alloc.queue.length, (laneOfState t 4).position, t.mode.actual)) =
    some (1, some 1, .withdrawing) := by decide

theorem test_claim_takes_lowest_slots :
    (after (.windowEnded (.intact 3 (.claim 4 0x21 2 .normal false false))) (withSlot 0 held0 member)).map
      (fun t => [(entryAt t 1).fields.map (fun h => (h.holder, h.part)), (entryAt t 2).fields.map (fun h => (h.holder, h.part))]) =
    some [some (3, 0), some (3, 1)] := by decide

theorem test_release_frees : (after (.windowEnded (.intact 2 (.release 1))) (withSlot 0 held0 member)).map
      (fun t => entryAt t 0) = some .free := by decide

theorem test_withdraw_leaves_queue : (after (.windowEnded (.intact 2 (.withdraw 3))) (withQueue [claim0] member)).map
      (·.alloc.queue) = some [] := by decide

theorem test_urgent_claim_revokes_newest_normal :
    (after (.windowEnded (.intact 3 (.claim 0 0x30 1 .urgent false false)))
      { member with alloc.map := .replicate 48 (.fresh (.held { held0 with count := 8 })) }).map
      (fun t => (entryAt t 0).fields.map (·.holder)) = some (some 3) := by decide

theorem test_tick_ages : (after (.markReceived (.intact (mark 1024 [{ entry0 with age := 4 }])))
      { withQueue [entryOfSummary { entry0 with age := 4 }] member with cycle.cycleNumber := 1023 }).map
      (fun t => t.alloc.queue.map (·.val.age)) = some [5] := by decide

theorem test_stamp_mismatch : (after (.markReceived (.intact { mark 1 [] with patience := 41 })) member).map
      (fun t => (t.mode.actual, t.mode.cause)) = some (.listen, .configMismatch) := by decide

theorem test_rebuild_enters_stream :
    ((after (.tagReceived 6 (.intact tag0)) (at_ .joining .rebuild)).bind (after .slotFieldClosed)).map
      (fun t => (t.cycle.phase, (entryAt t 6).fields.map (·.holder))) = some (.verify, some 2) := by decide

theorem test_queue_expiry : (after .queueEntryExpired (withQueue [{ claim0 with age := 40 }] member)).map (·.alloc.queue) =
    some [] := by decide

theorem test_short_fields_are_damaged :
    readMessage [] = .damaged ∧ readMark (recessive 39) = .damaged := by decide

theorem test_contention_bits : contentionBits 5 = [false, false, false, true, false, true] ∧
    lineOf (contentionBits 1) (contentionBits 2) = contentionBits 1 := by decide

set_option maxRecDepth 20000 in
theorem test_sdo_byte :
    (after .status member).map (fun t => (t.port.assembler, sdoByte t.port)) = some (.turnaround 0, some 0xFF) ∧
    sdoByte { member.port with assembler := .response 24, response := some ⟨.done, [7]⟩ } = some 1 ∧
    sdoByte { member.port with assembler := .idle } = none := by decide

/-- A next frame finds the station reset. -/
theorem test_armed_reset_precedes_a_frame : ((after .resetStation member).bind (after .status)).map
      (fun t => (t.mode.actual, t.port.resetArmed)) = some (.off, false) := by decide

/-! ## States that meet the hypotheses of the statements, clause by clause -/

set_option synthInstance.maxHeartbeats 400000
set_option synthInstance.maxSize 8192

/-! ### Steps, and the state right after a reset -/

theorem test_meets_StepTakesFront : ({ member with pending := [.status, .readLanes] } : State).pending =
    .status :: [.readLanes] := rfl

theorem test_meets_StepWithNothingWaiting :
    (let s : State := State.reset;
      s.pending = [] ∧ headInWindow s = false ∧ noteInWindow s = false ∧ s.port.assembler = .idle ∧
        s.line.silenceTimer = none ∧ s.port.lapse = none) ∧
    (let s : State := withOnLine (.message .note 7 .noKind) { member with line.silenceTimer := none };
      s.pending = [] ∧ noteInWindow s = true ∧ s.port.assembler = .idle ∧ s.line.silenceTimer = none ∧
        s.port.lapse = none) ∧
    (∀ k : Fin 2, let s : State := { member with line.silenceTimer := some (24574 + k.val) };
      s.pending = [] ∧ s.port.assembler = .idle ∧ s.line.silenceTimer = some (24574 + k.val) ∧
        (24574 + k.val + 1 < 24576 ↔ k = 0) ∧ s.mode.actual = .member ∧ s.port.lapse = none) ∧
    (∀ k : Fin 2, let s : State := { State.reset with port.lapse := some 2, port.lapseBits := 491518 + k.val };
      s.pending = [] ∧ s.port.assembler = .idle ∧ s.line.silenceTimer = none ∧ s.port.lapse = some 2 ∧
        (s.port.lapseBits + 1 < 491520 ↔ k = 0) ∧ (s.port.lapseBits + 1 = 491520 ↔ k = 1)) ∧
    (∀ k : Fin 2, let s : State := { State.reset with port.assembler := .turnaround (22 + k.val) };
      s.pending = [] ∧ s.line.silenceTimer = none ∧ s.port.lapse = none ∧ (22 + k.val + 1 < 24 ↔ k = 0)) ∧
    (∀ k : Fin 2, let s : State := { State.reset with
        port.assembler := .response (94 + k.val), port.response := some ⟨.done, []⟩ };
      s.pending = [] ∧ s.line.silenceTimer = none ∧ s.port.lapse = none ∧ s.port.response = some ⟨.done, []⟩ ∧
        (94 + k.val + 1 < 24 * (([] : List Byte).length + 4) ↔ k = 0)) ∧
    ∃ b, ([Status.done.code, byteOf 0] ++ [] ++ bytes16 (frameCrc ([Status.done.code, byteOf 0] ++ [])))[95 / 24]? =
      some b :=
  ⟨⟨rfl, by decide⟩, ⟨rfl, by decide⟩, fun k => ⟨rfl, by revert k; decide⟩, fun k => ⟨rfl, by revert k; decide⟩,
    fun k => ⟨rfl, by revert k; decide⟩, fun k => ⟨rfl, by revert k; decide⟩, _, rfl⟩

theorem test_meets_EveryCommandAnswersNext : isReset .status = false := rfl

theorem test_meets_ResetsGiveResetValues : ({ member with pins.resetnLow := true } : State).pins.resetnLow = true := rfl

theorem test_meets_ResetStationActsAtCsn :
    member.HostReady ∧ (let s : State := { member with port.resetArmed := true }; s.Running ∧ s.port.resetArmed = true) ∧
    codeAndPayload .status ≠ none := by decide

theorem test_meets_NothingWhileHeldOffOrUnframed :
    ({ member with pins.resetnLow := true } : State).pins.resetnLow = true ∧ isReset .driverFault = false ∧
    State.reset.mode.actual = .off ∧ isLineEvent .lineSilence = true ∧
    State.reset.line.framed = false ∧ isFramedEvent .windowStart = true := by decide

/-! ### Invariants -/

/-- A step that changes the mode: OFF to LISTEN. -/
theorem test_meets_LegalModeKept : ∃ t, ({ State.reset with pending := [.setMode 1] } : State).Legal ∧
    step { State.reset with pending := [.setMode 1] } = .next t ∧ t.mode.actual = .listen :=
  ⟨_, by decide, rfl, rfl⟩

theorem test_meets_QuietInOffAndListenKept : ∃ t, ({ State.reset with pending := [.setMode 1] } : State).Quiet ∧
    step { State.reset with pending := [.setMode 1] } = .next t ∧ t.mode.actual = .listen :=
  ⟨_, by decide, rfl, rfl⟩

/-- A step that takes an entry from the queue. -/
def withdrawing : State := { withSlot 0 held0 (withQueue [claim0] member) with pending := [.windowEnded (.intact 2 (.withdraw 3))] }

theorem test_meets_StoredListsKept :
    ∃ t, withdrawing.ListsFit ∧ step withdrawing = .next t ∧ t.alloc.queue = [] := ⟨_, by decide, rfl, by decide⟩

theorem test_meets_SharedTablesAgreeKept :
    ∃ t, withdrawing.TablesAgree ∧ step withdrawing = .next t ∧ t.alloc.queue = [] := ⟨_, by decide, rfl, by decide⟩

/-! ### Marks -/

theorem test_meets_DamagedMarkAtALearnedStation :
    ∀ m ∈ [Mode.member, .listen], let s : State := withNotes [txNote .all .active, txNote .all .pending] (at_ m .learned);
      s.Running ∧ s.cycle.phase = .learned ∧ s.line.framed = true ∧ s.mode.actual = m ∧ s.NotesClean ∧
        ∃ n ∈ s.notes.tx, n.state = .pending := by decide

/-- An own entry waits; and the marks: equal, of another stamp, out of sequence, and out of sequence and unlawful. -/
theorem test_meets_IntactMarkAtALearnedStation :
    (∀ m ∈ [Mode.member, .listen, .withdrawing],
      let base : State := { at_ m .learned with mode.withdrawCount := 14 };
      let s : State := withBox [.withdraw 3] (withLane 3 { Lane.default with state := .waiting }
        (withQueue [{ claim0 with station := 7 }] base));
      s.Running ∧ s.cycle.phase = .learned ∧ s.QueueClean ∧ s.StreamsClean ∧ s.TablesAgree ∧ s.port.snap.armed = false ∧
        s.cycle.foundingMarkDue = false ∧ s.alloc.mapFoundWrong = false ∧ s.mode.actual = m ∧ s.mode.withdrawCount < 15 ∧
        s.alloc.queue[0]? = some (.fresh { claim0 with station := 7 }) ∧ own s = 7 ∧
        (laneOfState s 3).state = .waiting ∧ s.streams.outbox ≠ [] ∧
        (∀ e ∈ s.streams.outbox, e.val ≠ .restart ∧ ∀ l, e.val ≠ .claim l) ∧
        (let k := mark 1 [({ claim0 with station := 7 } : QueueEntry).toSummary];
          k.patience = s.port.config.patience ∧ k.reclaim = s.port.config.reclaim ∧
          k.cycle = s.cycle.cycleNumber + 1 ∧ lawful k = true ∧
          k.summary.map entryOfSummary = s.alloc.queue.map (·.val))) ∧
    (let k := { mark 1 [] with patience := 41 };
      k.summary.length ≤ 16 ∧ k.cycle.toNat % 1024 ≠ 0 ∧ ¬(k.patience = member.port.config.patience)) ∧
    (∀ es ∈ [[entry0], [entry0, entry0]], let k := mark 1023 es;
      k.summary.length ≤ 16 ∧ k.cycle.toNat % 1024 ≠ 0 ∧ k.patience = member.port.config.patience ∧
        k.reclaim = member.port.config.reclaim ∧ k.cycle ≠ member.cycle.cycleNumber + 1 ∧
        (lawful k = true ↔ es = [entry0])) := by decide

theorem test_meets_IntactMarkIsAdopted :
    ∀ m ∈ [Mode.listen, .joining, .resync, .withdrawing],
      let s : State := { at_ m .adopt with mode.withdrawCount := 14 };
      s.Running ∧ s.cycle.phase = .adopt ∧ s.mode.actual = m ∧ s.mode.withdrawCount < 15 ∧ s.port.snap.armed = false ∧
        s.line.onLine = none ∧ ∀ patience ∈ [(40 : Byte), 41], let k := { mark 1023 [entry0] with patience := patience };
          (k.patience = s.port.config.patience ↔ patience = 40) ∧ k.reclaim = s.port.config.reclaim ∧ lawful k = true ∧
          k.summary.length ≤ 16 ∧ k.cycle.toNat % 1024 ≠ 0 := by decide

theorem test_meets_IntactMarkIsAdopted_as_loser :
    let s : State := { at_ .joining .verify with cycle.winnerMarkDue := true };
      s.Running ∧ s.cycle.phase = .verify ∧ s.mode.actual = .joining ∧ s.cycle.winnerMarkDue = true ∧
        s.port.snap.armed = false ∧ s.line.onLine = none ∧ ∀ patience ∈ [(40 : Byte), 41],
          let k := { mark 1023 [entry0] with patience := patience };
          (k.patience = s.port.config.patience ↔ patience = 40) ∧ k.reclaim = s.port.config.reclaim ∧ lawful k = true ∧
          k.summary.length ≤ 16 ∧ k.cycle.toNat % 1024 ≠ 0 := by decide

theorem test_meets_VerifyPassMakesLearned (m : Mode) (hm : m = .listen ∨ m = .joining) :
    let s : State := withSlot 47 held0 (withQueue [claim0] (at_ m .verify));
    let k : MarkContents := mark 1 [claim0.toSummary];
    s.Running ∧ s.cycle.phase = .verify ∧
      (s.mode.actual = .listen ∨ s.mode.actual = .joining ∧ s.cycle.winnerMarkDue = false) ∧ s.alloc.mapFoundWrong = false ∧
      s.MapClean ∧ s.QueueClean ∧ s.StreamsClean ∧ s.StreamsIdle ∧ s.OwnsNothing ∧ s.alloc.heldNotices = [] ∧
      k.patience = s.port.config.patience ∧ k.reclaim = s.port.config.reclaim ∧ k.cycle = s.cycle.cycleNumber + 1 ∧
      summaryAgrees k s = true ∧ k.summary.length ≤ 16 ∧ k.cycle.toNat % 1024 ≠ 0 ∧ s.port.snap.armed = false := by
  rcases hm with rfl | rfl <;> decide

/-- A lane of this station in every state, with its CLAIM waiting and with none: found as a stream by a WITHDRAWING
station, in the queue by a RESYNC station, in neither table by a JOINING station. -/
theorem test_meets_VerifyPassReconciles :
    (∀ lane ∈ [(StreamState.closed, ([] : List OutboxEntry)), (.opening, []), (.opening, [.claim 1]), (.waiting, []),
      (.held, []), (.closing, []), (.cancelling, [.withdraw 1])], ∀ found : Fin 3,
      let mode : Mode := if found = 0 then .withdrawing else if found = 1 then .resync else .joining;
      let base : State := { at_ mode .verify with mode.target := .off, mode.withdrawCount := 14 };
      let laned : State := withBox lane.2 (withLane 1 { Lane.default with state := lane.1, slots := [5] } base);
      let s : State := if found = 0 then withSlot 47 { held0 with holder := 7 } laned
        else if found = 1 then withQueue [{ claim0 with station := 7, lane := 1 }] laned else laned;
      let m : MarkContents := mark 1 (s.alloc.queue.map fun w => w.val.toSummary);
      s.Running ∧ s.cycle.phase = .verify ∧ s.mode.actual = mode ∧ s.cycle.winnerMarkDue = false ∧
        s.alloc.mapFoundWrong = false ∧
        s.mode.withdrawCount < 15 ∧ s.mode.target ≠ .none ∧ s.MapClean ∧ s.QueueClean ∧ s.StreamsClean ∧ s.ListsFit ∧ s.TablesAgree ∧ s.alloc.heldNotices = [] ∧
        s.line.onLine = none ∧ m.patience = s.port.config.patience ∧ m.reclaim = s.port.config.reclaim ∧
        m.cycle = s.cycle.cycleNumber + 1 ∧ summaryAgrees m s = true ∧ m.summary.length ≤ 16 ∧
        m.cycle.toNat % 1024 ≠ 0 ∧ s.port.snap.armed = false ∧ (laneOfState s 1).state = lane.1 ∧
        (s.streams.outbox.map (·.val)).filter (fun e => decide (e.lane? = some 1)) = lane.2 ∧
        ((∃ h ∈ heldEntries s, h.holder = own s ∧ h.lane = 1) ↔ found = 0) ∧
        ((∃ w ∈ s.alloc.queue, w.val.station = own s ∧ w.val.lane = 1) ↔ found = 1)) ∧
    (∀ mode ∈ [Mode.joining, .resync, .withdrawing],
      let base : State := { at_ mode .verify with
        mode.target := .off, mode.withdrawCount := 14, alloc.heldNotices := [.fresh (.granted 1 [47] 5)] };
      let s : State := withLane 1 { Lane.default with state := .waiting, label := 9 }
        (withSlot 47 { held0 with holder := 7 } base);
      let m : MarkContents := mark 1 [];
      s.Running ∧ s.cycle.phase = .verify ∧ s.mode.actual = mode ∧ s.cycle.winnerMarkDue = false ∧
        s.alloc.mapFoundWrong = false ∧
        s.mode.withdrawCount < 15 ∧ s.mode.target ≠ .none ∧ s.MapClean ∧ s.QueueClean ∧ s.StreamsClean ∧ s.ListsFit ∧ s.TablesAgree ∧ s.line.onLine = none ∧
        m.patience = s.port.config.patience ∧ m.reclaim = s.port.config.reclaim ∧ m.cycle = s.cycle.cycleNumber + 1 ∧
        summaryAgrees m s = true ∧ m.summary.length ≤ 16 ∧ m.cycle.toNat % 1024 ≠ 0 ∧ s.port.snap.armed = false ∧
        s.alloc.heldNotices = [.fresh (.granted 1 [47] 5)] ∧ (laneOfState s 1).state = .waiting ∧
        streamSlots (own s) 1 s = [47] ∧ ∀ h ∈ heldEntries s, h.label = (laneOfState s 1).label ∧
          h.count = (laneOfState s 1).count ∧ h.cls = (laneOfState s 1).cls ∧ h.ret = (laneOfState s 1).ret) := by decide

/-- Two and three failures before, in either phase; and marks that fail: lawful out of sequence, and unlawful. -/
theorem test_meets_FailedMarksWhileLearning :
    (∀ m ∈ [Mode.resync, .listen, .joining], ∀ p ∈ [Phase.adopt, .verify], ∀ k : Fin 2,
      let s : State := withLane 0 heldLane { at_ m p with cycle.resyncAttempts := 2 + k.val };
      s.Running ∧ s.cycle.phase = p ∧ s.QueueClean ∧ s.mode.actual = m ∧ s.cycle.resyncAttempts = 2 + k.val ∧
        s.port.snap.armed = false ∧ (laneOfState s 1).state = .closed ∧
        (∀ es ∈ [[entry0], [entry0, entry0]], let c := mark 1023 es;
          c.patience = s.port.config.patience ∧ c.reclaim = s.port.config.reclaim ∧ c.summary.length ≤ 16 ∧
          c.cycle.toNat % 1024 ≠ 0 ∧ c.cycle ≠ s.cycle.cycleNumber + 1 ∧ (lawful c = true ↔ es = [entry0]))) := by
  decide

/-- A map found wrong at a LISTEN station, learned and in phase VERIFY, with a mark equal in all checks. -/
theorem test_meets_map_found_wrong :
    ∀ m ∈ [Mode.listen, .joining], ∀ p ∈ [Phase.learned, .verify],
      let s : State := { at_ m p with alloc.mapFoundWrong := true };
      s.Running ∧ s.cycle.phase = p ∧ s.QueueClean ∧ s.StreamsClean ∧ s.TablesAgree ∧ s.mode.actual = m ∧
        s.alloc.mapFoundWrong = true ∧ s.port.snap.armed = false ∧ s.cycle.foundingMarkDue = false ∧
        (mark 1 []).patience = s.port.config.patience ∧ (mark 1 []).reclaim = s.port.config.reclaim ∧
        (mark 1 []).summary.length ≤ 16 ∧ (mark 1 []).cycle.toNat % 1024 ≠ 0 := by decide

/-- The last mark before the limit and the mark that reaches it, in every phase and for both targets; and the limits. -/
theorem test_meets_WithdrawalEndsAtItsLimit :
    (∀ p ∈ [Phase.adopt, .verify, .learned], ∀ g ∈ [Target.off, .listen], ∀ k : Fin 3,
      let s : State := withLane 7 heldLane { at_ .withdrawing p with mode.withdrawCount := 14 + k.val, mode.target := g };
      s.Running ∧ s.QueueClean ∧ s.StreamsClean ∧ s.TablesAgree ∧ s.mode.actual = .withdrawing ∧ s.mode.target = g ∧
        s.mode.target ≠ .none ∧ (s.cycle.cycleNumber + 1).toNat % 1024 ≠ 0 ∧ s.cycle.phase = p ∧
        s.mode.withdrawCount = 14 + k.val ∧ (16 ≤ s.mode.withdrawCount ↔ k = 2)) ∧
    (let s : State := withLane 7 heldLane { at_ .resync .adopt with cycle.resyncAttempts := 4 };
      s.Running ∧ s.QueueClean ∧ s.StreamsClean ∧ s.TablesAgree ∧ s.mode.actual = .resync ∧
        4 ≤ s.cycle.resyncAttempts) := by decide

theorem test_meets_AgeTicksAndExpiries :
    (let s : State := withQueue [{ claim0 with age := 40 }, { claim0 with age := 39 }] (at_ .listen .rebuild);
      s.Running ∧ s.QueueClean ∧ s.mode.actual ≠ .off ∧ s.cycle.phase = .rebuild ∧
        ∀ w ∈ s.alloc.queue, w.val.station ≠ own s) ∧
    (∀ done : Bool, let base : State := { member with cycle.cycleNumber := 1024, cycle.tickDone := done };
      let s : State := withQueue [{ claim0 with age := 38 }] base;
      s.Running ∧ s.QueueClean ∧ s.mode.actual = .member ∧ s.cycle.phase = .learned ∧
        s.cycle.cycleNumber.toNat % 1024 = 0 ∧ (∀ w ∈ s.alloc.queue, w.val.age + 1 < s.port.config.patience.toNat) ∧
        s.cycle.tickDone = done) ∧
    (∀ m ∈ [Mode.member, .listen], ∀ full : Bool,
      let e : QueueEntry := { claim0 with station := 7, age := 39 };
      let f : QueueEntry := { claim0 with lane := 4, label := 7, count := 8, age := 38 };
      let base : State := withLane 3 { Lane.default with state := .waiting } { at_ m .learned with
        cycle.cycleNumber := 1023
        alloc.map := member.alloc.map.mapIdx fun n w => if !full || n.val < 7 then w else .fresh (.held held0) };
      let q : List QueueEntry := if m = .member then [e, f] else [f];
      let s : State := withQueue q base;
      let k := mark 1024 (q.map (·.toSummary));
      s.Running ∧ s.QueueClean ∧ s.StreamsClean ∧ s.MapClean ∧ s.cycle.phase = .learned ∧ s.mode.actual = m ∧
        s.alloc.mapFoundWrong = false ∧ k.patience = s.port.config.patience ∧ k.reclaim = s.port.config.reclaim ∧ k.cycle = s.cycle.cycleNumber + 1 ∧
        summaryAgrees k s = true ∧ k.summary.length ≤ 16 ∧ k.cycle.toNat % 1024 = 0 ∧ s.port.snap.armed = false ∧
        s.port.config.patience.toNat ≤ e.age + 1 ∧ ¬(s.port.config.patience.toNat ≤ f.age + 1) ∧ own s = 7 ∧
        (laneOfState s e.lane).state = .waiting ∧ f.cls = .normal ∧ f.station ≠ own s ∧
        ((freeSlots s).length < f.count ↔ full = true)) := by decide

/-! ### The slot field -/

/-- The first and the last slot, in each mode: a tag that matches, one that does not, and the tag of this station. -/
theorem test_meets_TagReportsByMode :
    ∀ m ∈ [Mode.member, .withdrawing, .listen], ∀ n ∈ [(0 : Slot), 47], ∀ c : Bool,
      let base : State := { at_ m .learned with line.txSlots := [n], alloc.fieldConflict := c };
      let s : State := withSlot n held0 base;
      s.Framed ∧ s.cycle.phase = .learned ∧ (s.alloc.map.get n).health = .clean ∧ s.mode.actual = m ∧
        s.alloc.fieldConflict = c ∧ entryAt s n = .held held0 ∧
        held0.holder = tag0.holder ∧ held0.lane = tag0.lane ∧ held0.label = tag0.label ∧ held0.part = tag0.part.val ∧
        n ∈ s.line.txSlots ∧ held0.label ≠ ({ tag0 with holder := 7, label := 8 } : TagContents).label := by decide

theorem test_meets_DuplicateStationIsReported :
    (∀ m ∈ [Mode.member, .listen], ∀ u ∈ [Use.live, .hold], ∀ won : Bool,
      let base : State := { at_ m .learned with line.wonWindow := won };
      let s : State := if m = .member then withLane 2 heldLane base else base;
      let g : TagContents := { tag0 with holder := 7, use := u };
      s.Framed ∧ g.holder = own s ∧ 47 ∉ s.line.txSlots ∧ g.use = u ∧ s.mode.actual = m ∧ s.StreamsClean ∧
        s.line.onLine = none ∧ s.line.wonWindow = won ∧ s.Quiet ∧ s.NotesIdle) := by decide

/-- An entry that selects, with 31 and with 32 words in its FIFO; and no entry that selects. -/
theorem test_meets_LiveTagIsDelivered :
    (∀ k : Fin 2, let e : ListenEntry := { enabled := true, label := 9, mask := 255, lane := 3, acceptOwn := false };
      let base := at_ .joining .adopt;
      let s : State := { base with
        lanes.listen := base.lanes.listen.set 15 e
        lanes.rxFifo := base.lanes.rxFifo.set 3 (List.replicate (31 + k.val) (.fresh 0)) };
      s.Framed ∧ s.cycle.phase = .adopt ∧ (tag0.holder = own s → 47 ∈ s.line.txSlots) ∧ tag0.use = .live ∧
        (e.enabled = true ∧ tag0.label &&& e.mask = e.label &&& e.mask ∧ (tag0.holder = own s → e.acceptOwn = true)) ∧
        s.lanes.listen.get 15 = e ∧ (∀ j < (15 : Fin 16), (s.lanes.listen.get j).enabled = false) ∧
        (s.lanes.rxFifo.get (s.lanes.listen.get 15).lane).length = 31 + k.val) ∧
    (let s : State := at_ .joining .adopt;
      s.Framed ∧ s.cycle.phase = .adopt ∧ ∀ k, (s.lanes.listen.get k).enabled = false) ∧
    ∀ s ∈ [member, at_ .listen .learned, at_ .withdrawing .learned, at_ .joining .verify, at_ .resync .rebuild],
      s.Framed ∧ (∀ k, (s.lanes.listen.get k).enabled = false) ∧ { tag0 with use := .hold }.use = .hold := by decide

set_option maxRecDepth 20000 in
/-- A tag that starts a resync, and one that shows a second station of this number, are delivered like any other. -/
theorem test_tag_is_delivered_whatever_the_map_says :
    ∀ st ∈ [(2 : Station), 7], let e : ListenEntry :=
        { enabled := true, label := 9, mask := 255, lane := 3, acceptOwn := true };
      let s : State := { member with lanes.listen := member.lanes.listen.set 15 e };
      (after (.tagReceived 47 (.intact { tag0 with holder := st })) s).map (fun t => (t.mode.actual, t.lanes.rxFifo.get 3)) =
        some (if st = 7 then .listen else .resync, [.fresh 0x123456]) := by decide

theorem test_meets_SlotFieldCloseCountsAndReclaims :
    (let s : State := withSlot 0 { held0 with mark := .heard } (withSlot 1 { held0 with lane := 2, mark := .damaged }
      (withSlot 2 { held0 with lane := 3, silence := 6 } member));
    s.Framed ∧ s.cycle.phase = .learned ∧ s.mode.actual = .member ∧ s.MapClean ∧
      everyHeld s (fun h => decide (h.silence + 1 < s.port.config.reclaim.toNat)) = true) ∧
    (∀ st ∈ [(2 : Station), 7], ∀ k : Fin 2, ∀ lane ∈ [(StreamState.held, [(5 : Slot)]), (.closing, [5]),
        (.cancelling, [5]), (.cancelling, [])],
      let h : HeldEntry := { held0 with holder := st, silence := 7 + k.val };
      let s : State := withLane 1 { Lane.default with state := lane.1, slots := lane.2 }
        (withSlot 0 h (withSlot 1 { held0 with lane := 2, silence := 6 } member));
      s.Framed ∧ s.cycle.phase = .learned ∧ s.mode.actual = .member ∧ s.MapClean ∧ s.alloc.queue = [] ∧
        (st = 7 ↔ st = own s) ∧ s.StreamsClean ∧ (laneOfState s 1).state = lane.1 ∧ (laneOfState s 1).slots = lane.2 ∧
        entryAt s 0 = .held h ∧ (s.port.config.reclaim.toNat ≤ h.silence ↔ k = 1) ∧
        everyHeld s (fun g => decide (if g.holder = st ∧ g.lane = 1
          then g.mark = .none ∧ s.port.config.reclaim.toNat ≤ g.silence + 1
          else g.silence + 1 < s.port.config.reclaim.toNat)) = true) := by decide

/-- A consistent tag of station 2, lane 1. -/
def rebuildTag0 : RebuildTag :=
  { slot := 47, holder := 2, lane := 1, label := 9, cls := .normal, ret := false, part := 0, count := 1 }

/-- In every mode that learns: an entry that stays, and one whose label the rebuilt map holds. -/
theorem test_meets_SlotFieldCloseRebuilds :
    ∀ m ∈ [Mode.listen, .joining, .resync, .withdrawing], ∀ x ∈ [(8 : Label), 9],
      let base : State := { at_ m .rebuild with alloc.rebuildList := [.fresh rebuildTag0] };
      let s : State := withQueue [{ claim0 with label := x }] base;
      let tags := s.alloc.rebuildList.map (·.val);
      s.Framed ∧ s.cycle.phase = .rebuild ∧ s.QueueClean ∧ (∀ w ∈ s.alloc.rebuildList, w.health = .clean) ∧
        (s.alloc.rebuildList.map fun w => w.val.slot).Nodup ∧
        (∀ g ∈ tags, g.label = rebuildTag0.label ∧ g.cls = rebuildTag0.cls ∧ g.ret = rebuildTag0.ret ∧
          g.count = rebuildTag0.count ∧
          g.part = (tags.filter fun k => k.holder = 2 ∧ k.lane = 1 ∧ k.slot < g.slot).length) ∧
        (tags.filter fun g => g.holder = 2 ∧ g.lane = 1).length = rebuildTag0.count ∧
        (∀ w ∈ s.alloc.queue, (w.val.label = rebuildTag0.label ∨ w.val.station = 2 ∧ w.val.lane = 1) ↔ x = 9) := by
  decide

/-- A purge that leaves nothing, a NORMAL head that does not fit, and a head that fits, this station's own, with one behind it
that does not: rebuilt slot 47 is held, so that 47 slots are FREE. -/
theorem test_meets_PurgeOfSome :
    ∀ k : Fin 3, let head : QueueEntry := { claim0 with station := 7, count := if k = 2 then 8 else 48 };
      let rest : List QueueEntry := if k = 2 then [{ claim0 with lane := 4, label := 10, count := 40 }] else [];
      let q : List QueueEntry := { claim0 with label := 9, lane := 5 } :: (if k = 0 then [] else head :: rest);
      let s : State := withQueue q { at_ .resync .rebuild with alloc.rebuildList := [.fresh rebuildTag0] };
      let stays (w : Stored QueueEntry) : Bool := !(w.val.label = rebuildTag0.label || w.val.station = 2 && w.val.lane = 1);
      let kept := s.alloc.queue.filter stays;
      let opened := allSlots.filter fun n => n ≠ rebuildTag0.slot;
      s.Framed ∧ s.cycle.phase = .rebuild ∧ s.QueueClean ∧ kept ≠ s.alloc.queue ∧ opened.length = 47 ∧
        (k = 0 → kept = []) ∧
        (k = 1 → kept = .fresh head :: [] ∧ head.cls = .normal ∧ opened.length < head.count) ∧
        (k = 2 → kept = .fresh head :: rest.map .fresh ∧ head.count ≤ opened.length ∧ head.station = own s ∧
          ∀ e ∈ rest, e.cls = .normal ∧ opened.length - head.count < e.count) := by decide

/-- The grant of a queue service that the purge calls is held, not told. -/
theorem test_purge_holds_its_notices :
    let e : QueueEntry := { claim0 with station := 7, lane := 4, label := 10, count := 1 };
    let s : State := withLane 4 { Lane.default with state := .waiting } (withQueue [{ claim0 with label := 9 }, e]
      { at_ .resync .rebuild with alloc.rebuildList := [.fresh rebuildTag0] });
    (after .slotFieldClosed s).map (fun t => (t.alloc.queue, t.alloc.heldNotices, (laneOfState t 4).state)) =
      some ([], [.fresh (.granted 4 [0] 0)], .waiting) := by decide

/-- A lane with a word, a lane without, a CANCELLING lane, and a slot of no lane; the last slot. -/
theorem test_meets_OwnSlotsAreTagged :
    (∀ st : Fin 2, let r : Lane := { heldLane with slots := [0, 47], count := 1, state := if st = 0 then .held else .cancelling };
      let base := withLane 6 r member;
      let s : State := { base with lanes.txFifo := base.lanes.txFifo.set 6 [.fresh 5] };
      s.Framed ∧ s.StreamsClean ∧ s.line.driverEnable = true ∧ s.mode.actual = .member ∧ 47 ∈ (laneOfState s 6).slots ∧
        (∀ k < (6 : LaneNo), (laneOfState s k).slots = []) ∧ (0 : Fin 8).val + 1 = (laneOfState s 6).count ∧
        (laneOfState s 6).slots[(1 : Fin 8).val]? = some 47 ∧ (∀ j < 1, (laneOfState s 6).slots[j]? ≠ some 47) ∧
        s.lanes.txFifo.get 6 = [.fresh 5] ∧ (laneOfState s 6).state = if st = 0 then .held else .cancelling) ∧
    (let s : State := withLane 6 { heldLane with gapCount := 65534 } member;
      s.Framed ∧ s.StreamsClean ∧ (laneOfState s 6).slots[(0 : Fin 8).val]? = some 5 ∧ (laneOfState s 6).state = .held ∧
        s.lanes.txFifo.get 6 = [] ∧ (laneOfState s 6).gapCount < 65535 ∧
        ∀ k, (47 : Slot) ∉ (laneOfState s k).slots) := by decide

/-! ### State Memory errors -/

theorem test_meets_MemoryErrorsAreHandled :
    (∀ d : Bool, let s : State := { member with
        alloc.map := member.alloc.map.set 47 ⟨.free, if d then .double else .single⟩ };
      s.Framed ∧ s.mode.actual = .member ∧ s.cycle.phase = .learned ∧ entryAt s 47 = .free ∧
        (s.alloc.map.get 47).health = if d then .double else .single) ∧
    (let s : State := { member with alloc.map := member.alloc.map.set 47 ⟨.held held0, .single⟩ };
      entryAt s 47 = .held held0 ∧ (s.alloc.map.get 47).health = .single) ∧
    (let r : Lane := { Lane.default with state := .cancelling, slots := [5, 47], count := 2 };
      let s : State := { member with streams.lanes := member.streams.lanes.set 7 ⟨r, .single⟩ };
      s.Framed ∧ s.mode.actual = .member ∧ (s.streams.lanes.get 7).health = .single ∧
        (∀ k, k ≠ 7 → (s.streams.lanes.get k).health = .clean) ∧ s.line.driverEnable = true ∧ r.slots[1]? = some 47 ∧
        (∀ j < 1, r.slots[j]? ≠ some 47) ∧ (∀ k < (7 : LaneNo), 47 ∉ (laneOfState s k).slots) ∧ 1 + 1 = r.count ∧
        ∀ k, 46 ∉ (laneOfState s k).slots) ∧
    (let s : State := { member with streams.lanes := member.streams.lanes.set 7 ⟨heldLane, .double⟩ };
      s.Framed ∧ s.mode.actual = .member ∧ (s.streams.lanes.get 7).health = .double ∧
        (∀ k, k ≠ 7 → (s.streams.lanes.get k).health = .clean) ∧ s.line.onLine = none) := by decide

/-- A failing lane, alone and with another behind it, in each mode, and a failing word of the outbox behind another. -/
theorem test_meets_StreamErrorsAtHostCommands :
    (∀ mp ∈ [(Mode.off, Phase.idle), (.listen, .learned), (.joining, .adopt), (.member, .learned), (.resync, .adopt),
        (.withdrawing, .learned)], ∀ other ∈ [Health.clean, .double],
      let s : State := { at_ mp.1 mp.2 with
        streams.lanes := (member.streams.lanes.set 0 ⟨heldLane, .double⟩).set 7 ⟨heldLane, other⟩ };
      s.HostReady ∧ (0 : Byte).toNat = (0 : LaneNo).val ∧ s.mode.actual = mp.1 ∧ (s.streams.lanes.get 0).health = .double ∧
        (∀ k < (0 : LaneNo), (s.streams.lanes.get k).health = .clean) ∧
        ((∀ k, k ≠ 0 → (s.streams.lanes.get k).health = .clean) ↔ other = .clean)) ∧
    (1 ≤ (8 : Byte).toNat ∧ (8 : Byte).toNat ≤ 8 ∧ (7 : Byte).toNat < 8) ∧
    (∀ m ∈ [Mode.joining, .member, .resync, .withdrawing], ∀ h ∈ [Health.clean, .single],
      let s : State := { at_ m .adopt with streams.outbox := [⟨.release 0, h⟩] ++ ⟨.claim 1, .double⟩ :: [] };
      s.HostReady ∧ s.mode.actual = m ∧ (∀ k, (s.streams.lanes.get k).health = .clean) ∧ s.line.onLine = none ∧
        h ≠ .double) := by decide

/-- READ_LANES in LISTEN stops at the first failing lane: the next one keeps its failing word and is no record. -/
theorem test_read_lanes_stops_at_the_error :
    ([Mode.listen, .member].map fun m => (after .readLanes { at_ m .learned with
        streams.lanes := (member.streams.lanes.set 2 ⟨heldLane, .double⟩).set 5 ⟨heldLane, .double⟩ }).map fun t =>
      (t.mode.actual, (t.streams.lanes.get 2).health, (t.streams.lanes.get 5).health, t.errorRecord)) =
    [some (.listen, .clean, .double, some ⟨.streams, 2, .double⟩),
      some (.listen, .clean, .clean, some ⟨.streams, 5, .double⟩)] := by decide

/-- A READ_STREAM that meets a double error returns the record as rewritten, in LISTEN and by way of the fault entry. -/
theorem test_read_stream_of_a_failing_lane :
    ([Mode.listen, .member].map fun m => response (.readStream 7) { at_ m .learned with
        streams.lanes := member.streams.lanes.set 7 ⟨heldLane, .double⟩ }) =
    List.replicate 2 (some (.done, streamRecord 7 { Lane.default with outcome := .fault, changed := true })) := by decide

/-- A received note. -/
def rxNote : RxNote := { sender := 2, kind := .all, payload := [1], cycle := 3 }

/-- A WITHDRAW over a failing entry behind a clean one and a RELEASE over a failing slot 47, in phase VERIFY and, in LISTEN and
WITHDRAWING, in phase LEARNED; and a failing tag behind a clean one in phase REBUILD. -/
theorem test_meets_ErrorsOutOfMember :
    (∀ mp ∈ [(Mode.listen, Phase.verify), (.joining, .verify), (.resync, .verify), (.withdrawing, .verify),
        (.listen, .learned), (.withdrawing, .learned)], ∀ r ∈ [Region.map, .queue],
      let s : State := if r = .map then { at_ mp.1 mp.2 with alloc.map := member.alloc.map.set 47 ⟨.free, .double⟩ }
        else { at_ mp.1 mp.2 with alloc.queue := [.fresh claim0] ++ ⟨{ claim0 with lane := 4, label := 7 }, .double⟩ :: [] };
      s.Framed ∧ s.line.onLine = none ∧ s.NotesIdle ∧ (3 : Station) ≠ own s ∧ s.mode.actual = mp.1 ∧
        s.cycle.phase = mp.2 ∧ (∀ m < (47 : Slot), (s.alloc.map.get m).health = .clean) ∧
        ((s.alloc.map.get 47).health = .double ↔ r = .map)) ∧
    (∀ m ∈ [Mode.listen, .joining, .resync, .withdrawing],
      let s : State := { at_ m .rebuild with
        alloc.rebuildList := [.fresh rebuildTag0] ++ ⟨{ rebuildTag0 with slot := 46 }, .double⟩ :: [] };
      s.Framed ∧ s.mode.actual = m ∧ s.cycle.phase = .rebuild) := by decide

/-- The station of a double error met in LISTEN: LEARNED relearns, VERIFY adopts with its tables, WITHDRAWING goes on. -/
theorem test_errors_out_of_member :
    ([(Mode.listen, Phase.learned), (.listen, .verify), (.resync, .verify), (.withdrawing, .learned)].map fun mp =>
      (after (.windowEnded (.intact 3 (.release 0))) { withQueue [claim0] (at_ mp.1 mp.2) with
        alloc.map := member.alloc.map.set 47 ⟨.free, .double⟩ }).map
        fun t => (t.mode.actual, t.cycle.phase, t.alloc.queue.length, (t.alloc.map.get 47).health)) =
    [some (.listen, .adopt, 0, .clean), some (.listen, .adopt, 1, .double), some (.resync, .adopt, 1, .double),
      some (.withdrawing, .learned, 1, .double)] := by decide

/-- Each region in turn: an entry behind a clean one, a word of receive lane 7, a word of transmit lane 6, a note by its
control word and by its payload, and a received note. -/
theorem test_meets_QueueLaneAndNoteErrors :
    (∀ h ∈ [Health.single, .double],
      let q : List (Stored QueueEntry) := [.fresh claim0] ++ ⟨{ claim0 with lane := 4, label := 7 }, h⟩ :: [];
      let s : State := { member with alloc.queue := q };
      s.Framed ∧ s.mode.actual = .member ∧ s.cycle.phase = .learned ∧ s.line.onLine = none ∧ s.NotesIdle ∧ s.MapClean ∧
        (3 : Station) ≠ own s ∧ everyHeld s (fun e => decide ¬(e.holder = 3 ∧ e.lane = 0)) = true ∧
        (∀ v ∈ s.alloc.queue, v.val.station ≠ 3)) ∧
    (∀ h ∈ [Health.single, .double], let s : State := { member with
        lanes.rxFifo := member.lanes.rxFifo.set 7 [⟨5, h⟩] };
      s.Running ∧ (∀ e < (7 : Fin 8), s.lanes.rxFifo.get (s.lanes.lastServed + 1 + e) = []) ∧
        s.lanes.lastServed + 1 + 7 = (7 : LaneNo) ∧ s.lanes.rxFifo.get 7 = [⟨5, h⟩]) ∧
    (let base : State := withLane 6 heldLane member;
      let s : State := { base with lanes.txFifo := base.lanes.txFifo.set 6 [⟨5, .double⟩] };
      s.Framed ∧ s.StreamsClean ∧ s.mode.actual = .member ∧ s.line.driverEnable = true ∧
        (laneOfState s 6).state = .held ∧ 5 ∈ (laneOfState s 6).slots ∧ (∀ k < (6 : LaneNo), 5 ∉ (laneOfState s k).slots) ∧
        s.lanes.txFifo.get 6 = [⟨5, .double⟩]) ∧
    (∀ hs ∈ [(Health.double, Health.clean), (.clean, .double), (.single, .clean)],
      ∀ st ∈ [NoteState.pending, .active, .done],
      let n : TxNote := { txNote .station st with control := hs.1, body := hs.2 };
      let d : TxNote := if st = .done then txNote .all .active else doneNote;
      let s : State := withNotes [d, n] member;
      s.Framed ∧ s.HostReady ∧ s.mode.actual = .member ∧ s.line.onLine = none ∧ s.streams.outbox = [] ∧
        s.line.driverEnable = true ∧ s.notes.tx = [d] ++ n :: [] ∧ (d.state = .done ↔ st ≠ .done) ∧ n.state = st ∧ n.countdown = 0 ∧ n.kind = .station ∧
        n.number = (3 : Station).val ∧
        (withOnLine (.message .note 7 .noKind) s).line.onLine = some (.message .note 7 .noKind)) ∧
    (let s : State := { member with notes.ring := [⟨rxNote, .double⟩] };
      s.HostReady ∧ s.notes.ring = ⟨rxNote, .double⟩ :: []) := by decide

/-! ### The message field: what the station sends -/

theorem test_meets_WindowStartTakesTheContender :
    (∀ e ∈ [OutboxEntry.claim 7, .release 7, .withdraw 7, .restart],
      ∀ mp ∈ [(Mode.member, Phase.learned), (.withdrawing, .verify), (.withdrawing, .learned), (.withdrawing, .adopt),
        (.listen, .learned), (.joining, .verify), (.resync, .verify)],
      let s : State := withBox [e] (at_ mp.1 mp.2);
      s.Framed ∧ s.line.onLine = none ∧ s.line.driverEnable = true ∧ s.StreamsClean ∧ s.streams.outbox = [.fresh e] ∧
        s.mode.actual = mp.1 ∧ s.cycle.phase = mp.2 ∧ (1 : Fin 16).val = (laneOfState s 7).count) ∧
    (∀ kind ∈ [DestKind.station, .group, .all], ∀ c : Fin 2, ∀ ds ∈ [[], [doneNote, doneNote]],
      let n : TxNote := { txNote kind .pending with countdown := c.val };
      let s : State := withNotes (ds ++ [n]) member;
      s.Framed ∧ s.line.onLine = none ∧ s.streams.outbox = [] ∧ s.line.driverEnable = true ∧
        s.notes.tx = ds ++ n :: [] ∧ (∀ d ∈ ds, d.state = .done) ∧
        n.state ≠ .done ∧ n.control = .clean ∧ n.body = .clean ∧ n.number = (3 : Station).val ∧
        s.mode.actual = .member ∧ n.countdown = c.val) ∧
    (let s : State := withNotes [txNote .all .pending] (at_ .resync .adopt);
      s.Framed ∧ s.mode.actual ≠ .member ∧ s.notes.tx = [txNote .all .pending]) := by decide

/-- A CLAIM of lane 7. -/
def claimBody : Body := .claim 7 0 1 .normal false false

theorem test_meets_ArbitrationLostKeepsTheMessage :
    (∀ c ∈ [Contention.mark, .founding], ∀ m ∈ [Mode.member, .joining],
      let s : State := { at_ m .learned with line.contention := c };
      s.Running ∧ s.mode.actual = m ∧ s.mode.actual ≠ .off ∧ s.line.contention = c) ∧
    (let s : State := withOnLine (.message .outbox 7 .restart) (withBox [.restart] member);
      s.Running ∧ s.mode.actual = .member ∧ s.line.contention = .none ∧
        s.line.onLine = some (.message .outbox 7 .restart) ∧ s.StreamsClean) ∧
    (∀ l x k c w r, Body.restart = .claim l x k c w r → (laneOfState member l).state ≠ .cancelling) ∧
    (∀ e ∈ [Ending.none, .abort, .discard], ∀ ds ∈ [[], [doneNote]],
      let n : TxNote := { txNote .station .active with ending := e };
      let s : State := withOnLine (.message .note 7 .restart) (withNotes (ds ++ [n]) member);
      s.Running ∧ s.mode.actual ≠ .off ∧ s.line.contention = .none ∧ s.line.onLine = some (.message .note 7 .restart) ∧
        s.notes.tx = ds ++ n :: [] ∧ (∀ d ∈ ds, d.state = .done) ∧ n.state = .active ∧ n.control = .clean ∧
        n.ending = e) ∧
    (let s : State := withOnLine (.message .outbox 7 claimBody) (withBox [.claim 7]
        (withLane 7 { Lane.default with state := .cancelling } member));
      s.Running ∧ s.line.contention = .none ∧ s.line.onLine = some (.message .outbox 7 claimBody) ∧
        s.mode.actual = .member ∧ s.StreamsClean ∧ (laneOfState s 7).state = .cancelling) := by
  refine ⟨by decide, by decide, ?_, by decide, by decide⟩
  intro l x k c w r h
  cases h

theorem test_meets_ControlMessageCompletes :
    (let s : State := { withOnLine (.message .outbox 7 .restart) (withBox [.restart] member) with
        line.driverFaultCount := 2 };
      s.Running ∧ s.mode.actual = .member ∧ s.StreamsClean ∧ s.line.onLine = some (.message .outbox 7 .restart) ∧
        s.streams.outbox = [.fresh .restart] ∧ s.line.driverFaultCount < 3) ∧
    (∀ l x k c w r, Body.restart = .claim l x k c w r → (laneOfState member l).state ≠ .cancelling) ∧
    (∀ l, Body.restart = .withdraw l → (laneOfState member l).closeOnWithdraw = false) ∧
    (let s : State := withOnLine (.message .outbox 7 claimBody) (withBox [.claim 7]
        (withLane 7 { Lane.default with state := .cancelling } member));
      s.Running ∧ s.mode.actual = .member ∧ s.StreamsClean ∧ s.line.onLine = some (.message .outbox 7 claimBody) ∧
        s.streams.outbox = [.fresh (.claim 7)] ∧ (laneOfState s 7).state = .cancelling) := by
  refine ⟨by decide, ?_, ?_, by decide⟩
  · intro l x k c w r h
    cases h
  · intro l h
    cases h

/-- Two and three mismatches before. -/
theorem test_meets_DriverFaultAtTheFourthMismatch :
    ∀ k : Fin 2, let s : State := withLane 7 heldLane (withOnLine (.tag 5 tag0)
        { member with line.driverFaultCount := 2 + k.val });
      s.Running ∧ s.line.onLine = some (.tag 5 tag0) ∧ s.mode.actual = .member ∧
        s.line.driverFaultCount = 2 + k.val ∧ (laneOfState s 7).state ≠ .closed := by decide

/-- A note of 2 and of 3 attempts of the default 4, in the last bit of its contention and the first of its body. -/
theorem test_meets_DriverFaultCutsTheNote :
    ∀ e ∈ [Ending.none, .abort], ∀ k : Fin 2, ∀ ds ∈ [[], [doneNote]],
      let n : TxNote := { txNote .group .active with attempts := 2 + k.val, ending := e };
      let s : State := withOnLine (.message .note 7 .noKind)
        (withNotes (ds ++ [n]) { member with line.messageBits := 16 + k.val });
      s.Running ∧ s.mode.actual = .member ∧ s.line.onLine = some (.message .note 7 .noKind) ∧
        s.notes.tx = ds ++ n :: [] ∧ (∀ d ∈ ds, d.state = .done) ∧
        n.state = .active ∧ n.control = .clean ∧ n.body = .clean ∧ (s.line.messageBits < 17 ↔ k = 0) ∧
        (s.port.config.noteAttempts ≤ n.attempts + 1 ↔ k = 1) := by decide

/-- The cut of a CLAIM closed in its window: its lane ends CANCELLED in the contention, and with the others later (R8, R13,
R102). -/
theorem test_cut_goes_by_the_bit_time :
    ∀ k : Fin 2, let r : Lane := { Lane.default with state := .cancelling };
      let s : State := withOnLine (.message .outbox 7 (.claim 3 0 1 .normal false false))
        (withBox [.claim 3] (withLane 3 r { member with line.messageBits := 16 + k.val }));
      (after .driverFault s).map (fun t => (laneOfState t 3).outcome) =
        some (if k = 0 then .cancelled else .fault) := by decide

/-- A message taken at a window start is in its first bit time, and each step on an empty queue is one more. -/
theorem test_bit_times_of_a_message :
    let s : State := withBox [.restart] { member with line.messageBits := 9 };
    (after .windowStart s).map (·.line.messageBits) = some 0 ∧
    (after .windowStart s).map (fun t => (tick (tick t)).line.messageBits) = some 2 ∧
    (tick { member with line.messageBits := 9 }).line.messageBits = 9 := by decide

/-- The last attempt but one and the last attempt of the default 4. -/
theorem test_meets_NoteIsJudgedAtCompletion :
    ∀ m ∈ [Mode.member, .withdrawing], ∀ e ∈ [Ending.none, .abort, .discard], ∀ k : Fin 2,
      ∀ kind ∈ [DestKind.station, .group, .all], ∀ ds ∈ [[], [doneNote]],
      let n : TxNote := { txNote kind .active with attempts := 2 + k.val, ending := e };
      let s : State := withOnLine (.message .note 7 .noKind)
        (withNotes (ds ++ [n]) { at_ m .learned with line.driverFaultCount := 2 });
      s.Running ∧ s.mode.actual = m ∧ s.line.onLine = some (.message .note 7 .noKind) ∧
        s.notes.tx = ds ++ n :: [] ∧ (∀ d ∈ ds, d.state = .done) ∧
        n.state = .active ∧ n.ending = e ∧ n.control = .clean ∧ n.body = .clean ∧ n.kind = kind ∧
        s.line.driverFaultCount < 3 ∧ (s.port.config.noteAttempts ≤ n.attempts + 1 ↔ k = 1) := by decide

theorem test_meets_SpacingAndAttemptLimit :
    ∀ (fresh : Bool) (k : Fin 3), ∀ ds ∈ [[], [doneNote, doneNote, doneNote]], let n : TxNote :=
        { txNote .station .active with countdown := k.val, attempts := if k = 0 then 3 else 4 };
      let s : State := { withNotes (ds ++ [n]) member with notes.countdownFresh := fresh };
      s.Framed ∧ s.line.onLine = none ∧ s.notes.tx = ds ++ n :: [] ∧ (∀ d ∈ ds, d.state = .done) ∧ n.state = .active ∧
        (∀ m ∈ ([] : List TxNote), m.state ≠ .active) ∧ s.notes.countdownFresh = fresh ∧ n.countdown = k.val ∧
        n.kind = .station ∧ n.control = .clean ∧ (s.port.config.noteAttempts ≤ n.attempts ↔ k ≠ 0) ∧
        (n.attempts < s.port.config.noteAttempts ↔ k = 0) := by decide

/-! ### The message field: what the station receives -/

/-- Three and four notes in the ring; a note for another station, and one that this station sent. -/
theorem test_meets_ReceivedNoteIsPlaced :
    (∀ k : Fin 2, let base : State := { member with notes.ring := List.replicate (3 + k.val) (.fresh rxNote) };
      let s : State := { base with port.config.groupEnable := true, port.config.groupNumber := 15 };
      s.Framed ∧ own s = 7 ∧ (note 0 7 [1]).kind = 0 ∧ (2 : Station) ≠ own s ∧ s.mode.actual = .member ∧
        s.notes.ring.length = 3 + k.val ∧ s.line.onLine = none ∧ s.NotesIdle ∧ (note 1 15 [1]).kind = 1 ∧
        s.port.config.groupEnable = true ∧ (15 : Station).val = s.port.config.groupNumber ∧
        (14 : Station).val ≠ s.port.config.groupNumber ∧ (note 2 0 [1]).kind = 2) ∧
    member.Framed ∧ (note 0 8 [1]).number ≠ own member := by decide

/-- A count of 1 and a count of 8, of another station and of this one, with exactly as many FREE slots. -/
theorem test_meets_ClaimTakesLowestFreeSlots :
    ∀ u ∈ [StreamState.opening, .cancelling], ∀ k ∈ [(1 : Fin 16), 8],
      let base : State := { member with
        alloc.map := member.alloc.map.mapIdx fun n w => if n.val < k.val then w else .fresh (.held held0) };
      let s : State := { withLane 7 { Lane.default with state := u } base with line.wonWindow := true };
      s.Framed ∧ s.cycle.phase = .learned ∧ s.mode.actual = .member ∧ s.MapClean ∧ s.alloc.queue = [] ∧
        s.line.onLine = none ∧ s.NotesIdle ∧ 1 ≤ k.val ∧ k.val ≤ 8 ∧ k.val ≤ (freeSlots s).length ∧
        everyHeld s (fun h => decide (h.label ≠ 0x33 ∧ ¬(h.holder = 7 ∧ h.lane = 7))) = true ∧ (2 : Station) ≠ own s ∧
        (7 : Station) = own s ∧ s.line.wonWindow = true ∧ s.StreamsClean ∧ (laneOfState s 7).state = u ∧
        (∀ e ∈ s.streams.outbox, e.val ≠ .claim 7) := by decide

/-- One NORMAL stream of station st, lane 7, in the slots above `free`. -/
def oneNormal (st : Station) (ret : Bool) (free : Nat) (q : Nat) : State :=
  let base : State := withLane 7 heldLane (withQueue (List.replicate q claim0) member)
  { base with alloc.map := base.alloc.map.mapIdx fun n w => if n.val < free then w else
    Stored.fresh (.held { held0 with holder := st, lane := 7, ret := ret, count := 8 }) }

/-- A victim of another station and of this one, with its return flag set and clear; a queue with room and a full one. -/
theorem test_meets_UrgentClaimPreempts :
    ∀ st ∈ [(3 : Station), 7], ∀ ret : Bool, ∀ q ∈ [0, 16], ∀ u ∈ [StreamState.held, .closing, .cancelling],
      let s : State := withLane 7 { heldLane with state := u } (oneNormal st ret 7 q);
      let h : HeldEntry := { held0 with holder := st, lane := 7, ret := ret, count := 8 };
      s.Framed ∧ s.cycle.phase = .learned ∧ s.mode.actual = .member ∧ s.MapClean ∧ s.QueueClean ∧
        s.line.onLine = none ∧ s.NotesIdle ∧ 1 ≤ (8 : Fin 16).val ∧ (8 : Fin 16).val ≤ 8 ∧ (2 : Station) ≠ own s ∧
        everyHeld s (fun g => decide (g.label ≠ 0x33 ∧ ¬(g.holder = 2 ∧ g.lane = 0) ∧ g = h)) = true ∧
        (∀ e ∈ s.alloc.queue, e.val.cls = .normal ∧ e.val.label ≠ 0x33 ∧ ¬(e.val.station = 2 ∧ e.val.lane = 0)) ∧
        h.cls = .normal ∧ entryAt s 47 = .held h ∧ (freeSlots s).length < (8 : Fin 16).val ∧
        (8 : Fin 16).val ≤ (freeSlots s).length + (streamSlots h.holder h.lane s).length ∧
        (8 : Fin 16).val ≤ (freeSlots s).length + normalTotal s ∧ (st = 7 ↔ h.holder = own s) ∧ s.StreamsClean ∧
        (laneOfState s h.lane).state = u ∧ (laneOfState s h.lane).slots ≠ [] ∧
        ((h.ret = true ∧ s.alloc.queue.length < 16) ↔ ret = true ∧ q = 0) := by decide

/-- The NORMAL stream of station 3 in slots 45 and 47, the NORMAL stream of station 4 in slot 46, slot 0 FREE, and URGENT
streams elsewhere. -/
def victim3 : HeldEntry := { held0 with holder := 3, lane := 7, label := 1, count := 2, ret := true }

def victim4 : HeldEntry := { held0 with holder := 4, lane := 6, label := 2, count := 1, ret := true }

def twoNormal : State :=
  { member with alloc.map := member.alloc.map.mapIdx fun n w =>
      if n.val = 0 then w
      else if n.val = 45 ∨ n.val = 47 then .fresh (.held victim3)
      else if n.val = 46 then .fresh (.held victim4)
      else .fresh (.held { held0 with cls := .urgent }) }

/-- Both are victims of a claim of 4 slots, that of station 3 first. -/
theorem test_meets_TwoVictims :
    let s : State := twoNormal;
    s.Framed ∧ s.cycle.phase = .learned ∧ s.mode.actual = .member ∧ s.MapClean ∧ s.QueueClean ∧ s.line.onLine = none ∧
      s.NotesIdle ∧ (5 : Station) ≠ own s ∧ victim3.holder ≠ own s ∧ victim4.holder ≠ own s ∧
      ¬(victim4.holder = victim3.holder ∧ victim4.lane = victim3.lane) ∧
      everyHeld s (fun g => decide (g.label ≠ 0x33 ∧ ¬(g.holder = 5 ∧ g.lane = 0))) = true ∧
      everyHeld s (fun g => decide (g.cls = .normal → g = victim3 ∨ g = victim4)) = true ∧
      entryAt s 46 = .held victim4 ∧ entryAt s 47 = .held victim3 ∧ victim3.cls = .normal ∧ victim4.cls = .normal ∧
      (freeSlots s).length + (streamSlots 3 7 s).length < 4 ∧
      4 ≤ (freeSlots s).length + (streamSlots 3 7 s).length + (streamSlots 4 6 s).length ∧
      4 ≤ (freeSlots s).length + normalTotal s := by decide

/-- After a RELEASE of the stream of station 4 an URGENT head of 3 slots pre-empts the stream of station 3; behind it nothing
waits, an entry that the surplus of one slot does not fit, and one that it does. -/
theorem test_meets_UrgentHeadPreempts :
    ∀ fs ∈ [([] : List QueueEntry), [{ claim0 with count := 2 }], [{ claim0 with count := 1 }]],
      let e : QueueEntry := { claim0 with station := 9, label := 5, cls := .urgent, count := 3 };
      let s : State := withQueue (e :: fs) twoNormal;
      let opened := allSlots.filter fun n => entryAt s n = .free || (entryAt s n).ofStream 4 6;
      let room := allSlots.filter fun n => entryAt s n = .free || (entryAt s n).ofStream 4 6 ||
        (entryAt s n).ofStream 3 7;
      s.Framed ∧ s.cycle.phase = .learned ∧ s.mode.actual = .member ∧ s.MapClean ∧ s.QueueClean ∧ s.line.onLine = none ∧
        s.NotesIdle ∧ (4 : Station) ≠ own s ∧ e.station ≠ own s ∧ victim3.holder ≠ own s ∧
        (entryAt s 46).ofStream 4 6 = true ∧ entryAt s 47 = .held victim3 ∧
        (streamSlots 3 7 s).length = victim3.count ∧ opened.length < e.count ∧ e.count ≤ room.length ∧
        room.length - e.count = 1 ∧ ∀ f ∈ fs, f.cls = .normal ∧ f.station ≠ own s := by decide

/-- A state of each refusal, for a claim by another station and by this one, whose lane 0 is in a state that takes or
disregards the refusal. -/
theorem test_meets_RefusedClaimsChangeNothing :
    (∀ k : Fin 16, k = 0 ∨ k = 9 → (2 : Station) ≠ own member ∧ (k.val = 0 ∨ 8 < k.val)) ∧
    ∀ st ∈ [(2 : Station), 7], ∀ u ∈ [StreamState.opening, .cancelling, .waiting], ∀ why : Fin 5,
      let base : State := match why with
        | 0 => withSlot 47 { held0 with holder := st, lane := 0 } member
        | 1 => withSlot 47 held0 member
        | 2 => withQueue [claim0] member
        | 3 => { member with alloc.map := member.alloc.map.mapIdx fun n w =>
            if n.val < 7 then w else .fresh (.held { held0 with cls := .urgent }) }
        | 4 => withQueue (List.replicate 16 { claim0 with cls := .urgent }) member;
      let s : State := { withLane 0 { Lane.default with state := u } base with line.wonWindow := true };
      s.Framed ∧ s.cycle.phase = .learned ∧ s.mode.actual = .member ∧ s.MapClean ∧ s.QueueClean ∧ s.StreamsClean ∧
        s.line.onLine = none ∧ s.NotesIdle ∧ (st = own s ↔ st = 7) ∧ s.line.wonWindow = true ∧
        (laneOfState s 0).state = u ∧ (∀ e ∈ s.streams.outbox, e.val ≠ .claim 0) ∧
        (why = 0 → entryAt s 47 = .held { held0 with holder := st, lane := 0 }) ∧
        (why = 1 → entryAt s 47 = .held held0) ∧
        (why ≠ 0 → everyHeld s (fun h => decide ¬(h.holder = st ∧ h.lane = 0)) = true ∧
          ∀ e ∈ s.alloc.queue, ¬(e.val.station = st ∧ e.val.lane = 0)) ∧
        (2 ≤ why → everyHeld s (fun h => decide (h.label ≠ 0x33)) = true ∧ ∀ e ∈ s.alloc.queue, e.val.label ≠ 0x33) ∧
        (why = 2 → s.alloc.queue ≠ []) ∧
        (why = 3 → s.alloc.queue = [] ∧ (freeSlots s).length + normalTotal s < (8 : Fin 16).val) ∧
        (why = 4 → 16 ≤ s.alloc.queue.length ∧ ∀ e ∈ s.alloc.queue, e.val.cls = .urgent) := by decide

/-- An URGENT entry, NORMAL ones behind it, and a last one of station st. -/
def waitingQueue (len : Nat) (st : Station) : State :=
  withLane 3 { Lane.default with state := .waiting } (withQueue ([{ claim0 with cls := .urgent }] ++
    (List.replicate (len - 2) claim0 ++ [{ claim0 with station := st }])) member)

/-- Fifteen and sixteen entries, one of them URGENT, the last of another station and of this one; and a CLAIM of this
station before an entry of another. -/
theorem test_meets_WaitingClaimIsQueued :
    (∀ k : Fin 2, ∀ last ∈ [(2 : Station), 7],
      let s : State := waitingQueue (15 + k.val) last;
      s.Framed ∧ s.cycle.phase = .learned ∧ s.MapClean ∧ s.QueueClean ∧ s.line.onLine = none ∧ s.NotesIdle ∧
        1 ≤ (8 : Fin 16).val ∧ (8 : Fin 16).val ≤ 8 ∧ (2 : Station) ≠ own s ∧
        everyHeld s (fun h => decide (h.label ≠ 0x33 ∧ ¬(h.holder = 2 ∧ h.lane = 0))) = true ∧
        (∀ e ∈ s.alloc.queue, e.val.label ≠ 0x33 ∧ ¬(e.val.station = 2 ∧ e.val.lane = 0))) ∧
    (∀ k : Fin 2, ∀ last ∈ [(2 : Station), 7], ∀ u ∈ [StreamState.waiting, .cancelling],
      let s : State := withLane 3 { Lane.default with state := u } (waitingQueue (15 + k.val) last);
      let us := s.alloc.queue.take 1;
      let ms := (s.alloc.queue.drop 1).dropLast;
      let e : Stored QueueEntry := .fresh { claim0 with station := last };
      s.alloc.queue = us ++ (ms ++ [e]) ∧ (∀ w ∈ us, w.val.cls = .urgent) ∧ (∀ w ∈ ms ++ [e], w.val.cls = .normal) ∧
        s.alloc.queue.length = 15 + k.val ∧ 0 < us.length ∧ (last = 7 ↔ e.val.station = own s) ∧ s.mode.actual = .member ∧
        s.StreamsClean ∧ (laneOfState s e.val.lane).state = u ∧ (laneOfState s e.val.lane).slots = []) ∧
    (∀ u ∈ [StreamState.opening, .cancelling], let s : State := { withLane 0 { Lane.default with state := u } (withQueue [claim0] member) with
        line.wonWindow := true };
      s.Framed ∧ s.cycle.phase = .learned ∧ s.MapClean ∧ s.QueueClean ∧ s.line.onLine = none ∧ s.NotesIdle ∧
        7 = own s ∧ s.line.wonWindow = true ∧ s.mode.actual = .member ∧ s.StreamsClean ∧ s.alloc.queue.length < 16 ∧
        (∀ e ∈ s.alloc.queue, e.val.cls = .normal ∧ e.val.label ≠ 0x33 ∧ ¬(e.val.station = 7 ∧ e.val.lane = 0)) ∧
        everyHeld s (fun h => decide (h.label ≠ 0x33 ∧ ¬(h.holder = 7 ∧ h.lane = 0))) = true ∧
        (laneOfState s 0).state = u ∧ (∀ e ∈ s.streams.outbox, e.val ≠ .claim 0) ∧ s.alloc.queue ≠ []) :=
  ⟨by decide, by decide, by decide⟩

/-- A full map but for the stream of station st, lane 1, in slot 47. -/
def fullBut (st : Station) (s : State) : State :=
  { s with alloc.map := s.alloc.map.mapIdx fun n _ => if n.val = 47 then .fresh (.held { held0 with holder := st }) else
    Stored.fresh (.held { held0 with lane := 6, label := 1 }) }

/-- A stream and a queue behind a head that does not fit; an entry that leaves from the front; one entry that fits exactly,
of another station and of this one; and this station's own closing lane and cancelling lane. -/
theorem test_meets_ReleaseAndWithdrawServeTheQueue :
    (let s : State := fullBut 3 (withQueue [claim0] member);
      s.Framed ∧ s.cycle.phase = .learned ∧ s.mode.actual = .member ∧ s.MapClean ∧ s.QueueClean ∧ s.line.onLine = none ∧
        s.NotesIdle ∧ (3 : Station) ≠ own s ∧ entryAt s 47 = .held { held0 with holder := 3 } ∧
        (∀ e ∈ s.alloc.queue, ¬(e.val.station = 3 ∧ e.val.lane = 1)) ∧ claim0.cls = .normal ∧
        (allSlots.filter fun n => entryAt s n = .free || (entryAt s n).ofStream 3 1).length < claim0.count ∧
        (freeSlots s).length < claim0.count) ∧
    (let s : State := fullBut 3 (withQueue [{ claim0 with station := 3 }, claim0] member);
      s.Framed ∧ s.MapClean ∧ s.QueueClean ∧
        s.alloc.queue = [] ++ .fresh { claim0 with station := 3 } :: [.fresh claim0] ∧
        everyHeld s (fun h => decide ¬(h.holder = 3 ∧ h.lane = 3)) = true ∧ (freeSlots s).length < claim0.count) ∧
    (∀ st ∈ [(2 : Station), 7],
      let e : QueueEntry := { claim0 with station := st, count := 1 };
      let s : State := withLane 3 { Lane.default with state := .waiting } (fullBut 3 (withQueue [e] member));
      s.Framed ∧ s.MapClean ∧ s.QueueClean ∧ entryAt s 47 = .held { held0 with holder := 3 } ∧
        s.alloc.queue = [.fresh e] ∧
        e.count ≤ (allSlots.filter fun n => entryAt s n = .free || (entryAt s n).ofStream 3 1).length ∧
        ¬(e.station = 3 ∧ e.lane = 1) ∧ (st = 7 ↔ e.station = own s) ∧ s.StreamsClean ∧
        (laneOfState s e.lane).state = .waiting) ∧
    (∀ st ∈ [StreamState.closing, .cancelling],
      let s : State := { withLane 1 { heldLane with state := st } (fullBut 7 member) with line.wonWindow := true };
      s.Framed ∧ s.MapClean ∧ s.line.wonWindow = true ∧ s.StreamsClean ∧ s.alloc.queue = [] ∧ 7 = own s ∧
        entryAt s 47 = .held { held0 with holder := 7 } ∧ (laneOfState s 1).state = st) ∧
    (let s : State := { withLane 3 { heldLane with state := .cancelling } (withQueue [{ claim0 with station := 7 }] member)
        with line.wonWindow := true };
      s.Framed ∧ s.MapClean ∧ s.QueueClean ∧ s.line.wonWindow = true ∧ s.StreamsClean ∧ 7 = own s ∧
        s.alloc.queue = [.fresh { claim0 with station := 7 }] ∧ (laneOfState s 3).state = .cancelling) := by decide

theorem test_meets_RestartClearsEverything :
    ∀ p ∈ [Phase.adopt, .rebuild, .verify, .learned],
      let s : State := withSlot 0 held0 (withQueue [claim0] (withLane 7 heldLane (at_ .listen p)));
      s.Framed ∧ s.cycle.phase ≠ .idle ∧ s.mode.actual ≠ .withdrawing ∧ s.StreamsClean ∧ s.line.onLine = none ∧
        s.NotesIdle ∧ (2 : Station) ≠ own s ∧ (laneOfState s 7).state ≠ .closed ∧
        (laneOfState s 6).state = .closed ∧ ({ s with line.wonWindow := true } : State).line.wonWindow = true ∧
        7 = own s := by decide

/-! ### Contention, silence and founding -/

theorem test_meets_ContentionBeginsTheMark :
    (let s : State := { withQueue [claim0] member with line.contention := .mark };
      s.Framed ∧ s.mode.actual = .member ∧ s.line.driverEnable = true ∧ s.line.contention = .mark ∧ s.QueueClean) ∧
    (let s : State := { at_ .resync .adopt with line.contention := .mark };
      s.Framed ∧ s.mode.actual ≠ .member ∧ s.line.contention = .mark) ∧
    member.line.contention ≠ .mark ∧
    (∀ pend : Bool, let s : State := { at_ .joining .adopt with cycle.foundingPending := pend };
      s.Running ∧ s.mode.actual = .joining ∧ s.line.driverEnable = true ∧ s.cycle.foundingPending = pend ∧
        s.line.contention = .none) ∧
    (let s : State := { at_ .joining .adopt with line.contention := .founding };
      s.Running ∧ s.mode.actual = .joining ∧ s.line.driverEnable = true ∧ s.line.contention = .founding) := by decide

theorem test_meets_LineSilenceByMode :
    (∀ m ∈ [Mode.joining, .listen, .resync, .member], (at_ m .adopt).Running ∧ (at_ m .adopt).mode.actual = m) ∧
    (∀ d : Bool, ({ at_ .joining .adopt with line.driverEnable := d } : State).line.driverEnable = d) ∧
    (laneOfState (withLane 7 heldLane (at_ .resync .adopt)) 7).state ≠ .closed ∧
    (∀ g ∈ [Target.off, .listen], let s : State := { at_ .withdrawing .learned with mode.target := g };
      s.Running ∧ s.mode.actual = .withdrawing ∧ s.mode.target ≠ .none ∧ s.mode.target = g) := by decide

theorem test_meets_FoundedStationIsMember :
    let s : State := withOnLine (.mark (mark 0 []) true) { at_ .joining .adopt with line.driverFaultCount := 2 };
    s.Running ∧ s.mode.actual = .joining ∧ s.StreamsClean ∧ s.StreamsIdle ∧ s.line.onLine = some (.mark (mark 0 []) true) ∧
      s.line.driverFaultCount < 3 := by decide

theorem test_meets_FounderReceivesItsMark :
    ∀ due : Bool, let s : State := { member with cycle.foundingMarkDue := due };
      s.Running ∧ s.mode.actual = .member ∧ s.cycle.phase = .learned ∧ s.cycle.cycleNumber = 0 ∧ s.alloc.queue = [] ∧
        s.port.snap.armed = false ∧ s.cycle.foundingMarkDue = due := by decide

/-! ### The Sample Port -/

/-- The lane after the last served and the last served itself after the other seven; 31 and 32 words in the FIFO; a CLOSED
lane. -/
theorem test_meets_SamplePortWords :
    (∀ d ∈ [(0 : Fin 8), 7], let l : LaneNo := member.lanes.lastServed + 1 + d;
      let s : State := { member with lanes.rxFifo := member.lanes.rxFifo.set l [.fresh 5] };
      s.Running ∧ (∀ e < d, s.lanes.rxFifo.get (s.lanes.lastServed + 1 + e) = []) ∧
        s.lanes.rxFifo.get l = [.fresh 5]) ∧
    (∀ l, member.lanes.rxFifo.get l = []) ∧
    (∀ k : Fin 2, let base : State := withLane 7 heldLane member;
      let s : State := { base with
        lanes.period := some { out := 5, collected := [] }
        lanes.txFifo := base.lanes.txFifo.set 7 (List.replicate (31 + k.val) (.fresh 0)) };
      s.Running ∧ s.StreamsClean ∧ s.lanes.period = some { out := 5, collected := [] } ∧
        1 ≤ [true].length ∧ (List.replicate 31 true).length < 32 ∧ (List.replicate 32 true).length = 32 ∧ (laneOfState s 7).state ≠ .closed ∧ (s.lanes.txFifo.get 7).length = 31 + k.val) ∧
    (∀ level : Bool, ({ member with lanes.smpSync := level } : State).lanes.smpSync = level) ∧
    ({ member with pins.resetnLow := true } : State).pins.resetnLow = true ∧
    member.lanes.period = none ∧ member.Running ∧ member.StreamsClean ∧ (laneOfState member 0).state = .closed := by decide

/-! ### Frames that are not executed, and the lapse timer -/

set_option maxRecDepth 20000 in
/-- Lengths 40 and 41, a CRC that differs, an unknown code, and lengths below the least and above the greatest. -/
theorem test_meets_BadFramesAreRefused :
    member.HostReady ∧ 40 < (41 : Byte).toNat ∧
    ((40 : Byte).toNat ≤ 40 ∧ (0 : BitVec 16) ≠ frameCrc [0x01, 40]) ∧
    ((0 : Byte).toNat ≤ 40 ∧ payloadRange 0xFF = none) ∧
    ((0 : Byte).toNat ≤ 40 ∧ payloadRange 0x03 = some (1, 1) ∧ (0 : Byte).toNat < 1) ∧
    ((37 : Byte).toNat ≤ 40 ∧ payloadRange 0x30 = some (5, 36) ∧ 36 < (37 : Byte).toNat) := by decide

/-- The modes with nothing open; and in MEMBER and RESYNC a lane in each state, an OPENING one with its CLAIM held and
sent. -/
theorem test_meets_LapseActsByMode :
    (∀ m ∈ [Mode.off, .listen, .withdrawing, .joining, .member, .resync],
      let s : State := { at_ m .learned with port.lapse := some 1 };
      s.Running ∧ s.port.lapse ≠ none ∧ s.mode.actual = m ∧ s.StreamsClean ∧ s.StreamsIdle) ∧
    (∀ m ∈ [Mode.member, .resync], ∀ st ∈ [StreamState.closed, .opening, .waiting, .held, .closing, .cancelling],
      ∀ box ∈ [([] : List OutboxEntry), [.claim 6]],
      let base : State := { at_ m .learned with port.lapse := some 1 };
      let s : State := withBox box (withLane 7 heldLane (withLane 6 { Lane.default with state := st } base));
      s.Running ∧ s.port.lapse ≠ none ∧ s.mode.actual = m ∧ s.StreamsClean ∧ s.ListsFit ∧ s.line.onLine = none ∧
        (laneOfState s 7).state = .held ∧ (laneOfState s 6).state = st ∧
        ((∃ e ∈ s.streams.outbox, e.val = .claim 6) ↔ box = [.claim 6]) ∧
        ((∀ e ∈ s.streams.outbox, e.val.lane? ≠ some 6) ↔ box = [])) ∧
    member.port.lapse = none := by decide

/-! ### Host commands -/

theorem test_meets_StatusReturnsTheState : member.HostReady := by decide

/-- The least and the greatest values in range, and one beyond each. -/
theorem test_meets_ConfigureReplacesTheConfiguration :
    State.reset.HostReady ∧ State.reset.mode.actual = .off ∧ member.HostReady ∧ member.mode.actual ≠ .off ∧
    ([((1 : Byte), (2 : Byte), (1 : Byte), (0 : Byte), (0 : Byte)), (255, 15, 8, 7, 143)].all fun v =>
      1 ≤ v.1.toNat ∧ 2 ≤ v.2.1.toNat ∧ v.2.1.toNat ≤ 15 ∧ 1 ≤ v.2.2.1.toNat ∧ v.2.2.1.toNat ≤ 8 ∧
        v.2.2.2.1.toNat ≤ 7 ∧ v.2.2.2.2.toNat % 128 ≤ 15) ∧
    ¬(1 ≤ (0 : Byte).toNat) ∧ ¬(2 ≤ (1 : Byte).toNat) ∧ ¬((16 : Byte).toNat ≤ 15) ∧ ¬((9 : Byte).toNat ≤ 8) ∧
    ¬((8 : Byte).toNat ≤ 7) ∧ ¬((16 : Byte).toNat % 128 ≤ 15) := by decide

theorem test_meets_SetModeChangesTheMode :
    (∀ m ∈ [Mode.off, .listen, .joining, .resync, .member, .withdrawing], let s : State := at_ m .learned;
      s.HostReady ∧ s.Quiet ∧ s.mode.actual = m ∧ s.StreamsClean ∧ s.StreamsIdle) ∧
    ((2 : Byte) ≠ 0 ∧ (2 : Byte) ≠ 1 ∧ (2 : Byte) ≠ 3) ∧
    (let s : State := withLane 7 heldLane (withNotes [txNote .all .pending] member);
      s.HostReady ∧ s.Quiet ∧ s.mode.actual = .member ∧ s.StreamsClean ∧ (laneOfState s 7).state = .held ∧
        (laneOfState s 6).state = .closed ∧ s.NotesClean ∧ ∃ n ∈ s.notes.tx, n.state = .pending) := by decide

/-- Counts 1 and 8, flags 7; a free lane, an open one and one with an entry; a mode that refuses; one beyond each range;
an outbox with a RESTART and one without. -/
theorem test_meets_OpenStreamAndRestartBusAppend :
    (∀ s ∈ [member, at_ .joining .adopt, at_ .resync .adopt], s.HostReady ∧ s.StreamsClean ∧
      (s.mode.actual = .joining ∨ s.mode.actual = .member ∨ s.mode.actual = .resync) ∧
      (laneOfState s 7).state = .closed ∧ (∀ e ∈ s.streams.outbox, e.val.lane? ≠ some 7) ∧
      ∀ e ∈ s.streams.outbox, e.val ≠ .restart) ∧
    (7 : Byte).toNat = (7 : LaneNo).val ∧ (1 ≤ (1 : Byte).toNat ∧ (8 : Byte).toNat ≤ 8 ∧ (7 : Byte).toNat < 8) ∧
    ((withLane 7 heldLane member).StreamsClean ∧ (laneOfState (withLane 7 heldLane member) 7).state ≠ .closed) ∧
    ((withBox [.withdraw 7] member).StreamsClean ∧
      ¬∀ e ∈ (withBox [.withdraw 7] member).streams.outbox, e.val.lane? ≠ some 7) ∧
    (State.reset.HostReady ∧ State.reset.StreamsClean ∧ State.reset.mode.actual ≠ .member ∧
      ¬(State.reset.mode.actual = .joining ∨ State.reset.mode.actual = .member ∨ State.reset.mode.actual = .resync)) ∧
    (¬1 ≤ (0 : Byte).toNat ∧ ¬(9 : Byte).toNat ≤ 8 ∧ ¬(8 : Byte).toNat < 8 ∧ 8 ≤ (8 : Byte).toNat) ∧
    ((withBox [.restart] member).StreamsClean ∧ ∃ e ∈ (withBox [.restart] member).streams.outbox, e.val = .restart) := by
  decide

/-- A lane in each state, with its CLAIM waiting, in its window and sent; in MEMBER, and in WITHDRAWING with another lane
open; and the last lane of a withdrawal. -/
theorem test_meets_CloseStreamByState :
    (∀ st ∈ [StreamState.closed, .waiting, .held, .cancelling, .closing, .opening],
      ∀ box ∈ [([] : List OutboxEntry), [.claim 7]], ∀ m ∈ [Mode.member, .withdrawing], ∀ w : Bool,
      let base : State := withBox box (withLane 0 heldLane (withLane 7 { heldLane with state := st } (at_ m .learned)));
      let s : State := if w then withOnLine (.message .outbox 7 claimBody) base else base;
      s.HostReady ∧ s.StreamsClean ∧ s.mode.actual = m ∧ (laneOfState s 0).state ≠ .closed ∧
        (7 : Byte).toNat = (7 : LaneNo).val ∧ (laneOfState s 7).state = st ∧ claimInWindow 7 s = w ∧
        ((∃ e ∈ s.streams.outbox, e.val = .claim 7) ↔ box = [.claim 7]) ∧
        ((∀ e ∈ s.streams.outbox, e.val.lane? ≠ some 7) ↔ box = [])) ∧
    (let base : State := { at_ .withdrawing .learned with mode.target := .listen };
      let s : State := withBox [.claim 7] (withLane 7 { Lane.default with state := .opening } base);
      s.HostReady ∧ s.StreamsClean ∧ s.mode.actual = .withdrawing ∧ s.mode.target = .listen ∧
        (∀ k, k ≠ 7 → (laneOfState s k).state = .closed) ∧ s.streams.outbox = [⟨.claim 7, .clean⟩] ∧
        s.line.onLine = none ∧ (laneOfState s 7).state = .opening) ∧ 8 ≤ (8 : Byte).toNat := by decide

theorem test_meets_LaneAndListenCommands :
    member.HostReady ∧ member.StreamsClean ∧ (7 : Byte).toNat = (7 : LaneNo).val ∧ (15 : Byte).toNat = (15 : Fin 16).val ∧
    (3 : Byte).toNat < 4 ∧ 4 ≤ (4 : Byte).toNat ∧ 8 ≤ (8 : Byte).toNat ∧ 16 ≤ (16 : Byte).toNat := by decide

/-- Notes of 1 and of 32 bytes; three and four entries; each operand in range and one beyond. -/
theorem test_meets_SendNoteAppendsAnEntry :
    (∀ k : Fin 2, let s : State := withNotes (List.replicate (3 + k.val) (txNote .all .done)) member;
      s.HostReady ∧ s.mode.actual = .member ∧ s.notes.tx.length = 3 + k.val) ∧
    (at_ .listen .adopt).HostReady ∧ (at_ .listen .adopt).mode.actual ≠ .member ∧
    (∀ p ∈ [([7] : List Byte), List.replicate 32 7], 1 ≤ p.length ∧ p.length ≤ 32 ∧
      (BitVec.ofNat 8 p.length : Byte).toNat = p.length) ∧
    ([((0 : Byte), (63 : Byte)), (1, 15), (2, 255)].all fun kn => ¬2 < kn.1.toNat ∧
      ¬(kn.1 = 0 ∧ (63 < kn.2.toNat ∨ kn.2.toNat = (own member).val)) ∧ ¬(kn.1 = 1 ∧ 15 < kn.2.toNat)) ∧
    (0 : Byte).toNat < 1 ∧ 32 < (33 : Byte).toNat ∧ 2 < (3 : Byte).toNat ∧ 63 < (64 : Byte).toNat ∧
    (7 : Byte).toNat = (own member).val ∧ 15 < (16 : Byte).toNat := by decide

theorem test_meets_NoteCommands :
    (let n : TxNote := { txNote .all .done with outcome := some .sent };
      let s : State := withNotes [txNote .all .pending, n] member;
      s.HostReady ∧ s.notes.tx = [txNote .all .pending] ++ n :: [] ∧ (∀ m ∈ [txNote .all .pending], m.state ≠ .done) ∧
        n.state = .done ∧ n.control = .clean ∧ n.body = .clean ∧ n.outcome = some .sent ∧ noteInWindow s = false ∧
        ∃ m ∈ s.notes.tx, m.state ≠ .done) ∧
    (∀ ns ∈ [[txNote .all .active], [txNote .all .active, txNote .all .pending]],
      let s : State := withOnLine (.message .note 7 .noKind) (withNotes ns member);
      s.HostReady ∧ noteInWindow s = true ∧ (∃ m ∈ s.notes.tx, m.state = .active) ∧
        ((∃ m ∈ s.notes.tx, m.state = .pending) ↔ ns.length = 2)) ∧
    (∀ m ∈ (withNotes [txNote .all .pending] member).notes.tx, m.state ≠ .done) ∧
    (∀ m ∈ (withNotes [txNote .all .done] member).notes.tx, m.state = .done) ∧
    (let s : State := { member with notes.ring := [.fresh rxNote] };
      s.HostReady ∧ s.notes.ring = .fresh rxNote :: [] ∧ (Stored.fresh rxNote).health = .clean) ∧
    member.notes.ring = [] := by decide

theorem test_meets_SnapshotIsArmedAndCaptured :
    (State.reset.HostReady ∧ State.reset.mode.actual = .off) ∧
    (∀ armed : Bool, let s : State := { withSlot 47 held0 (at_ .listen .adopt) with port.snap.armed := armed };
      let m : MarkContents := mark 1023 [entry0];
      s.HostReady ∧ s.mode.actual ≠ .off ∧ s.port.snap.armed = armed ∧ s.mode.actual = .listen ∧ s.cycle.phase = .adopt ∧
        s.MapClean ∧ m.patience = s.port.config.patience ∧ m.reclaim = s.port.config.reclaim ∧ lawful m = true ∧
        m.summary.length ≤ 16 ∧ m.cycle.toNat % 1024 ≠ 0 ∧ entryAt s 47 = .held held0 ∧ entryAt s 0 = .free) := by decide

/-- The first and the last operands in range of each part, and one beyond; a buffer without errors, with a failing cycle
number, map record 47 and queue position 16, an invalid one, and one with single errors. -/
theorem test_meets_SnapshotReads :
    (∀ v : Bool, let s : State := { member with port.snap.valid := v, port.snap.queue := [.fresh claim0] };
      s.HostReady ∧ s.port.snap.valid = v ∧ s.port.snap.cycle.health = .clean ∧
        (∀ n, (s.port.snap.map.get n).health = .clean) ∧ (∀ w ∈ s.port.snap.queue, w.health = .clean)) ∧
    ([((0 : Byte), (0 : Byte), (1 : Byte)), (0, 40, 8), (0, 47, 1), (1, 1, 8), (1, 16, 1)].all fun p =>
      1 ≤ p.2.2.toNat ∧ p.2.2.toNat ≤ 8 ∧ (p.1 = 0 ∧ p.2.1.toNat + p.2.2.toNat ≤ 48 ∨
        p.1 = 1 ∧ 1 ≤ p.2.1.toNat ∧ p.2.1.toNat + p.2.2.toNat ≤ 17)) ∧
    ([((0 : Byte), (0 : Byte), (0 : Byte)), (0, 0, 9), (0, 41, 8), (0, 48, 1), (1, 0, 1), (1, 16, 2), (2, 1, 1)].all
      fun p => ¬(1 ≤ p.2.2.toNat ∧ p.2.2.toNat ≤ 8 ∧ (p.1 = 0 ∧ p.2.1.toNat + p.2.2.toNat ≤ 48 ∨
        p.1 = 1 ∧ 1 ≤ p.2.1.toNat ∧ p.2.1.toNat + p.2.2.toNat ≤ 17))) ∧
    (let s : State := { member with port.snap.valid := true, port.snap.cycle := ⟨3, .double⟩ };
      s.HostReady ∧ s.port.snap.valid = true ∧ s.port.snap.cycle.health = .double) ∧
    (let s : State := { member with
        port.snap.valid := true, port.snap.map := member.port.snap.map.set 47 ⟨.free, .double⟩ };
      s.HostReady ∧ s.port.snap.valid = true ∧ s.port.snap.cycle.health ≠ .double ∧ (40 : Byte).toNat ≤ (47 : Slot).val ∧
        (47 : Slot).val < (40 : Byte).toNat + (8 : Byte).toNat ∧ (s.port.snap.map.get 47).health = .double ∧
        ∀ m : Slot, (40 : Byte).toNat ≤ m.val → m < 47 → (s.port.snap.map.get m).health ≠ .double) ∧
    (let w : Stored QueueEntry := ⟨claim0, .double⟩;
      let s : State := { member with
        port.snap.valid := true, port.snap.queue := List.replicate 15 (.fresh claim0) ++ [w] };
      s.HostReady ∧ s.port.snap.valid = true ∧ s.port.snap.cycle.health ≠ .double ∧ (16 : Byte).toNat ≤ 15 + 1 ∧
        15 + 1 < (16 : Byte).toNat + (1 : Byte).toNat ∧ s.port.snap.queue[15]? = some w ∧ w.health = .double) ∧
    (∀ j v, (16 : Byte).toNat ≤ j + 1 → j < 15 →
      (List.replicate 15 (Stored.fresh claim0))[j]? = some v → v.health ≠ .double) ∧
    (let s : State := { member with
        port.snap.valid := true, port.snap.cycle := ⟨3, .single⟩
        port.snap.map := member.port.snap.map.set 47 ⟨.free, .single⟩, port.snap.queue := [⟨claim0, .single⟩] };
      s.HostReady ∧ s.port.snap.valid = true ∧ s.port.snap.cycle.health ≠ .double ∧
        (∀ n : Slot, (s.port.snap.map.get n).health ≠ .double) ∧ (s.port.snap.map.get 47).health = .single ∧
        (∀ w ∈ (s.port.snap.queue.drop ((1 : Byte).toNat - 1)).take (8 : Byte).toNat, w.health ≠ .double) ∧
        ∃ w ∈ (s.port.snap.queue.drop ((1 : Byte).toNat - 1)).take (8 : Byte).toNat, w.health = .single) := by
  refine ⟨by decide, by decide, by decide, by decide, by decide, by decide, ?_, by decide⟩
  intro j v h1 h2
  change 16 ≤ j + 1 at h1
  omega

theorem test_meets_AlertCommands :
    member.HostReady ∧ member.StreamsClean ∧ (0x3FFFF : BitVec 24).toNat < 2 ^ 18 ∧ 2 ^ 18 ≤ (0x40000 : BitVec 24).toNat ∧
    member.errorRecord = none ∧
    ({ member with errorRecord := some ⟨.queue, 15, .single⟩ } : State).errorRecord = some ⟨.queue, 15, .single⟩ := by decide

/-! ### Layouts -/

theorem test_meets_RecordBytes :
    (List.replicate 8 (47 : Slot)).length ≤ 8 ∧
    (let h : HeldEntry := { held0 with part := 7, count := 8, silence := 15 }; h.part < 8 ∧ h.count ≤ 8 ∧ h.silence ≤ 15) ∧
    ({ claim0 with count := 8 } : QueueEntry).count ≤ 8 := by decide

theorem test_meets_CommandFramesReadBack : (Instr.sendNote 1 2 0 1 [7]).wellFormed = true ∧
    commandFrame (.sendNote 1 2 0 1 [7]) = some (frameBytes 0x30 [1, 2, 0, 1, 7]) ∧
    (1 ≤ 71 ∧ 71 < 8 * (frameBytes 0x30 [1, 2, 0, 1, 7]).length) ∧ 40 < (41 : Byte).toNat :=
  ⟨rfl, rfl, by decide, by decide⟩

set_option maxRecDepth 20000 in
/-- A failing check with no payload and with 40 bytes of it, and a bit of a response. -/
theorem test_meets_FramesThatFail :
    frameFailure 0x99 0 [] (frameCrc [0x99, 0]) ≠ none ∧
    (frameFailure 0x30 40 (List.replicate 40 0) (frameCrc (0x30 :: 40 :: List.replicate 40 0) + 1) ≠ none ∧
      (List.replicate 40 (0 : Byte)).length ≤ 40) ∧
    (responseFrame ⟨.done, [7]⟩)[16 / 8]? = some 7 ∧
    ({ State.reset.port with assembler := .response 71, response := some ⟨.done, [7]⟩ } : CommandPort).response =
      some ⟨.done, [7]⟩ := by decide

set_option maxRecDepth 20000 in
/-- CLOSE_STREAM of lane 5 on SDI, with bits behind it, without its last bit, with a wrong one, and after none. -/
theorem test_frame_bit_by_bit :
    let bits := byteBits (frameBytes 0x11 [5]);
    frameEvent (bits ++ [true, false, true]) = some (.closeStream 5) ∧
    frameEvent bits.dropLast = some .frameCutShort ∧
    frameEvent (byteBits (0x11 :: 1 :: 5 :: bytes16 (frameCrc [0x11, 1, 5] + 1))) =
      some (.frameCheckFailed 0x11 1 [5] (frameCrc [0x11, 1, 5] + 1)) ∧
    frameEvent [] = none := by decide

/-- SDI counts at the rising edge only, and the response passes most significant bit first. -/
theorem test_bits_of_sdi_and_sdo :
    sdiBits false [(false, true), (true, false), (true, true), (false, true), (true, true)] = [false, true] ∧
    wholeBytes [false, false, false, false, false, true, false, true, true] = [5] ∧
    ([48, 62, 63, 65, 66, 69].map fun n =>
      sdoBit { State.reset.port with assembler := .response n, response := some ⟨.done, [5]⟩ }) =
      [some false, some false, some true, some true, some false, some true] := by decide

/-- Sixteen entries, 32 bytes, each answer; the neighbours in each order of numbers. -/
theorem test_meets_LineFieldsReadBack :
    (mark 0 (List.replicate 16 entry0)).summary.length ≤ 16 ∧ (note 0 3 (List.replicate 32 0)).wellFormed = true ∧
    (note 0 3 (List.replicate 32 0)).kind = 0 ∧
    (∀ a : Answer, ∃ bits, windowBits 3 (.note (note 0 3 (List.replicate 32 0))) a = some bits) ∧
    (∃ bits, messageBits 3 (.restart) = some bits ∧ 24 < bits.length) ∧
    (58 < 59 ∧ 550 < 55 + 31 * (mark 0 (List.replicate 16 entry0)).summary.length) ∧ (62 : Station) < 63 ∧
    precedence 63 .restart = some 63 ∧ precedence 0 (.release 1) = some 64 ∧ 63 < 64 ∧
    (true ≠ false ∧ [true, false].length = [false, true].length) ∧
    ([false, false] ≠ (OwnField.answer .ack).comparedBits ∧ (note 0 3 (List.replicate 32 0)).kind = 0 ∧
      (note 1 3 [1]).kind ≠ 0) :=
  ⟨by decide, by decide, by decide, fun _ => ⟨_, rfl⟩, ⟨_, rfl, by decide⟩, by decide, by decide, by decide, by decide, by decide,
    by decide, by decide⟩

set_option maxRecDepth 20000 in
/-- A RELEASE whose third compared bit is disturbed: two bits and the third are driven, then the line is left recessive, and
the report is a mismatch (R2). -/
theorem test_readback_stops_at_the_first_difference :
    let f : OwnField := .message .outbox 7 (.release 4);
    let read : List Bool := [true, false, true] ++ f.comparedBits.drop 3;
    f.comparedBits.take 3 = [true, false, false] ∧ f.comparedBits.length = 19 ∧
    drivenBits f.comparedBits read = [true, false, false] ++ List.replicate 16 true ∧
    completionReport f read (true, true) = .ownTransmissionCompleted .mismatch .none ∧
    completionReport f f.comparedBits (false, true) = .ownTransmissionCompleted .good .none := by decide

end Sys2Proof.Tests
end

section
/-! The steps: what a step does with the front command and with an empty queue (R12, R160; log 4), and the two invariants of the
mode state and of the quiet station, from `Closed` (R13, R14, R20 to R24, R28, R34, R36, R96). -/

namespace Sys2Proof.Machine

/-! ## The step function -/

theorem step_pending {s : State} {c : Instr} {rest : List Instr} (h : s.pending = c :: rest) :
    step s = exec c { s with pending := rest } := by
  unfold step
  simp only [h]

theorem step_empty {s : State} (h : s.pending = []) : step s = .next (tick s) := by
  unfold step
  simp only [h]

/-! ## Invariants of every step -/

/-- A property closed under the parts of an event is kept by every step, if the resets, the counting of the silence timer and the
queue of commands leave it. -/
theorem Closed.step_keeps {ok : Mode → Phase → Prop} {P : State → Prop} (hc : Closed ok P)
    (hpins : ∀ {s : State} {p : Pins}, P s → P { s with pins := p })
    (hqueue : ∀ {s : State} {q : List Instr}, P s → P { s with pending := q })
    (hcount : ∀ {s : State} {n}, s.line.silenceTimer = some n → n + 1 < Config.silenceLimit → P s →
      P ({ s with line.silenceTimer := some (n + 1) } : State))
    {s t : State} (h : P s) (he : step s = .next t) : P t := by
  cases hp : s.pending with
  | nil =>
    rw [step_empty hp] at he
    cases he
    exact hc.tick hcount h
  | cons c rest =>
    rw [step_pending hp] at he
    have h1 : P { s with pending := rest } := hqueue h
    generalize ({ s with pending := rest } : State) = u at he h1
    cases c with
    | powerOnReset straps => cases he; exact hpins (hc.reset h1)
    | resetnLow => cases he; exact hpins (hc.reset h1)
    | resetnRelease straps =>
      cases he
      split
      · exact hpins (hpins h1)
      · exact h1
    | resetStationReset =>
      cases he
      split
      · exact h1
      · exact hc.csnRise h1
    | _ => exact hc.exec rfl h1 he

/-- Settles O7, by `closed_legal`: a legal mode state is closed under the parts of every event. -/
theorem legalModeKept : Obligations.LegalModeKept := fun _ _ h he =>
  closed_legal.step_keeps (fun h => Legal_of_eq h rfl rfl rfl) (fun h => Legal_of_eq h rfl rfl rfl)
    (fun hn hlt ⟨h1, h2, h3, h4, h5, h6, _⟩ => ⟨h1, h2, h3, h4, h5, by simpa [hn] using h6, hlt⟩) h he

/-- Settles O8, by `closed_quiet`: that a station in OFF or LISTEN is quiet is closed under the parts of every event. -/
theorem quietInOffAndListenKept : Obligations.QuietInOffAndListenKept := fun _ _ h he =>
  closed_quiet.step_keeps (fun h => Quiet_of_eq h rfl (.inl rfl) (.inl rfl) rfl)
    (fun h => Quiet_of_eq h rfl (.inl rfl) (.inl rfl) rfl)
    (fun _ _ h => Quiet_of_eq h rfl (.inl rfl) (.inl rfl) rfl) h he

/-- Settles O1. -/
theorem stepTakesFront : Obligations.StepTakesFront := fun _ _ _ => step_pending

/-! ## The parts of a bit time (log 4, log 8, log 20) -/

theorem tickMessage_unsent {s : State} (h : headInWindow s = false ∧ noteInWindow s = false) : tickMessage s = s := by
  unfold headInWindow noteInWindow at h
  unfold tickMessage
  split
  · rename_i src _ _ hl
    cases src <;> simp [hl] at h
  all_goals rfl

theorem tickMessage_sent {s : State} (h : ¬(headInWindow s = false ∧ noteInWindow s = false)) :
    tickMessage s = { s with line := { s.line with messageBits := s.line.messageBits + 1 } } := by
  unfold headInWindow noteInWindow at h
  unfold tickMessage
  split
  · rfl
  all_goals exact absurd (by simp [*]) h

theorem tickSilence_stopped {s : State} (h : s.line.silenceTimer = none) : tickSilence s = s := by
  simp only [tickSilence, h]

theorem tickSilence_counts {s : State} {n : Nat} (h : s.line.silenceTimer = some n) (hn : n + 1 < 24576) :
    tickSilence s = { s with line := { s.line with silenceTimer := some (n + 1) } } := by
  simp only [tickSilence, h]
  exact if_neg (Nat.not_le.mpr hn)

theorem silenceNotice_member {s : State} (h : s.mode.actual = .member) : silenceNotice s = restartSilence s := by
  simp only [silenceNotice, h]

theorem tickSilence_restarts {s : State} {n : Nat} (h : s.line.silenceTimer = some n) (hn : n + 1 = 24576)
    (hm : s.mode.actual = .member) : tickSilence s = { s with line := { s.line with silenceTimer := some 0 } } := by
  simp only [tickSilence, h, Config.silenceLimit, hn, le_refl, if_true, silenceNotice_member hm, restartSilence]

theorem tickLapse_stopped {s : State} (h : s.port.lapse = none) : tickLapse s = s := by
  simp only [tickLapse, h]

theorem tickLapse_counts {s : State} {n : Nat} (h : s.port.lapse = some n) (hb : s.port.lapseBits + 1 < 491520) :
    tickLapse s = { s with port := { s.port with lapseBits := s.port.lapseBits + 1 } } := by
  simp only [tickLapse, h, Config.lapseUnit, if_pos hb]

theorem tickLapse_unit {s : State} {n : Nat} (h : s.port.lapse = some n) (hn : 1 < n)
    (hb : s.port.lapseBits + 1 = 491520) :
    tickLapse s = { s with port := { s.port with lapse := some (n - 1), lapseBits := 0 } } := by
  simp only [tickLapse, h, Config.lapseUnit, hb, lt_irrefl, if_false, if_neg (Nat.not_le.mpr hn)]

/-- In IDLE, COMMAND and TRAILING the bit times move nothing. -/
theorem tickFrame_still {s : State}
    (h : s.port.assembler = .idle ∨ s.port.assembler = .command ∨ s.port.assembler = .trailing) : tickFrame s = s := by
  have ha : s.port.assembler.clocked (responseLength s.port) = s.port.assembler := by
    rcases h with h | h | h <;> rw [h] <;> rfl
  unfold tickFrame
  rw [ha]

/-- With both timers stopped and no message on the line only the frame assembler may move. -/
theorem tick_frame_only {s : State} (hu : headInWindow s = false ∧ noteInWindow s = false)
    (hs : s.line.silenceTimer = none) (hl : s.port.lapse = none) : tick s = tickFrame s := by
  simp only [tick, tickMessage_unsent hu, tickSilence_stopped hs, tickLapse_stopped hl]

theorem tickFrame_turnaround {s : State} {n : Nat} (h : s.port.assembler = .turnaround n) :
    tickFrame s = { s with port := { s.port with
      assembler := if n + 1 < 24 then .turnaround (n + 1) else .response 0 } } := by
  simp only [tickFrame, h, Assembler.clocked]
  rfl

theorem tickFrame_response {s : State} {n : Nat} {r : Response} (h : s.port.assembler = .response n)
    (hr : s.port.response = some r) :
    tickFrame s = { s with port := { s.port with
      assembler := if n + 1 < 24 * (r.payload.length + 4) then .response (n + 1) else .trailing } } := by
  simp only [tickFrame, h, responseLength, hr, Assembler.clocked]
  rfl

/-! ## The byte on SDO (R157, Table 10-1) -/

theorem sdoByte_filler {p : CommandPort} {n : Nat}
    (h : p.assembler = .command ∨ p.assembler = .turnaround n ∨ p.assembler = .trailing) : sdoByte p = some 0xFF := by
  rcases h with h | h | h <;> simp only [sdoByte, h]

theorem sdoByte_response {p : CommandPort} {n : Nat} {r : Response} {b : Byte} (h : p.assembler = .response n)
    (hr : p.response = some r) (hb : (responseFrame r)[n / 24]? = some b) : sdoByte p = some b := by
  simp only [sdoByte, h, hr, byteTime, hb, Option.getD_some]

/-- Settles O2, clause by clause from the parts of a bit time. -/
theorem stepWithNothingWaiting : Obligations.StepWithNothingWaiting := by
  intro s hp
  simp only [step_empty hp]
  refine ⟨?_, ?_, ?_, ?_, ?_, ?_, ?_, fun h => by simp only [sdoByte, h], fun n => sdoByte_filler,
    fun n r b h hr hb => sdoByte_response h hr hb⟩
  · rintro ⟨hu, hq⟩ hs hl
    rw [tick_frame_only hu hs hl, tickFrame_still hq]
  · rintro hu hq hs hl
    simp only [tick, tickMessage_sent hu, tickSilence_stopped, hs, tickLapse_stopped, hl, tickFrame_still, hq]
  · rintro n ⟨hu, hq⟩ hs hn hl
    simp only [tick, tickMessage_unsent hu, tickSilence_counts hs hn, tickLapse_stopped, hl, tickFrame_still, hq]
  · rintro n ⟨hu, hq⟩ hs hn hm hl
    simp only [tick, tickMessage_unsent hu, tickSilence_restarts hs hn hm, tickLapse_stopped, hl, tickFrame_still, hq]
  · rintro n ⟨hu, hq⟩ hs hl hb
    simp only [tick, tickMessage_unsent hu, tickSilence_stopped hs, tickLapse_counts hl hb, tickFrame_still, hq]
  · rintro n ⟨hu, hq⟩ hs hl hn hb
    simp only [tick, tickMessage_unsent hu, tickSilence_stopped hs, tickLapse_unit hl hn hb, tickFrame_still, hq]
  · intro hu hs hl
    rw [tick_frame_only hu hs hl]
    refine ⟨fun n ha hn => ?_, fun ha => ?_, fun n r ha hr => ⟨fun hn => ?_, fun hn => ?_⟩⟩
    · rw [tickFrame_turnaround ha, if_pos hn]
    · rw [tickFrame_turnaround ha, if_neg (lt_irrefl 24)]
    · rw [tickFrame_response ha hr, if_pos hn]
    · rw [tickFrame_response ha hr, if_neg (by omega)]

end Sys2Proof.Machine
end

section
/-! Facts about the parts of a mode change (R13, R20, R35, R113, R141): the alerts that were set stay set, what closing the
streams and cutting the field on the line do to each lane, what becomes of the notes, and the direct fault entry as a whole. -/

namespace Sys2Proof.Machine

/-- A station on the bus is out of OFF. -/
theorem framed_on {s : State} (h : s.Framed) : s.mode.actual ≠ .off := h.2.1

/-! ## Alerts stay set -/

/-- Every alert set before is set after. -/
structure AlertsStay (s t : State) : Prop where
  stays : ∀ a, s.HasAlert a → t.HasAlert a

theorem AlertsStay.of_eq {s t : State} (h : t.alerts = s.alerts) : AlertsStay s t where
  stays a ha := by
    unfold State.HasAlert at ha ⊢
    rw [h, ha]

theorem AlertsStay.trans {s t u : State} (h : AlertsStay s t) (g : AlertsStay t u) : AlertsStay s u where
  stays a ha := g.stays a (h.stays a ha)

theorem AlertsStay.of_raise {s t : State} {a : Alert} (h : t.alerts = s.alerts.raise a) : AlertsStay s t where
  stays b hb := by
    unfold State.HasAlert at hb ⊢
    rw [h, AlertUnit.isSet_raise, hb, Bool.or_true]

theorem raise_alertsStay (a : Alert) (s : State) : AlertsStay s (raise a s) := .of_raise rfl

theorem hasAlert_raise (a : Alert) (s : State) : (raise a s).HasAlert a := AlertUnit.isSet_raise_self s.alerts a

theorem recordRead_alertsStay (r : Region) (i : Nat) (h : Health) (s : State) : AlertsStay s (recordRead r i h s) := by
  cases h
  · exact .of_eq rfl
  · exact .of_raise (a := .memCorrected) rfl
  · exact .of_raise (a := .memFailed) rfl

theorem closeLane_alertsStay (l : LaneNo) (o : StreamOutcome) (s : State) : AlertsStay s (closeLane l o s) :=
  .of_raise (a := .stream) rfl

theorem closeOpenLanes_alertsStay (o : StreamOutcome) (ls : List LaneNo) :
    ∀ s : State, AlertsStay s (closeOpenLanes o ls s) := by
  induction ls with
  | nil => exact fun s => .of_eq rfl
  | cons l ls ih =>
    intro s
    unfold closeOpenLanes
    split
    · exact ih s
    · exact (closeLane_alertsStay l o s).trans (ih _)

theorem dropStreams_alertsStay (o : StreamOutcome) (s : State) : AlertsStay s (dropStreams o s) :=
  (closeOpenLanes_alertsStay o allLanes s).trans (by unfold dropStreams; generalize closeOpenLanes .. = u; exact .of_eq rfl)

theorem finishNote_alertsStay (i : Nat) (o : NoteOutcome) (s : State) : AlertsStay s (finishNote i o s) :=
  .of_raise (a := .noteDone) rfl

theorem discardNotes_alertsStay (s : State) : AlertsStay s (discardNotes s) := by
  unfold discardNotes endNotes
  simp only []
  split
  · exact .of_raise (a := .noteDone) rfl
  · exact .of_eq rfl

theorem noteLost_alertsStay (s : State) : AlertsStay s (noteLost s) := by
  unfold noteLost
  split
  · exact .of_eq rfl
  split
  · exact .of_eq rfl
  split
  · exact finishNote_alertsStay ..
  · exact finishNote_alertsStay ..
  · exact .of_eq rfl

theorem readTx_alertsStay (i : Nat) (n : TxNote) (s : State) : AlertsStay s (readTx i n s).1 := by
  have hc := recordRead_alertsStay .notes i n.control s
  have hb := recordRead_alertsStay .notes i n.body (recordRead .notes i n.control s)
  unfold readTx
  simp only []
  split
  · exact hc
  · split
    · exact hc.trans hb
    · exact (hc.trans hb).trans (.of_eq rfl)

theorem judgeNote_alertsStay (i : Nat) (n : TxNote) (rb : Readback) (a : Answer) (s : State) :
    AlertsStay s (judgeNote i n rb a s) := by
  unfold judgeNote
  split
  · exact .of_raise (a := .noteDone) rfl
  split
  · exact .of_raise (a := .noteDone) rfl
  · exact .of_raise (a := .noteDone) rfl
  · exact .of_eq rfl

theorem noteCompleted_alertsStay (rb : Readback) (a : Answer) (s : State) : AlertsStay s (noteCompleted rb a s) := by
  unfold noteCompleted
  split
  · exact .of_eq rfl
  · rename_i i _
    split
    · exact .of_eq rfl
    · rename_i n _
      have h := readTx_alertsStay i n s
      split <;> rename_i hr <;> rw [hr] at h
      · exact h.trans (judgeNote_alertsStay ..)
      · exact h.trans (finishNote_alertsStay ..)

theorem controlLost_alertsStay (b : Body) (s : State) : AlertsStay s (controlLost b s) := by
  unfold controlLost
  split
  · exact .of_eq rfl
  split
  · exact .of_raise (a := .stream) rfl
  · exact .of_eq rfl

theorem controlMismatch_alertsStay (b : Body) (s : State) : AlertsStay s (controlMismatch b s) := by
  unfold controlMismatch
  repeat' split
  all_goals exact .of_eq rfl

theorem cutControl_alertsStay {report : Body → State → State} (h : ∀ b s, AlertsStay s (report b s)) (b : Body)
    (s : State) : AlertsStay s (cutControl report b s) := by
  unfold cutControl
  split
  · exact .of_eq rfl
  split
  · exact h b s
  · exact .of_eq rfl

theorem reportCut_alertsStay (s : State) : AlertsStay s (reportCut s) := by
  unfold reportCut
  split
  · rename_i src _ b _
    by_cases hbits : s.line.messageBits < 17
    · cases src
      · rw [(messageCut_contends hbits b).1]; exact cutControl_alertsStay controlLost_alertsStay b s
      · rw [(messageCut_contends hbits b).2]; exact noteLost_alertsStay s
    · have hwon : AlertsStay s { s with line.wonWindow := true } := .of_eq rfl
      cases src
      · rw [(messageCut_body (Nat.not_lt.mp hbits) b).1]
        exact hwon.trans (cutControl_alertsStay controlMismatch_alertsStay b _)
      · rw [(messageCut_body (Nat.not_lt.mp hbits) b).2]
        exact hwon.trans (noteCompleted_alertsStay ..)
  all_goals exact .of_eq rfl

theorem cutTransmission_alertsStay (s : State) : AlertsStay s (cutTransmission s) :=
  (reportCut_alertsStay s).trans (by unfold cutTransmission; generalize reportCut s = u; exact .of_eq rfl)

/-! ## Lanes closed one by one (R113) -/

/-- The record of a lane after its entry into CLOSED. -/
abbrev Lane.closedWith (r : Lane) (o : StreamOutcome) : Lane := { r with
  state := .closed, slots := [], position := none, outcome := o, closeOnWithdraw := false, changed := true }

theorem laneOfState_putLane (l k : LaneNo) (r : Lane) (s : State) :
    laneOfState (putLane l r s) k = if k = l then r else laneOfState s k := lane_putLane l k r s

theorem laneOfState_closeLane (l k : LaneNo) (o : StreamOutcome) (s : State) :
    laneOfState (closeLane l o s) k = if k = l then (laneOfState s l).closedWith o else laneOfState s k :=
  laneOfState_putLane l k ((laneOfState s l).closedWith o) s

/-- The listed lanes that are not CLOSED are closed, and every other lane stays as it is. -/
theorem laneOfState_closeOpenLanes (o : StreamOutcome) (ls : List LaneNo) : ∀ (s : State) (k : LaneNo),
    laneOfState (closeOpenLanes o ls s) k =
      if k ∈ ls ∧ (laneOfState s k).state ≠ .closed then (laneOfState s k).closedWith o else laneOfState s k := by
  induction ls with
  | nil => intro s k; simp [closeOpenLanes]
  | cons l ls ih =>
    intro s k
    unfold closeOpenLanes
    rw [ih]
    by_cases hc : laneClosed s l = true
    · have hl : (laneOfState s l).state = .closed := of_decide_eq_true hc
      rw [if_pos hc]
      by_cases hk : k = l
      · subst hk; simp [hl]
      · simp [hk]
    · have hl : (laneOfState s l).state ≠ .closed := fun h => hc (decide_eq_true h)
      rw [if_neg hc, laneOfState_closeLane]
      by_cases hk : k = l
      · subst hk; simp [hl]
      · simp [hk]

theorem dropStreams_lanes (o : StreamOutcome) (s : State) :
    (dropStreams o s).streams.lanes = (closeOpenLanes o allLanes s).streams.lanes := by
  unfold dropStreams
  generalize closeOpenLanes o allLanes s = u
  rfl

theorem laneOfState_dropStreams (o : StreamOutcome) (s : State) (k : LaneNo) :
    laneOfState (dropStreams o s) k =
      if (laneOfState s k).state ≠ .closed then (laneOfState s k).closedWith o else laneOfState s k := by
  have h := laneOfState_closeOpenLanes o allLanes s k
  simp only [mem_allLanes, true_and] at h
  rw [← h]
  unfold laneOfState
  rw [dropStreams_lanes]

theorem dropStreams_idle (o : StreamOutcome) (s : State) : (dropStreams o s).StreamsIdle :=
  And.intro (fun l => by unfold laneOfState; exact dropStreams_closed o s l) (dropStreams_outbox o s)

/-- Words written at the closing of lanes are fresh. -/
theorem closeOpenLanes_clean (o : StreamOutcome) (ls : List LaneNo) : ∀ s : State,
    (∀ l : LaneNo, (s.streams.lanes.get l).health = .clean) →
    ∀ l : LaneNo, ((closeOpenLanes o ls s).streams.lanes.get l).health = .clean := by
  induction ls with
  | nil => exact fun s h => h
  | cons l ls ih =>
    intro s h
    unfold closeOpenLanes
    split
    · exact ih s h
    · refine ih _ fun k => ?_
      show ((s.streams.lanes.set l _).get k).health = .clean
      rw [Table.get_set]
      split
      · rfl
      · exact h k

theorem dropStreams_clean {o : StreamOutcome} {s : State} (h : s.StreamsClean) : (dropStreams o s).StreamsClean :=
  ⟨fun l => by rw [dropStreams_lanes]; exact closeOpenLanes_clean o allLanes s h.1 l, by rw [dropStreams_outbox]; simp⟩

/-! ## What a cut does to a lane (R13, R102) -/

theorem claimContends_congr {s t : State} (hl : t.line = s.line) (hs : t.streams = s.streams) (l : LaneNo) :
    t.ClaimContends l ↔ s.ClaimContends l := by
  simp only [State.ClaimContends, claimInWindow, laneOfState, hl, hs]

theorem claimInWindow_iff (l : LaneNo) (s : State) :
    claimInWindow l s = true ↔ ∃ st b, s.line.onLine = some (.message .outbox st b) ∧ claimLaneOf b = some l := by
  unfold claimInWindow
  split
  · rename_i st l' x k c w r hl
    simp [hl, claimLaneOf]
  · rename_i hne
    simp only [Bool.false_eq_true, false_iff, not_exists, not_and]
    intro st b hl hb
    cases b with
    | claim l' x k c w r => exact hne _ _ _ _ _ _ _ hl
    | _ => cases hb

theorem laneOfState_controlLost (b : Body) (s : State) (k : LaneNo) : laneOfState (controlLost b s) k =
    if claimLaneOf b = some k ∧ (laneOfState s k).state = .cancelling then (laneOfState s k).closedWith .cancelled
    else laneOfState s k := by
  have hr (l : LaneNo) : laneOfState (removeEntry l s) = laneOfState s := rfl
  unfold controlLost
  cases hb : claimLaneOf b with
  | none => simp
  | some l =>
    simp only [Option.some.injEq]
    by_cases hc : (laneOfState s l).state = .cancelling
    · rw [if_pos hc, laneOfState_closeLane, hr]
      by_cases hk : k = l
      · subst hk; simp [hc]
      · simp [hk, Ne.symm hk]
    · rw [if_neg hc, if_neg (by rintro ⟨rfl, h⟩; exact hc h)]

theorem laneOfState_controlMismatch_state (b : Body) (s : State) (k : LaneNo) :
    (laneOfState (controlMismatch b s) k).state = (laneOfState s k).state := by
  unfold controlMismatch
  cases hb : claimLaneOf b with
  | none => rfl
  | some l =>
    simp only []
    split
    · rw [updateLane, laneOfState_putLane]
      split
      · rename_i hk; subst hk; rfl
      · rfl
    · rfl

/-- The lanes of a station whose field on the line was cut: a CLAIM closed in its window and cut in its contention has closed its
lane, and no other lane has changed its state. -/
abbrev LanesCut (s u : State) : Prop := ∀ k : LaneNo,
  if s.ClaimContends k then laneOfState u k = (laneOfState s k).closedWith .cancelled
  else (laneOfState u k).state = (laneOfState s k).state

theorem laneOfState_cutLost {s : State} {b : Body} {k : LaneNo} (hbits : s.line.messageBits < 17)
    (hw : claimInWindow k s = true ↔ claimLaneOf b = some k) :
    if s.ClaimContends k then laneOfState (cutControl controlLost b s) k = (laneOfState s k).closedWith .cancelled
    else (laneOfState (cutControl controlLost b s) k).state = (laneOfState s k).state := by
  unfold cutControl
  cases hb : claimLaneOf b with
  | none => simp [State.ClaimContends, hw, hb]
  | some l =>
    simp only []
    by_cases hr : laneReadable s l = true
    · rw [if_pos hr, laneOfState_controlLost, hb]
      by_cases hk : l = k
      · subst hk
        have hd : (s.streams.lanes.get l).health ≠ .double := of_decide_eq_true hr
        simp only [State.ClaimContends, hw, hb, hbits, hd, true_and, ne_eq, not_false_eq_true, and_true]
        split <;> simp_all
      · simp [State.ClaimContends, hw, hb, hk]
    · rw [if_neg hr, if_neg fun h => hr ?_]
      obtain ⟨hin, -, -, hd⟩ := h
      rw [hw, hb] at hin
      cases hin
      exact decide_eq_true hd

theorem reportCut_lanesCut (s : State) : LanesCut s (reportCut s) := by
  intro k
  have hother (hs : (reportCut s).streams = s.streams) (hw : claimInWindow k s = false) :
      if s.ClaimContends k then laneOfState (reportCut s) k = (laneOfState s k).closedWith .cancelled
      else (laneOfState (reportCut s) k).state = (laneOfState s k).state := by
    rw [if_neg (by simp [State.ClaimContends, hw])]
    simp only [laneOfState, hs]
  cases hl : s.line.onLine with
  | none => exact hother (by simp only [reportCut, hl]) (by simp only [claimInWindow, hl])
  | some f =>
    cases f with
    | tag n g => exact hother (by simp only [reportCut, hl]) (by simp only [claimInWindow, hl])
    | mark m founding => exact hother (by simp only [reportCut, hl]) (by simp only [claimInWindow, hl])
    | answer a => exact hother (by simp only [reportCut, hl]) (by simp only [claimInWindow, hl])
    | message src st b =>
      cases src with
      | note =>
        refine hother ?_ (by simp only [claimInWindow, hl])
        simp only [reportCut, hl, messageCut]
        split <;> simp
      | outbox =>
        have hw : claimInWindow k s = true ↔ claimLaneOf b = some k := by
          rw [claimInWindow_iff, hl]
          simp
        simp only [reportCut, hl]
        by_cases hbits : s.line.messageBits < 17
        · rw [(messageCut_contends hbits b).1]
          exact laneOfState_cutLost hbits hw
        · rw [(messageCut_body (Nat.not_lt.mp hbits) b).1, if_neg fun ⟨_, _, h17, _⟩ => hbits h17]
          unfold cutControl
          split
          · rfl
          · split
            · exact laneOfState_controlMismatch_state b _ k
            · rfl

theorem cutTransmission_streams (s : State) : (cutTransmission s).streams = (reportCut s).streams := by
  unfold cutTransmission
  generalize reportCut s = u
  rfl

theorem cutTransmission_lanesCut (s : State) : LanesCut s (cutTransmission s) := fun k => by
  have h := reportCut_lanesCut s k
  unfold laneOfState at h ⊢
  rw [cutTransmission_streams]
  exact h

/-- With nothing of the station on the line there is nothing to report. -/
theorem reportCut_vacant {s : State} (h : s.line.onLine = none) : reportCut s = s := by
  simp only [reportCut, h]

/-- Streams dropped after a cut have the outcome given, but for a CLAIM that the cut has closed. -/
theorem dropStreams_closedFrom {o : StreamOutcome} {s u : State} (h : LanesCut s u) :
    (dropStreams o u).ClosedFrom s o := by
  intro k hk
  have hu := h k
  rw [laneOfState_dropStreams]
  split at hu
  · simp [*]
  · simp [*]

/-! ## A change of mode (R13, R20, R141) -/

/-- The part of a change of mode before the cut of the field being sent: the mode and its alert, and the notes discarded where
the station leaves MEMBER. -/
def announced (m : Mode) (s : State) : State :=
  let s1 := raise .mode { s with mode.actual := m, cycle.foundingPending := false, cycle.winnerMarkDue := false }
  if s.mode.actual = .member then discardNotes s1 else s1

theorem changeMode_cuts {m : Mode} (hm : m = .off ∨ m = .listen) (s : State) :
    changeMode m s = cutTransmission (announced m s) := if_pos hm

theorem changeMode_cuts_nothing {m : Mode} (hm : ¬(m = .off ∨ m = .listen)) (s : State) :
    changeMode m s = announced m s := if_neg hm

@[simp] theorem announced_frame (m : Mode) (s : State) :
    (announced m s).line = s.line ∧ (announced m s).streams = s.streams ∧ (announced m s).lanes = s.lanes ∧
    (announced m s).errorRecord = s.errorRecord ∧ (announced m s).pins = s.pins ∧ (announced m s).port = s.port := by
  unfold announced
  simp only []
  split <;> simp

theorem announced_alertsStay (m : Mode) (s : State) :
    (announced m s).HasAlert .mode ∧ AlertsStay s (announced m s) := by
  unfold announced
  simp only []
  generalize hu : ({ s with mode.actual := m, cycle.foundingPending := false, cycle.winnerMarkDue := false } : State) = u
  have hs : AlertsStay s u := .of_eq (by rw [← hu])
  have hd := discardNotes_alertsStay (raise .mode u)
  have hr := hasAlert_raise .mode u
  split
  · exact ⟨hd.stays _ hr, (hs.trans (raise_alertsStay .mode u)).trans hd⟩
  · exact ⟨hr, hs.trans (raise_alertsStay .mode u)⟩

theorem changeMode_alertsStay (m : Mode) (s : State) :
    (changeMode m s).HasAlert .mode ∧ AlertsStay s (changeMode m s) := by
  obtain ⟨h1, h2⟩ := announced_alertsStay m s
  by_cases hm : m = .off ∨ m = .listen
  · rw [changeMode_cuts hm]
    have hc := cutTransmission_alertsStay (announced m s)
    exact ⟨hc.stays _ h1, h2.trans hc⟩
  · rw [changeMode_cuts_nothing hm]
    exact ⟨h1, h2⟩

theorem changeMode_lanesCut {m : Mode} (hm : m = .off ∨ m = .listen) (s : State) : LanesCut s (changeMode m s) := by
  intro k
  have h := cutTransmission_lanesCut (announced m s) k
  obtain ⟨hl, hs, -⟩ := announced_frame m s
  have hk : laneOfState (announced m s) k = laneOfState s k := by unfold laneOfState; rw [hs]
  rw [changeMode_cuts hm]
  simpa only [claimContends_congr hl hs, hk] using h

/-- Leaving a mode with nothing on the line changes no stream. -/
theorem changeMode_streams_vacant {s : State} (h : s.line.onLine = none) (m : Mode) :
    (changeMode m s).streams = s.streams := by
  obtain ⟨hl, hs, -⟩ := announced_frame m s
  by_cases hm : m = .off ∨ m = .listen
  · rw [changeMode_cuts hm, cutTransmission_streams, reportCut_vacant (by rw [hl, h]), hs]
  · rw [changeMode_cuts_nothing hm, hs]

/-! ## Notes discarded (R139, R141) -/

theorem Ending.orDiscard_eq (e : Ending) : e.orDiscard = if e = .abort then .abort else .discard := by
  cases e <;> rfl

theorem endNotes_tx (o : NoteOutcome) (mark : Ending → Ending) (s : State) :
    (endNotes o mark s).notes = { s.notes with tx := s.notes.tx.map fun n =>
      if n.state = .done then n
      else if n.state = .active && noteInWindow s then { n with ending := mark n.ending } else n.finish o } := by
  unfold endNotes
  simp only []
  split <;> rfl

theorem discardNotes_notes (s : State) : (discardNotes s).notes = { s.notes with tx := s.discarded } := by
  unfold discardNotes
  rw [endNotes_tx]
  simp only [Ending.orDiscard_eq]
  rfl

/-! ## The direct fault entry (R35) -/

/-- What the direct fault entry makes of a station, for every cause but those after which it learns again. -/
structure DirectFault (cause : FaultCause) (s t : State) : Prop where
  mode : t.mode = { actual := .listen, requested := .listen, target := .none, withdrawCount := 0, cause := cause }
  idle : t.StreamsIdle
  alert : t.HasAlert .mode
  stay : AlertsStay s t
  onLine : t.line.onLine = none
  contention : t.line.contention = .none
  timer : t.line.silenceTimer = s.line.silenceTimer
  driver : t.line.driverEnable = s.line.driverEnable
  count : t.line.driverFaultCount = s.line.driverFaultCount
  lanes : t.ClosedFrom s .fault
  notes : t.notes = (discardNotes (changeMode .listen s)).notes
  stayCut : AlertsStay (changeMode .listen s) t
  alloc : t.alloc = s.alloc
  phase : t.cycle.phase = s.cycle.phase

theorem faultEntry_eq {cause : FaultCause} {s : State} (ho : s.mode.actual ≠ .off) (hl : s.mode.actual ≠ .listen)
    (hc : ¬(cause = .resyncFailed ∨ cause = .configMismatch)) :
    faultEntry cause s = faultItems cause (dropStreams .fault (discardNotes (changeMode .listen s))) := by
  rw [faultEntry_out ho hl, if_neg hc]

theorem laneOfState_congr {s t : State} (h : t.streams = s.streams) : laneOfState t = laneOfState s := by
  unfold laneOfState
  rw [h]

theorem lanesCut_congr {s u v : State} (h : v.streams = u.streams) (hu : LanesCut s u) : LanesCut s v := by
  intro k
  have hk := hu k
  have e : laneOfState v k = laneOfState u k := congrFun (laneOfState_congr h) k
  rwa [← e] at hk

theorem streamsIdle_congr {s t : State} (h : t.streams = s.streams) (hs : s.StreamsIdle) : t.StreamsIdle := by
  unfold State.StreamsIdle at hs ⊢
  rw [laneOfState_congr h, h]
  exact hs

theorem closedFrom_source {s u t : State} {o : StreamOutcome} (hs : laneOfState u = laneOfState s)
    (hc : ∀ l, u.ClaimContends l ↔ s.ClaimContends l) (h : t.ClosedFrom u o) : t.ClosedFrom s o := by
  intro l hl
  rw [h l (hs ▸ hl)]
  exact if_congr (hc l) rfl rfl

theorem closedFrom_congr {s t u : State} {o : StreamOutcome} (h : t.streams = u.streams) (hu : u.ClosedFrom s o) :
    t.ClosedFrom s o := by
  unfold State.ClosedFrom at hu ⊢
  rw [laneOfState_congr h]
  exact hu

theorem faultEntry_direct {cause : FaultCause} {s : State} (ho : s.mode.actual ≠ .off) (hl : s.mode.actual ≠ .listen)
    (hc : ¬(cause = .resyncFailed ∨ cause = .configMismatch)) : DirectFault cause s (faultEntry cause s) := by
  rw [faultEntry_eq ho hl hc]
  have hcut := changeMode_cut (m := .listen) (.inr rfl) s
  have hkeeps := changeMode_line_keeps .listen s
  have halert := changeMode_alertsStay .listen s
  have hlanes := changeMode_lanesCut (m := .listen) (.inr rfl) s
  have hframe := changeMode_frame .listen s
  have hmode := changeMode_mode .listen s
  have hcycle := changeMode_cycle .listen s
  generalize hu : changeMode .listen s = u at *
  have hdu := discardNotes_alertsStay u
  have hfu := discardNotes_frame u
  generalize hv : discardNotes u = v at *
  have hdv := dropStreams_alertsStay .fault v
  have hfv := dropStreams_frame .fault v
  have hidle := dropStreams_idle .fault v
  have hclosed : (dropStreams .fault v).ClosedFrom s .fault := by
    obtain ⟨-, -, -, -, hstreams, -⟩ := hfu
    exact dropStreams_closedFrom (lanesCut_congr hstreams hlanes)
  generalize dropStreams .fault v = w at *
  have hitems := faultItems_frame cause w
  have hstay : AlertsStay u (faultItems cause w) := (hdu.trans hdv).trans (.of_eq (by simp only [hitems]))
  have hline : (faultItems cause w).line = u.line := by simp only [hitems, hfv, hfu]
  obtain ⟨hframe, -, -, -⟩ := hframe
  obtain ⟨htimer, hdriver, -, -, hcount⟩ := hkeeps
  exact {
    mode := by simp only [faultItems_mode, hfv, hfu, hmode]
    idle := streamsIdle_congr (by simp only [hitems]) hidle
    alert := hstay.stays _ halert.1
    stay := halert.2.trans hstay
    onLine := by rw [hline]; exact hcut.1
    contention := by rw [hline]; exact hcut.2
    timer := by rw [hline]; exact htimer
    driver := by rw [hline]; exact hdriver
    count := by rw [hline]; exact hcount
    lanes := closedFrom_congr (by simp only [hitems]) hclosed
    notes := by rw [hu, hv]; simp only [hitems, hfv]
    stayCut := by rw [hu]; exact hstay
    alloc := by simp only [hitems, hfv, hfu, hframe]
    phase := by simp only [hitems, hfv, hfu, hcycle] }

end Sys2Proof.Machine
end

section
/-! Contention for a mark and a founding, and the naming of the station's own slots (R5, R6, R11, R15, R16, R86, R114, R115,
R122). -/

namespace Sys2Proof.Machine

/-! ## Contention (R11, R15, R16, R86) -/

theorem contentionBits_eq (n : Station) :
    contentionBits n = (List.range 6).map fun i => n.val.testBit (5 - i) := rfl

theorem foundingReady_joining {s : State} (hm : s.mode.actual = .joining) (hd : s.line.driverEnable = true) :
    foundingReady s = (s.cycle.foundingPending && decide (s.line.contention = .none)) := by
  simp [foundingReady, hm, hd]

/-- With a clean queue the mark begun carries the queue as it stands, and the read changes nothing. -/
theorem sendMark_clean {s : State} (h : s.QueueClean) :
    sendMark s = { s with line := { s.line with onLine := some (.mark (composeMark s) false) } } := by
  simp only [sendMark, readQueue_clean h, Course.state_on]

/-- Settles O41. -/
theorem contentionBeginsTheMark : Obligations.ContentionBeginsTheMark := by
  intro s
  refine ⟨congrArg some (contentionBits_eq (own s)), congrArg some (contentionBits_eq (own s)), rfl, fun hf => ?_,
    fun hr hm hd => ?_⟩
  · simp only [exec, execMarkContention, execMarkContentionWon, framedEvent_on hf]
    refine ⟨?_, ?_, ?_, ?_, ?_⟩
    · rintro ⟨hm, hd⟩
      simp [hm, hd]
    · rintro (hm | hd)
      · simp [hm]
      · simp [hd]
    · intro hc hm hd hq
      rw [if_pos hc, if_pos (by simp [hm, hd])]
      exact congrArg _ (sendMark_clean (s := { s with line.contention := .none }) hq)
    · rintro hc (hm | hd)
      · simp [hc, hm]
      · simp [hc, hd]
    · intro hc
      simp [hc]
  · have hon : s.mode.actual ≠ .off := by simp [hm]
    simp only [exec, execFoundingContentionStart, execFoundingContentionJoined, execFoundingContentionWon,
      lineEvent_on hr hon, foundingReady_joining hm hd]
    refine ⟨?_, ?_, ?_⟩
    · intro hp hc
      simp [hp, hc, contendFounding]
    · intro hp
      simp [hp]
    · intro hc
      simp [hc, hm, hd, foundingMark]

/-! ## Own slots (R114, R115, R122) -/

/-- A slot is named for a lane: it stands in the slot list of one that is HELD, CLOSING or CANCELLING (R114). -/
def Named (n : Slot) (s : State) (k : LaneNo) : Prop := n ∈ (laneOfState s k).slots ∧
  ((laneOfState s k).state = .held ∨ (laneOfState s k).state = .closing ∨ (laneOfState s k).state = .cancelling)

theorem named_iff (n : Slot) (s : State) (k : LaneNo) :
    ((laneOfState s k).tags && (laneOfState s k).slots.contains n) = true ↔ Named n s k := by
  simp [Named, Lane.tags, and_comm, or_assoc]

theorem namingLane_none {n : Slot} {s : State} (h : ∀ k, ¬Named n s k) : namingLane n s = none := by
  rw [namingLane, List.find?_eq_none]
  exact fun k _ hk => h k ((named_iff n s k).mp hk)

/-- The lane that names a slot is the lowest-numbered one that holds it (log 43). -/
theorem namingLane_lowest {n : Slot} {s : State} {l : LaneNo} (hl : Named n s l) (h : ∀ k < l, ¬Named n s k) :
    namingLane n s = some l := by
  rw [namingLane, List.find?_eq_some_iff_getElem]
  refine ⟨(named_iff n s l).mpr hl, l.val, by simp [allLanes], by simp [allLanes], fun j hj => ?_⟩
  have hk : allLanes[j]'(by simp [allLanes]; omega) < l := by simpa [allLanes, Fin.lt_def] using hj
  exact Bool.not_eq_true' _ ▸ Bool.eq_false_of_not_eq_true (mt (named_iff n s _).mp (h _ hk))

/-- A SLOT_START taken by a station whose lanes read clean goes by the lane that names the slot. -/
theorem execSlotStart_named {n : Slot} {l : LaneNo} {s : State} (hf : s.Framed) (hc : s.StreamsClean)
    (hm : s.mode.actual.sendsTags = true) (hl : namingLane n s = some l) :
    exec (.slotStart n) s = .next (nameSlot n l s) := by
  simp only [exec, execSlotStart, framedEvent_on hf, hm, if_true, readStreams_clean allLanes false hc,
    Course.finally_on, Course.state_on, hl]

theorem execSlotStart_unnamed {n : Slot} {s : State} (hf : s.Framed) (hc : s.StreamsClean)
    (hm : s.mode.actual.sendsTags = true) (hl : namingLane n s = none) : exec (.slotStart n) s = .next s := by
  simp only [exec, execSlotStart, framedEvent_on hf, hm, if_true, readStreams_clean allLanes false hc,
    Course.finally_on, Course.state_on, hl]

/-- The place in its lane's list that the tag of a slot carries as its part. -/
theorem ownTag_eq {n : Slot} {l : LaneNo} {s : State} {u : Use} {x : Sample} {c p : Fin 8}
    (hc : c.val + 1 = (laneOfState s l).count) (hp : (laneOfState s l).slots[p.val]? = some n)
    (hj : ∀ j < p.val, (laneOfState s l).slots[j]? ≠ some n) :
    ownTag n l u x s =
      { holder := own s, lane := l, label := (laneOfState s l).label, part := p, countCode := c,
        cls := (laneOfState s l).cls, ret := (laneOfState s l).ret, use := u, sample := x } := by
  obtain ⟨hlt, hget⟩ := List.getElem?_eq_some_iff.mp hp
  have hidx : (laneOfState s l).slots.findIdx? (· = n) = some p.val := by
    rw [List.findIdx?_eq_some_iff_getElem]
    refine ⟨hlt, by simp [hget], fun j hjp => ?_⟩
    have := hj j hjp
    rw [List.getElem?_eq_getElem (hjp.trans hlt)] at this
    simpa using this
  have hpart : Fin.ofNat 8 ((some p.val).getD 0) = p := Fin.ext (Nat.mod_eq_of_lt p.isLt)
  have hcount : Fin.ofNat 8 ((laneOfState s l).count - 1) = c :=
    Fin.ext (by simp only [Fin.ofNat, ← hc, Nat.add_sub_cancel]; exact Nat.mod_eq_of_lt c.isLt)
  simp only [ownTag, hidx, hpart, hcount]

theorem slotWord_cancelling {l : LaneNo} {s : State} (h : (laneOfState s l).state = .cancelling) :
    slotWord l s = (s, .hold, 0) := by
  simp [slotWord, h]

theorem slotWord_live {l : LaneNo} {s : State} {w : Stored Sample} {ws : List (Stored Sample)}
    (h : (laneOfState s l).state ≠ .cancelling) (hq : s.lanes.txFifo.get l = w :: ws) (hw : w.health = .clean) :
    slotWord l s = ({ s with lanes := { s.lanes with txFifo := s.lanes.txFifo.set l ws } }, .live, w.val) := by
  simp [slotWord, h, takeTx, hq, hw, recordRead, takenSample]

theorem slotWord_gap {l : LaneNo} {s : State} (h : (laneOfState s l).state ≠ .cancelling)
    (hq : s.lanes.txFifo.get l = []) : slotWord l s = (countGap l s, .hold, 0) := by
  simp [slotWord, h, takeTx, hq]

theorem countGap_eq {l : LaneNo} {s : State} (h : (laneOfState s l).gapCount < 65535) :
    countGap l s = { s with streams := { s.streams with
      lanes := s.streams.lanes.set l (.fresh { laneOfState s l with gapCount := (laneOfState s l).gapCount + 1 }) } } := by
  have hmin : min ((laneOfState s l).gapCount + 1) 65535 = (laneOfState s l).gapCount + 1 := by omega
  simp only [countGap, updateLane, putLane, hmin]

/-- Settles O25. -/
theorem ownSlotsAreTagged : Obligations.OwnSlotsAreTagged := by
  intro s n hf hclean hd hm
  have hs : s.mode.actual.sendsTags = true := by rcases hm with hm | hm | hm <;> rw [hm] <;> rfl
  refine ⟨fun l c p hl hlow hcount hpart hfirst => ?_, fun h => execSlotStart_unnamed hf hclean hs (namingLane_none h)⟩
  rw [execSlotStart_named hf hclean hs (namingLane_lowest hl hlow)]
  refine ⟨fun hstate w ws hq hw => ?_, fun hstate hq hg => ?_, fun hstate => ?_⟩
  · simp only [nameSlot, slotWord_live hstate hq hw, ownTag_eq hcount hpart hfirst, sendTag, hd, if_true]
  · simp only [nameSlot, slotWord_gap hstate hq, ownTag_eq hcount hpart hfirst, countGap_eq hg, sendTag, hd, if_true]
  · simp only [nameSlot, slotWord_cancelling hstate, ownTag_eq hcount hpart hfirst, sendTag, hd, if_true]

end Sys2Proof.Machine
end

section
/-! The message field: the contender of a window, its loss and its completion, and received notes (R2, R7 to R10, R14, R17, R99,
R102, R133 to R145). -/

namespace Sys2Proof.Machine

/-! ## The Transmit Note Queue behind its DONE entries (R133) -/

section
variable {s : State} {ds rest : List TxNote} {n : TxNote}

theorem findIdx?_behind {α : Type} {p : α → Bool} {as bs : List α} {a : α} (h : ∀ x ∈ as, p x = false)
    (ha : p a = true) : (as ++ a :: bs).findIdx? p = some as.length := by
  rw [List.findIdx?_append, List.findIdx?_eq_none_iff.mpr h, List.findIdx?_cons, ha]
  simp

theorem modify_behind {α : Type} (f : α → α) (as bs : List α) (a : α) :
    (as ++ a :: bs).modify as.length f = as ++ f a :: bs := by
  rw [List.modify_eq_set_getElem?]
  simp

theorem oldestOpen_behind (ht : s.notes.tx = ds ++ n :: rest) (hd : ∀ d ∈ ds, d.state = .done) (hn : n.state ≠ .done) :
    oldestOpen s = some ds.length := by
  rw [oldestOpen, ht]
  exact findIdx?_behind (fun d hm => by simp [hd d hm]) (by simp [hn])

theorem activeNote_behind (ht : s.notes.tx = ds ++ n :: rest) (hd : ∀ d ∈ ds, d.state = .done) (hn : n.state = .active) :
    activeNote s = some ds.length := by
  rw [activeNote, ht]
  exact findIdx?_behind (fun d hm => by simp [hd d hm]) (by simp [hn])

theorem updateTx_behind (ht : s.notes.tx = ds ++ n :: rest) (f : TxNote → TxNote) :
    updateTx ds.length f s = { s with notes := { s.notes with tx := ds ++ f n :: rest } } := by
  rw [updateTx, ht, modify_behind]

/-- A read of an entry whose words read clean changes nothing. -/
theorem readTx_clean {i : Nat} (hi : s.notes.tx[i]? = some n) (hc : n.control = .clean) (hb : n.body = .clean) :
    readTx i n s = (s, true) := by
  have hn : ({ n with control := .clean, body := .clean } : TxNote) = n := by
    cases n
    simp only at hc hb
    rw [hc, hb]
  have hm : s.notes.tx.modify i (fun m => { m with control := .clean, body := .clean }) = s.notes.tx := by
    rw [List.modify_eq_set_getElem?, hi]
    obtain ⟨hlt, he⟩ := List.getElem?_eq_some_iff.mp hi
    simp only [Option.map_eq_map, Option.map_some, Option.getD_some]
    rw [hn, ← he, List.set_getElem_self]
  simp only [readTx, hc, hb, recordRead, reduceCtorEq, if_false, updateTx]
  rw [hm]

/-- A note that loses its arbitration unmarked stays as it is (R135). -/
theorem noteLost_unmarked (ht : s.notes.tx = ds ++ n :: rest) (hd : ∀ d ∈ ds, d.state = .done) (hn : n.state = .active)
    (he : n.ending = .none) : noteLost s = s := by
  simp [noteLost, activeNote_behind ht hd hn, ht, he]

/-- A note marked to end that loses its arbitration becomes DONE with its outcome (R140, R141). -/
theorem noteLost_marked {o : NoteOutcome} (ht : s.notes.tx = ds ++ n :: rest) (hd : ∀ d ∈ ds, d.state = .done)
    (hn : n.state = .active) (he : n.ending = .abort ∧ o = .aborted ∨ n.ending = .discard ∧ o = .discarded) :
    noteLost s = { s with
      notes := { s.notes with tx := ds ++ n.finish o :: rest }, alerts := s.alerts.raise .noteDone } := by
  have hi : s.notes.tx[ds.length]? = some n := by simp [ht]
  rcases he with ⟨he, rfl⟩ | ⟨he, rfl⟩ <;>
    simp only [noteLost, activeNote_behind ht hd hn, hi, he, finishNote, updateTx_behind ht, raise]

end

/-- With no countdown just set and no ACTIVE entry the end of a window changes no countdown (R138). -/
theorem spaceNotes_idle {s : State} (h : s.NotesIdle) : spaceNotes s = s := by
  obtain ⟨ha, hf⟩ := h
  have hn : activeNote s = none := by
    rw [activeNote, List.findIdx?_eq_none_iff]
    exact fun n hm => decide_eq_false (ha n hm)
  simp [spaceNotes, hf, spaceActive, hn]

/-! ## Reports about the station's own control messages (R99, R102) -/

/-- Out of WITHDRAWING no exit condition is checked (R34). -/
theorem exitCheck_idle {s : State} (h : s.mode.actual ≠ .withdrawing) : exitCheck s = s := by
  simp [exitCheck, exitReady, h]

/-- A report read without error has its effect on the station that has left its window, and nothing else happens. -/
theorem controlReport_clean {s : State} {b : Body} {effect : Body → State → State} (hc : s.StreamsClean)
    (hm : (effect b { s with line.onLine := none }).mode.actual ≠ .withdrawing) :
    controlReport effect b s = effect b { s with line.onLine := none } := by
  rw [controlReport, readStreams_clean _ _ (by exact hc)]
  exact exitCheck_idle hm

/-- A control message that is no CLAIM closed in its window. -/
abbrev OpenClaim (s : State) (b : Body) : Prop :=
  ∀ l x k c w r, b = .claim l x k c w r → (laneOfState s l).state ≠ .cancelling

theorem claimLaneOf_eq_some {b : Body} {l : LaneNo} (h : claimLaneOf b = some l) : ∃ x k c w r, b = .claim l x k c w r := by
  cases b <;> simp_all [claimLaneOf]

theorem controlLost_open {s : State} {b : Body} (h : OpenClaim s b) : controlLost b s = s := by
  unfold controlLost
  cases hb : claimLaneOf b with
  | none => rfl
  | some l =>
    obtain ⟨x, k, c, w, r, rfl⟩ := claimLaneOf_eq_some hb
    exact if_neg (h l x k c w r rfl)

theorem controlMismatch_open {s : State} {b : Body} (h : OpenClaim s b) : controlMismatch b s = s := by
  unfold controlMismatch
  cases hb : claimLaneOf b with
  | none => rfl
  | some l =>
    obtain ⟨x, k, c, w, r, rfl⟩ := claimLaneOf_eq_some hb
    exact if_neg (h l x k c w r rfl)

theorem controlLost_closed {s : State} {l : LaneNo} {x : Label} {k : Fin 16} {c : SlotClass} {w r : Bool}
    (h : (laneOfState s l).state = .cancelling) :
    controlLost (.claim l x k c w r) s = closeLane l .cancelled (removeEntry l s) := if_pos h

theorem controlMismatch_closed {s : State} {l : LaneNo} {x : Label} {k : Fin 16} {c : SlotClass} {w r : Bool}
    (h : (laneOfState s l).state = .cancelling) : controlMismatch (.claim l x k c w r) s =
      updateLane l (fun r => { r with closeOnWithdraw := true }) (appendEntry (.withdraw l) (removeHead s)) := if_pos h

theorem controlGood_claim_closed {s : State} {l : LaneNo} {x : Label} {k : Fin 16} {c : SlotClass} {w r : Bool}
    (h : (laneOfState s l).state = .cancelling) :
    controlGood (.claim l x k c w r) s = appendEntry (.withdraw l) (removeHead s) := if_pos h

/-- A good completion takes the head out of the outbox, and does no more for any but a CLAIM closed in its window and the
WITHDRAW that follows one that read back mismatch. -/
theorem controlGood_plain {s : State} {b : Body} (h : OpenClaim s b)
    (hw : ∀ l, b = .withdraw l → (laneOfState s l).closeOnWithdraw = false) : controlGood b s = removeHead s := by
  cases b with
  | claim l x k c w r => exact if_neg (h l x k c w r rfl)
  | withdraw l =>
    have hf : (laneOfState (removeHead s) l).closeOnWithdraw = false := hw l rfl
    simp [controlGood, hf]
  | release l => rfl
  | restart => rfl
  | note n => rfl
  | noKind => rfl

theorem controlGood_withdraw {s : State} {l : LaneNo} (h : (laneOfState s l).state = .cancelling)
    (hw : (laneOfState s l).closeOnWithdraw = true) :
    controlGood (.withdraw l) s = closeLane l .cancelled (removeHead s) := by
  have h1 : (laneOfState (removeHead s) l).state = .cancelling := h
  have h2 : (laneOfState (removeHead s) l).closeOnWithdraw = true := hw
  simp [controlGood, h1, h2]

/-- An entry appended for a lane for which the outbox holds none stands at the tail. -/
theorem appendEntry_fresh {s : State} {e : OutboxEntry} (h : ∀ w ∈ s.streams.outbox, w.val.lane? ≠ e.lane?) :
    appendEntry e s = { s with streams := { s.streams with outbox := s.streams.outbox ++ [.fresh e] } } := by
  have hf : (s.streams.outbox.filter fun w => w.val.lane? ≠ e.lane?) = s.streams.outbox :=
    List.filter_eq_self.mpr fun w hw => decide_eq_true (h w hw)
  rw [appendEntry, hf]

/-! ## Arbitration lost (R8, R11, R15) -/

theorem contenderLost_outbox {s : State} {st : Station} {b : Body} (hl : s.line.onLine = some (.message .outbox st b)) :
    contenderLost s = controlReport controlLost b s := by
  simp only [contenderLost, hl]

theorem contenderLost_note {s : State} {st : Station} {b : Body} (hl : s.line.onLine = some (.message .note st b)) :
    contenderLost s = noteLost { s with line := { s.line with onLine := none } } := by
  simp only [contenderLost, hl]

theorem execArbitrationLost_window {s : State} (hr : s.Running) (ho : s.mode.actual ≠ .off)
    (hc : s.line.contention = .none) : exec .arbitrationLost s = .next (contenderLost s) := by
  simp only [exec, execArbitrationLost, lineEvent_on hr ho, hc]

/-- Settles O29. -/
theorem arbitrationLostKeepsTheMessage : Obligations.ArbitrationLostKeepsTheMessage := by
  intro s hr ho
  refine ⟨fun hc => ?_, fun hc => ?_, ?_, ?_, ?_, ?_⟩
  · simp only [exec, execArbitrationLost, lineEvent_on hr ho, hc]
  · simp only [exec, execArbitrationLost, lineEvent_on hr ho, hc]
  · intro st b hc hl hm hs hb
    have he : controlLost b { s with line := { s.line with onLine := none } } = _ := controlLost_open hb
    rw [execArbitrationLost_window hr ho hc, contenderLost_outbox hl, controlReport_clean (by exact hs) (by simp [hm]), he]
  · intro st b ds n rest hc hl ht hd hn he
    rw [execArbitrationLost_window hr ho hc, contenderLost_note hl, noteLost_unmarked (by exact ht) hd hn he]
  · intro st b ds n rest o hc hl ht hd hn hctl he
    rw [execArbitrationLost_window hr ho hc, contenderLost_note hl, noteLost_marked (by exact ht) hd hn he,
      TxNote.finish, ← hctl]
  · intro st l x k c w r hc hl hm hs hcan
    rw [execArbitrationLost_window hr ho hc, contenderLost_outbox hl, controlReport_clean (by exact hs) (by simp [hm]),
      controlLost_closed (by exact hcan)]
    refine ⟨_, rfl, ?_, ?_, fun j hj => ?_, rfl, rfl, rfl⟩ <;> rw [laneOfState_closeLane]
    · rw [if_pos rfl]
    · rw [if_pos rfl]
    · exact if_neg hj

/-! ## The completion of a control message (R2, R17, R99, R102) -/

theorem countReadback_good {s : State} (hm : s.mode.actual ≠ .off) :
    countReadback .good s = { s with line := { s.line with driverFaultCount := 0 } } := by
  simp only [countReadback, hm, if_false]

theorem countReadback_mismatch {s : State} (hm : s.mode.actual ≠ .off) (h : s.line.driverFaultCount < 3) :
    countReadback .mismatch s = { s with line := { s.line with driverFaultCount := s.line.driverFaultCount + 1 } } := by
  have hl : ¬Config.driverFaultLimit ≤ s.line.driverFaultCount + 1 := by simp only [Config.driverFaultLimit]; omega
  simp only [countReadback, hm, if_false, if_neg hl]

/-- The state in which the owner of a control message acts on its completion: the message has left its window, won. -/
abbrev State.completed (s : State) : State := { s with line := { s.line with onLine := none, wonWindow := true } }

theorem execCompleted_control {s : State} {st : Station} {b : Body} {rb : Readback} {a : Answer} (hr : s.Running)
    (ho : s.mode.actual ≠ .off) (hl : s.line.onLine = some (.message .outbox st b)) :
    exec (.ownTransmissionCompleted rb a) s =
      .next (countReadback rb (controlCompleted rb b { s with line.wonWindow := true })) := by
  simp only [exec, execOwnTransmissionCompleted, lineEvent_on hr ho, hl, completeField]

theorem execCompleted_control_good {s : State} {st : Station} {b : Body} (hr : s.Running) (hm : s.mode.actual = .member)
    (hs : s.StreamsClean) (hl : s.line.onLine = some (.message .outbox st b)) :
    exec (.ownTransmissionCompleted .good .none) s = .next (countReadback .good (controlGood b s.completed)) := by
  rw [execCompleted_control hr (by simp [hm]) hl, controlCompleted, controlReport_clean (by exact hs) (by simp [hm])]

theorem execCompleted_control_mismatch {s : State} {st : Station} {b : Body} (hr : s.Running)
    (hm : s.mode.actual = .member) (hs : s.StreamsClean) (hl : s.line.onLine = some (.message .outbox st b)) :
    exec (.ownTransmissionCompleted .mismatch .none) s =
      .next (countReadback .mismatch (controlMismatch b s.completed)) := by
  rw [execCompleted_control hr (by simp [hm]) hl, controlCompleted, controlReport_clean (by exact hs) (by simp [hm])]

/-- Settles O30. -/
theorem controlMessageCompletes : Obligations.ControlMessageCompletes := by
  intro s st b w ws hr hm hs hl hbox
  have hon : s.mode.actual ≠ .off := by simp [hm]
  have hhead : removeHead s.completed =
      { s.completed with streams := { s.streams with outbox := ws } } := by simp only [removeHead, hbox, List.tail_cons]
  rw [execCompleted_control_good hr hm hs hl, execCompleted_control_mismatch hr hm hs hl]
  refine ⟨fun hb hw => ?_, fun hb hlim => ?_, ?_, ?_⟩
  · rw [controlGood_plain (by exact hb) (by exact hw), hhead, countReadback_good (by exact hon)]
  · rw [controlMismatch_open (by exact hb), countReadback_mismatch (by exact hon) (by exact hlim)]
  · rintro l x k c v r rfl hcan hnone
    have happ : appendEntry (.withdraw l) (removeHead s.completed) =
        { s.completed with streams := { s.streams with outbox := ws ++ [.fresh (.withdraw l)] } } := by
      rw [hhead, appendEntry_fresh (by exact hnone)]
    refine ⟨?_, fun hlim => ?_⟩
    · rw [controlGood_claim_closed (by exact hcan), happ, countReadback_good (by exact hon)]
    · rw [controlMismatch_closed (by exact hcan), happ, countReadback_mismatch (by exact hon) (by exact hlim)]
      rfl
  · rintro l rfl hcan hclose
    rw [controlGood_withdraw (by exact hcan) (by exact hclose), hhead, countReadback_good (by exact hon)]
    rfl

/-! ## The start of a window (R7, R99, R134) -/

theorem execWindowStart_vacant {s : State} (hf : s.Framed) (hl : s.line.onLine = none) :
    exec .windowStart s = .next (offer { s with line := { s.line with wonWindow := false } }) := by
  simp only [exec, execWindowStart, framedEvent_on hf, contenderLost, hl]

theorem takeContender_driven {s : State} (hd : s.line.driverEnable = true) (src : Source) (b : Body) :
    takeContender src b s =
      { s with line := { s.line with onLine := some (.message src (own s) b), messageBits := 0 } } := if_pos hd

/-- With clean STREAMS words the head is taken into its window, read and unchanged. -/
theorem offer_head {s : State} {w : Stored OutboxEntry} {ws : List (Stored OutboxEntry)} (hc : s.StreamsClean)
    (hbox : s.streams.outbox = w :: ws) (h : offersHead s = true) :
    offer s = takeContender .outbox (headMessage w.val s) s := by
  simp only [offer, hbox, h, if_true, offerHead, checkOutboxHead_clean hc.2, readStreams_clean _ false hc,
    Course.finally_on, Course.state_on]

theorem offer_held {s : State} {w : Stored OutboxEntry} {ws : List (Stored OutboxEntry)}
    (hbox : s.streams.outbox = w :: ws) (h : offersHead s = false) : offer s = s := by
  simp [offer, hbox, h]

theorem offer_note {s : State} {ds rest : List TxNote} {n : TxNote} (hbox : s.streams.outbox = [])
    (ht : s.notes.tx = ds ++ n :: rest) (hds : ∀ d ∈ ds, d.state = .done) (hn : n.state ≠ .done) (hc : n.control = .clean)
    (hb : n.body = .clean) (hd : s.line.driverEnable = true) (hm : s.mode.actual = .member) (hz : n.countdown = 0) :
    offer s = takeContender .note (.note n.toLine)
      { s with notes := { s.notes with tx := ds ++ { n with state := .active } :: rest } } := by
  have hi : s.notes.tx[ds.length]? = some n := by simp [ht]
  simp only [offer, hbox, hm, if_true, offerNote, oldestOpen_behind ht hds hn, hi, hz, readTx_clean hi hc hb, hd,
    updateTx_behind ht]

theorem offer_no_note {s : State} {ds rest : List TxNote} {n : TxNote} (hbox : s.streams.outbox = [])
    (ht : s.notes.tx = ds ++ n :: rest) (hds : ∀ d ∈ ds, d.state = .done) (hn : n.state ≠ .done)
    (h : s.mode.actual ≠ .member ∨ n.countdown ≠ 0) : offer s = s := by
  have hi : s.notes.tx[ds.length]? = some n := by simp [ht]
  rcases h with h | h
  · simp only [offer, hbox, h, if_false]
  · simp [offer, hbox, offerNote, oldestOpen_behind ht hds hn, hi, h]

/-- Settles O28. -/
theorem windowStartTakesTheContender : Obligations.WindowStartTakesTheContender := by
  intro s hf hl hd
  simp only [execWindowStart_vacant hf hl]
  refine ⟨fun w ws hc hbox => ⟨fun hm => ?_, fun hm => ?_⟩, ?_⟩
  · have hoff : offersHead ({ s with line := { s.line with wonWindow := false } } : State) = true := by
      rcases hm with hm | ⟨hm, hp | hp⟩ <;> simp [offersHead, *]
    rw [offer_head (by exact hc) (by exact hbox) hoff, takeContender_driven (by exact hd)]
    refine ⟨fun l c hw hcount => ?_, fun l hw => ?_, fun l hw => ?_, fun hw => ?_⟩
    · have hk : Fin.ofNat 16 (laneOfState s l).count = c := Fin.ext (by rw [← hcount]; exact Nat.mod_eq_of_lt c.isLt)
      rw [hw, ← hk]
      rfl
    · rw [hw]; rfl
    · rw [hw]; rfl
    · rw [hw]; rfl
  · have hoff : offersHead ({ s with line := { s.line with wonWindow := false } } : State) = false := by
      rcases hm with hm | hm | hm | ⟨hm, hp⟩ <;> simp [offersHead, *]
    rw [offer_held (by exact hbox) hoff]
  · intro ds n rest num hbox ht hds hn hc hb hnum
    refine ⟨fun hm hz => ?_, fun h => ?_⟩
    · have hn64 : Fin.ofNat 64 n.number = num := Fin.ext (by rw [hnum]; exact Nat.mod_eq_of_lt num.isLt)
      rw [offer_note (by exact hbox) (by exact ht) hds hn hc hb (by exact hd) (by exact hm) hz,
        takeContender_driven (by exact hd), TxNote.toLine, hn64]
      rfl
    · rw [offer_no_note (by exact hbox) (by exact ht) hds hn (by exact h)]

/-! ## Received notes (R10, R143 to R145) -/

theorem acceptsNote_station {s : State} {sender : Station} {n : NoteContents} (h : n.kind = 0) :
    acceptsNote sender n s = true ↔
      n.number = own s ∧ sender ≠ own s ∧ (s.mode.actual = .member ∨ s.mode.actual = .withdrawing) := by
  simp [acceptsNote, h, destKindOf, and_left_comm]

/-- A note for more than one station is accepted from another station, addressed to ALL or to the enabled group (R143). -/
theorem acceptsNote_wide {s : State} {sender : Station} {n : NoteContents} (ho : s.mode.actual ≠ .off)
    (hs : sender ≠ own s) : (n.kind ≠ 0 ∧ acceptsNote sender n s = true) ↔
      (n.kind = 2 ∨ n.kind = 1 ∧ s.port.config.groupEnable = true ∧ n.number.val = s.port.config.groupNumber) := by
  have hk : n.kind = 0 ∨ n.kind = 1 ∨ n.kind = 2 ∨ n.kind = 3 := by omega
  rcases hk with hk | hk | hk | hk <;> simp [acceptsNote, hk, destKindOf, ho, hs]

theorem placeNote_room {s : State} (n : RxNote) (h : s.notes.ring.length < 4) : placeNote n s =
    { s with notes := { s.notes with ring := s.notes.ring ++ [.fresh n] }, alerts := s.alerts.raise .noteIn } :=
  if_pos (decide_eq_true h)

theorem placeNote_full {s : State} (n : RxNote) (h : 4 ≤ s.notes.ring.length) :
    placeNote n s = { s with alerts := s.alerts.raise .ringFull } :=
  if_neg fun hr => absurd (of_decide_eq_true hr) (Nat.not_lt.mpr h)

theorem ringHasRoom_iff (s : State) : ringHasRoom s = true ↔ s.notes.ring.length < 4 := decide_eq_true_iff

theorem driveAnswer_eq (a : Answer) (s : State) : driveAnswer a s =
    { s with line := if s.line.driverEnable then { s.line with onLine := some (.answer a) } else s.line } := by
  unfold driveAnswer
  split <;> rfl

theorem decideNote_declined {s : State} {sender : Station} {n : NoteContents}
    (h : ¬(n.kind = 0 ∧ acceptsNote sender n s = true)) : decideNote sender n s = s := if_neg (by simpa using h)

theorem decideNote_accepted {s : State} {sender : Station} {n : NoteContents} (hk : n.kind = 0)
    (h : acceptsNote sender n s = true) : decideNote sender n s =
      driveAnswer (if ringHasRoom s then .ack else .busy) (placeNote (ringEntry sender n s) s) := if_pos (by simp [hk, h])

theorem execNoteCheck_intact {s : State} {sender : Station} {n : NoteContents} (hf : s.Framed) :
    exec (.noteCheckSequenceReceived (.intact sender n)) s = .next (decideNote sender n s) := by
  simp only [exec, execNoteCheckSequenceReceived, framedEvent_on hf]

theorem execNoteCheck_damaged {s : State} (hf : s.Framed) : exec (.noteCheckSequenceReceived .damaged) s = .next s := by
  simp only [exec, execNoteCheckSequenceReceived, framedEvent_on hf]

/-- A window with another station's note, at a station that sends none: the timer restarts and the note is placed where it is
for this station (R9, R14, R145). -/
theorem execWindowEnded_note {s : State} {sender : Station} {n : NoteContents} (hf : s.Framed) (hl : s.line.onLine = none)
    (hs : sender ≠ own s) : exec (.windowEnded (.intact sender (.note n))) s =
      .next { spaceNotes (takeWindowNote sender (.note n) (restartSilence s)) with line.wonWindow := false } := by
  have hc : contenderLost s = s := by simp only [contenderLost, hl]
  have hown : (decide (sender = own (restartSilence s)) && !(restartSilence s).line.wonWindow) = false := by
    simp [show own (restartSilence s) = own s from rfl, hs]
  simp only [exec, execWindowEnded, framedEvent_on hf, hc, framed_on hf, if_false, takeWindow, takeMessage, hown,
    Bool.false_eq_true, applyMessage, Course.state_on]

/-- Settles O34. -/
theorem receivedNoteIsPlaced : Obligations.ReceivedNoteIsPlaced := by
  intro s sender n hf
  rw [execNoteCheck_intact hf]
  refine ⟨?_, ?_, ?_, execNoteCheck_damaged hf, fun hl hi hs => ?_⟩
  · rintro ⟨hk, ha⟩ hroom
    rw [decideNote_accepted hk ((acceptsNote_station hk).mpr ha), if_pos ((ringHasRoom_iff s).mpr hroom),
      placeNote_room _ hroom, driveAnswer_eq, ringEntry, hk]
    rfl
  · rintro ⟨hk, ha⟩ hfull
    rw [decideNote_accepted hk ((acceptsNote_station hk).mpr ha),
      if_neg fun h => absurd ((ringHasRoom_iff s).mp h) (Nat.not_lt.mpr hfull), placeNote_full _ hfull, driveAnswer_eq]
  · intro hna
    rw [decideNote_declined fun ⟨hk, ha⟩ => hna ⟨hk, (acceptsNote_station hk).mp ha⟩]
  · have hwide := acceptsNote_wide (s := restartSilence s) (n := n) (framed_on hf) hs
    have htaken (h : n.kind ≠ 0 ∧ acceptsNote sender n (restartSilence s) = true) :
        takeWindowNote sender (.note n) (restartSilence s) =
          placeNote (ringEntry sender n (restartSilence s)) (restartSilence s) := if_pos (by simpa using h)
    have hkind (h : n.kind = 2 ∨ n.kind = 1 ∧ s.port.config.groupEnable = true ∧
        n.number.val = s.port.config.groupNumber) :
        (destKindOf n.kind.val).getD .all = if n.kind = 2 then .all else .group := by
      rcases h with h | ⟨h, -⟩ <;> rw [h] <;> rfl
    rw [execWindowEnded_note hf hl hs]
    refine ⟨fun ho hroom => ?_, fun ho hfull => ?_, fun ho => ?_⟩
    · rw [htaken (hwide.mpr ho), placeNote_room _ (by exact hroom), spaceNotes_idle (by exact hi), ringEntry, hkind ho]
      rfl
    · rw [htaken (hwide.mpr ho), placeNote_full _ (by exact hfull), spaceNotes_idle (by exact hi)]
      rfl
    · have hleft : takeWindowNote sender (.note n) (restartSilence s) = restartSilence s :=
        if_neg (by simpa using mt hwide.mp ho)
      rw [hleft, spaceNotes_idle (by exact hi)]
      rfl

end Sys2Proof.Machine
end

section
/-! Learned stations that lose the mark (R4, R29, R31): the notes discarded, the tables emptied, and the way into RESYNC or
back to ADOPT. -/

namespace Sys2Proof.Machine

theorem clearTables_empty (s : State) : (clearTables s).TablesEmpty :=
  ⟨fun n => congrArg Stored.val (Table.get_replicate (Stored.fresh SlotEntry.free) n), rfl⟩

theorem relearn_empty (s : State) : (relearn s).TablesEmpty := clearTables_empty (toAdopt s)

/-! ## The discarding of notes (R141) -/

/-- An entry still ACTIVE after the discarding is the one whose note is in its window. -/
theorem active_of_mem_discarded {s : State} {n : TxNote} (hn : n ∈ s.discarded) (ha : n.state = .active) :
    noteInWindow s = true := by
  obtain ⟨m, -, rfl⟩ := List.mem_map.mp hn
  split at ha
  · rename_i hd
    simp [hd] at ha
  · split at ha
    · rename_i hw
      exact ((Bool.and_eq_true ..).mp hw).2
    · simp at ha

/-- The discarding of a PENDING entry is announced. -/
theorem discardNotes_noteDone {s : State} {n : TxNote} (hn : n ∈ s.notes.tx) (hp : n.state = .pending) :
    (discardNotes s).HasAlert .noteDone := by
  have hany : (s.notes.tx.any fun n => n.state ≠ .done && !(n.state = .active && noteInWindow s)) = true :=
    List.any_eq_true.mpr ⟨n, hn, by simp [hp]⟩
  unfold discardNotes endNotes
  simp only [hany, if_true]
  exact hasAlert_raise ..

theorem announced_notes {m : Mode} {s : State} (h : s.mode.actual = .member) :
    (announced m s).notes = { s.notes with tx := s.discarded } := by
  unfold announced
  simp only [if_pos h, discardNotes_notes]
  rfl

theorem announced_noteDone {m : Mode} {s : State} (h : s.mode.actual = .member)
    (hp : ∃ n ∈ s.notes.tx, n.state = .pending) : (announced m s).HasAlert .noteDone := by
  obtain ⟨n, hn, hp⟩ := hp
  unfold announced
  simp only [if_pos h]
  exact discardNotes_noteDone (n := n) (by exact hn) hp

/-! ## A damaged or missing mark (R4) -/

/-- The state in which the verdict on a mark that did not arrive is taken. -/
def markLost (r : MarkReport) (s : State) : State := { s with
  line := { s.line with
    framed := decide (r = .damaged), txSlots := if r = .damaged then [] else s.line.txSlots }
  cycle.tickDone := false }

theorem execMarkReceived_lost {r : MarkReport} {s : State} (hr : s.Running) (ho : s.mode.actual ≠ .off)
    (h : r = .damaged ∨ (r = .missing ∧ s.line.framed = true)) :
    exec (.markReceived r) s = .next (takeDamagedMark (markLost r s)) := by
  simp only [exec, execMarkReceived, lineEvent_on hr ho]
  rcases h with rfl | ⟨rfl, hf⟩
  · rfl
  · rw [if_pos hf]
    rfl

theorem takeDamagedMark_member {s : State} (hm : s.mode.actual = .member) (hp : s.cycle.phase = .learned) :
    takeDamagedMark s =
      let t := enterResync { s with cycle.cycleNumber := s.cycle.cycleNumber + 1 }
      { t with cycle := { t.cycle with foundingMarkDue := false, winnerMarkDue := false } } := by
  simp [takeDamagedMark, damagedMark, hp, learnedDamaged, hm, markEnd, Course.state]

theorem takeDamagedMark_listen {s : State} (hm : s.mode.actual = .listen) (hp : s.cycle.phase = .learned) :
    takeDamagedMark s =
      let t := relearn { s with cycle.cycleNumber := s.cycle.cycleNumber + 1 }
      { t with cycle := { t.cycle with foundingMarkDue := false, winnerMarkDue := false } } := by
  simp [takeDamagedMark, damagedMark, hp, learnedDamaged, hm, markEnd, Course.state]

theorem enterResync_eq (s : State) : enterResync s =
    let t := relearn (raise .conflict (announced .resync s))
    { t with cycle := { t.cycle with resyncAttempts := 0 } } := by
  simp only [enterResync, changeMode_cuts_nothing (m := .resync) (by decide)]

theorem announced_mode (m : Mode) (s : State) : (announced m s).mode = { s.mode with actual := m } := by
  unfold announced
  simp only []
  split <;> simp

theorem announced_cycle (m : Mode) (s : State) :
    (announced m s).cycle = { s.cycle with foundingPending := false, winnerMarkDue := false } := by
  unfold announced
  simp only []
  split <;> simp

/-- What the entry into RESYNC makes of a MEMBER station (R29, R31, R141). -/
structure Resynced (s t : State) : Prop where
  mode : t.mode = { s.mode with actual := .resync }
  cycle : t.cycle = { s.cycle with phase := .adopt, resyncAttempts := 0, foundingPending := false, winnerMarkDue := false }
  empty : t.TablesEmpty
  conflict : t.HasAlert .conflict
  modeAlert : t.HasAlert .mode
  line : t.line = s.line
  streams : t.streams = s.streams
  lanes : t.lanes = s.lanes
  notes : t.notes = { s.notes with tx := s.discarded }
  noteDone : (∃ n ∈ s.notes.tx, n.state = .pending) → t.HasAlert .noteDone
  errorRecord : t.errorRecord = s.errorRecord
  pins : t.pins = s.pins
  port : t.port = s.port

theorem enterResync_resynced {s : State} (hm : s.mode.actual = .member) : Resynced s (enterResync s) := by
  rw [enterResync_eq]
  obtain ⟨hline, hstreams, hlanes, herror, hpins, hport⟩ := announced_frame .resync s
  obtain ⟨hmode, -⟩ := announced_alertsStay .resync s
  have hcycle := announced_cycle .resync s
  have hactual := announced_mode .resync s
  have hnotes := announced_notes (m := .resync) hm
  have hdone := announced_noteDone (m := .resync) hm
  generalize announced .resync s = u at *
  have hstay := raise_alertsStay .conflict u
  exact {
    mode := by simpa using hactual
    cycle := by simp [hcycle]
    empty := relearn_empty (raise .conflict u)
    conflict := hasAlert_raise .conflict u
    modeAlert := hstay.stays _ hmode
    line := by simpa using hline
    streams := by simpa using hstreams
    lanes := by simpa using hlanes
    notes := by simpa using hnotes
    noteDone := fun h => hstay.stays _ (hdone h)
    errorRecord := by simpa using herror
    pins := by simpa using hpins
    port := by simpa using hport }

/-- Settles O12. -/
theorem damagedMarkAtALearnedStation : Obligations.DamagedMarkAtALearnedStation := by
  intro s hr hp r hlost
  refine ⟨fun hm => ⟨_, execMarkReceived_lost hr (by simp [hm]) hlost, ?_⟩,
    fun hm => ⟨_, execMarkReceived_lost hr (by simp [hm]) hlost, ?_⟩⟩
  · rw [takeDamagedMark_member (by exact hm) (by exact hp)]
    have h := enterResync_resynced
      (s := { markLost r s with cycle.cycleNumber := (markLost r s).cycle.cycleNumber + 1 }) hm
    generalize enterResync _ = t at *
    have hnotes : t.notes = { s.notes with tx := s.discarded } := h.notes
    have hline : t.line = (markLost r s).line := h.line
    refine ⟨h.mode, ?_, h.empty, h.conflict, h.modeAlert, h.streams, h.lanes, ?_, ?_, ?_, ?_, ?_, ?_, ?_, h.errorRecord,
      h.pins, h.port⟩
    · simp only [h.cycle]
      rfl
    · rw [hline]
      rfl
    · rw [hline]
      rfl
    · rw [hline]
      rfl
    · rw [hline]
      rfl
    · simp only [hnotes]
      exact fun n hn ha => active_of_mem_discarded hn ha
    · simp only [hnotes]
    · exact fun _ => ⟨congrArg NoteUnit.tx hnotes, h.noteDone⟩
  · rw [takeDamagedMark_listen (by exact hm) (by exact hp)]
    exact ⟨relearn_empty _, rfl, rfl, rfl, rfl, rfl, rfl, rfl, rfl⟩

end Sys2Proof.Machine
end

section
/-! The driver fault (R17, R18, R35): the count at a completion, the entry at the fourth mismatch, and the note that the entry
cuts in its window (R13, R141). -/

namespace Sys2Proof.Machine

/-! ## The entry for a driver fault -/

/-- A station that has found its driver at fault. -/
abbrev DriverFaulted (s t : State) : Prop :=
  t.mode = { actual := .listen, requested := .listen, target := .none, withdrawCount := 0, cause := .driverFault } ∧
  t.line.driverEnable = false ∧ t.line.driverFaultCount = 0 ∧ t.line.onLine = none ∧ t.StreamsIdle ∧
  t.ClosedFrom s .fault ∧ t.HasAlert .driverFault ∧ t.HasAlert .mode ∧ t.alloc = s.alloc ∧
  t.cycle.phase = s.cycle.phase

/-- The state in which the direct fault entry for a driver fault is made. -/
abbrev driverLost (s : State) : State :=
  raise .driverFault { s with line.driverEnable := false, line.driverFaultCount := 0 }

theorem driverFaultFound_direct {s : State} (ho : s.mode.actual ≠ .off) (hl : s.mode.actual ≠ .listen) :
    DirectFault .driverFault (driverLost s) (driverFaultFound s) :=
  faultEntry_direct (by exact ho) (by exact hl) (by simp)

theorem driverFaultFound_faulted {s : State} (ho : s.mode.actual ≠ .off) (hl : s.mode.actual ≠ .listen) :
    DriverFaulted s (driverFaultFound s) := by
  have h := driverFaultFound_direct ho hl
  exact ⟨h.mode, h.driver, h.count, h.onLine, h.idle, closedFrom_source rfl (fun _ => Iff.rfl) h.lanes,
    h.stay.stays _ (hasAlert_raise ..), h.alert, h.alloc, h.phase⟩

theorem countReadback_fourth {s : State} (hm : s.mode.actual ≠ .off) (h : s.line.driverFaultCount = 3) :
    countReadback .mismatch s = driverFaultFound { s with line.driverFaultCount := 4 } := by
  simp only [countReadback, hm, if_false, h]
  rfl

theorem execCompleted_tag {s : State} {n : Slot} {g : TagContents} {rb : Readback} {a : Answer} (hr : s.Running)
    (ho : s.mode.actual ≠ .off) (hl : s.line.onLine = some (.tag n g)) :
    exec (.ownTransmissionCompleted rb a) s = .next (countReadback rb { s with line.onLine := none }) := by
  simp only [exec, execOwnTransmissionCompleted, lineEvent_on hr ho, hl, completeField]

theorem not_claimContends {s : State} {l : LaneNo} (h : ∀ st b, s.line.onLine ≠ some (.message .outbox st b)) :
    ¬s.ClaimContends l := by
  rintro ⟨hin, -⟩
  obtain ⟨st, b, hl, -⟩ := (claimInWindow_iff l s).mp hin
  exact h st b hl

/-- A station with no control message on the line has no CLAIM in its window, so that the driver fault found at a completion
closes every stream as one found by itself. -/
theorem driverFaulted_source {s u t : State} (hu : ∀ st b, u.line.onLine ≠ some (.message .outbox st b))
    (hs : ∀ st b, s.line.onLine ≠ some (.message .outbox st b)) (hl : laneOfState u = laneOfState s)
    (ha : u.alloc = s.alloc) (hp : u.cycle.phase = s.cycle.phase) (h : DriverFaulted u t) : DriverFaulted s t := by
  obtain ⟨hmode, hdriver, hcount, hon, hidle, hclosed, hfault, halert, halloc, hphase⟩ := h
  exact ⟨hmode, hdriver, hcount, hon, hidle,
    closedFrom_source hl (fun _ => iff_of_false (not_claimContends hu) (not_claimContends hs)) hclosed,
    hfault, halert, halloc.trans ha, hphase.trans hp⟩

theorem execDriverFault_on {s : State} (hr : s.Running) (ho : s.mode.actual ≠ .off) :
    exec .driverFault s = .next (driverFaultFound s) := by
  simp only [exec, execDriverFault, lineEvent_on hr ho]

/-! ## The note cut by the entry (R13, R137, R141) -/

theorem cutTransmission_rest (s : State) :
    (cutTransmission s).notes = (reportCut s).notes ∧ (cutTransmission s).alerts = (reportCut s).alerts := by
  unfold cutTransmission
  generalize reportCut s = u
  exact ⟨rfl, rfl⟩

section
variable {s : State} {ds rest : List TxNote} {n : TxNote}

theorem discarded_behind (ht : s.notes.tx = ds ++ n :: rest) (hd : ∀ d ∈ ds, d.state = .done) (hn : n.state = .done) :
    ∃ rest', s.discarded = ds ++ n :: rest' := by
  simp only [State.discarded, ht, List.map_append, List.map_cons, hn, if_true]
  rw [List.map_congr_left fun d hm => if_pos (hd d hm), List.map_id']
  exact ⟨_, rfl⟩

theorem discarded_behind_window (ht : s.notes.tx = ds ++ n :: rest) (hd : ∀ d ∈ ds, d.state = .done)
    (hn : n.state = .active) (hw : noteInWindow s = true) :
    ∃ rest', s.discarded = ds ++ { n with ending := if n.ending = .abort then .abort else .discard } :: rest' := by
  simp only [State.discarded, ht, List.map_append, List.map_cons, hn, hw, decide_true, Bool.and_true, if_true, reduceCtorEq,
    if_false]
  rw [List.map_congr_left fun d hm => if_pos (hd d hm), List.map_id']
  exact ⟨_, rfl⟩

theorem finishNote_behind (ht : s.notes.tx = ds ++ n :: rest) (o : NoteOutcome) :
    (finishNote ds.length o s).notes.tx = ds ++ n.finish o :: rest := by
  rw [finishNote, updateTx_behind ht]
  rfl

/-- A note marked to end whose window read back mismatch has made one attempt more, and ends as marked or NO_ANSWER. -/
theorem noteCompleted_cut {o : NoteOutcome} (ht : s.notes.tx = ds ++ n :: rest) (hd : ∀ d ∈ ds, d.state = .done)
    (hn : n.state = .active) (hc : n.control = .clean) (hb : n.body = .clean)
    (he : n.ending = .abort ∧ o = .aborted ∨ n.ending = .discard ∧ o = .discarded) :
    (noteCompleted .mismatch .none s).HasAlert .noteDone ∧
    (noteCompleted .mismatch .none s).notes.tx = ds ++ ({ n with attempts := n.attempts + 1 } : TxNote).finish
      (if s.port.config.noteAttempts ≤ n.attempts + 1 then .noAnswer else o) :: rest := by
  have hi : s.notes.tx[ds.length]? = some n := by simp [ht]
  have hout : attemptOutcome s.port.config.noteAttempts (n.attempts + 1) n.kind .mismatch .none =
      if s.port.config.noteAttempts ≤ n.attempts + 1 then some .noAnswer else none := by cases n.kind <;> rfl
  have hfin : noteCompleted .mismatch .none s =
      finishNote ds.length (if s.port.config.noteAttempts ≤ n.attempts + 1 then .noAnswer else o)
        (updateTx ds.length (fun m => { m with attempts := n.attempts + 1 }) s) := by
    simp only [noteCompleted, activeNote_behind ht hd hn, hi, readTx_clean hi hc hb, judgeNote, hout]
    by_cases hlast : s.port.config.noteAttempts ≤ n.attempts + 1
    · simp only [if_pos hlast]
    · rcases he with ⟨he, rfl⟩ | ⟨he, rfl⟩ <;> simp only [if_neg hlast, he]
  rw [hfin]
  exact ⟨hasAlert_raise .noteDone _, finishNote_behind (by rw [updateTx_behind ht]) _⟩

/-- A note marked to end that is cut in its contention ends as marked, with its attempts as they stood; one cut in its body has
made one attempt more, and is NO_ANSWER where that is its last. -/
def TxNote.cutAs (o : NoteOutcome) (limit bits : Nat) (n : TxNote) : TxNote :=
  if bits < 17 then n.finish o
  else ({ n with attempts := n.attempts + 1 } : TxNote).finish (if limit ≤ n.attempts + 1 then .noAnswer else o)

theorem TxNote.cutAs_done (o : NoteOutcome) (limit bits : Nat) (n : TxNote) : (n.cutAs o limit bits).state = .done := by
  unfold TxNote.cutAs
  split <;> rfl

theorem TxNote.cutAs_ending (o : NoteOutcome) (limit bits : Nat) (n : TxNote) (e : Ending) :
    ({ n with ending := e } : TxNote).cutAs o limit bits = n.cutAs o limit bits := by
  unfold TxNote.cutAs
  split <;> rfl

theorem reportCut_note_marked {st : Station} {b : Body} {o : NoteOutcome} (hl : s.line.onLine = some (.message .note st b))
    (ht : s.notes.tx = ds ++ n :: rest) (hd : ∀ d ∈ ds, d.state = .done) (hn : n.state = .active) (hc : n.control = .clean)
    (hb : n.body = .clean) (he : n.ending = .abort ∧ o = .aborted ∨ n.ending = .discard ∧ o = .discarded) :
    (reportCut s).HasAlert .noteDone ∧
    (reportCut s).notes.tx = ds ++ n.cutAs o s.port.config.noteAttempts s.line.messageBits :: rest := by
  simp only [reportCut, hl, TxNote.cutAs]
  by_cases hbits : s.line.messageBits < 17
  · rw [(messageCut_contends hbits b).2, noteLost_marked ht hd hn he, if_pos hbits]
    exact ⟨hasAlert_raise .noteDone s, rfl⟩
  · rw [(messageCut_body (Nat.not_lt.mp hbits) b).2, if_neg hbits]
    exact noteCompleted_cut (s := { s with line.wonWindow := true }) (by exact ht) hd hn hc hb he

/-- The ACTIVE note that the way from MEMBER into LISTEN cuts in its window: discarded first, and so marked to end. -/
theorem changeMode_note_cut {st : Station} {b : Body} (hm : s.mode.actual = .member)
    (hl : s.line.onLine = some (.message .note st b)) (ht : s.notes.tx = ds ++ n :: rest) (hd : ∀ d ∈ ds, d.state = .done)
    (hn : n.state = .active) (hc : n.control = .clean) (hb : n.body = .clean) :
    (changeMode .listen s).HasAlert .noteDone ∧ ∃ rest', (changeMode .listen s).notes.tx =
      ds ++ n.cutAs (if n.ending = .abort then .aborted else .discarded) s.port.config.noteAttempts
        s.line.messageBits :: rest' := by
  obtain ⟨rest', hmarked⟩ := discarded_behind_window ht hd hn (by simp only [noteInWindow, hl])
  have hnotes := announced_notes (m := .listen) hm
  obtain ⟨hline, -, -, -, -, hport⟩ := announced_frame .listen s
  rw [changeMode_cuts (.inr rfl)]
  generalize announced .listen s = u at *
  obtain ⟨halert, htx⟩ := reportCut_note_marked (s := u) (n := { n with
      ending := if n.ending = .abort then .abort else .discard }) (o := if n.ending = .abort then .aborted else .discarded)
    (by rw [hline, hl]) (by rw [hnotes, hmarked]) hd hn hc hb (by split <;> simp)
  rw [TxNote.cutAs_ending, hline, hport] at htx
  obtain ⟨hcn, hca⟩ := cutTransmission_rest u
  exact ⟨(AlertsStay.of_eq hca).stays _ halert, rest', by rw [hcn, htx]⟩

/-- The entry for a driver fault leaves the note so ended. -/
theorem driverFaultFound_note {st : Station} {b : Body} (hm : s.mode.actual = .member)
    (hl : s.line.onLine = some (.message .note st b)) (ht : s.notes.tx = ds ++ n :: rest) (hd : ∀ d ∈ ds, d.state = .done)
    (hn : n.state = .active) (hc : n.control = .clean) (hb : n.body = .clean) :
    (driverFaultFound s).HasAlert .noteDone ∧ ∃ rest', (driverFaultFound s).notes.tx =
      ds ++ n.cutAs (if n.ending = .abort then .aborted else .discarded) s.port.config.noteAttempts
        s.line.messageBits :: rest' := by
  have hdirect := driverFaultFound_direct (s := s) (by simp [hm]) (by simp [hm])
  obtain ⟨halert, rest', htx⟩ := changeMode_note_cut (s := driverLost s) (by exact hm) (by exact hl) (by exact ht) hd hn hc hb
  obtain ⟨rest'', hdisc⟩ := discarded_behind htx hd (TxNote.cutAs_done ..)
  refine ⟨hdirect.stayCut.stays _ halert, rest'', ?_⟩
  rw [hdirect.notes, discardNotes_notes]
  exact hdisc

end

/-- Settles O31. -/
theorem driverFaultAtTheFourthMismatch : Obligations.DriverFaultAtTheFourthMismatch := by
  intro s hr faulted
  refine ⟨fun n g hl hm => ?_, fun hm => ?_, ?_⟩
  · have ho : s.mode.actual ≠ .off := by rcases hm with hm | hm <;> simp [hm]
    have hlisten : s.mode.actual ≠ .listen := by rcases hm with hm | hm <;> simp [hm]
    simp only [execCompleted_tag hr ho hl]
    refine ⟨by rw [countReadback_good (by exact ho)], fun hlim => by rw [countReadback_mismatch (by exact ho) (by exact hlim)],
      fun h3 => ⟨_, rfl, ?_⟩⟩
    rw [countReadback_fourth (by exact ho) (by exact h3)]
    exact driverFaulted_source (u := { s with line := { s.line with onLine := none, driverFaultCount := 4 } }) (by simp)
      (by simp [hl]) rfl rfl rfl (driverFaultFound_faulted ho hlisten)
  · have ho : s.mode.actual ≠ .off := by rcases hm with hm | hm | hm | hm <;> simp [hm]
    have hlisten : s.mode.actual ≠ .listen := by rcases hm with hm | hm | hm | hm <;> simp [hm]
    exact ⟨_, execDriverFault_on hr ho, driverFaultFound_faulted ho hlisten⟩
  · intro st b ds n rest hm hl ht hd hn hc hb marked ended
    have ho : s.mode.actual ≠ .off := by simp [hm]
    obtain ⟨halert, rest', htx⟩ := driverFaultFound_note hm hl ht hd hn hc hb
    refine ⟨_, execDriverFault_on hr ho, driverFaultFound_faulted ho (by simp [hm]), halert, ?_, fun hbits => ?_,
      fun hbits => ?_⟩
    · rw [htx, List.take_left]
    · rw [htx, TxNote.cutAs, if_pos hbits]
      simp [TxNote.finish, hc, ended, marked]
    · rw [htx, TxNote.cutAs, if_neg (Nat.not_lt.mpr hbits)]
      simp [TxNote.finish, hc, ended, marked]

end Sys2Proof.Machine
end

section
/-! Line silence (R14, R15, R28, R32, R34): what the notice does in each mode, and the end of a withdrawal. -/

namespace Sys2Proof.Machine

theorem execLineSilence_on {s : State} (hr : s.Running) (ho : s.mode.actual ≠ .off) :
    exec .lineSilence s = .next (silenceNotice s) := by
  simp only [exec, execLineSilence, lineEvent_on hr ho]

theorem silenceNotice_joining {s : State} (hm : s.mode.actual = .joining) : silenceNotice s =
    if s.line.driverEnable then
      { restartSilence s with cycle := { s.cycle with foundingPending := true, winnerMarkDue := false } }
    else restartSilence s := by
  simp only [silenceNotice, hm]
  rfl

theorem silenceNotice_listen {s : State} (hm : s.mode.actual = .listen) :
    silenceNotice s = relearn (restartSilence s) := by
  simp only [silenceNotice, hm]

theorem silenceNotice_resync {s : State} (hm : s.mode.actual = .resync) :
    silenceNotice s = silenceInResync (restartSilence s) := by
  simp only [silenceNotice, hm]

theorem silenceNotice_withdrawing {s : State} (hm : s.mode.actual = .withdrawing) :
    silenceNotice s = endWithdrawal (restartSilence s) := by
  simp only [silenceNotice, hm]

/-! ## Silence in RESYNC (R32) -/

theorem dropStreams_outcome {o : StreamOutcome} {s : State} {l : LaneNo} (h : (laneOfState s l).state ≠ .closed) :
    (laneOfState (dropStreams o s) l).outcome = o := by
  rw [laneOfState_dropStreams, if_pos h]

/-- What line silence makes of a RESYNC station. -/
structure Rejoining (s t : State) : Prop where
  mode : t.mode = { s.mode with actual := .joining, cause := .silence }
  phase : t.cycle.phase = .adopt
  idle : t.StreamsIdle
  outcome : ∀ l, (laneOfState s l).state ≠ .closed → (laneOfState t l).outcome = .fault
  driver : t.line.driverEnable = true
  timer : t.line.silenceTimer = s.line.silenceTimer
  alert : t.HasAlert .mode
  map : t.alloc.map = s.alloc.map
  queue : t.alloc.queue = s.alloc.queue

theorem silenceInResync_rejoining (s : State) : Rejoining s (silenceInResync s) := by
  unfold silenceInResync
  have hmode := changeMode_mode .joining s
  obtain ⟨hline, hstreams, -⟩ := changeMode_uncut (m := .joining) (by decide) s
  obtain ⟨halert, -⟩ := changeMode_alertsStay .joining s
  obtain ⟨halloc, -⟩ := changeMode_frame .joining s
  generalize changeMode .joining s = u at *
  have hlanes : laneOfState (toAdopt u) = laneOfState s := laneOfState_congr hstreams
  have hfu := dropStreams_frame .fault (toAdopt u)
  have hstay := dropStreams_alertsStay .fault (toAdopt u)
  have hidle := dropStreams_idle .fault (toAdopt u)
  have hout (l : LaneNo) (hl : (laneOfState s l).state ≠ .closed) :
      (laneOfState (dropStreams .fault (toAdopt u)) l).outcome = .fault := dropStreams_outcome (by rwa [hlanes])
  generalize dropStreams .fault (toAdopt u) = v at *
  obtain ⟨hvl, hvc, hvm, hva, -⟩ := hfu
  exact {
    mode := by simp only [hvm, toAdopt_frame, hmode]
    phase := by simp only [hvc, toAdopt_cycle]
    idle := streamsIdle_congr rfl hidle
    outcome := hout
    driver := rfl
    timer := by simp only [hvl, toAdopt_frame, hline]
    alert := hstay.stays _ halert
    map := by simp only [hva, toAdopt, halloc]
    queue := by simp only [hva, toAdopt, halloc] }

/-! ## The end of a withdrawal (R34) -/

/-- What the end of a withdrawal has made of a station before it leaves for its target. -/
structure Abandoned (s t : State) : Prop where
  idle : t.StreamsIdle
  lanes : t.ClosedFrom s .abandoned
  onLine : t.line.onLine = none
  timer : t.line.silenceTimer = s.line.silenceTimer
  mode : t.mode = s.mode
  phase : t.cycle.phase = s.cycle.phase
  alloc : t.alloc = s.alloc

theorem dropStreams_abandoned (s : State) : Abandoned s (dropStreams .abandoned (cutTransmission s)) := by
  have hlanes := cutTransmission_lanesCut s
  obtain ⟨hcycle, hmode, halloc, -⟩ := cutTransmission_frame s
  have honLine := cutTransmission_onLine s
  have htimer := cutTransmission_timer s
  generalize cutTransmission s = u at *
  obtain ⟨hul, huc, hum, hua, -⟩ := dropStreams_frame .abandoned u
  exact {
    idle := dropStreams_idle .abandoned u
    lanes := dropStreams_closedFrom hlanes
    onLine := by rw [hul, honLine]
    timer := by rw [hul, htimer]
    mode := by rw [hum, hmode]
    phase := by rw [huc, hcycle]
    alloc := by rw [hua, halloc] }

theorem leaveForTarget_listen {s : State} (h : s.mode.target = .listen) : leaveForTarget s =
    { changeMode .listen s with
      cycle.phase := if s.cycle.phase = .learned then .verify else s.cycle.phase } := by
  simp only [leaveForTarget, h, changeMode_cycle]
  split
  · rfl
  · have hc := changeMode_cycle .listen s
    generalize changeMode .listen s = u at *
    simp only [← hc]

theorem leaveForTarget_off {s : State} (h : s.mode.target = .off) : leaveForTarget s = enterOff s := by
  simp only [leaveForTarget, h]

/-- What a station that has left for its target keeps of the end of its withdrawal. -/
structure LeftIdle (s t : State) : Prop where
  streams : t.streams = s.streams
  onLine : t.line.onLine = none
  alert : t.HasAlert .mode

theorem changeMode_leftIdle {m : Mode} (hm : m = .off ∨ m = .listen) {s : State} (h : s.line.onLine = none) :
    LeftIdle s (changeMode m s) where
  streams := changeMode_streams_vacant h m
  onLine := (changeMode_cut hm s).1
  alert := (changeMode_alertsStay m s).1

theorem leaveForTarget_left {s : State} (ht : s.mode.target = .listen ∨ s.mode.target = .off)
    (h : s.line.onLine = none) : LeftIdle s (leaveForTarget s) := by
  rcases ht with ht | ht
  · have hleft := changeMode_leftIdle (m := .listen) (.inr rfl) h
    rw [leaveForTarget_listen ht]
    exact ⟨hleft.streams, hleft.onLine, hleft.alert⟩
  · have hleft := changeMode_leftIdle (m := .off) (.inl rfl) h
    rw [leaveForTarget_off ht]
    exact ⟨hleft.streams, hleft.onLine, hleft.alert⟩

/-- Settles O42. -/
theorem lineSilenceByMode : Obligations.LineSilenceByMode := by
  intro s hr timed
  refine ⟨fun hm => ?_, fun hm => ?_, fun hm => ?_, fun hm htarget => ?_, fun hm => ?_⟩ <;>
    have ho : s.mode.actual ≠ .off := by simp [hm]
  · rw [execLineSilence_on hr ho, silenceNotice_joining hm]
    refine ⟨fun hd => ?_, fun hd => ?_⟩
    · rw [if_pos hd]
      rfl
    · rw [if_neg (by simp [hd])]
      rfl
  · rw [execLineSilence_on hr ho, silenceNotice_listen hm]
    exact ⟨_, rfl, relearn_empty _, rfl⟩
  · rw [execLineSilence_on hr ho, silenceNotice_resync hm]
    have h := silenceInResync_rejoining (restartSilence s)
    exact ⟨_, rfl, h.mode, h.phase, h.idle, h.outcome, h.driver, h.timer, h.alert, h.map, h.queue⟩
  · rw [execLineSilence_on hr ho, silenceNotice_withdrawing hm, endWithdrawal]
    have h := dropStreams_abandoned (restartSilence s)
    generalize dropStreams .abandoned (cutTransmission (restartSilence s)) = u at *
    obtain ⟨hidle, hlanes, honLine, htimer, hmode, hphase, halloc⟩ := h
    have htarget' : u.mode.target = .listen ∨ u.mode.target = .off := by
      cases ht : u.mode.target with
      | none => exact absurd (hmode ▸ ht) htarget
      | listen => exact .inl rfl
      | off => exact .inr rfl
    have hleft := leaveForTarget_left htarget' honLine
    refine ⟨_, rfl, streamsIdle_congr hleft.streams hidle, closedFrom_congr hleft.streams hlanes, hleft.alert,
      hleft.onLine, fun ht => ?_, fun ht => ?_⟩
    · rw [leaveForTarget_listen (by rw [hmode]; exact ht)]
      exact ⟨by simp only [changeMode_mode, hmode]; rfl, by simp only [changeMode_timer, htimer]; rfl,
        by simp only [hphase]; rfl, by simp only [changeMode_frame, halloc]; rfl⟩
    · rw [leaveForTarget_off (by rw [hmode]; exact ht)]
      exact ⟨by simp only [enterOff, offEffects, clearTables_frame, changeMode_mode, hmode]; rfl, rfl, rfl,
        clearTables_empty (changeMode .off u)⟩
  · rw [execLineSilence_on hr ho, silenceNotice_member hm]
    rfl

end Sys2Proof.Machine
end

section
/-! Founding (R15, R16, R29, R30): the founder's own founding mark, with the Claim Queue empty, and the completion of the founding
mark on the line. -/

namespace Sys2Proof.Machine

/-! ## A mark at a station with an empty queue (R29, R83, R93) -/

section
variable {s : State} {m : MarkContents}

theorem readQueue_empty (hq : s.alloc.queue = []) : readQueue s = .on s := readQueue_clean fun w hw => by simp [hq] at hw

theorem ageAll_empty (hq : s.alloc.queue = []) (b : Bool) : ageAll b s = .on s := by
  have hs : ({ s with alloc.queue := [] } : State) = s := by rw [← hq]
  simp [ageAll, hq, scan, recordScan, expire, hs]

/-- The tick of a mark taken by an empty queue: it is noted, and nothing ages. -/
def ticked (s : State) : State := if tickFalls s then { s with cycle.tickDone := true } else s

theorem ticked_frame (s : State) :
    (ticked s).mode = s.mode ∧ (ticked s).alerts = s.alerts ∧ (ticked s).port = s.port := by
  unfold ticked
  split <;> exact ⟨rfl, rfl, rfl⟩

theorem ticked_zero (hc : s.cycle.cycleNumber = 0) : ticked s = { s with cycle.tickDone := true } :=
  if_pos (by rw [tickFalls, hc]; rfl)

theorem markTick_empty (hq : s.alloc.queue = []) (b : Bool) : markTick b s = .on (ticked s) := by
  unfold markTick ticked
  split
  · exact ageAll_empty (by exact hq) b
  · rfl

theorem positionReport_empty (hq : s.alloc.queue = []) : positionReport s = .on s := by
  simp only [positionReport, readQueue_empty hq, Course.next_on, hq, List.map_nil, recordPositions]

theorem followMark_empty (hq : s.alloc.queue = []) (hp : s.cycle.phase = .learned) (hc : m.cycle = 0) :
    followMark m s = .on { takeMark m s with cycle.tickDone := true } := by
  unfold followMark keepQueue
  rw [markTick_empty (s := takeMark m s) hq, ticked_zero (s := takeMark m s) hc]
  exact (if_pos hp).trans (positionReport_empty hq)

theorem summaryAgrees_empty (hs : m.summary = []) (hq : s.alloc.queue = []) : summaryAgrees m s = true := by
  simp [summaryAgrees, lawful, hs, hq]

/-- Step (a) applied to a mark of an empty queue. -/
theorem adopt_empty {counts : Bool} (hstamp : stampAgrees m s = true) (hs : m.summary = []) (ho : s.mode.actual ≠ .off) :
    ∃ t, adopt counts m s = .on t ∧ t.mode = s.mode ∧ t.cycle.phase = .rebuild ∧ AlertsStay s t ∧ t.port = s.port := by
  have hq : (raise .queueAdopted (replaceQueue m (takeMark m s))).alloc.queue = [] := by
    simp [replaceQueue, hs]
  have hlaw : lawful m = true := by simp [lawful, hs]
  have hraised : AlertsStay s (raise .queueAdopted (replaceQueue m (takeMark m s))) := .of_raise (a := .queueAdopted) rfl
  unfold adopt
  rw [if_pos hstamp, if_pos hlaw, markTick_empty hq]
  obtain ⟨hmode, halerts, hport⟩ := ticked_frame (raise .queueAdopted (replaceQueue m (takeMark m s)))
  generalize ticked _ = u at *
  refine ⟨{ u with cycle.phase := .rebuild, alloc.rebuildList := [] }, ?_, hmode, rfl,
    hraised.trans (.of_eq halerts), hport⟩
  rw [Course.alive, Course.next_on, if_neg (by rw [hmode]; exact ho)]
  rfl

end

/-! ## The founder's founding mark (R29) -/

/-- The state in which an intact mark is judged. -/
abbrev markArrived (s : State) : State := { s with
  line := { s.line with framed := true, txSlots := [], silenceTimer := some 0 }
  cycle.tickDone := false }

/-- A founding mark of this station's, at the station as MEMBER with the cycle number 0 and the queue empty. -/
structure FoundingMark (m : MarkContents) (s : State) : Prop where
  running : s.Running
  mode : s.mode.actual = .member
  phase : s.cycle.phase = .learned
  number : s.cycle.cycleNumber = 0
  queue : s.alloc.queue = []
  unarmed : s.port.snap.armed = false
  mark : m = { cycle := 0, marker := own s, patience := s.port.config.patience, reclaim := s.port.config.reclaim, summary := [] }

section
variable {s : State} {m : MarkContents}

/-- A mark with an empty summary at a station that is not WITHDRAWING and captures nothing after it. -/
theorem execMarkReceived_uncaptured {t : State} (hr : s.Running) (hm : s.mode.actual = .member) (hsum : m.summary = [])
    (ht : (intactMark m (markArrived s)).state = t) (ha : t.port.snap.armed = false) :
    exec (.markReceived (.intact m)) s = .next { t with cycle.foundingMarkDue := false, cycle.winnerMarkDue := false } := by
  have hfit : ¬Config.queueRoom < m.summary.length := by simp [hsum]
  have hmark : intactMark m (restartSilence (markStart s)) = intactMark m (markArrived s) := rfl
  have hmode : (markStart s).mode.actual = .member := hm
  simp only [exec, execMarkReceived, lineEvent_on hr (by simp [hm] : s.mode.actual ≠ .off), if_neg hfit, takeIntactMark, hmark,
    ht, markEnd, hmode, reduceCtorEq, decide_false, Bool.false_eq_true, if_false, capture, ha, Bool.false_and]

theorem FoundingMark.stamp (h : FoundingMark m s) : stampAgrees m s = true := by
  simp [stampAgrees, h.mark]

theorem FoundingMark.summary (h : FoundingMark m s) : m.summary = [] := by rw [h.mark]

theorem intactMark_own_founding (hp : s.cycle.phase = .learned) (hm : s.mode.actual = .member)
    (hstamp : stampAgrees m s = true) (hown : isOwnFounding m s = true) (hq : s.alloc.queue = []) (hsum : m.summary = [])
    (hc : m.cycle = 0) : intactMark m s = .on { takeMark m s with cycle.tickDone := true } := by
  have htrust : mapDistrusted s = false := by simp [mapDistrusted, hm]
  simp only [intactMark, hp, learnedIntact, hstamp, hown, Bool.or_true, if_true, Bool.not_true, Bool.false_eq_true, if_false,
    compareSummary, readQueue_empty hq, summaryAgrees_empty hsum hq, htrust, Bool.not_false, Bool.and_true]
  exact followMark_empty hq hp hc

theorem intactMark_unequal (hp : s.cycle.phase = .learned) (hm : s.mode.actual = .member) (hstamp : stampAgrees m s = true)
    (hown : isOwnFounding m s = false) (hf : followsCycle m s = false) :
    intactMark m s = adopt false m (enterResync s) := by
  simp only [intactMark, hp, learnedIntact, hstamp, hown, hf, Bool.or_self, Bool.not_true, Bool.false_eq_true, if_false,
    learnedUnequal, hm]

theorem FoundingMark.intact_due (h : FoundingMark m s) (hd : s.cycle.foundingMarkDue = true) :
    intactMark m (markArrived s) = .on { takeMark m (markArrived s) with cycle.tickDone := true } :=
  intactMark_own_founding h.phase h.mode h.stamp (by simp [isOwnFounding, hd, h.mark, h.number, own]) h.queue h.summary
    (by rw [h.mark])

/-- When its founding mark is due no longer, the mark is out of sequence, and the station that enters RESYNC adopts it. -/
theorem FoundingMark.intact_late (h : FoundingMark m s) (hd : s.cycle.foundingMarkDue = false) :
    ∃ t, (intactMark m (markArrived s)).state = t ∧ t.mode = { s.mode with actual := .resync } ∧
      t.cycle.phase = .rebuild ∧ t.HasAlert .conflict ∧ t.port = s.port := by
  have hresync := enterResync_resynced (s := markArrived s) h.mode
  have hstamp : stampAgrees m (enterResync (markArrived s)) = true := by
    have hs := h.stamp
    unfold stampAgrees at hs ⊢
    rw [hresync.port]
    exact hs
  obtain ⟨t, ht, htm, htp, hta, htport⟩ := adopt_empty (counts := false) hstamp h.summary (by simp [hresync.mode])
  refine ⟨t, ?_, by rw [htm, hresync.mode], htp, hta.stays _ hresync.conflict, by rw [htport, hresync.port]⟩
  have hfollows : followsCycle m (markArrived s) = false := by
    have hne : (0 : CycleNo) ≠ 0 + 1 := by decide
    simp only [followsCycle, h.mark, h.number, hne, decide_false]
  rw [intactMark_unequal (s := markArrived s) h.phase h.mode h.stamp (by simp [isOwnFounding, hd]) hfollows, ht, Course.state_on]

end

/-! ## The "founded" report (R16, R30) -/

theorem find_nothing {s : State} (h : s.TablesEmpty) (l : LaneNo) : find l s = .nothing := by
  obtain ⟨hmap, hqueue⟩ := h
  have hheld : heldEntries s = [] := List.filterMap_eq_nil_iff.mpr fun n _ => by rw [hmap n]; rfl
  simp only [find, hheld, List.find?_nil, queuedAt, hqueue, List.findIdx?_nil]

/-- Nothing in the tables under this station and no stream of its own: reconciliation changes nothing (R116). -/
theorem reconcileLanes_idle {s : State} (hm : s.MapClean) (hs : s.StreamsClean) (hi : s.StreamsIdle) (he : s.TablesEmpty)
    (ls : List LaneNo) : reconcileLanes ls s = .on s := by
  induction ls with
  | nil => rfl
  | cons l ls ih =>
    have hl : (laneOfState s l).state = .closed := hi.1 l
    simp only [reconcileLanes, readMap_clean hm, readQueue_empty he.2, readStreams_clean _ _ hs, Course.next_on,
      find_nothing he, reconcileWith, hl, ih]

theorem reconcile_idle {s : State} (hm : s.MapClean) (hs : s.StreamsClean) (hi : s.StreamsIdle) (he : s.TablesEmpty)
    (hw : s.mode.actual ≠ .withdrawing) : reconcile s = .on s := by
  rw [reconcile, reconcileLanes_idle hm hs hi he, Course.finally_on, exitCheck_idle hw]

theorem clearTables_clean (s : State) : (clearTables s).MapClean := fun n => by
  have h : (clearTables s).alloc.map.get n = .fresh .free := Table.get_replicate ..
  rw [h]
  rfl

/-- What the "founded" report makes of a JOINING station with no stream. -/
structure Founded (s t : State) : Prop where
  mode : t.mode = { s.mode with actual := .member }
  empty : t.TablesEmpty
  cycle : t.cycle = { s.cycle with
    phase := .learned, cycleNumber := 0, foundingPending := false, foundingMarkDue := true, winnerMarkDue := false,
    tickDone := false }
  streams : t.streams = s.streams
  alert : t.HasAlert .mode
  line : t.line = s.line

theorem foundedReport_founded {s : State} (hs : s.StreamsClean) (hi : s.StreamsIdle) : Founded s (foundedReport s) := by
  have hmode := changeMode_mode .member s
  have hcycle := changeMode_cycle .member s
  have halert := (changeMode_alertsStay .member s).1
  obtain ⟨hline, hstreams, -⟩ := changeMode_uncut (m := .member) (by decide) s
  unfold foundedReport
  generalize changeMode .member s = u at *
  have hclean : u.StreamsClean := by
    unfold State.StreamsClean
    rw [hstreams]
    exact hs
  have hrec : reconcile { clearTables (toAdopt u) with
      cycle.phase := .learned, cycle.cycleNumber := 0, cycle.foundingMarkDue := true, cycle.tickDone := false } = .on _ :=
    reconcile_idle (by exact clearTables_clean (toAdopt u)) (by exact hclean) (streamsIdle_congr hstreams hi)
      (by exact clearTables_empty (toAdopt u)) (by simp [hmode])
  simp only [hrec, Course.state_on]
  exact {
    mode := hmode
    empty := clearTables_empty (toAdopt u)
    cycle := by simp [hcycle]
    streams := hstreams
    alert := halert
    line := hline }

theorem foundingCompleted_good {s : State} (hm : s.mode.actual = .joining) :
    foundingCompleted .good s = foundedReport s := if_pos hm

theorem foundingCompleted_mismatch {s : State} (hm : s.mode.actual = .joining) :
    foundingCompleted .mismatch s = foundingFailed s := if_pos hm

theorem execFounded_mark {s : State} {m : MarkContents} (hr : s.Running) (hm : s.mode.actual = .joining)
    (hl : s.line.onLine = some (.mark m true)) :
    exec .founded s = .next (foundedReport { s with line := { s.line with onLine := none, driverFaultCount := 0 } }) := by
  simp only [exec, execFounded, lineEvent_on hr (by simp [hm] : s.mode.actual ≠ .off), hl, foundingCompleted, hm, if_true]

theorem execCompleted_founding {s : State} {m : MarkContents} {rb : Readback} (hr : s.Running)
    (hm : s.mode.actual = .joining) (hl : s.line.onLine = some (.mark m true)) :
    exec (.ownTransmissionCompleted rb .none) s =
      .next (countReadback rb (foundingCompleted rb { s with line := { s.line with onLine := none } })) := by
  simp only [exec, execOwnTransmissionCompleted, lineEvent_on hr (by simp [hm] : s.mode.actual ≠ .off), hl, completeField,
    if_true]

/-- Settles O43. -/
theorem foundedStationIsMember : Obligations.FoundedStationIsMember := by
  refine ⟨fun s m hr hm hp hn hq ha hmark => ?_, ?_⟩
  · have h : FoundingMark m s := ⟨hr, hm, hp, hn, hq, ha, hmark⟩
    refine ⟨fun hd => ?_, fun hd => ?_⟩
    · rw [execMarkReceived_uncaptured hr hm h.summary (congrArg Course.state (h.intact_due hd)) ha]
      have hcycle : m.cycle = s.cycle.cycleNumber := by rw [hmark, hn]
      have hmarker : m.marker = own s := by rw [hmark]
      simp only [Course.state_on, takeMark, hcycle, hmarker]
    · obtain ⟨t, ht, htm, htp, hta, htport⟩ := h.intact_late hd
      exact ⟨_, execMarkReceived_uncaptured hr hm h.summary ht (by rw [htport]; exact ha), htm, htp, hta⟩
  · intro s m hr hm hs hi hl founded
    refine ⟨⟨_, execFounded_mark hr hm hl, ?_⟩, ⟨_, execCompleted_founding hr hm hl, ?_⟩,
      fun hlim => ⟨_, execCompleted_founding hr hm hl, ?_⟩⟩
    · have h := foundedReport_founded (s := { s with line := { s.line with onLine := none, driverFaultCount := 0 } })
        (by exact hs) (by exact hi)
      exact ⟨h.mode, h.empty, h.cycle, h.streams, h.alert, h.line⟩
    · have h := foundedReport_founded (s := { s with line := { s.line with onLine := none } }) (by exact hs) (by exact hi)
      rw [foundingCompleted_good (by exact hm)]
      generalize foundedReport _ = u at *
      rw [countReadback_good (by simp [h.mode])]
      exact ⟨h.mode, h.empty, h.cycle, h.streams, h.alert, by simp only [h.line]⟩
    · rw [foundingCompleted_mismatch (by exact hm), countReadback_mismatch (by simp [foundingFailed, hm]) (by exact hlim)]
      exact ⟨rfl, rfl, rfl, rfl⟩

end Sys2Proof.Machine
end

section
/-! The fields on the Cycle-Share Bus read back from their bits (12.1, R1, R2, R3, R7, R8, R10, R11, R178). -/

namespace Sys2Proof.Machine

/-! ## Fields of bits (12) -/

theorem natOf_bitsOf_mod (w n : Nat) : natOf (bitsOf w n) = n % 2 ^ w := by
  rw [natOf, foldl_bitsOf, Nat.zero_mul, Nat.zero_add]

theorem take_bitsOf {w : Nat} (n : Nat) (rest : List Bool) : (bitsOf w n ++ rest).take w = bitsOf w n :=
  List.take_left' (length_bitsOf w n)

theorem drop_bitsOf {w : Nat} (n : Nat) (rest : List Bool) : (bitsOf w n ++ rest).drop w = rest :=
  List.drop_left' (length_bitsOf w n)

theorem cutFields_nil (bits : List Bool) : cutFields [] bits = [] := rfl

/-- A field is cut off the front of the bits that it begins. -/
theorem cutFields_bitsOf {w n : Nat} (h : n < 2 ^ w) (ws : List Nat) (rest : List Bool) :
    cutFields (w :: ws) (bitsOf w n ++ rest) = n :: cutFields ws rest := by
  rw [cutFields, take_bitsOf, drop_bitsOf, natOf_bitsOf h]

theorem cutFields_last {w n : Nat} (h : n < 2 ^ w) : cutFields [w] (bitsOf w n) = [n] := by
  have := cutFields_bitsOf h [] []
  rwa [List.append_nil] at this

/-- The high bits of a number, then its low bits. -/
theorem bitsOf_add (a b n : Nat) : bitsOf (a + b) n = bitsOf a (n / 2 ^ b) ++ bitsOf b n := by
  induction a with
  | zero => simp [bitsOf]
  | succ a ih =>
    rw [Nat.add_right_comm, bitsOf, bitsOf, ih, Nat.testBit_div_two_pow]
    rfl

/-! ## The values of one-bit fields -/

theorem classBit_lt (c : SlotClass) : classBit c < 2 ^ 1 := by cases c <;> decide

theorem classOf_classBit (c : SlotClass) : classOf (classBit c) = c := by cases c <;> rfl

theorem boolBit_lt (b : Bool) : b.toNat < 2 ^ 1 := b.toNat_lt

theorem boolBit_eq_one (b : Bool) : decide (b.toNat = 1) = b := by cases b <;> rfl

theorem useBit_lt (u : Use) : (if u = .hold then 1 else 0) < 2 ^ 1 := by cases u <;> decide

theorem use_useBit (u : Use) : (if (if u = .hold then 1 else 0) = 0 then Use.live else .hold) = u := by cases u <;> rfl

theorem ofNat_toNat {w : Nat} (x : BitVec w) : BitVec.ofNat w x.toNat = x := by simp

/-! ## Tags (12.1.1) -/

theorem tagOfBody_tagBody (t : TagContents) : tagOfBody (tagBody t) = some t := by
  have hcut : cutFields [6, 3, 8, 3, 3, 1, 1, 1, 24] (tagBody t) =
      [t.holder.val, t.lane.val, t.label.toNat, t.part.val, t.countCode.val, classBit t.cls, t.ret.toNat,
        if t.use = .hold then 1 else 0, t.sample.toNat] := by
    simp only [tagBody, List.append_assoc, cutFields_bitsOf (w := 6) t.holder.isLt, cutFields_bitsOf (w := 3) t.lane.isLt,
      cutFields_bitsOf (w := 8) t.label.isLt, cutFields_bitsOf (w := 3) t.part.isLt, cutFields_bitsOf (w := 3) t.countCode.isLt,
      cutFields_bitsOf (classBit_lt _), cutFields_bitsOf (boolBit_lt _), cutFields_bitsOf (useBit_lt _),
      cutFields_last t.sample.isLt]
  simp only [tagOfBody, hcut, Fin.ofNat_val_eq_self, ofNat_toNat, classOf_classBit, boolBit_eq_one, use_useBit]

theorem length_tagBody (t : TagContents) : (tagBody t).length = 50 := by simp [tagBody]

theorem length_tagBits (t : TagContents) : (tagBits t).length = 64 := by simp [tagBits, length_tagBody, recessive]

theorem tagBits_eq (t : TagContents) :
    tagBits t = false :: (tagBody t ++ (bitsOf 8 (tagCrc (tagBody t)).toNat ++ recessive 5)) := by
  simp [tagBits, bitsOf]

theorem readTag_tagBits (t : TagContents) : readTag (tagBits t) = .intact t := by
  have hbody : ((tagBits t).drop 1).take 50 = tagBody t := by
    rw [tagBits_eq, List.drop_succ_cons, List.drop_zero, List.take_left' (length_tagBody t)]
  have hcrc : natOf (((tagBits t).drop 51).take 8) = (tagCrc (tagBody t)).toNat := by
    rw [tagBits_eq, List.drop_succ_cons, List.drop_left' (length_tagBody t), take_bitsOf, natOf_bitsOf (BitVec.isLt _)]
  have hstart : (tagBits t).all id = false := by rw [tagBits_eq]; rfl
  have hlen : ¬(tagBits t).length < 59 := by rw [length_tagBits]; decide
  simp only [readTag, hstart, Bool.false_eq_true, if_false, if_neg hlen, hbody, hcrc, if_true, tagOfBody_tagBody]

theorem readTag_truncated (t : TagContents) {k : Nat} (h1 : 1 ≤ k) (hk : k < 59) : readTag ((tagBits t).take k) = .damaged := by
  obtain ⟨j, rfl⟩ := Nat.exists_eq_add_of_le' h1
  have hstart : ((tagBits t).take (j + 1)).all id = false := by rw [tagBits_eq]; rfl
  have hlen : ((tagBits t).take (j + 1)).length < 59 := (List.length_take_le ..).trans_lt hk
  simp only [readTag, hstart, Bool.false_eq_true, if_false, if_pos hlen]

/-! ## Marks (12.1.2) -/

theorem length_summaryBits (e : SummaryEntry) : (summaryBits e).length = 31 := by simp [summaryBits]

theorem entryOfBits_summaryBits (e : SummaryEntry) : entryOfBits (summaryBits e) = some e := by
  have hcut : cutFields [6, 3, 8, 4, 1, 1, 8] (summaryBits e) =
      [e.station.val, e.lane.val, e.label.toNat, e.count.val, classBit e.cls, e.ret.toNat, e.age.val] := by
    simp only [summaryBits, List.append_assoc, cutFields_bitsOf (w := 6) e.station.isLt, cutFields_bitsOf (w := 3) e.lane.isLt,
      cutFields_bitsOf (w := 8) e.label.isLt, cutFields_bitsOf (w := 4) e.count.isLt, cutFields_bitsOf (classBit_lt _),
      cutFields_bitsOf (boolBit_lt _), cutFields_last (w := 8) e.age.isLt]
  simp only [entryOfBits, hcut, Fin.ofNat_val_eq_self, ofNat_toNat, classOf_classBit, boolBit_eq_one]

theorem entriesOfBits_flatMap (es : List SummaryEntry) (rest : List Bool) :
    entriesOfBits es.length (es.flatMap summaryBits ++ rest) = some es := by
  induction es with
  | nil => rfl
  | cons e es ih =>
    simp only [List.length_cons, List.flatMap_cons, List.append_assoc, entriesOfBits,
      List.take_left' (length_summaryBits e), List.drop_left' (length_summaryBits e), entryOfBits_summaryBits, ih]

theorem length_flatMap_summaryBits (es : List SummaryEntry) : (es.flatMap summaryBits).length = 31 * es.length := by
  induction es with
  | nil => rfl
  | cons e es ih =>
    rw [List.flatMap_cons, List.length_append, length_summaryBits, ih, List.length_cons]
    omega

/-- The 39 bits of a mark before its summary. -/
abbrev markHeader (m : MarkContents) : List Bool :=
  bitsOf 16 m.cycle.toNat ++ bitsOf 6 m.marker.val ++ bitsOf 8 m.patience.toNat ++ bitsOf 4 m.reclaim.toNat ++
  bitsOf 5 m.summary.length

theorem length_markHeader (m : MarkContents) : (markHeader m).length = 39 := by simp [markHeader]

theorem length_markBody (m : MarkContents) : (markBody m).length = 39 + 31 * m.summary.length := by
  rw [markBody, List.length_append, length_flatMap_summaryBits, length_markHeader]

/-- The fields before the summary, read from any bits that begin with them. -/
theorem cutFields_markHeader {m : MarkContents} (h : m.summary.length ≤ 16) (rest : List Bool) :
    cutFields [16, 6, 8, 4, 5] (markHeader m ++ rest) =
      [m.cycle.toNat, m.marker.val, m.patience.toNat, m.reclaim.toNat, m.summary.length] := by
  have hcount : m.summary.length < 2 ^ 5 := by omega
  simp only [markHeader, List.append_assoc, cutFields_bitsOf (w := 16) m.cycle.isLt, cutFields_bitsOf (w := 6) m.marker.isLt,
    cutFields_bitsOf (w := 8) m.patience.isLt, cutFields_bitsOf (w := 4) m.reclaim.isLt, cutFields_bitsOf hcount, cutFields_nil]

/-- A mark read from any bits that begin with it. -/
theorem readMark_append {m : MarkContents} (h : m.summary.length ≤ 16) (rest : List Bool) :
    readMark (markBody m ++ (bitsOf 16 (lineCrc (markBody m)).toNat ++ rest)) = .intact m := by
  have hfields (rest : List Bool) : cutFields [16, 6, 8, 4, 5] (markBody m ++ rest) =
      [m.cycle.toNat, m.marker.val, m.patience.toNat, m.reclaim.toNat, m.summary.length] := by
    rw [markBody, List.append_assoc]
    exact cutFields_markHeader h _
  have hentries (rest : List Bool) : entriesOfBits m.summary.length ((markBody m ++ rest).drop 39) = some m.summary := by
    rw [markBody, List.append_assoc, List.drop_left' (length_markHeader m), entriesOfBits_flatMap]
  have hlen : ¬(markBody m ++ (bitsOf 16 (lineCrc (markBody m)).toNat ++ rest)).length < 39 + 31 * m.summary.length + 16 := by
    rw [List.length_append, length_markBody, List.length_append, length_bitsOf]
    omega
  simp only [readMark, hfields, if_neg (Nat.not_lt.mpr h), if_neg hlen, List.take_left' (length_markBody m),
    List.drop_left' (length_markBody m), take_bitsOf, natOf_bitsOf (BitVec.isLt _), if_true, hentries, Fin.ofNat_val_eq_self,
    ofNat_toNat]

theorem markBits_eq (m : MarkContents) : ∃ rest, markBits m =
    markBody m ++ (bitsOf 16 (lineCrc (markBody m)).toNat ++ rest) := ⟨_, by rw [markBits, List.append_assoc]⟩

/-- Bits with fewer than their summary count calls for are no mark. -/
theorem readMark_short {bits : List Bool} (h : bits.length < 55 + 31 * natOf ((bits.drop 34).take 5)) :
    readMark bits = .damaged := by
  have hcut : cutFields [16, 6, 8, 4, 5] bits = [natOf (bits.take 16), natOf ((bits.drop 16).take 6),
      natOf ((bits.drop 22).take 8), natOf ((bits.drop 30).take 4), natOf ((bits.drop 34).take 5)] := by
    simp only [cutFields, List.drop_drop]
  simp only [readMark, hcut]
  split
  · rfl
  · exact if_pos (by omega)

theorem readMark_truncated {m : MarkContents} (h : m.summary.length ≤ 16) {k : Nat} (hk : k < 55 + 31 * m.summary.length) :
    readMark ((markBits m).take k) = .damaged := by
  refine readMark_short ((List.length_take_le ..).trans_lt ?_)
  by_cases h39 : k < 39
  · omega
  · have hcount : natOf ((((markBits m).take k).drop 34).take 5) = m.summary.length := by
      have hrest : ∃ rest, (markBits m).drop 34 = bitsOf 5 m.summary.length ++ rest := by
        obtain ⟨rest, hrest⟩ := markBits_eq m
        rw [hrest, markBody, List.append_assoc, List.append_assoc]
        exact ⟨_, List.drop_left' (by simp)⟩
      obtain ⟨rest, hrest⟩ := hrest
      have hmin : min 5 (k - 34) = 5 := by omega
      rw [List.drop_take, List.take_take, hmin, hrest, take_bitsOf, natOf_bitsOf (by omega)]
    rw [hcount]
    exact hk

/-! ## Messages (12.1.3, R7, R178) -/

section
variable {b : Body} {r : Nat}

/-- The bodies that a message on the bus carries: a note has 1 to 32 bytes of payload. -/
abbrev BodyFits (b : Body) : Prop := ∀ n, b = .note n → n.wellFormed = true

theorem wellFormed_bounds {n : NoteContents} (h : n.wellFormed = true) :
    1 ≤ n.payload.length ∧ n.payload.length ≤ 32 := by
  simpa [NoteContents.wellFormed] using h

theorem rank_le (h : rankOf b = some r) : r ≤ 4 := by
  cases b <;> cases h <;> decide

/-- The width of a body, read from the bits that begin with it. -/
theorem bodyWidth_bodyBits (hb : BodyFits b) (h : rankOf b = some r) (rest : List Bool) :
    bodyWidth r (bodyBits b ++ rest) = (bodyBits b).length := by
  cases b with
  | note n =>
    cases h
    obtain ⟨hmin, hmax⟩ := wellFormed_bounds (hb n rfl)
    have hcount : natOf (((bodyBits (.note n) ++ rest).drop 8).take 5) = n.payload.length - 1 := by
      rw [bodyBits, List.append_assoc, List.append_assoc, List.drop_left' (by simp), take_bitsOf, natOf_bitsOf (by omega)]
    have hlen : (bodyBits (.note n)).length = 13 + 8 * n.payload.length := by
      simp only [bodyBits, List.length_append, length_bitsOf, length_byteBits]
    rw [hlen, bodyWidth, hcount]
    omega
  | noKind => cases h
  | _ => cases h; simp [bodyWidth, bodyBits]

theorem bodyOfBits_bodyBits (hb : BodyFits b) (h : rankOf b = some r) : bodyOfBits r (bodyBits b) = some b := by
  cases b with
  | claim l x c cls wait ret =>
    cases h
    have hcut : cutFields [3, 8, 4, 1, 1, 1] (bodyBits (.claim l x c cls wait ret)) =
        [l.val, x.toNat, c.val, classBit cls, wait.toNat, ret.toNat] := by
      simp only [bodyBits, List.append_assoc, cutFields_bitsOf (w := 3) l.isLt, cutFields_bitsOf (w := 8) x.isLt,
        cutFields_bitsOf (w := 4) c.isLt, cutFields_bitsOf (classBit_lt _), cutFields_bitsOf (boolBit_lt _),
        cutFields_last (boolBit_lt _)]
    simp only [bodyOfBits, hcut, Fin.ofNat_val_eq_self, ofNat_toNat, classOf_classBit, boolBit_eq_one]
  | release l =>
    cases h
    have hl : natOf ((bodyBits (.release l)).take 3) = l.val := by
      rw [bodyBits, List.take_of_length_le (by simp), natOf_bitsOf l.isLt]
    simp only [bodyOfBits, hl, Fin.ofNat_val_eq_self]
  | withdraw l =>
    cases h
    have hl : natOf ((bodyBits (.withdraw l)).take 3) = l.val := by
      rw [bodyBits, List.take_of_length_le (by simp), natOf_bitsOf l.isLt]
    simp only [bodyOfBits, hl, Fin.ofNat_val_eq_self]
  | restart => cases h; rfl
  | note n =>
    cases h
    obtain ⟨hmin, hmax⟩ := wellFormed_bounds (hb n rfl)
    have hcut : cutFields [2, 6, 5] (bodyBits (.note n)) = [n.kind.val, n.number.val, n.payload.length - 1] := by
      have hcount : n.payload.length - 1 < 2 ^ 5 := by omega
      simp only [bodyBits, List.append_assoc, cutFields_bitsOf (w := 2) n.kind.isLt, cutFields_bitsOf (w := 6) n.number.isLt,
        cutFields_bitsOf hcount, cutFields_nil]
    have hpayload : bytesOfBits (n.payload.length - 1 + 1) ((bodyBits (.note n)).drop 13) = n.payload := by
      have hread := bytesOfBits_byteBits n.payload 0 []
      rw [List.append_nil, bytesOfBits, List.append_nil, Nat.add_zero] at hread
      rw [bodyBits, List.drop_left' (by simp), Nat.sub_add_cancel hmin, hread]
    simp only [bodyOfBits, hcut, hpayload, Fin.ofNat_val_eq_self]
  | noKind => cases h

end

/-- The bits of a message: the precedence as rank and sender, the body, the check sequence. -/
theorem messageBits_eq_some {sender : Station} {b : Body} {bits : List Bool} (h : messageBits sender b = some bits) :
    ∃ r, rankOf b = some r ∧ bits = bitsOf 3 r ++ (bitsOf 6 (64 * r + sender.val) ++
      (bodyBits b ++ bitsOf 16 (lineCrc (bits.take (9 + (bodyBits b).length))).toNat)) := by
  obtain ⟨p, hp, rfl⟩ := Option.map_eq_some_iff.mp h
  obtain ⟨r, hr, rfl⟩ := Option.map_eq_some_iff.mp hp
  have hhigh : (64 * r + sender.val) / 2 ^ 6 = r := by omega
  have hprec : bitsOf 9 (64 * r + sender.val) = bitsOf 3 r ++ bitsOf 6 (64 * r + sender.val) := by
    rw [bitsOf_add 3 6, hhigh]
  refine ⟨r, hr, ?_⟩
  rw [List.take_left' (by simp), hprec, List.append_assoc, List.append_assoc]

section
variable {sender : Station} {b : Body} {bits : List Bool}

theorem length_messageBits (h : messageBits sender b = some bits) : bits.length = 25 + (bodyBits b).length := by
  obtain ⟨r, -, hbits⟩ := messageBits_eq_some h
  rw [hbits]
  simp only [List.length_append, length_bitsOf]
  omega

/-- The rank of a message and the width of its body, read from any bits that begin with it. -/
theorem message_fields (hb : BodyFits b) (h : messageBits sender b = some bits) (rest : List Bool) :
    ∃ r, rankOf b = some r ∧ natOf ((bits ++ rest).take 3) = r ∧ natOf (((bits ++ rest).drop 3).take 6) = sender.val ∧
      bodyWidth r ((bits ++ rest).drop 9) = (bodyBits b).length := by
  obtain ⟨r, hr, hbits⟩ := messageBits_eq_some h
  have hr4 := rank_le hr
  refine ⟨r, hr, ?_, ?_, ?_⟩ <;> rw [hbits, List.append_assoc]
  · rw [take_bitsOf, natOf_bitsOf (by omega)]
  · rw [drop_bitsOf, List.append_assoc, take_bitsOf, natOf_bitsOf_mod]
    omega
  · rw [List.append_assoc, ← List.append_assoc, List.drop_left' (by simp), List.append_assoc, bodyWidth_bodyBits hb hr]

/-- A message read from any bits that begin with it. -/
theorem readMessage_append (hb : BodyFits b) (h : messageBits sender b = some bits) (rest : List Bool) :
    readMessage (bits ++ rest) = .intact sender b := by
  obtain ⟨r, hr, hrank, hsender, hwidth⟩ := message_fields hb h rest
  obtain ⟨r', hr', hbits⟩ := messageBits_eq_some h
  obtain rfl : r' = r := Option.some.inj (hr' ▸ hr)
  have hlen := length_messageBits h
  generalize hcrc : lineCrc (bits.take (9 + (bodyBits b).length)) = crc at hbits
  have hlong : ¬(bits ++ rest).length < 25 + (bodyBits b).length := by
    rw [List.length_append, hlen]
    omega
  have hcovered : (bits ++ rest).take (9 + (bodyBits b).length) = bits.take (9 + (bodyBits b).length) :=
    List.take_append_of_le_length (by omega)
  have hcheck : natOf (((bits ++ rest).drop (9 + (bodyBits b).length)).take 16) = crc.toNat := by
    rw [hbits]
    simp only [List.append_assoc]
    rw [← List.append_assoc, ← List.append_assoc, List.drop_left' (by simp; omega), take_bitsOf, natOf_bitsOf (BitVec.isLt _)]
  have hbody : ((bits ++ rest).drop 9).take (bodyBits b).length = bodyBits b := by
    rw [hbits]
    simp only [List.append_assoc]
    rw [← List.append_assoc, List.drop_left' (by simp), List.take_left' rfl]
  simp only [readMessage, hrank, hsender, hwidth, if_neg hlong, hcovered, hcheck, hcrc, if_true, hbody,
    bodyOfBits_bodyBits hb hr, Fin.ofNat_val_eq_self]

/-- Bits with fewer than their kind calls for are no message. -/
theorem readMessage_short {bits : List Bool}
    (h : bits.length < 25 + bodyWidth (natOf (bits.take 3)) (bits.drop 9)) : readMessage bits = .damaged := by
  simp only [readMessage, if_pos h]

/-- The width of a body stands in its first 13 bits. -/
theorem bodyWidth_take {k : Nat} (hk : 13 ≤ k) (r : Nat) (bits : List Bool) : bodyWidth r (bits.take k) = bodyWidth r bits := by
  have hmin : min 5 (k - 8) = 5 := by omega
  unfold bodyWidth
  rw [List.drop_take, List.take_take, hmin]

theorem readMessage_truncated (hb : BodyFits b) (h : messageBits sender b = some bits) {k : Nat} (hk : k < bits.length) :
    readMessage (bits.take k) = .damaged := by
  refine readMessage_short ((List.length_take_le ..).trans_lt ?_)
  by_cases h25 : k < 25
  · omega
  · obtain ⟨r, -, hrank, -, hwidth⟩ := message_fields hb h []
    rw [List.append_nil] at hrank hwidth
    have hmin : min 3 k = 3 := by omega
    rw [List.take_take, hmin, hrank, List.drop_take, bodyWidth_take (by omega), hwidth, ← length_messageBits h]
    exact hk

end

/-! ## Windows and answers (R10) -/

theorem readAnswer_answerBits (a : Answer) : readAnswer (answerBits a) = a := by cases a <;> rfl

theorem answerBits_fst (a : Answer) : (answerBits a).1 = false ↔ a = .ack := by cases a <;> simp [answerBits]

theorem answerBits_snd (a : Answer) : (answerBits a).2 = false ↔ a = .busy := by cases a <;> simp [answerBits]

/-- The window of a STATION note: the message, recessive up to the answer, the answer, recessive to the end. -/
theorem windowBits_station {sender : Station} {n : NoteContents} {a : Answer} {bits : List Bool} (hk : n.kind = 0)
    (h : windowBits sender (.note n) a = some bits) : ∃ msg, messageBits sender (.note n) = some msg ∧
      bits = (msg ++ recessive (302 - msg.length)) ++ (answerBits a).1 :: (answerBits a).2 :: recessive 72 := by
  obtain ⟨msg, hmsg, rfl⟩ := Option.map_eq_some_iff.mp h
  have hasks : hasAnswerField (.note n) = true := decide_eq_true hk
  exact ⟨msg, hmsg, by simp only [hasks, if_true, List.append_assoc, List.cons_append, List.nil_append]⟩

theorem length_noteMessage {sender : Station} {n : NoteContents} {msg : List Bool} (hn : n.wellFormed = true)
    (h : messageBits sender (.note n) = some msg) : msg.length ≤ 302 := by
  obtain ⟨-, hmax⟩ := wellFormed_bounds hn
  have hlen := length_messageBits h
  simp only [bodyBits, List.length_append, length_bitsOf, length_byteBits] at hlen
  omega

/-- A STATION note and its answer, read back from its window. -/
theorem windowBits_reads {sender : Station} {n : NoteContents} {a : Answer} {bits : List Bool} (hn : n.wellFormed = true)
    (hk : n.kind = 0) (h : windowBits sender (.note n) a = some bits) :
    bits.length = 376 ∧ readMessage bits = .intact sender (.note n) ∧ readWindowAnswer bits = a ∧
      (bits[302]? = some false ↔ a = .ack) ∧ (bits[303]? = some false ↔ a = .busy) := by
  obtain ⟨msg, hmsg, hbits⟩ := windowBits_station hk h
  have hmax := length_noteMessage hn hmsg
  have hpre : (msg ++ recessive (302 - msg.length)).length = 302 := by
    rw [List.length_append, recessive, List.length_replicate]
    omega
  have hread : readMessage bits = .intact sender (.note n) := by
    rw [hbits, List.append_assoc]
    refine readMessage_append (fun m hm => ?_) hmsg _
    cases hm
    exact hn
  generalize msg ++ recessive (302 - msg.length) = pre at hbits hpre
  have h302 : bits[302]? = some (answerBits a).1 := by
    rw [hbits, List.getElem?_append_right (by omega), hpre]
    rfl
  have h303 : bits[303]? = some (answerBits a).2 := by
    rw [hbits, List.getElem?_append_right (by omega), hpre]
    rfl
  refine ⟨?_, hread, ?_, ?_, ?_⟩
  · rw [hbits, List.length_append, hpre]
    rfl
  · rw [readWindowAnswer, h302, h303]
    exact readAnswer_answerBits a
  · rw [h302, Option.some_inj, answerBits_fst]
  · rw [h303, Option.some_inj, answerBits_snd]

/-! ## Arbitration (R8, R11) -/

theorem losesArbitration_self (bits : List Bool) : losesArbitration bits bits = false := by
  induction bits with
  | nil => rfl
  | cons b bs ih =>
    unfold losesArbitration at ih ⊢
    rw [List.zip_cons_cons, List.any_cons, ih, Bool.and_not_self, Bool.or_self]

theorem losesArbitration_cons (a b : Bool) (sent read : List Bool) :
    losesArbitration (a :: sent) (b :: read) = ((a && !b) || losesArbitration sent read) := rfl

/-- Of two numbers sent against each other the greater loses and the lower does not, bit by bit from the most significant. -/
theorem lower_wins {p q : Nat} (w : Nat) (h : p % 2 ^ w < q % 2 ^ w) :
    losesArbitration (bitsOf w q) (lineOf (bitsOf w p) (bitsOf w q)) = true ∧
    losesArbitration (bitsOf w p) (lineOf (bitsOf w p) (bitsOf w q)) = false := by
  induction w with
  | zero => simp [Nat.mod_one] at h
  | succ w ih =>
    have hp := Nat.mod_lt p (Nat.two_pow_pos w)
    have hq := Nat.mod_lt q (Nat.two_pow_pos w)
    rw [Nat.mod_pow_succ, Nat.mod_pow_succ, ← Nat.toNat_testBit, ← Nat.toNat_testBit] at h
    simp only [bitsOf]
    cases hbp : p.testBit w <;> cases hbq : q.testBit w <;> simp only [hbp, hbq, Bool.toNat_false, Bool.toNat_true] at h
    case false.false =>
      simpa [lineOf, losesArbitration_cons] using ih (by omega)
    case false.true =>
      rw [lineOf_dominant]
      exact ⟨rfl, losesArbitration_self _⟩
    case true.false => omega
    case true.true =>
      simpa [lineOf, losesArbitration_cons] using ih (by omega)

theorem lower_wins_of_lt {p q w : Nat} (h : p < q) (hq : q < 2 ^ w) :
    losesArbitration (bitsOf w q) (lineOf (bitsOf w p) (bitsOf w q)) = true ∧
    losesArbitration (bitsOf w p) (lineOf (bitsOf w p) (bitsOf w q)) = false :=
  lower_wins w (by rwa [Nat.mod_eq_of_lt (h.trans hq), Nat.mod_eq_of_lt hq])

theorem precedence_lt {m : Station} {b : Body} {p : Nat} (h : precedence m b = some p) : p < 2 ^ 9 := by
  obtain ⟨r, hr, rfl⟩ := Option.map_eq_some_iff.mp h
  have := rank_le hr
  omega

/-! ## Readback (R2) -/

theorem readbackOf_mismatch {sent read : List Bool} (h : read ≠ sent) : readbackOf sent read = .mismatch := if_neg h

theorem append_cons_ne {pre sent read : List Bool} {x y : Bool} (h : x ≠ y) : pre ++ y :: read ≠ pre ++ x :: sent := by
  simp [h.symm]

theorem completionReport_good (f : OwnField) (a : Answer) : completionReport f f.comparedBits (answerBits a) =
    .ownTransmissionCompleted .good (if f.asksAnswer then a else .none) := by
  simp only [completionReport, readbackOf_good.mpr rfl, readAnswer_answerBits]

theorem completionReport_mismatch {f : OwnField} {read : List Bool} (h : read ≠ f.comparedBits) (answer : Bool × Bool) :
    completionReport f read answer = .ownTransmissionCompleted .mismatch .none := by
  simp only [completionReport, readbackOf_mismatch h]

/-- No field but a STATION note asks for an answer. -/
theorem asksAnswer_false {f : OwnField}
    (h : ∀ src sender n, f = .message src sender (.note n) → n.kind ≠ 0) : f.asksAnswer = false := by
  cases f with
  | message src sender b =>
    cases b with
    | note n => exact decide_eq_false (h src sender n rfl)
    | _ => rfl
  | _ => rfl

theorem message_comparedBits {sender : Station} {b : Body} {bits : List Bool} (src : Source)
    (h : messageBits sender b = some bits) : bits = bits.take 9 ++ (OwnField.message src sender b).comparedBits := by
  rw [OwnField.comparedBits, h, Option.getD_some, List.take_append_drop]

theorem mark_comparedBits (m : MarkContents) (founding : Bool) :
    (OwnField.mark m founding).comparedBits = (markBits m).take (55 + 31 * m.summary.length) := by
  rw [OwnField.comparedBits, length_markBody]
  congr 1
  omega

/-- Settles O60, clause by clause from the layouts. -/
theorem lineFieldsReadBack : Obligations.LineFieldsReadBack := by
  refine ⟨readTag_tagBits, fun m h => ?_, fun sender b bits hb h => ?_, fun n => ⟨?_, ?_⟩,
    fun sender n a bits hn hk h => windowBits_reads hn hk h, fun t k => readTag_truncated t, fun m k h => readMark_truncated h,
    fun sender b bits k hb h => readMessage_truncated hb h, fun a b h => lower_wins_of_lt h b.isLt,
    fun m n b c p q hp hq h => lower_wins_of_lt h (precedence_lt hq), ?_,
    fun bits => ⟨drivenBits_self bits, readbackOf_good.mpr rfl⟩,
    fun f read a => ⟨fun h => completionReport_mismatch h _, ?_, fun h => ?_⟩, fun n g => rfl,
    fun m founding _ => mark_comparedBits m founding, fun src sender b bits => message_comparedBits src, rfl, rfl⟩
  · obtain ⟨rest, hrest⟩ := markBits_eq m
    rw [hrest, readMark_append h]
  · have hread := readMessage_append hb h []
    rwa [List.append_nil] at hread
  · simp [contentionField, contentionBits, recessive]
  · rw [readContention, contentionField, contentionBits, take_bitsOf, natOf_bitsOf n.isLt, Fin.ofNat_val_eq_self]
  · intro pre sent read x y hxy hlen
    refine ⟨by rw [drivenBits_append, drivenBits_differs hxy, recessive], readbackOf_mismatch (append_cons_ne hxy), ?_⟩
    intro good bad
    have hline : lineOf good bad = good := by rw [lineOf_append, lineOf_dominant]
    rw [hline]
    exact ⟨readbackOf_good.mpr rfl, drivenBits_self good, readbackOf_mismatch (append_cons_ne (by decide))⟩
  · rintro src sender n rfl hk
    have hasks : (OwnField.message src sender (.note n)).asksAnswer = true := decide_eq_true hk
    rw [completionReport_good, if_pos hasks]
  · rw [completionReport_good, asksAnswer_false h]
    rfl

end Sys2Proof.Machine
end

section
/-! A duplicate station (R19, R35): the entry that its tag or message brings, and what a message that is applied after it leaves
of a station in LISTEN with no stream. -/

namespace Sys2Proof.Machine

/-! ## The entry for a duplicate -/

/-- In LISTEN a fault is recorded as the cause, and the mode stays. -/
theorem faultEntry_listen {c : FaultCause} {s : State} (hl : s.mode.actual = .listen) :
    faultEntry c s = { s with mode.cause := c } := by
  unfold faultEntry
  split
  · rename_i ho
    exact absurd (hl.symm.trans ho) (by decide)
  · rfl
  · rename_i _ hn
    exact absurd hl hn

theorem duplicateFound_listen {s : State} (hl : s.mode.actual = .listen) : duplicateFound s =
    { s with mode := { s.mode with cause := .duplicate }, alerts := s.alerts.raise .duplicate } :=
  faultEntry_listen (s := raise .duplicate s) hl

theorem duplicateFound_direct {s : State} (ho : s.mode.actual ≠ .off) (hl : s.mode.actual ≠ .listen) :
    DirectFault .duplicate (raise .duplicate s) (duplicateFound s) :=
  faultEntry_direct (by exact ho) (by exact hl) (by simp)

theorem streamsClean_congr {s t : State} (h : t.streams = s.streams) (hs : s.StreamsClean) : t.StreamsClean := by
  unfold State.StreamsClean at hs ⊢
  rw [h]
  exact hs

/-- With nothing of the station on the line the entry leaves no failing word in the STREAMS region that had none. -/
theorem duplicateFound_clean {s : State} (ho : s.mode.actual ≠ .off) (hl : s.mode.actual ≠ .listen)
    (hline : s.line.onLine = none) (hs : s.StreamsClean) : (duplicateFound s).StreamsClean := by
  rw [duplicateFound, faultEntry_eq (by exact ho) (by exact hl) (by simp)]
  have hstreams : (discardNotes (changeMode .listen (raise .duplicate s))).streams = s.streams := by
    have hv := changeMode_streams_vacant (s := raise .duplicate s) (by exact hline) .listen
    simp only [discardNotes_frame, hv, raise_frame]
  refine streamsClean_congr ?_ (dropStreams_clean (o := .fault) (streamsClean_congr hstreams hs))
  simp only [faultItems_frame]

/-! ## What an applied message leaves of a station in LISTEN -/

/-- A station in LISTEN with no stream, an empty outbox, and STREAMS words that read clean. -/
structure IdleListener (s : State) : Prop where
  listen : s.mode.actual = .listen
  idle : s.StreamsIdle
  clean : s.StreamsClean

/-- A station in LISTEN, reached from one whose mode state, streams and line it has, with the alerts that were set. -/
structure Resting (s t : State) : Prop where
  here : IdleListener t
  mode : t.mode = s.mode
  streams : t.streams = s.streams
  line : t.line = s.line
  stay : AlertsStay s t

theorem IdleListener.resting {s : State} (h : IdleListener s) : Resting s s := ⟨h, rfl, rfl, rfl, .of_eq rfl⟩

section
variable {s t u : State}

/-- A change of the tables, the learning phase, the notes or an alert keeps the station at rest. -/
theorem Resting.to (h : Resting s t) (hm : u.mode = t.mode) (hs : u.streams = t.streams) (hl : u.line = t.line)
    (ha : AlertsStay t u) : Resting s u where
  here := ⟨by rw [hm, h.here.listen], streamsIdle_congr hs h.here.idle, streamsClean_congr hs h.here.clean⟩
  mode := hm.trans h.mode
  streams := hs.trans h.streams
  line := hl.trans h.line
  stay := h.stay.trans ha

theorem Resting.alloc (h : Resting s t) (a : AllocationUnit) : Resting s { t with alloc := a } :=
  h.to rfl rfl rfl (.of_eq rfl)

theorem Resting.next {c : Course} {f : State → Course} (hc : Resting s c.state)
    (hf : ∀ v, Resting s v → Resting s (f v).state) : Resting s (c.next f).state := by
  cases c with
  | on v => exact hf v hc
  | abandoned v => exact hc

theorem Resting.finally {c : Course} {f : State → State} (hc : Resting s c.state)
    (hf : ∀ v, Resting s v → Resting s (f v)) : Resting s (c.finally f).state := hc.next hf

/-! ### Reads of the tables -/

theorem recordScan_alertsStay {α : Type} (r : Region) (ix : Nat → Nat) (sc : Scan α) (s : State) :
    AlertsStay s (recordScan r ix sc s) := by
  have hsingle (p : Nat) : AlertsStay s (recordSingle r p s) := .of_raise (a := .memCorrected) rfl
  have hdouble (p : Nat) (t : State) : AlertsStay t (recordDouble r p t) := .of_raise (a := .memFailed) rfl
  unfold recordScan
  cases sc.single with
  | none =>
    cases sc.failed with
    | none => exact .of_eq rfl
    | some p => exact hdouble _ s
  | some q =>
    cases sc.failed with
    | none => exact hsingle _
    | some p => exact (hsingle _).trans (hdouble _ _)

theorem Resting.scanned {α : Type} (h : Resting s t) (r : Region) (ix : Nat → Nat) (sc : Scan α) :
    Resting s (recordScan r ix sc t) := by
  have hf := recordScan_frame r ix sc t
  exact h.to (by simp only [hf]) (by simp only [hf]) (by simp only [hf]) (recordScan_alertsStay ..)

theorem Resting.read (h : Resting s t) (r : Region) (i : Nat) (w : Health) : Resting s (recordRead r i w t) := by
  have hf := recordRead_frame r i w t
  exact h.to (by simp only [hf]) (by simp only [hf]) (by simp only [hf]) (recordRead_alertsStay ..)

/-- After a double error in MAP or QUEUE a station in LISTEN learns again. -/
theorem Resting.failed (h : Resting s t) : Resting s (mapQueueFailed t) := by
  simp only [mapQueueFailed, h.here.listen]
  split
  · exact h.to rfl rfl rfl (.of_eq rfl)
  · exact h.to rfl rfl rfl (.of_eq rfl)

theorem Resting.readMap (h : Resting s t) : Resting s (readMap t).state := by
  have hr := (h.alloc { t.alloc with map := scanTable t.alloc.map }).scanned .map id (scan 0 t.alloc.map.cells)
  unfold Machine.readMap
  simp only []
  split
  · exact hr.failed
  · exact hr

theorem Resting.readQueue (h : Resting s t) : Resting s (readQueue t).state := by
  have hr := (h.alloc { t.alloc with queue := (scan 1 t.alloc.queue).words }).scanned .queue id (scan 1 t.alloc.queue)
  unfold Machine.readQueue
  simp only []
  split
  · exact hr.failed
  · exact hr

theorem Resting.readQueueHead (h : Resting s t) : Resting s (readQueueHead t).state := by
  unfold Machine.readQueueHead
  split
  · exact h
  · rename_i w ws _
    have hr := (h.alloc { t.alloc with queue := w.afterRead :: ws }).read .queue 1 w.health
    simp only []
    split
    · exact hr.failed
    · exact hr

/-! ### Notices -/

theorem closeOpenLanes_idle (o : StreamOutcome) (ls : List LaneNo) (h : ∀ l, (laneOfState s l).state = .closed) :
    closeOpenLanes o ls s = s := by
  induction ls with
  | nil => rfl
  | cons l ls ih =>
    have hl : laneClosed s l = true := decide_eq_true (h l)
    rw [closeOpenLanes, if_pos hl, ih]

/-- A notice finds nothing to change in a station with no stream and an empty outbox. -/
theorem takeNotice_idle (n : Notice) (h : s.StreamsIdle) : takeNotice n s = s := by
  obtain ⟨hl, ho⟩ := h
  cases n with
  | restart =>
    have hbox : (if headInWindow s then s.streams.outbox.take 1 else []) = s.streams.outbox := by simp [ho]
    simp only [takeNotice, takeRestart, closeOpenLanes_idle .restart allLanes hl, hbox]
  | granted l slots cycle => simp only [takeNotice, takeGranted, hl]
  | queued l p => simp only [takeNotice, takeQueued, hl]
  | refused l r => simp only [takeNotice, takeRefused, hl]
  | revoked l p => simp only [takeNotice, takeRevoked, hl]
  | displaced l => simp only [takeNotice, takeRemoved, hl]
  | released l => simp only [takeNotice, takeReleased, hl, reduceCtorEq, if_false]
  | cancelled l => simp only [takeNotice, takeCancelled, hl, reduceCtorEq, if_false]
  | reclaimed l => simp only [takeNotice, takeReclaimed, hl]
  | expired l => simp only [takeNotice, takeRemoved, hl]

theorem deliver_idle (n : Notice) (h : IdleListener s) : deliver n s = s := by
  rw [deliver, readStreams_clean _ _ h.clean, Course.finally_on, Course.state_on, takeNotice_idle n h.idle,
    exitCheck_idle (by simp [h.listen])]

theorem Resting.tell (h : Resting s t) (st : Station) (hold : Bool) (n : Notice) : Resting s (tell st hold n t) := by
  unfold Machine.tell send
  split
  · split
    · exact h.alloc _
    · rw [deliver_idle n h.here]
      exact h
  · exact h

/-! ### Grants and queue service -/

theorem Resting.grant (h : Resting s t) (hold : Bool) (st : Station) (l : LaneNo) (label : Label) (cls : SlotClass)
    (ret : Bool) (k : Nat) : Resting s (grant hold st l label cls ret k t) := by
  unfold Machine.grant
  split
  · exact h
  · exact Resting.tell (h.alloc _) ..

theorem Resting.revoke (h : Resting s t) (hold : Bool) (e : HeldEntry) : Resting s (revoke hold e t) := by
  unfold Machine.revoke
  simp only []
  split
  · exact Resting.tell (h.alloc _) ..
  · exact Resting.tell (h.alloc _) ..

theorem Resting.preempt (hold : Bool) (k : Nat) (fuel : Nat) :
    ∀ {t : State}, Resting s t → Resting s (preempt fuel hold k t) := by
  induction fuel with
  | zero => exact id
  | succ fuel ih =>
    intro t h
    unfold Machine.preempt
    split
    · exact h
    · split
      · exact h
      · exact ih (h.revoke hold _)

theorem Resting.serviceLoop (hold : Bool) (fuel : Nat) :
    ∀ {t : State}, Resting s t → Resting s (serviceLoop fuel hold t).state := by
  induction fuel with
  | zero => exact id
  | succ fuel ih =>
    intro t h
    unfold Machine.serviceLoop
    refine h.readQueueHead.next fun v hv => ?_
    split
    · exact hv
    · rename_i w ws _
      refine hv.readMap.next fun x hx => ?_
      have hq : Resting s { x with alloc.queue := ws } := hx.alloc _
      simp only []
      split
      · exact ih (hq.grant ..)
      · split
        · exact ih (Resting.grant (Resting.preempt hold _ _ hq) ..)
        · exact hx

theorem Resting.service (h : Resting s t) (hold : Bool) : Resting s (service hold t).state := Resting.serviceLoop hold _ h

/-! ### Control messages -/

theorem Resting.insertQueued (h : Resting s t) (i : Nat) (e : QueueEntry) : Resting s (insertQueued i e t) := by
  unfold Machine.insertQueued
  split
  · exact h
  · exact h.alloc _

theorem Resting.placeClaim (h : Resting s t) (e : QueueEntry) : Resting s (placeClaim e t) := by
  unfold Machine.placeClaim
  split
  · exact (h.insertQueued ..).tell ..
  · split
    · split
      · exact Resting.tell (Resting.insertQueued (Resting.tell (h.alloc _) ..) ..) ..
      · exact h.tell ..
    · exact h.tell ..
    · exact h.tell ..

theorem Resting.grantRule (h : Resting s t) (e : QueueEntry) (wait : Bool) : Resting s (grantRule e wait t) := by
  have hrefuse (r : RefusalReason) : Resting s (Machine.tell e.station false (.refused e.lane r) t) := h.tell ..
  unfold Machine.grantRule
  simp only []
  split
  · exact hrefuse _
  split
  · exact hrefuse _
  split
  · split
    · exact h.placeClaim e
    · exact hrefuse _
  split
  · exact h.grant ..
  split
  · exact Resting.grant (Resting.preempt false _ _ h) ..
  split
  · exact h.placeClaim e
  · exact hrefuse _

theorem Resting.applyClaim (h : Resting s t) (st : Station) (l : LaneNo) (label : Label) (k : Nat) (cls : SlotClass)
    (wait ret : Bool) : Resting s (applyClaim st l label k cls wait ret t).state := by
  unfold Machine.applyClaim
  split
  · exact h
  · exact (h.readMap.next fun v hv => hv.readQueue).finally fun v hv => hv.grantRule ..

/-- The slots of a stream freed, its station told, and the queue served. -/
theorem Resting.freed (h : Resting s t) (st : Station) (l : LaneNo) (n : Notice) :
    Resting s (if (streamSlots st l t).isEmpty then Course.on t
      else Machine.service false (Machine.tell st false n (freeStream st l t))).state := by
  split
  · exact h
  · exact Resting.service (Resting.tell (h.alloc _) ..) false

theorem Resting.applyRelease (h : Resting s t) (st : Station) (l : LaneNo) : Resting s (applyRelease st l t).state :=
  h.readMap.next fun _ hv => hv.freed st l _

theorem Resting.applyWithdraw (h : Resting s t) (st : Station) (l : LaneNo) : Resting s (applyWithdraw st l t).state := by
  unfold Machine.applyWithdraw
  refine h.readQueue.next fun v hv => ?_
  split
  · exact Resting.service (Resting.tell (hv.alloc _) ..) false
  · exact hv.readMap.next fun _ hx => hx.freed st l _

theorem Resting.applyRestart (h : Resting s t) : Resting s (applyRestart t) := by
  have hraised (u : State) (hu : Resting s u) : Resting s (Machine.deliver .restart (raise .restart u)) := by
    have hr : Resting s (raise .restart u) := hu.to rfl rfl rfl (raise_alertsStay ..)
    rw [deliver_idle .restart hr.here]
    exact hr
  unfold Machine.applyRestart
  simp only []
  split
  · exact hraised _ (h.to rfl rfl rfl (.of_eq rfl))
  · exact hraised _ (h.alloc _)

theorem Resting.applyMessage (h : Resting s t) (st : Station) (b : Body) : Resting s (applyMessage st b t).state := by
  unfold Machine.applyMessage
  simp only []
  cases b with
  | claim l label k cls wait ret =>
    simp only []
    split
    · exact h.applyClaim ..
    · exact h
  | release l =>
    simp only []
    split
    · exact h.applyRelease ..
    · exact h
  | withdraw l =>
    simp only []
    split
    · exact h.applyWithdraw ..
    · exact h
  | restart =>
    simp only []
    split
    · exact h
    · exact h.applyRestart
  | note n => exact h
  | noKind => exact h

/-! ### The notes at the end of the window -/

theorem Resting.takeWindowNote (h : Resting s t) (st : Station) (b : Body) : Resting s (takeWindowNote st b t) := by
  have hplaced (n : RxNote) : Resting s (placeNote n t) := by
    have hf := placeNote_frame n t
    refine h.to (by simp only [hf]) (by simp only [hf]) (by simp only [hf]) ?_
    unfold placeNote
    split
    · exact .of_raise (a := .noteIn) rfl
    · exact .of_raise (a := .ringFull) rfl
  cases b with
  | note n =>
    unfold Machine.takeWindowNote
    simp only []
    split
    · exact hplaced _
    · exact h
  | _ => exact h

theorem decreaseCountdown_alertsStay (i : Nat) (n : TxNote) (s : State) : AlertsStay s (decreaseCountdown i n s) := by
  have hread := recordRead_alertsStay .notes i n.control s
  unfold decreaseCountdown
  simp only []
  split
  · exact hread.trans (finishNote_alertsStay ..)
  · exact hread.trans (.of_eq rfl)

theorem spaceNotes_alertsStay (s : State) : AlertsStay s (spaceNotes s) := by
  unfold spaceNotes
  split
  · exact .of_eq rfl
  · unfold spaceActive
    split
    · exact .of_eq rfl
    · split
      · exact .of_eq rfl
      · split
        · exact decreaseCountdown_alertsStay ..
        · exact .of_eq rfl

theorem Resting.spaceNotes (h : Resting s t) : Resting s (spaceNotes t) := by
  have hf := spaceNotes_frame t
  exact h.to (by simp only [hf]) (by simp only [hf]) (by simp only [hf]) (spaceNotes_alertsStay t)

/-- A message applied to a station at rest, with the notes and the spacing of its window. -/
theorem IdleListener.windowTaken (h : IdleListener s) (st : Station) (b : Body) :
    Resting s (Machine.spaceNotes (Machine.takeWindowNote st b (Machine.applyMessage st b s).state)) :=
  ((h.resting.applyMessage st b).takeWindowNote st b).spaceNotes

end

/-! ## The alert at a message in a window that was won (R19) -/

theorem takeWindowNote_dup (st : Station) (b : Body) (s : State) : dup (takeWindowNote st b s) = dup s := by
  have hplaced (n : RxNote) : dup (placeNote n s) = dup s := by
    unfold placeNote
    split
    · exact raise_dup .noteIn _ (by decide)
    · exact raise_dup .ringFull _ (by decide)
  cases b with
  | note n =>
    unfold takeWindowNote
    simp only []
    split
    · exact hplaced _
    · rfl
  | _ => rfl

theorem decreaseCountdown_dup (i : Nat) (n : TxNote) (s : State) : dup (decreaseCountdown i n s) = dup s := by
  have hread := recordRead_dup .notes i n.control s
  unfold decreaseCountdown
  simp only []
  split
  · exact (finishNote_dup ..).trans hread
  · exact hread

theorem spaceNotes_dup (s : State) : dup (spaceNotes s) = dup s := by
  unfold spaceNotes
  split
  · rfl
  · unfold spaceActive
    split
    · rfl
    · split
      · rfl
      · split
        · exact decreaseCountdown_dup ..
        · rfl

/-! ## Messages under this station's number (R9, R19) -/

section
variable {s : State}

/-- The window of a message under this station's number, at a station that has no field on the line. -/
theorem execWindowEnded_own (hf : s.Framed) (hl : s.line.onLine = none) (b : Body) :
    exec (.windowEnded (.intact (own s) b)) s =
      .next { spaceNotes (takeMessage (own s) b s) with line.wonWindow := false } := by
  have hc : contenderLost s = s := by simp only [contenderLost, hl]
  simp only [exec, execWindowEnded, framedEvent_on hf, hc, if_neg (framed_on hf), takeWindow]

theorem takeMessage_lost (hw : s.line.wonWindow = false) (b : Body) : takeMessage (own s) b s =
    takeWindowNote (own s) b (applyMessage (own s) b (duplicateFound (restartSilence s))).state := by
  have hdup : (decide (own s = own (restartSilence s)) && !(restartSilence s).line.wonWindow) = true := by
    have h : (restartSilence s).line.wonWindow = false := hw
    have ho : own (restartSilence s) = own s := rfl
    simp [h, ho]
  simp only [takeMessage, hdup, if_true]

theorem takeMessage_won (hw : s.line.wonWindow = true) (b : Body) : takeMessage (own s) b s =
    takeWindowNote (own s) b (applyMessage (own s) b (restartSilence s)).state := by
  have hdup : (decide (own s = own (restartSilence s)) && !(restartSilence s).line.wonWindow) = false := by
    have h : (restartSilence s).line.wonWindow = true := hw
    rw [h, Bool.not_true, Bool.and_false]
  simp only [takeMessage, hdup, Bool.false_eq_true, if_false]

/-- A station takes no note of its own (R143). -/
theorem takeWindowNote_own (b : Body) : takeWindowNote (own s) b s = s := by
  cases b with
  | note n => exact if_neg (by simp [acceptsNote])
  | _ => rfl

/-- A note, a message of no kind, and outside VERIFY and LEARNED every message but a RESTART, changes no table (R24, R55). -/
theorem applyMessage_idle {st : Station} {b : Body} (h : (∃ n, b = .note n) ∨ b = .noKind ∨
    b ≠ .restart ∧ (s.cycle.phase = .adopt ∨ s.cycle.phase = .rebuild)) : applyMessage st b s = .on s := by
  rcases h with ⟨n, rfl⟩ | rfl | ⟨hb, hp⟩
  · rfl
  · rfl
  · have happlies : (decide (s.cycle.phase = .verify) || decide (s.cycle.phase = .learned)) = false := by
      rcases hp with hp | hp <;> rw [hp] <;> rfl
    cases b with
    | restart => exact absurd rfl hb
    | note n => rfl
    | noKind => rfl
    | _ => simp only [applyMessage, happlies, Bool.false_eq_true, if_false]

end

/-! ## Tags under this station's number (R6, R19) -/

section
variable {s : State} {n : Slot} {g : TagContents}

theorem execTagReceived_duplicate (hf : s.Framed) (hg : g.holder = own s) (hn : n ∉ s.line.txSlots) :
    exec (.tagReceived n (.intact g)) s = .next (deliverTag g (duplicateFound (restartSilence s))) := by
  have hdup : isDuplicateTag n g (restartSilence s) = true := by
    have ho : own (restartSilence s) = own s := rfl
    have hsent : (restartSilence s).line.txSlots = s.line.txSlots := rfl
    simp [isDuplicateTag, ho, hg, hsent, hn]
  simp only [exec, execTagReceived, framedEvent_on hf, hdup, if_true]

theorem addRx_alertsStay (l : LaneNo) (x : Sample) (s : State) : AlertsStay s (addRx l x s) := by
  unfold addRx
  simp only []
  split
  · exact .of_raise (a := .lane) rfl
  · exact .of_eq rfl

/-- A delivery touches the receive lanes and the alerts only. -/
theorem deliverTag_frame (g : TagContents) (s : State) :
    (deliverTag g s).mode = s.mode ∧ (deliverTag g s).line = s.line ∧ (deliverTag g s).streams = s.streams ∧
    (deliverTag g s).cycle = s.cycle ∧ (deliverTag g s).alloc = s.alloc ∧ AlertsStay s (deliverTag g s) := by
  have hself : s.mode = s.mode ∧ s.line = s.line ∧ s.streams = s.streams ∧ s.cycle = s.cycle ∧ s.alloc = s.alloc ∧
      AlertsStay s s := ⟨rfl, rfl, rfl, rfl, rfl, .of_eq rfl⟩
  unfold deliverTag
  split
  · split
    · exact hself
    · rename_i e _
      obtain ⟨hline, hcycle, hmode, halloc, hstreams, -⟩ := addRx_frame e.lane g.sample s
      exact ⟨hmode, hline, hstreams, hcycle, halloc, addRx_alertsStay ..⟩
  · exact hself

theorem deliverTag_hold (h : g.use = .hold) : deliverTag g s = s := if_neg (by simp [h])

end

/-- A station out of LISTEN that has found its duplicate. -/
abbrev Duplicated (s t : State) : Prop :=
  t.mode = { actual := .listen, requested := .listen, target := .none, withdrawCount := 0, cause := .duplicate } ∧
  t.StreamsIdle ∧ t.HasAlert .duplicate ∧ t.HasAlert .mode ∧ t.line.onLine = none ∧ t.line.contention = .none ∧
  t.line.silenceTimer = some 0 ∧ t.ClosedFrom s .fault

theorem duplicateFound_duplicated {s : State} (ho : s.mode.actual ≠ .off) (hl : s.mode.actual ≠ .listen) :
    Duplicated s (duplicateFound (restartSilence s)) := by
  have h := duplicateFound_direct (s := restartSilence s) ho hl
  exact ⟨h.mode, h.idle, h.stay.stays _ (hasAlert_raise ..), h.alert, h.onLine, h.contention, h.timer,
    closedFrom_source rfl (fun _ => Iff.rfl) h.lanes⟩

/-- What a step leaves of a station that has found its duplicate, where it keeps the mode state, the streams, the three items of
the line and the alerts. -/
theorem Duplicated.of_frame {s t u : State} (h : Duplicated s t) (hm : u.mode = t.mode) (hs : u.streams = t.streams)
    (hon : u.line.onLine = t.line.onLine) (hcont : u.line.contention = t.line.contention)
    (ht : u.line.silenceTimer = t.line.silenceTimer) (ha : AlertsStay t u) : Duplicated s u := by
  obtain ⟨hmode, hidle, hdup, halert, honLine, hcontention, htimer, hclosed⟩ := h
  exact ⟨hm.trans hmode, streamsIdle_congr hs hidle, ha.stays _ hdup, ha.stays _ halert, hon.trans honLine,
    hcont.trans hcontention, ht.trans htimer, closedFrom_congr hs hclosed⟩

/-- Settles O21. -/
theorem duplicateStationIsReported : Obligations.DuplicateStationIsReported := by
  intro s hf faulted
  refine ⟨fun n g hg hn => ?_, fun hclean hline b => ?_⟩
  · rw [execTagReceived_duplicate hf hg hn]
    obtain ⟨hmode, hlineT, hstreams, hcycle, halloc, hstay⟩ := deliverTag_frame g (duplicateFound (restartSilence s))
    refine ⟨fun hl => ⟨_, rfl, ?_, ?_, ?_⟩, fun hl => ⟨_, rfl, ?_⟩, fun hl hh => ?_⟩
    · exact (duplicateFound_duplicated (framed_on hf) hl).of_frame hmode hstreams (by rw [hlineT])
        (by rw [hlineT]) (by rw [hlineT]) hstay
    · rw [hcycle]
      exact (duplicateFound_direct (s := restartSilence s) (framed_on hf) hl).phase
    · rw [halloc]
      exact (duplicateFound_direct (s := restartSilence s) (framed_on hf) hl).alloc
    · rw [duplicateFound_listen (s := restartSilence s) hl] at *
      exact ⟨hmode, hstay.stays _ (AlertUnit.isSet_raise_self ..), halloc, hcycle, hstreams, hlineT⟩
    · rw [deliverTag_hold hh, duplicateFound_listen (s := restartSilence s) hl]
      rfl
  · rw [execWindowEnded_own hf hline]
    refine ⟨fun hw hl => ⟨_, rfl, ?_⟩, fun hw hl hq => ⟨_, rfl, ?_⟩, fun hw => ⟨_, rfl, ?_⟩, fun hw hi hb => ?_⟩
    · have hfound := duplicateFound_duplicated (framed_on hf) hl
      obtain ⟨hmode, hstreams, -⟩ := id hfound
      have hidle : IdleListener (duplicateFound (restartSilence s)) :=
        ⟨by rw [hmode], hstreams, duplicateFound_clean (s := restartSilence s) (framed_on hf) hl hline hclean⟩
      have hrest := hidle.windowTaken (own s) b
      rw [takeMessage_lost hw]
      exact hfound.of_frame hrest.mode hrest.streams (by simp only [hrest.line]) (by simp only [hrest.line])
        (by simp only [hrest.line]) ⟨hrest.stay.stays⟩
    · obtain ⟨-, -, hbox, hclosed⟩ := hq (.inr hl)
      have hfound := duplicateFound_listen (s := restartSilence s) hl
      rw [takeMessage_lost hw]
      generalize duplicateFound (restartSilence s) = u at *
      have hmode : u.mode = { s.mode with cause := .duplicate } := by rw [hfound]; rfl
      have hstreams : u.streams = s.streams := by rw [hfound]; rfl
      have halert : u.HasAlert .duplicate := by rw [hfound]; exact AlertUnit.isSet_raise_self ..
      have hidle : IdleListener u :=
        ⟨by rw [hmode]; exact hl, streamsIdle_congr hstreams ⟨hclosed, hbox⟩, streamsClean_congr hstreams hclean⟩
      have hrest := hidle.windowTaken (own s) b
      exact ⟨hrest.mode.trans hmode, hrest.stay.stays _ halert, hrest.streams.trans hstreams⟩
    · have hkept : dup (spaceNotes (takeMessage (own s) b s)) = dup s := by
        rw [takeMessage_won hw, spaceNotes_dup, takeWindowNote_dup, applyMessage_dup]
        rfl
      exact Bool.eq_iff_iff.mp hkept
    · have hnote : takeWindowNote (own s) b (restartSilence s) = restartSilence s :=
        takeWindowNote_own (s := restartSilence s) b
      rw [takeMessage_won hw, applyMessage_idle (by exact hb), Course.state_on, hnote, spaceNotes_idle (by exact hi)]
      rfl

end Sys2Proof.Machine
end

section
/-! The resets, and what no command changes: the queue of commands and the pins (R21, R163); and the commands that find nothing to
do while RESETN is low, in OFF, or at an unframed unit (R1, R4, R21, R22). -/

namespace Sys2Proof.Machine

/-! ## Every command answers (R21) -/

theorem exec_next (i : Instr) (s : State) : ∃ t, exec i s = .next t := by
  cases i <;> exact ⟨_, rfl⟩

theorem resetStationReset_outer {s t : State} (h : exec .resetStationReset s = .next t) : outer t = outer s := by
  cases h
  split
  · rfl
  · simp [outer]

theorem resetnRelease_pending {n : Station} {s t : State} (h : exec (.resetnRelease n) s = .next t) :
    t.pending = s.pending := by
  cases h
  split
  · rfl
  · rfl

/-- A command other than a reset leaves the queue of commands and the pins. -/
theorem exec_outer {i : Instr} {s t : State} (hi : isReset i = false) (h : exec i s = .next t) : outer t = outer s :=
  (closed_outer (outer s)).exec hi rfl h

theorem exec_pending {i : Instr} {s t : State} (h : exec i s = .next t) : t.pending = s.pending := by
  cases i with
  | powerOnReset n => cases h; rfl
  | resetnLow => cases h; rfl
  | resetnRelease n => exact resetnRelease_pending h
  | resetStationReset => exact congrArg Prod.fst (resetStationReset_outer h)
  | _ => exact congrArg Prod.fst (exec_outer rfl h)

/-- Settles O3, by `closed_outer` for the commands that are no resets. -/
theorem everyCommandAnswersNext : Obligations.EveryCommandAnswersNext := by
  intro i s
  obtain ⟨t, ht⟩ := exec_next i s
  exact ⟨t, ht, exec_pending ht, fun hi => congrArg Prod.snd (exec_outer hi ht)⟩

/-! ## The reset values (R21, R163) -/

theorem execResetnRelease_low {s : State} (h : s.pins.resetnLow = true) (n : Station) :
    exec (.resetnRelease n) s = .next { s with pins := ⟨n, false⟩ } := by
  simp only [exec, execResetnRelease, h, if_true, sampleStraps]

theorem reset_entryAt (n : Slot) : entryAt State.reset n = .free :=
  congrArg Stored.val (Table.get_replicate (Stored.fresh SlotEntry.free) n)

theorem reset_lane (l : LaneNo) : laneOfState State.reset l = .default :=
  congrArg Stored.val (Table.get_replicate (Stored.fresh Lane.default) l)

theorem reset_hasAlert (a : Alert) : State.reset.HasAlert a ↔ a = .start := by
  cases a <;> decide

/-- Settles O4. -/
theorem resetsGiveResetValues : Obligations.ResetsGiveResetValues := by
  refine ⟨fun s n => ⟨rfl, rfl, fun h => execResetnRelease_low h n⟩, ?_⟩
  refine ⟨rfl, rfl, rfl, rfl, rfl, rfl, rfl, rfl, rfl, reset_entryAt, rfl, reset_lane, rfl, fun l => ?_, rfl, fun e => ?_,
    rfl, rfl, rfl, rfl, rfl, rfl, rfl, reset_hasAlert, rfl, rfl⟩
  · exact ⟨Table.get_replicate .., Table.get_replicate .., Table.get_replicate .., Table.get_replicate ..⟩
  · exact Table.get_replicate ..

theorem reset_legal : State.reset.Legal := by decide

theorem reset_quiet : State.reset.Quiet := fun _ =>
  ⟨rfl, rfl, rfl, fun l => congrArg Lane.state (reset_lane l)⟩

theorem reset_listsFit : State.reset.ListsFit := by
  refine ⟨by decide, .nil, .nil, by decide, fun l => ?_, by decide, .nil, by decide, by decide⟩
  have htx : State.reset.lanes.txFifo.get l = [] := Table.get_replicate ..
  have hrx : State.reset.lanes.rxFifo.get l = [] := Table.get_replicate ..
  simp [htx, hrx]

theorem reset_tablesAgree : State.reset.TablesAgree := ⟨.nil, fun h => by simp [State.reset, CycleEngine.reset] at h⟩

/-- Settles O11. -/
theorem invariantsHoldAtReset : Obligations.InvariantsHoldAtReset :=
  ⟨reset_legal, reset_quiet, reset_listsFit, reset_tablesAgree⟩

/-! ## Commands that find nothing to do (R1, R4, R21, R22) -/

theorem lineEvent_none {f : State → State} {s : State} (h : s.pins.resetnLow = true ∨ s.mode.actual = .off) :
    lineEvent f s = s := if_pos (by simpa using h)

theorem framedEvent_none {f : State → State} {s : State}
    (h : s.pins.resetnLow = true ∨ s.mode.actual = .off ∨ s.line.framed = false) : framedEvent f s = s :=
  if_pos (by simpa [or_assoc] using h)

theorem exec_framedEvent {i : Instr} (h : isFramedEvent i = true) : ∃ f, ∀ s, exec i s = .next (framedEvent f s) := by
  cases i with
  | tagReceived n r => exact ⟨_, fun _ => rfl⟩
  | slotFieldClosed => exact ⟨_, fun _ => rfl⟩
  | silenceReclaim => exact ⟨_, fun _ => rfl⟩
  | windowStart => exact ⟨_, fun _ => rfl⟩
  | noteCheckSequenceReceived r => exact ⟨_, fun _ => rfl⟩
  | windowEnded r => exact ⟨_, fun _ => rfl⟩
  | slotStart n => exact ⟨_, fun _ => rfl⟩
  | markContention => exact ⟨_, fun _ => rfl⟩
  | markContentionWon => exact ⟨_, fun _ => rfl⟩
  | _ => cases h

/-- An event of the line that falls at no position of a framed cycle is taken by an unframed unit too. -/
theorem exec_lineEvent {i : Instr} (h : isLineEvent i = true) (hf : isFramedEvent i = false) :
    ∃ f, ∀ s, exec i s = .next (lineEvent f s) := by
  cases i with
  | markReceived r => exact ⟨_, fun _ => rfl⟩
  | ageTick => exact ⟨_, fun _ => rfl⟩
  | queueEntryExpired => exact ⟨_, fun _ => rfl⟩
  | withdrawalLimit => exact ⟨_, fun _ => rfl⟩
  | resyncAttemptLimit => exact ⟨_, fun _ => rfl⟩
  | arbitrationLost => exact ⟨_, fun _ => rfl⟩
  | ownTransmissionCompleted rb a => exact ⟨_, fun _ => rfl⟩
  | noteAttemptLimit a => exact ⟨_, fun _ => rfl⟩
  | driverFault => exact ⟨_, fun _ => rfl⟩
  | spacingCountdownExpired => exact ⟨_, fun _ => rfl⟩
  | lineSilence => exact ⟨_, fun _ => rfl⟩
  | foundingContentionStart => exact ⟨_, fun _ => rfl⟩
  | foundingContentionJoined => exact ⟨_, fun _ => rfl⟩
  | foundingContentionWon => exact ⟨_, fun _ => rfl⟩
  | founded => exact ⟨_, fun _ => rfl⟩
  | tagReceived n r => cases hf
  | slotFieldClosed => cases hf
  | silenceReclaim => cases hf
  | windowStart => cases hf
  | noteCheckSequenceReceived r => cases hf
  | windowEnded r => cases hf
  | slotStart n => cases hf
  | markContention => cases hf
  | markContentionWon => cases hf
  | _ => cases h

/-- An event of the line finds nothing to do while RESETN is low and in OFF. -/
theorem exec_line_none {i : Instr} {s : State} (hi : isLineEvent i = true)
    (h : s.pins.resetnLow = true ∨ s.mode.actual = .off) : exec i s = .next s := by
  by_cases hf : isFramedEvent i = true
  · obtain ⟨f, hx⟩ := exec_framedEvent hf
    rw [hx, framedEvent_none (h.imp_right .inl)]
  · obtain ⟨f, hx⟩ := exec_lineEvent hi (by simpa using hf)
    rw [hx, lineEvent_none h]

/-- While RESETN is low no command but the resets changes anything (R21). -/
theorem exec_held {i : Instr} {s : State} (h : s.pins.resetnLow = true) (hi : isReset i = false) : exec i s = .next s := by
  have hframe {α : Type} {p : Option α} {ok : Mode → Bool} {b : α → State → State} :
      (Host.Outcome.next (hostFrame p ok b s) : Out) = .next s := congrArg Host.Outcome.next (hostFrame_low h)
  by_cases hl : isLineEvent i = true
  · exact exec_line_none hl (.inl h)
  cases i with
  | powerOnReset n => cases hi
  | resetnLow => cases hi
  | resetnRelease n => cases hi
  | resetStationReset => cases hi
  | wordPeriodBegin => exact congrArg Host.Outcome.next (if_pos h)
  | wordPeriodEnd w => exact congrArg Host.Outcome.next (if_pos h)
  | frameCutShort => exact congrArg Host.Outcome.next (if_pos h)
  | frameCheckFailed c l p x => exact congrArg Host.Outcome.next (if_pos h)
  | lapseTimerExpired => exact congrArg Host.Outcome.next (if_pos (by simp [h]))
  | sendNote tag kind number length payload =>
    refine congrArg Host.Outcome.next ?_
    rw [hostFrame_low h, if_pos h, ite_self]
  | status => exact hframe
  | configure _ _ _ _ _ _ => exact hframe
  | setMode _ => exact hframe
  | openStream _ _ _ _ => exact hframe
  | closeStream _ => exact hframe
  | readStream _ => exact hframe
  | setListen _ _ _ _ _ => exact hframe
  | readListen _ => exact hframe
  | readLanes => exact hframe
  | noteOutcome => exact hframe
  | abortNotes => exact hframe
  | takeNote => exact hframe
  | snapshot => exact hframe
  | readSnapshot _ _ _ => exact hframe
  | readAlerts => exact hframe
  | clearAlerts _ => exact hframe
  | setAlertMask _ => exact hframe
  | readMemoryError => exact hframe
  | restartBus => exact hframe
  | resetStation => exact hframe
  | _ => exact absurd rfl hl

/-- Settles O6: a command's meaning is gated by RESETN, by the mode or by the framing. -/
theorem nothingWhileHeldOffOrUnframed : Obligations.NothingWhileHeldOffOrUnframed := by
  intro i s
  refine ⟨exec_held, fun hm hi => exec_line_none hi (.inr hm), fun hf hi => ?_⟩
  obtain ⟨f, hx⟩ := exec_framedEvent hi
  rw [hx, framedEvent_none (.inr (.inr hf))]

end Sys2Proof.Machine
end

section
/-! Step (a) and the failed marks of a learning station (R15, R25, R27, R28, R30, R35, R47, R88, R89, R91), with the two ways into
LISTEN that a mark can bring: the end of learning at a stamp difference, and the direct fault entry after which the station learns
again. -/

namespace Sys2Proof.Machine

/-! ## Into LISTEN (R13, R25, R35, R37, R141) -/

theorem discarded_done {s : State} (h : noteInWindow s = false) : ∀ n ∈ s.discarded, n.state = .done := by
  intro n hn
  obtain ⟨m, -, rfl⟩ := List.mem_map.mp hn
  split
  · assumption
  · simp [h]

/-- After an entry into OFF or LISTEN no note is in its window, so that every note discarded then is DONE. -/
theorem discardNotes_cut_done {m : Mode} (hm : m = .off ∨ m = .listen) (s : State) :
    ∀ n ∈ (discardNotes (changeMode m s)).notes.tx, n.state = .done := by
  have hw : noteInWindow (changeMode m s) = false := by simp only [noteInWindow, (changeMode_cut hm s).1]
  rw [discardNotes_notes]
  exact discarded_done hw

theorem laneOfState_controlMismatch_closed {s : State} {k : LaneNo} (b : Body) (h : (laneOfState s k).state = .closed) :
    laneOfState (controlMismatch b s) k = laneOfState s k := by
  unfold controlMismatch
  split
  · rfl
  · rename_i l _
    split
    · rename_i hc
      rw [updateLane, laneOfState_putLane]
      split
      · rename_i hk
        subst hk
        rw [h] at hc
        cases hc
      · rfl
    · rfl

theorem laneOfState_controlLost_closed {s : State} {k : LaneNo} (b : Body) (h : (laneOfState s k).state = .closed) :
    laneOfState (controlLost b s) k = laneOfState s k := by
  rw [laneOfState_controlLost, if_neg (by simp [h])]

/-- A cut changes no CLOSED lane. -/
theorem laneOfState_reportCut_closed {s : State} {k : LaneNo} (h : (laneOfState s k).state = .closed) :
    laneOfState (reportCut s) k = laneOfState s k := by
  have hcut (report : Body → State → State) (b : Body) (t : State)
      (hrep : laneOfState (report b t) k = laneOfState t k) : laneOfState (cutControl report b t) k = laneOfState t k := by
    unfold cutControl
    split
    · rfl
    · split
      · exact hrep
      · rfl
  unfold reportCut
  split
  · rename_i src _ b _
    cases src with
    | outbox =>
      simp only [messageCut]
      split
      · exact hcut _ b s (laneOfState_controlLost_closed b h)
      · exact hcut _ b { s with line.wonWindow := true } (laneOfState_controlMismatch_closed b h)
    | note =>
      simp only [messageCut]
      split
      · exact congrFun (laneOfState_congr (by simp)) k
      · exact congrFun (laneOfState_congr (s := s) (by simp)) k
  all_goals rfl

theorem laneOfState_changeMode_closed {m : Mode} {s : State} {k : LaneNo} (h : (laneOfState s k).state = .closed) :
    laneOfState (changeMode m s) k = laneOfState s k := by
  obtain ⟨-, hs, -⟩ := announced_frame m s
  have ha : laneOfState (announced m s) k = laneOfState s k := congrFun (laneOfState_congr hs) k
  by_cases hm : m = .off ∨ m = .listen
  · rw [changeMode_cuts hm, congrFun (laneOfState_congr (cutTransmission_streams (announced m s))) k,
      laneOfState_reportCut_closed (by rw [ha, h]), ha]
  · rw [changeMode_cuts_nothing hm, ha]

/-- What leaving JOINING or RESYNC for LISTEN makes of a station (R25, R37, R38). -/
structure LeftLearning (s t : State) : Prop where
  mode : t.mode = { s.mode with actual := .listen, requested := .listen }
  cycle : t.cycle = { s.cycle with foundingPending := false, winnerMarkDue := false }
  alloc : t.alloc = s.alloc
  port : t.port = s.port
  idle : t.StreamsIdle
  lanes : t.ClosedFrom s .abandoned
  onLine : t.line.onLine = none
  contention : t.line.contention = .none
  framed : t.line.framed = s.line.framed
  timer : t.line.silenceTimer = s.line.silenceTimer
  alert : t.HasAlert .mode
  stay : AlertsStay s t
  notes : ∀ n ∈ t.notes.tx, n.state = .done

theorem listenFromLearning_left (s : State) : LeftLearning s (listenFromLearning s) := by
  have hcut := changeMode_cut (m := .listen) (.inr rfl) s
  obtain ⟨htimer, -, hframed, -⟩ := changeMode_line_keeps .listen s
  obtain ⟨halert, hstay⟩ := changeMode_alertsStay .listen s
  have hlanes := changeMode_lanesCut (m := .listen) (.inr rfl) s
  obtain ⟨halloc, hport, -⟩ := changeMode_frame .listen s
  have hmode := changeMode_mode .listen s
  have hcycle := changeMode_cycle .listen s
  have hnotes := discardNotes_cut_done (m := .listen) (.inr rfl) s
  unfold listenFromLearning abandonStreams
  generalize changeMode .listen s = u at *
  have hu := discardNotes_frame u
  have hstayU := discardNotes_alertsStay u
  generalize discardNotes u = v at *
  have hv := dropStreams_frame .abandoned v
  have hstayV := dropStreams_alertsStay .abandoned v
  have hidle := dropStreams_idle .abandoned v
  have hclosed : (dropStreams .abandoned v).ClosedFrom s .abandoned :=
    dropStreams_closedFrom (lanesCut_congr (by simp only [hu]) hlanes)
  generalize dropStreams .abandoned v = w at *
  have hline : w.line = u.line := by simp only [hv, hu]
  exact {
    mode := by simp only [hv, hu, hmode]
    cycle := by simp only [hv, hu, hcycle]
    alloc := by simp only [hv, hu, halloc]
    port := by simp only [hv, hu, hport]
    idle := hidle
    lanes := hclosed
    onLine := by simp only [hline, hcut]
    contention := by simp only [hline, hcut]
    framed := by simp only [hline, hframed]
    timer := by simp only [hline, htimer]
    alert := hstayV.stays _ (hstayU.stays _ halert)
    stay := hstay.trans (hstayU.trans (hstayV.trans (.of_eq rfl)))
    notes := by simpa only [hv] using hnotes }

/-- What the direct fault entry makes of a station that it sets to learn from the beginning (R28, R35). -/
structure LearnsAgain (cause : FaultCause) (s t : State) : Prop where
  mode : t.mode = { actual := .listen, requested := .listen, target := .none, withdrawCount := 0, cause := cause }
  phase : t.cycle.phase = .adopt
  number : t.cycle.cycleNumber = s.cycle.cycleNumber
  empty : t.TablesEmpty
  held : t.alloc.heldNotices = []
  port : t.port = s.port
  idle : t.StreamsIdle
  lanes : t.ClosedFrom s .fault
  closed : ∀ l, (laneOfState s l).state = .closed → laneOfState t l = laneOfState s l
  framed : t.line.framed = s.line.framed
  timer : t.line.silenceTimer = s.line.silenceTimer
  alert : t.HasAlert .mode
  stay : AlertsStay s t
  notes : ∀ n ∈ t.notes.tx, n.state = .done

theorem faultEntry_learnsAgain {cause : FaultCause} {s : State} (ho : s.mode.actual ≠ .off) (hl : s.mode.actual ≠ .listen)
    (hc : cause = .resyncFailed ∨ cause = .configMismatch) : LearnsAgain cause s (faultEntry cause s) := by
  rw [faultEntry_out ho hl, if_pos hc]
  obtain ⟨htimer, -, hframed, -⟩ := changeMode_line_keeps .listen s
  obtain ⟨halert, hstay⟩ := changeMode_alertsStay .listen s
  have hlanes := changeMode_lanesCut (m := .listen) (.inr rfl) s
  have hkept (l : LaneNo) (h : (laneOfState s l).state = .closed) := laneOfState_changeMode_closed (m := .listen) h
  obtain ⟨-, hport, -⟩ := changeMode_frame .listen s
  have hmode := changeMode_mode .listen s
  have hcycle := changeMode_cycle .listen s
  have hnotes := discardNotes_cut_done (m := .listen) (.inr rfl) s
  generalize changeMode .listen s = u at *
  have hu := discardNotes_frame u
  have hstayU := discardNotes_alertsStay u
  generalize discardNotes u = v at *
  have hlanesV : laneOfState v = laneOfState u := laneOfState_congr (by simp only [hu])
  have hv := dropStreams_frame .fault v
  have hstayV := dropStreams_alertsStay .fault v
  have hidle := dropStreams_idle .fault v
  have hdropped := laneOfState_dropStreams .fault v
  have hclosed : (dropStreams .fault v).ClosedFrom s .fault :=
    dropStreams_closedFrom (lanesCut_congr (by simp only [hu]) hlanes)
  generalize dropStreams .fault v = w at *
  have hw := faultItems_frame cause w
  have hline : (faultItems cause w).line = u.line := by simp only [hw, hv, hu]
  have hstreams : (relearn (faultItems cause w)).streams = w.streams := by simp only [relearn_frame, hw]
  have hlane : laneOfState (relearn (faultItems cause w)) = laneOfState w := laneOfState_congr hstreams
  have hstayW : AlertsStay w (relearn (faultItems cause w)) := .of_eq (by simp only [relearn_frame, hw])
  exact {
    mode := by simp only [relearn_frame, faultItems_mode, hv, hu, hmode]
    phase := rfl
    number := by simp only [relearn_cycle, hw, hv, hu, hcycle]
    empty := relearn_empty _
    held := rfl
    port := by simp only [relearn_frame, hw, hv, hu, hport]
    idle := streamsIdle_congr hstreams hidle
    lanes := closedFrom_congr hstreams hclosed
    closed := fun l h => by rw [hlane, hdropped, hlanesV, hkept l h, if_neg (by simp [h])]
    framed := by simp only [relearn_frame, hline, hframed]
    timer := by simp only [relearn_frame, hline, htimer]
    alert := hstayW.stays _ (hstayV.stays _ (hstayU.stays _ halert))
    stay := hstay.trans (hstayU.trans (hstayV.trans hstayW))
    notes := by simpa only [relearn_frame, hw, hv] using hnotes }

/-! ## A mark taken (R3, R4, R14) -/

section
variable {s t : State} {m : MarkContents}

theorem capture_unarmed (h : s.port.snap.armed = false) : capture s = s := by simp [capture, h]

/-- What every mark leaves: a founding mark, the own or the winner's, is due no longer. -/
abbrev State.markOver (s : State) : State :=
  { s with cycle := { s.cycle with foundingMarkDue := false, winnerMarkDue := false } }

/-- A mark of a withdrawal counted. -/
abbrev State.markCounted (s : State) : State :=
  { s.markOver with mode := { s.mode with withdrawCount := s.mode.withdrawCount + 1 } }

theorem markEnd_uncounted (hw : s.mode.actual ≠ .withdrawing) : markEnd (s.mode.actual = .withdrawing) t = t.markOver := by
  simp [markEnd, hw]

theorem markEnd_left (hw : t.mode.actual ≠ .withdrawing) (b : Bool) : markEnd b t = t.markOver := by
  cases b <;> simp [markEnd, countWithdrawal, hw]

theorem markEnd_counted (hw : s.mode.actual = .withdrawing) (ht : t.mode.actual = .withdrawing)
    (hc : t.mode.withdrawCount < 15) : markEnd (s.mode.actual = .withdrawing) t = t.markCounted := by
  have hlim : ¬Config.withdrawalLimit ≤ t.mode.withdrawCount + 1 := by simp only [Config.withdrawalLimit]; omega
  simp [markEnd, countWithdrawal, hw, ht, hlim]

theorem execMarkReceived_intact (hr : s.Running) (ho : s.mode.actual ≠ .off) (hlen : m.summary.length ≤ 16) :
    exec (.markReceived (.intact m)) s =
      .next (capture (markEnd (s.mode.actual = .withdrawing) (intactMark m (markArrived s)).state)) := by
  have hfit : ¬Config.queueRoom < m.summary.length := Nat.not_lt.mpr hlen
  simp only [exec, execMarkReceived, lineEvent_on hr ho, if_neg hfit]
  rfl

/-- An intact mark at a station that is not WITHDRAWING and captures nothing after it. -/
theorem execMarkReceived_uncounted (hr : s.Running) (ho : s.mode.actual ≠ .off) (hlen : m.summary.length ≤ 16)
    (hw : s.mode.actual ≠ .withdrawing) (ht : (intactMark m (markArrived s)).state = t) (ha : t.port.snap.armed = false) :
    exec (.markReceived (.intact m)) s = .next t.markOver := by
  rw [execMarkReceived_intact hr ho hlen, ht, markEnd_uncounted hw, capture_unarmed (by exact ha)]

/-- An intact mark that a withdrawal counts, with nothing captured after it. -/
theorem execMarkReceived_counted (hr : s.Running) (hlen : m.summary.length ≤ 16) (hw : s.mode.actual = .withdrawing)
    (ht : (intactMark m (markArrived s)).state = t) (hm : t.mode.actual = .withdrawing) (hc : t.mode.withdrawCount < 15)
    (ha : t.port.snap.armed = false) : exec (.markReceived (.intact m)) s = .next t.markCounted := by
  rw [execMarkReceived_intact hr (by simp [hw]) hlen, ht, markEnd_counted hw hm hc, capture_unarmed (by exact ha)]

theorem execMarkReceived_damaged (hr : s.Running) (ho : s.mode.actual ≠ .off) :
    exec (.markReceived .damaged) s =
      .next (markEnd (s.mode.actual = .withdrawing) (damagedMark (markLost .damaged s)).state) :=
  execMarkReceived_lost hr ho (.inl rfl)

/-! ## Step (a) (R25, R88, R89) -/

theorem stampAgrees_iff : stampAgrees m s = true ↔
    m.patience = s.port.config.patience ∧ m.reclaim = s.port.config.reclaim := by
  simp [stampAgrees]

theorem markTick_missed (h : s.cycle.cycleNumber.toNat % 1024 ≠ 0) (b : Bool) : markTick b s = .on s :=
  if_neg fun hf => h (of_decide_eq_true hf)

/-- Step (a) with an equal stamp and a lawful summary, at a mark at which no tick falls. -/
theorem adopt_lawful (hstamp : m.patience = s.port.config.patience ∧ m.reclaim = s.port.config.reclaim)
    (hlaw : lawful m = true) (htick : m.cycle.toNat % 1024 ≠ 0) (ho : s.mode.actual ≠ .off) (counts : Bool) :
    adopt counts m s = .on { s with
      cycle := { s.cycle with cycleNumber := m.cycle, marker := m.marker, phase := .rebuild }
      alloc := { s.alloc with queue := m.summary.map fun e => .fresh (entryOfSummary e), rebuildList := [] }
      alerts := s.alerts.raise .queueAdopted } := by
  have halive : (Course.on (raise .queueAdopted (replaceQueue m (takeMark m s)))).alive =
      .on (raise .queueAdopted (replaceQueue m (takeMark m s))) := if_neg ho
  rw [adopt, if_pos (stampAgrees_iff.mpr hstamp), if_pos hlaw, markTick_missed (by exact htick), halive]
  rfl

theorem adopt_unlawful (hstamp : m.patience = s.port.config.patience ∧ m.reclaim = s.port.config.reclaim)
    (hlaw : lawful m = false) (counts : Bool) : adopt counts m s = .on (if counts then countAttempt s else s) := by
  rw [adopt, if_pos (stampAgrees_iff.mpr hstamp), if_neg (by simp [hlaw])]

theorem adopt_mismatch (hstamp : ¬(m.patience = s.port.config.patience ∧ m.reclaim = s.port.config.reclaim))
    (counts : Bool) : adopt counts m s = .on (adoptMismatch s) := by
  rw [adopt, if_neg (by rwa [stampAgrees_iff])]

/-- The station as its step (a) finds it: from VERIFY the rebuild list and the held notices are dropped. -/
def stepBegun (s : State) : State := if s.cycle.phase = .verify then toAdopt s else s

theorem stepBegun_adopt (hp : s.cycle.phase = .adopt) : stepBegun s = s := if_neg (by simp [hp])

theorem stepBegun_verify (hp : s.cycle.phase = .verify) : stepBegun s = toAdopt s := if_pos hp

theorem intactMark_adopt (hp : s.cycle.phase = .adopt) : intactMark m s = adopt true m (stepBegun s) := by
  rw [stepBegun_adopt hp]
  simp only [intactMark, hp]

theorem intactMark_winners (hp : s.cycle.phase = .verify) (hm : s.mode.actual = .joining)
    (hw : s.cycle.winnerMarkDue = true) : intactMark m s = adopt true m (stepBegun s) := by
  rw [stepBegun_verify hp]
  simp [intactMark, hp, isWinnersMark, hm, hw]

theorem adoptMismatch_joining (hm : s.mode.actual = .joining) :
    LeftLearning (noteMismatch s) (adoptMismatch s) := by
  simp only [adoptMismatch, hm]
  exact listenFromLearning_left _

theorem adoptMismatch_resync (hm : s.mode.actual = .resync) :
    LearnsAgain .configMismatch (noteMismatch s) (adoptMismatch s) := by
  have ho : (noteMismatch s).mode.actual ≠ .off := by simp [noteMismatch, hm]
  have hl : (noteMismatch s).mode.actual ≠ .listen := by simp [noteMismatch, hm]
  simp only [adoptMismatch, hm]
  exact faultEntry_learnsAgain ho hl (.inr rfl)

theorem adoptMismatch_stays (hm : s.mode.actual = .listen ∨ s.mode.actual = .withdrawing) :
    adoptMismatch s = noteMismatch s := by
  rcases hm with hm | hm <;> simp only [adoptMismatch, hm]

theorem noteMismatch_hasAlert (s : State) : (noteMismatch s).HasAlert .configMismatch :=
  AlertUnit.isSet_raise_self s.alerts .configMismatch

end

/-- Settles O14. -/
theorem intactMarkIsAdopted : Obligations.IntactMarkIsAdopted := by
  intro s m hr hphase hlen htick harm stamp counted begun heard toListen
  have hmark : intactMark m (markArrived s) = adopt true m (stepBegun (markArrived s)) := by
    rcases hphase with hp | ⟨hp, hj, hw⟩
    · exact intactMark_adopt hp
    · exact intactMark_winners hp hj hw
  have hbegun : stepBegun (markArrived s) = { markArrived s with
      cycle := { s.cycle with tickDone := false, phase := .adopt }, alloc := begun } := by
    rcases hphase with hp | ⟨hp, -, -⟩
    · rw [stepBegun_adopt (by exact hp), ← hp, show begun = s.alloc from if_neg (by simp [hp])]
    · rw [stepBegun_verify (by exact hp), show begun = _ from if_pos hp]
      rfl
  have hkept (hm : s.mode.actual = .listen ∨ s.mode.actual = .withdrawing) : s.cycle.phase = .adopt :=
    hphase.resolve_right fun ⟨_, hj, _⟩ => by simp [hj] at hm
  rw [hbegun] at hmark
  generalize hx : ({ markArrived s with
    cycle := { s.cycle with tickDone := false, phase := .adopt }, alloc := begun } : State) = x at hmark
  have hport : x.port = s.port := by rw [← hx]
  have hmode : x.mode = s.mode := by rw [← hx]
  have hcycle : x.cycle = { s.cycle with tickDone := false, phase := .adopt } := by rw [← hx]
  have halloc : x.alloc = begun := by rw [← hx]
  have hframed : x.line.framed = true := by rw [← hx]
  have htimer : x.line.silenceTimer = some 0 := by rw [← hx]
  have hstamp : stamp ↔ (m.patience = x.port.config.patience ∧ m.reclaim = x.port.config.reclaim) := by rw [hport]
  have ha : x.port.snap.armed = false := by rw [hport, harm]
  have hclosed {t : State} {o : StreamOutcome} (h : t.ClosedFrom (noteMismatch x) o) : t.ClosedFrom s o :=
    closedFrom_source (by rw [← hx]; rfl) (by rw [← hx]; exact fun _ => Iff.rfl) h
  refine ⟨fun hs hlaw hm => ?_, fun hs hm => ?_, fun hs hm => ?_, fun hs hm => ?_⟩
  · have ho : s.mode.actual ≠ .off := by rcases hm with hm | hm | hm | ⟨hm, -⟩ <;> simp [hm]
    rw [adopt_lawful (hstamp.mp hs) hlaw htick (by rwa [hmode])] at hmark
    by_cases hw : s.mode.actual = .withdrawing
    · have hcount : s.mode.withdrawCount < 15 := by simpa [hw] using hm
      have hcounted : counted = _ := if_pos hw
      rw [execMarkReceived_counted hr hlen hw (congrArg Course.state hmark) (hmode ▸ hw : x.mode.actual = _)
        (hmode ▸ hcount : x.mode.withdrawCount < 15) ha]
      simp only [heard, hcounted, ← hx]
      rfl
    · have hcounted : counted = _ := if_neg hw
      rw [execMarkReceived_uncounted hr ho hlen hw (congrArg Course.state hmark) ha]
      simp only [heard, hcounted, ← hx]
      rfl
  · rw [adopt_mismatch (hstamp.not.mp hs)] at hmark
    have h := adoptMismatch_joining (s := x) (by rw [hmode, hm])
    generalize adoptMismatch x = t at *
    refine ⟨_, execMarkReceived_uncounted hr (by simp [hm]) hlen (by simp [hm]) (congrArg Course.state hmark)
      (h.port ▸ ha : t.port.snap.armed = false), ?_, ?_, h.alloc.trans halloc, hclosed h.lanes⟩
    · have hc : t.cycle = { x.cycle with foundingPending := false, winnerMarkDue := false } := h.cycle
      exact ⟨by simp only [hc, hcycle, Course.state_on], by simp only [hc, hcycle, Course.state_on], h.idle,
        h.stay.stays _ (noteMismatch_hasAlert x), h.alert, h.framed.trans hframed, h.timer.trans htimer, fun _ => h.notes⟩
    · exact h.mode.trans (by simp only [noteMismatch, raise_frame, hmode])
  · rw [adopt_mismatch (hstamp.not.mp hs)] at hmark
    have h := adoptMismatch_resync (s := x) (by rw [hmode, hm])
    generalize adoptMismatch x = t at *
    refine ⟨_, execMarkReceived_uncounted hr (by simp [hm]) hlen (by simp [hm]) (congrArg Course.state hmark)
      (h.port ▸ ha : t.port.snap.armed = false), ?_, h.mode, h.empty, hclosed h.lanes⟩
    exact ⟨h.phase, h.number.trans (by simp only [noteMismatch, raise_frame, hcycle]), h.idle,
      h.stay.stays _ (noteMismatch_hasAlert x), h.alert, h.framed.trans hframed, h.timer.trans htimer, fun _ => h.notes⟩
  · have hlw : s.mode.actual = .listen ∨ s.mode.actual = .withdrawing := hm.imp_right And.left
    rw [adopt_mismatch (hstamp.not.mp hs), adoptMismatch_stays (by rwa [hmode])] at hmark
    by_cases hw : s.mode.actual = .withdrawing
    · have hcount : s.mode.withdrawCount < 15 := by simpa [hw] using hm
      have hcounted : counted = _ := if_pos hw
      rw [execMarkReceived_counted hr hlen hw (congrArg Course.state hmark) (hmode ▸ hw : x.mode.actual = _)
        (hmode ▸ hcount : x.mode.withdrawCount < 15) ha]
      simp only [heard, hcounted, ← hx, hkept hlw]
      rfl
    · have hl : s.mode.actual = .listen := by simpa [hw] using hm
      have hcounted : counted = _ := if_neg hw
      rw [execMarkReceived_uncounted hr (by simp [hl]) hlen hw (congrArg Course.state hmark) ha]
      simp only [heard, hcounted, ← hx, hkept hlw]
      rfl

end Sys2Proof.Machine
end

section
/-! Marks that fail while the station learns (R27, R28, R35, R47, R88, R91): the attempts of a resync, and step (a) applied to a
mark that has failed its verify. -/

namespace Sys2Proof.Machine

/-! ## Attempts (R28) -/

section
variable {s t b : State} {m : MarkContents}

theorem countAttempt_uncounted (hm : s.mode.actual ≠ .resync) : countAttempt s = s := if_neg hm

theorem countAttempt_below (hm : s.mode.actual = .resync) (hc : s.cycle.resyncAttempts < 3) : countAttempt s =
    { s with cycle := { s.cycle with resyncAttempts := s.cycle.resyncAttempts + 1 } } := by
  have hlim : ¬Config.resyncLimit ≤ s.cycle.resyncAttempts + 1 := by simp only [Config.resyncLimit]; omega
  rw [countAttempt, if_pos hm]
  exact if_neg hlim

/-- The fourth failed attempt ends the resync (R28, R35). -/
theorem countAttempt_fourth (hm : s.mode.actual = .resync) (hc : s.cycle.resyncAttempts = 3) :
    LearnsAgain .resyncFailed { s with cycle := { s.cycle with resyncAttempts := 4 } } (countAttempt s) := by
  have hlim : Config.resyncLimit ≤ s.cycle.resyncAttempts + 1 := by simp only [Config.resyncLimit]; omega
  have he : countAttempt s =
      faultEntry .resyncFailed { s with cycle := { s.cycle with resyncAttempts := s.cycle.resyncAttempts + 1 } } := by
    rw [countAttempt, if_pos hm]
    exact if_pos hlim
  rw [he, hc]
  exact faultEntry_learnsAgain (by simp [hm]) (by simp [hm]) (.inl rfl)

/-! ## A learning station as a mark finds it -/

/-- A station at the beginning of a step (a), whose mark has arrived or was lost: it is in phase ADOPT, and what it has learned
and held is as it was, but for the notices that the purge has held. -/
structure StepBegun (s b : State) : Prop where
  mode : b.mode = s.mode
  streams : b.streams = s.streams
  notes : b.notes = s.notes
  lanes : b.lanes = s.lanes
  port : b.port = s.port
  alerts : b.alerts = s.alerts
  map : b.alloc.map = s.alloc.map
  queue : b.alloc.queue = s.alloc.queue
  held : s.cycle.phase = .verify → b.alloc.heldNotices = []
  phase : b.cycle.phase = .adopt
  attempts : b.cycle.resyncAttempts = s.cycle.resyncAttempts
  number : b.cycle.cycleNumber = s.cycle.cycleNumber
  contends : ∀ l, b.ClaimContends l ↔ s.ClaimContends l

/-- Nothing has changed but what a mark start changes. -/
theorem stepBegun_of {l : LineUnit} (hp : s.cycle.phase = .adopt ∨ s.cycle.phase = .verify)
    (hl : l.onLine = s.line.onLine) (hb : l.messageBits = s.line.messageBits) :
    StepBegun s (stepBegun { s with line := l, cycle.tickDone := false }) := by
  have hc (u : State) (hu : u.line = l) (hs : u.streams = s.streams) (k : LaneNo) :
      u.ClaimContends k ↔ s.ClaimContends k := by
    simp only [State.ClaimContends, claimInWindow, laneOfState, hu, hs, hl, hb]
  rcases hp with hp | hp
  · rw [stepBegun_adopt (by exact hp)]
    exact ⟨rfl, rfl, rfl, rfl, rfl, rfl, rfl, rfl, fun h => absurd (hp.symm.trans h) (by decide), hp, rfl, rfl, hc _ rfl rfl⟩
  · rw [stepBegun_verify (by exact hp)]
    exact ⟨rfl, rfl, rfl, rfl, rfl, rfl, rfl, rfl, fun _ => rfl, rfl, rfl, rfl, hc _ rfl rfl⟩

theorem stepBegun_arrived (hp : s.cycle.phase = .adopt ∨ s.cycle.phase = .verify) :
    StepBegun s (stepBegun (markArrived s)) := stepBegun_of hp rfl rfl

theorem stepBegun_lost (hp : s.cycle.phase = .adopt ∨ s.cycle.phase = .verify) :
    StepBegun s (stepBegun (markLost .damaged s)) := stepBegun_of hp rfl rfl

theorem damagedMark_learning (hp : s.cycle.phase = .adopt ∨ s.cycle.phase = .verify) :
    damagedMark s = .on (countAttempt (stepBegun s)) := by
  rcases hp with hp | hp
  · rw [stepBegun_adopt hp]
    simp only [damagedMark, hp]
  · rw [stepBegun_verify hp]
    simp only [damagedMark, hp]

theorem execMarkReceived_damaged_learning (hr : s.Running) (hp : s.cycle.phase = .adopt ∨ s.cycle.phase = .verify)
    (ho : s.mode.actual ≠ .off) (hw : s.mode.actual ≠ .withdrawing) : exec (.markReceived .damaged) s =
      .next (countAttempt (stepBegun (markLost .damaged s))).markOver := by
  rw [execMarkReceived_damaged hr ho, damagedMark_learning (by exact hp), markEnd_uncounted hw]
  rfl

/-! ## The verify that fails (R27) -/

theorem verify_fails (hq : s.QueueClean)
    (h : ¬(followsCycle m s = true ∧ summaryAgrees m s = true) ∨ mapDistrusted s = true) :
    verify m s = adopt false m (countAttempt (toAdopt s)) := by
  have hc : (stampAgrees m s && followsCycle m s && summaryAgrees m s && !mapDistrusted s) = false := by
    by_contra hne
    simp only [Bool.not_eq_false, Bool.and_eq_true, Bool.not_eq_true'] at hne
    obtain ⟨⟨⟨-, hf⟩, ha⟩, hd⟩ := hne
    rcases h with h | h
    · exact h ⟨hf, ha⟩
    · rw [h] at hd
      cases hd
  rw [verify, readQueue_clean hq, Course.next_on, hc, if_neg (by decide)]

/-- A mark that fails the verify in RESYNC is a failed attempt, and step (a) is applied to it. -/
theorem intactMark_fails (hp : s.cycle.phase = .verify) (hq : s.QueueClean) (hm : s.mode.actual = .resync)
    (h : ¬(followsCycle m s = true ∧ summaryAgrees m s = true)) :
    intactMark m s = adopt false m (countAttempt (stepBegun s)) := by
  have hw : isWinnersMark s = false := by simp [isWinnersMark, hm]
  rw [stepBegun_verify hp, ← verify_fails hq (.inl h)]
  simp only [intactMark, hp, hw, Bool.false_eq_true, if_false]

/-- In LISTEN and JOINING no attempt is counted, and step (a) is applied to the mark, the winner's or one that has failed. -/
theorem intactMark_begins (hp : s.cycle.phase = .verify) (hq : s.QueueClean)
    (hm : s.mode.actual = .listen ∨ s.mode.actual = .joining)
    (h : ¬(followsCycle m s = true ∧ summaryAgrees m s = true) ∨ s.alloc.mapFoundWrong = true) :
    ∃ counts, intactMark m s = adopt counts m (stepBegun s) := by
  have hresync : (toAdopt s).mode.actual ≠ .resync := by rcases hm with hm | hm <;> simp [hm]
  have hd : s.alloc.mapFoundWrong = true → mapDistrusted s = true := fun hw => by
    rcases hm with hm | hm <;> simp [mapDistrusted, hw, hm]
  rw [stepBegun_verify hp]
  by_cases hw : isWinnersMark s = true
  · exact ⟨true, by simp only [intactMark, hp, hw, if_true]⟩
  · exact ⟨false, by
      simp only [intactMark, hp, if_neg hw, verify_fails hq (h.imp_right hd), countAttempt_uncounted hresync]⟩

/-- The marks that pass the checks of sequence and summary. -/
theorem passes_iff : followsCycle m s = true ∧ summaryAgrees m s = true ↔ m.cycle = s.cycle.cycleNumber + 1 ∧
    m.summary.map entryOfSummary = s.alloc.queue.map (·.val) ∧ lawful m = true := by
  simp only [followsCycle, summaryAgrees, decide_eq_true_eq, Bool.and_eq_true]
  constructor
  · rintro ⟨h1, h2, h3⟩; exact ⟨h1, h3, h2⟩
  · rintro ⟨h1, h2, h3⟩; exact ⟨h1, h3, h2⟩

/-! ## What a failed mark leaves -/

/-- What a failed mark, that counts `k` attempts, leaves as it was. -/
abbrev AttemptCounted (s : State) (k : Nat) (t : State) : Prop :=
  t.cycle.resyncAttempts = s.cycle.resyncAttempts + k ∧ t.mode = s.mode ∧ t.streams = s.streams ∧
  t.alloc.map = s.alloc.map ∧ t.notes = s.notes ∧ t.lanes = s.lanes ∧
  (s.cycle.phase = .verify → t.alloc.heldNotices = [])

/-- Nothing adopted: the phase is ADOPT. -/
abbrev NothingAdopted (s t : State) : Prop :=
  t.cycle.phase = .adopt ∧ t.cycle.cycleNumber = s.cycle.cycleNumber ∧ t.alloc.queue = s.alloc.queue ∧ t.alerts = s.alerts

/-- The mark's summary adopted (R25). -/
abbrev MarkAdopted (m : MarkContents) (t : State) : Prop :=
  t.cycle.phase = .rebuild ∧ t.cycle.cycleNumber = m.cycle ∧ t.cycle.marker = m.marker ∧
  t.alloc.queue = (m.summary.map fun e => .fresh (entryOfSummary e)) ∧ t.HasAlert .queueAdopted

/-- The station after the fourth failed attempt of its resync. -/
abbrev ResyncFailed (s t : State) : Prop :=
  t.mode = { actual := .listen, requested := .listen, target := .none, withdrawCount := 0, cause := .resyncFailed } ∧
  t.StreamsIdle ∧ t.HasAlert .mode ∧ (∀ n : Slot, entryAt t n = .free) ∧ t.ClosedFrom s .fault ∧
  (∀ l, (laneOfState s l).state = .closed → laneOfState t l = laneOfState s l) ∧
  (s.cycle.phase = .verify → t.alloc.heldNotices = [])

theorem StepBegun.uncounted (h : StepBegun s b) : AttemptCounted s 0 b.markOver ∧ NothingAdopted s b.markOver :=
  ⟨⟨h.attempts, h.mode, h.streams, h.map, h.notes, h.lanes, h.held⟩, h.phase, h.number, h.queue, h.alerts⟩

theorem StepBegun.counted (h : StepBegun s b) (hm : s.mode.actual = .resync) (hc : s.cycle.resyncAttempts < 3) :
    AttemptCounted s 1 (countAttempt b).markOver ∧ NothingAdopted s (countAttempt b).markOver := by
  rw [countAttempt_below (by rw [h.mode, hm]) (by rwa [h.attempts])]
  exact ⟨⟨congrArg (· + 1) h.attempts, h.mode, h.streams, h.map, h.notes, h.lanes, h.held⟩, h.phase, h.number, h.queue,
    h.alerts⟩

theorem StepBegun.fourth (h : StepBegun s b) (hm : s.mode.actual = .resync) (hc : s.cycle.resyncAttempts = 3) :
    ∃ u, countAttempt b = u ∧ ResyncFailed s u ∧ u.cycle.phase = .adopt ∧ u.alloc.queue = [] ∧ u.port = s.port := by
  have hf := countAttempt_fourth (s := b) (by rw [h.mode, hm]) (by rw [h.attempts, hc])
  have hlane : laneOfState ({ b with cycle := { b.cycle with resyncAttempts := 4 } } : State) = laneOfState s :=
    laneOfState_congr h.streams
  refine ⟨_, rfl, ⟨hf.mode, hf.idle, hf.alert, hf.empty.1, closedFrom_source hlane h.contends hf.lanes, fun l hl => ?_,
    fun _ => hf.held⟩, hf.phase, hf.empty.2, hf.port.trans h.port⟩
  rw [hf.closed l (by rwa [hlane]), hlane]

/-- Step (a) leaves what it does not adopt. -/
theorem adopt_counted {k : Nat} {counts : Bool}
    (hstamp : m.patience = b.port.config.patience ∧ m.reclaim = b.port.config.reclaim) (htick : m.cycle.toNat % 1024 ≠ 0)
    (ho : b.mode.actual ≠ .off) (hb : AttemptCounted s k b.markOver ∧ NothingAdopted s b.markOver)
    (hu : counts = false ∨ b.mode.actual ≠ .resync) :
    ∃ t, (adopt counts m b).state = t ∧ t.port = b.port ∧ AttemptCounted s k t.markOver ∧
      (lawful m = true → MarkAdopted m t.markOver) ∧ (lawful m = false → NothingAdopted s t.markOver) := by
  cases hlaw : lawful m with
  | true =>
    rw [adopt_lawful hstamp hlaw htick ho]
    exact ⟨_, rfl, rfl, hb.1, fun _ => ⟨rfl, rfl, rfl, rfl, AlertUnit.isSet_raise_self ..⟩, nofun⟩
  | false =>
    have hun : (if counts then countAttempt b else b) = b := by
      rcases hu with rfl | hu
      · rfl
      · rw [countAttempt_uncounted hu, ite_self]
    rw [adopt_unlawful hstamp hlaw, hun]
    exact ⟨b, rfl, rfl, hb.1, nofun, fun _ => hb.2⟩

/-- Step (a) goes on in LISTEN with the mark that has ended the resync (log 13). -/
theorem adopt_failed (hstamp : m.patience = b.port.config.patience ∧ m.reclaim = b.port.config.reclaim)
    (htick : m.cycle.toNat % 1024 ≠ 0) (hb : ResyncFailed s b) (hp : b.cycle.phase = .adopt) (hq : b.alloc.queue = []) :
    ∃ t, (adopt false m b).state = t ∧ t.port = b.port ∧ ResyncFailed s t.markOver ∧
      (lawful m = true → MarkAdopted m t.markOver) ∧
      (lawful m = false → t.markOver.cycle.phase = .adopt ∧ t.markOver.alloc.queue = []) := by
  cases hlaw : lawful m with
  | true =>
    obtain ⟨hmode, hidle, halert, hmap, hlanes, hclosed, hheld⟩ := hb
    rw [adopt_lawful hstamp hlaw htick (by simp [hmode])]
    exact ⟨_, rfl, rfl, ⟨hmode, hidle, (raise_alertsStay .queueAdopted b).stays _ halert, hmap, hlanes, hclosed, hheld⟩,
      fun _ => ⟨rfl, rfl, rfl, rfl, AlertUnit.isSet_raise_self ..⟩, nofun⟩
  | false =>
    rw [adopt_unlawful hstamp hlaw]
    exact ⟨b, rfl, rfl, hb, nofun, fun _ => ⟨hp, hq⟩⟩

end

/-- Settles O17. -/
theorem failedMarksWhileLearning : Obligations.FailedMarksWhileLearning := by
  intro s hr hp hq resyncFailed counted stays
  have hlost := stepBegun_lost hp
  have hact {a : Mode} (hm : s.mode.actual = a) (ho : a ≠ .off) (hw : a ≠ .withdrawing) :
      s.mode.actual ≠ .off ∧ s.mode.actual ≠ .withdrawing := ⟨hm ▸ ho, hm ▸ hw⟩
  have hout (hm : s.mode.actual = .listen ∨ s.mode.actual = .joining) :
      s.mode.actual ≠ .off ∧ s.mode.actual ≠ .withdrawing ∧ s.mode.actual ≠ .resync := by
    rcases hm with hm | hm <;> simp [hm]
  refine ⟨fun hm hc => ?_, fun hm hc => ?_, fun hm => ?_, ?_⟩
  · obtain ⟨ho, hw⟩ := hact hm (by decide) (by decide)
    exact ⟨_, execMarkReceived_damaged_learning hr hp ho hw, hlost.counted hm hc⟩
  · obtain ⟨ho, hw⟩ := hact hm (by decide) (by decide)
    obtain ⟨u, hu, hf, hphase, hqueue, -⟩ := hlost.fourth hm hc
    exact ⟨_, execMarkReceived_damaged_learning hr hp ho hw, by rw [hu]; exact ⟨hf, hphase, hqueue⟩⟩
  · obtain ⟨ho, hw, hresync⟩ := hout hm
    refine ⟨_, execMarkReceived_damaged_learning hr hp ho hw, ?_⟩
    rw [countAttempt_uncounted (by rwa [hlost.mode])]
    exact hlost.uncounted
  · intro m hpat hrec hlen htick harm fails adopts
    have hb := stepBegun_arrived hp
    have hstamp {u : State} (hu : u.port = s.port) :
        m.patience = u.port.config.patience ∧ m.reclaim = u.port.config.reclaim := by rw [hu]; exact ⟨hpat, hrec⟩
    have hunarmed {u v : State} (hu : u.port = v.port) (hv : v.port = s.port) : u.port.snap.armed = false := by
      rw [hu, hv, harm]
    have hfail (hf : fails) : ¬(followsCycle m (markArrived s) = true ∧ summaryAgrees m (markArrived s) = true) := by
      rw [passes_iff]
      exact hf.2
    refine ⟨fun hf hm hc => ?_, fun hf hm hc => ?_, fun hf hm => ?_, fun hadopt hlaw hm hc => ?_⟩
    · obtain ⟨ho, hw⟩ := hact hm (by decide) (by decide)
      have hcount := hb.counted hm hc
      have hport : (countAttempt (stepBegun (markArrived s))).port = s.port := by
        rw [countAttempt_below (by rw [hb.mode, hm]) (by rwa [hb.attempts])]
        exact hb.port
      obtain ⟨t, ht, htp, hres⟩ := adopt_counted (counts := false) (hstamp hport) htick
        (by rw [show _ = s.mode from hcount.1.2.1]; exact ho) hcount (.inl rfl)
      refine ⟨_, execMarkReceived_uncounted hr ho hlen hw ?_ (hunarmed htp hport), hres⟩
      rw [intactMark_fails (by exact hf.1) (by exact hq) (by exact hm) (hfail hf), ht]
    · obtain ⟨ho, hw⟩ := hact hm (by decide) (by decide)
      obtain ⟨u, hu, hfailed, hphase, hqueue, hport⟩ := hb.fourth hm hc
      obtain ⟨t, ht, htp, hres⟩ := adopt_failed (hstamp hport) htick hfailed hphase hqueue
      refine ⟨_, execMarkReceived_uncounted hr ho hlen hw ?_ (hunarmed htp hport), hres⟩
      rw [intactMark_fails (by exact hf.1) (by exact hq) (by exact hm) (hfail hf), hu, ht]
    · obtain ⟨ho, hw, hresync⟩ := hout hm
      have hverify : s.cycle.phase = .verify := by
        rcases hf with hf | hf
        · exact hf.1
        · exact hf.1
      obtain ⟨counts, hmark⟩ := intactMark_begins (s := markArrived s) (m := m) hverify hq hm
        (hf.imp hfail And.right)
      obtain ⟨t, ht, htp, hres⟩ := adopt_counted (counts := counts) (hstamp hb.port) htick (by rwa [hb.mode])
        hb.uncounted (.inr (by rwa [hb.mode]))
      exact ⟨_, execMarkReceived_uncounted hr ho hlen hw (by rw [hmark, ht]) (hunarmed htp hb.port), hres⟩
    · obtain ⟨ho, hw⟩ := hact hm (by decide) (by decide)
      have hport : (countAttempt (stepBegun (markArrived s))).port = s.port := by
        rw [countAttempt_below (by rw [hb.mode, hm]) (by rwa [hb.attempts])]
        exact hb.port
      have hmark : intactMark m (markArrived s) = .on (countAttempt (stepBegun (markArrived s))) := by
        rw [intactMark_adopt (by exact hadopt), adopt_unlawful (hstamp hb.port) hlaw, if_pos rfl]
      exact ⟨_, execMarkReceived_uncounted hr ho hlen hw (congrArg Course.state hmark) (hunarmed hport rfl),
        hb.counted hm hc⟩

end Sys2Proof.Machine
end

section
/-! A verify that passes (R27, R87, R91, R93, R111, R116, R117): the position report, what reconciliation makes of each lane, and
the mark at which a station becomes MEMBER. -/

namespace Sys2Proof.Machine

/-! ## The position report (R93, R111) -/

/-- A lane's record after the report of a position. -/
def Lane.atPosition (p : Nat) (r : Lane) : Lane :=
  if r.state = .waiting ∨ r.state = .cancelling ∧ r.slots = [] then { r with position := some p } else r

theorem recordPosition_putLane (l : LaneNo) (p : Nat) (s : State) :
    recordPosition l p s = s ∧ (laneOfState s l).atPosition p = laneOfState s l ∨
    recordPosition l p s = putLane l ((laneOfState s l).atPosition p) s := by
  unfold recordPosition Lane.atPosition
  simp only [Bool.or_eq_true, Bool.and_eq_true, decide_eq_true_eq, List.isEmpty_iff]
  split
  · exact .inr rfl
  · exact .inl ⟨rfl, rfl⟩

theorem laneOfState_recordPosition (l k : LaneNo) (p : Nat) (s : State) : laneOfState (recordPosition l p s) k =
    if k = l then (laneOfState s l).atPosition p else laneOfState s k := by
  rcases recordPosition_putLane l p s with ⟨h, hr⟩ | h
  · rw [h]
    split
    · rename_i hk
      rw [hk, hr]
    · rfl
  · rw [h, laneOfState_putLane]

theorem putLane_clean {l : LaneNo} {r : Lane} {s : State} (h : s.StreamsClean) : (putLane l r s).StreamsClean := by
  refine ⟨fun k => ?_, h.2⟩
  simp only [putLane, Table.get_set]
  split
  · rfl
  · exact h.1 k

theorem recordPosition_clean {l : LaneNo} {p : Nat} {s : State} (h : s.StreamsClean) : (recordPosition l p s).StreamsClean := by
  rcases recordPosition_putLane l p s with ⟨he, -⟩ | he
  · rw [he]; exact h
  · rw [he]; exact putLane_clean h

/-- Nothing but lane records differs. -/
abbrev LanesWritten (s t : State) : Prop := t = { s with streams.lanes := t.streams.lanes }

theorem recordPosition_rest (l : LaneNo) (p : Nat) (s : State) : LanesWritten s (recordPosition l p s) := by
  rcases recordPosition_putLane l p s with ⟨he, -⟩ | he
  · rw [he]
  · rw [he]; rfl

/-- The positions recorded for a list of entries that stands at position `p`, each identity at most once. -/
theorem recordPositions_clean (es : List QueueEntry)
    (hd : es.Pairwise fun d e => ¬(d.station = e.station ∧ d.lane = e.lane)) :
    ∀ (p : Nat) (s : State), s.StreamsClean → ∃ t, recordPositions p es s = .on t ∧ LanesWritten s t ∧ t.StreamsClean ∧
      (∀ l, (∀ e ∈ es, ¬(e.station = own s ∧ e.lane = l)) → laneOfState t l = laneOfState s l) ∧
      ∀ i e, es[i]? = some e → e.station = own s →
        laneOfState t e.lane = (laneOfState s e.lane).atPosition (p + i) := by
  induction es with
  | nil => exact fun p s hc => ⟨s, rfl, rfl, hc, fun _ _ => rfl, fun i e h => by simp at h⟩
  | cons e es ih =>
    intro p s hc
    obtain ⟨hhead, htail⟩ := List.pairwise_cons.mp hd
    by_cases ho : e.station = own s
    · obtain ⟨t, ht, hrest, hclean, habsent, hpresent⟩ := ih htail (p + 1) _ (recordPosition_clean (l := e.lane) (p := p) hc)
      have hown : own (recordPosition e.lane p s) = own s := by simp [own]
      rw [hown] at habsent hpresent
      have hlater (d : QueueEntry) (hm : d ∈ es) (hs : d.station = own s) : d.lane ≠ e.lane := fun hl =>
        hhead d hm ⟨ho.trans hs.symm, hl.symm⟩
      refine ⟨t, ?_, hrest.trans (by conv_lhs => rw [recordPosition_rest e.lane p s]), hclean, fun l hl => ?_,
        fun i d hi hs => ?_⟩
      · rw [recordPositions, if_pos ho, readStreams_clean _ _ hc, Course.next_on, ht]
      · have hne : l ≠ e.lane := fun h => hl e (List.mem_cons_self ..) ⟨ho, h.symm⟩
        rw [habsent l fun d hm => hl d (List.mem_cons_of_mem _ hm), laneOfState_recordPosition, if_neg hne]
      · cases i with
        | zero =>
          cases hi
          rw [habsent e.lane fun d hm => fun ⟨hs, hl⟩ => hlater d hm hs hl, laneOfState_recordPosition, if_pos rfl]
          rfl
        | succ i =>
          have hi' : es[i]? = some d := hi
          rw [hpresent i d hi' hs, laneOfState_recordPosition, if_neg (hlater d (List.mem_of_getElem? hi') hs)]
          congr 1
          omega
    · obtain ⟨t, ht, hrest, hclean, habsent, hpresent⟩ := ih htail (p + 1) s hc
      refine ⟨t, by rw [recordPositions, if_neg ho, ht], hrest, hclean,
        fun l hl => habsent l fun d hm => hl d (List.mem_cons_of_mem _ hm), fun i d hi hs => ?_⟩
      cases i with
      | zero => cases hi; exact absurd hs ho
      | succ i =>
        rw [hpresent i d hi hs]
        congr 1
        omega

/-- What a position report leaves: each own entry's position is at its lane, and nothing else has changed. -/
structure PositionsNoted (s t : State) : Prop where
  rest : LanesWritten s t
  clean : t.StreamsClean
  absent : ∀ l, (∀ w ∈ s.alloc.queue, ¬(w.val.station = own s ∧ w.val.lane = l)) → laneOfState t l = laneOfState s l
  present : ∀ i w, s.alloc.queue[i]? = some w → w.val.station = own s →
    laneOfState t w.val.lane = (laneOfState s w.val.lane).atPosition (i + 1)

/-- No identity stands twice in the Claim Queue (R80). -/
abbrev State.QueueDistinct (s : State) : Prop :=
  s.alloc.queue.Pairwise fun v w => ¬(v.val.station = w.val.station ∧ v.val.lane = w.val.lane)

theorem queueDistinct_of_tablesAgree {s : State} (h : s.TablesAgree) : s.QueueDistinct := h.1.imp And.right

theorem positionReport_noted {s : State} (hq : s.QueueClean) (hs : s.StreamsClean) (hd : s.QueueDistinct) :
    ∃ t, positionReport s = .on t ∧ PositionsNoted s t := by
  obtain ⟨t, ht, hrest, hclean, habsent, hpresent⟩ :=
    recordPositions_clean (s.alloc.queue.map (·.val)) (List.pairwise_map.mpr hd) 1 s hs
  refine ⟨t, by rw [positionReport, readQueue_clean hq, Course.next_on, ht], hrest, hclean, fun l hl => ?_,
    fun i w hi ho => ?_⟩
  · refine habsent l fun e he => ?_
    obtain ⟨w, hw, rfl⟩ := List.mem_map.mp he
    exact hl w hw
  · rw [hpresent i w.val (by simp [hi]) ho, Nat.add_comm]

/-- A report changes the positions at most. -/
theorem PositionsNoted.lane {s t : State} (h : PositionsNoted s t) (l : LaneNo) :
    ∃ p, laneOfState t l = { laneOfState s l with position := p } := by
  by_cases hl : ∀ w ∈ s.alloc.queue, ¬(w.val.station = own s ∧ w.val.lane = l)
  · exact ⟨_, h.absent l hl⟩
  · push Not at hl
    obtain ⟨w, hw, ho, rfl⟩ := hl
    obtain ⟨i, hi⟩ := List.mem_iff_getElem?.mp hw
    rw [h.present i w hi ho]
    unfold Lane.atPosition
    split
    · exact ⟨_, rfl⟩
    · exact ⟨_, rfl⟩

/-- With no entry of this station in the queue there is nothing to report. -/
theorem positionReport_foreign {s : State} (hq : s.QueueClean) (h : ∀ w ∈ s.alloc.queue, w.val.station ≠ own s) :
    positionReport s = .on s := by
  have hrec (es : List QueueEntry) (he : ∀ e ∈ es, e.station ≠ own s) : ∀ p, recordPositions p es s = .on s := by
    induction es with
    | nil => exact fun _ => rfl
    | cons e es ih =>
      intro p
      rw [recordPositions, if_neg (he e (List.mem_cons_self ..)), ih fun d hd => he d (List.mem_cons_of_mem _ hd)]
  rw [positionReport, readQueue_clean hq, Course.next_on, hrec _ fun e he => ?_]
  obtain ⟨w, hw, rfl⟩ := List.mem_map.mp he
  exact h w hw

/-! ## What the tables hold of a lane (R116) -/

theorem find_congr {s t : State} (hm : t.alloc.map = s.alloc.map) (hq : t.alloc.queue = s.alloc.queue)
    (hp : t.pins = s.pins) (l : LaneNo) : find l t = find l s := by
  simp only [find, heldEntries, streamSlots, entryAt, queuedAt, own, hm, hq, hp]
  rfl

/-- No HELD entry of the lane's stream is in the map. -/
abbrev State.NoStream (s : State) (l : LaneNo) : Prop := ∀ h ∈ heldEntries s, ¬(h.holder = own s ∧ h.lane = l)

theorem find_none_held {s : State} {l : LaneNo} (h : s.NoStream l) :
    (heldEntries s).find? (fun h => h.holder = own s && h.lane = l) = none := by
  rw [List.find?_eq_none]
  intro e he
  simpa using h e he

theorem find_absent {s : State} {l : LaneNo} (hm : s.NoStream l)
    (hq : ∀ w ∈ s.alloc.queue, ¬(w.val.station = own s ∧ w.val.lane = l)) : find l s = .nothing := by
  have hidx : queuedAt (own s) l s = none := by
    rw [queuedAt, List.findIdx?_eq_none_iff]
    intro w hw
    simpa using hq w hw
  simp only [find, find_none_held hm, hidx]

theorem find_stream {s : State} {l : LaneNo} {h : HeldEntry} (hh : h ∈ heldEntries s) (ho : h.holder = own s)
    (hl : h.lane = l) (hag : ∀ g ∈ heldEntries s, g.holder = own s → g.lane = l →
      g.label = h.label ∧ g.count = h.count ∧ g.cls = h.cls ∧ g.ret = h.ret) :
    find l s = .stream (streamSlots (own s) l s) h.label h.count h.cls h.ret := by
  cases hf : (heldEntries s).find? (fun h => h.holder = own s && h.lane = l) with
  | none => exact absurd (List.find?_eq_none.mp hf h hh) (by simp [ho, hl])
  | some g =>
    have hg : g.holder = own s ∧ g.lane = l := by simpa using List.find?_some hf
    obtain ⟨h1, h2, h3, h4⟩ := hag g (List.mem_of_find?_eq_some hf) hg.1 hg.2
    simp only [find, hf, h1, h2, h3, h4]

theorem find_entry {s : State} {i : Nat} {w : Stored QueueEntry} (hd : s.QueueDistinct) (hi : s.alloc.queue[i]? = some w)
    (ho : w.val.station = own s) (hm : s.NoStream w.val.lane) :
    find w.val.lane s = .entry (i + 1) w.val.label w.val.count w.val.cls w.val.ret := by
  have hidx : queuedAt (own s) w.val.lane s = some i := by
    obtain ⟨hlt, hget⟩ := List.getElem?_eq_some_iff.mp hi
    rw [queuedAt, List.findIdx?_eq_some_iff_getElem]
    refine ⟨hlt, by simp [hget, ho], fun j hj => ?_⟩
    have := List.pairwise_iff_getElem.mp hd j i (by omega) hlt hj
    rw [hget, ho] at this
    simpa using this
  simp only [find, find_none_held hm, hidx, hi]

/-! ## A mark that passes the verify (R27) -/

section
variable {s u : State} {m : MarkContents}

theorem alive_on (ho : s.mode.actual ≠ .off) : (Course.on s).alive = .on s := if_neg ho

theorem intactMark_passes (hp : s.cycle.phase = .verify) (hw : isWinnersMark s = false) (hq : s.QueueClean)
    (hstamp : m.patience = s.port.config.patience ∧ m.reclaim = s.port.config.reclaim)
    (hc : m.cycle = s.cycle.cycleNumber + 1) (ha : summaryAgrees m s = true) (hd : mapDistrusted s = false) :
    intactMark m s = verifyPass m s := by
  have hpass : (stampAgrees m s && followsCycle m s && summaryAgrees m s && !mapDistrusted s) = true := by
    simp [stampAgrees_iff.mpr hstamp, followsCycle, hc, ha, hd]
  simp only [intactMark, hp, hw, Bool.false_eq_true, if_false, verify, readQueue_clean hq, Course.next_on, hpass, if_true]

theorem releaseHeld_none (h : s.alloc.heldNotices = []) : releaseHeld s = .on s := by
  have hs : ({ s with alloc.heldNotices := [] } : State) = s := by rw [← h]
  simp [releaseHeld, readHeld, h, scan, deliverAll, hs]

/-- A verify pass after the held notices, at a mark at which no tick falls. -/
theorem verifyPass_released (hrel : releaseHeld (takeMark m s) = .on u) (ho : u.mode.actual ≠ .off)
    (htick : u.cycle.cycleNumber.toNat % 1024 ≠ 0) :
    verifyPass m s = reconcileVerified (positionReport (becomeLearned u)).state := by
  rw [verifyPass, hrel, alive_on ho, Course.next_on, markTick_missed htick, alive_on ho, Course.finally_on, Course.next_on]

/-- The entry of a JOINING or RESYNC station into MEMBER. -/
theorem becomeLearned_joins (hm : s.mode.actual = .joining ∨ s.mode.actual = .resync) : becomeLearned s = { s with
    mode := { s.mode with actual := .member }
    cycle := { s.cycle with phase := .learned, foundingPending := false, winnerMarkDue := false }
    alerts := s.alerts.raise .mode } := by
  have hne : s.mode.actual ≠ .member := by rcases hm with hm | hm <;> simp [hm]
  rw [becomeLearned, if_pos hm, changeMode_cuts_nothing (by decide), announced, if_neg (by exact hne)]
  rfl

theorem becomeLearned_stays (hm : ¬(s.mode.actual = .joining ∨ s.mode.actual = .resync)) :
    becomeLearned s = { s with cycle := { s.cycle with phase := .learned } } := if_neg hm

theorem noStream_of_ownsNothing (h : s.OwnsNothing) (l : LaneNo) : s.NoStream l := by
  intro e he ⟨ho, hl⟩
  obtain ⟨n, -, hn⟩ := List.mem_filterMap.mp he
  have hf := h.1 n l
  cases hx : entryAt s n with
  | free => rw [hx] at hn; cases hn
  | held g =>
    rw [hx] at hn hf
    cases hn
    simp [SlotEntry.ofStream, ho, hl] at hf

/-- A station with no stream and nothing of its own in the tables has nothing to reconcile. -/
theorem reconcile_ownsNothing (hm : s.MapClean) (hq : s.QueueClean) (hs : s.StreamsClean) (hi : s.StreamsIdle)
    (ho : s.OwnsNothing) (hw : s.mode.actual ≠ .withdrawing) : reconcile s = .on s := by
  have hlanes (ls : List LaneNo) : reconcileLanes ls s = .on s := by
    induction ls with
    | nil => rfl
    | cons l ls ih =>
      have hl : (laneOfState s l).state = .closed := hi.1 l
      have hf : find l s = .nothing := find_absent (noStream_of_ownsNothing ho l) fun w hw ⟨h, _⟩ => ho.2 w hw h
      simp only [reconcileLanes, readMap_clean hm, readQueue_clean hq, readStreams_clean _ _ hs, Course.next_on, hf,
        reconcileWith, hl, ih]
  rw [reconcile, hlanes, Course.finally_on, exitCheck_idle hw]

end

/-- Settles O15. -/
theorem verifyPassMakesLearned : Obligations.VerifyPassMakesLearned := by
  intro s m hr hp hm hwrong hmap hq hs hi ho hheld hpat hrec hcyc hsum hlen htick harm
  have hact : s.mode.actual ≠ .off ∧ s.mode.actual ≠ .withdrawing := by rcases hm with hm | ⟨hm, -⟩ <;> simp [hm]
  have hw : isWinnersMark (markArrived s) = false := by
    rcases hm with hm | ⟨hm, hdue⟩
    · simp [isWinnersMark, hm]
    · simp [isWinnersMark, hdue]
  have hpass : intactMark m (markArrived s) = verifyPass m (markArrived s) :=
    intactMark_passes hp hw hq ⟨hpat, hrec⟩ hcyc hsum (by simp [mapDistrusted, hwrong])
  have hrel : releaseHeld (takeMark m (markArrived s)) = .on (takeMark m (markArrived s)) := releaseHeld_none hheld
  rw [verifyPass_released hrel hact.1 htick] at hpass
  rcases hm with hm | ⟨hm, -⟩
  · rw [becomeLearned_stays (by simp [takeMark, hm]), positionReport_foreign (by exact hq) (by exact ho.2),
      Course.state_on, reconcileVerified,
      if_neg (by simp [takeMark, hm])] at hpass
    rw [execMarkReceived_uncounted hr hact.1 hlen hact.2 (congrArg Course.state hpass) harm]
    have hmode : ({ s.mode with actual := .listen } : ModeController) = s.mode := by rw [← hm]
    simp only [hm, reduceCtorEq, if_false, hmode, decide_true, Bool.and_true]
    rfl
  · rw [becomeLearned_joins (.inl (by exact hm)), positionReport_foreign (by exact hq) (by exact ho.2),
      Course.state_on, reconcileVerified, if_pos (.inl rfl),
      reconcile_ownsNothing (by exact hmap) (by exact hq) (by exact hs) (by exact hi) (by exact ho) (by simp)] at hpass
    rw [execMarkReceived_uncounted hr hact.1 hlen hact.2 (congrArg Course.state hpass) harm]
    simp only [hm, reduceCtorEq, if_true, decide_false, Bool.and_false]
    rfl

end Sys2Proof.Machine
end

section
/-! Reconciliation lane by lane (R91, R97, R98, R116, R117, Table 6-4): what it makes of one lane's record and outbox entry, and
that one lane's reconciliation leaves the others alone. -/

namespace Sys2Proof.Machine

/-! ## One lane and its outbox entry -/

/-- The outbox entries for a lane. -/
abbrev laneBox (l : LaneNo) (s : State) : List OutboxEntry := (s.streams.outbox.map (·.val)).filter fun e => e.lane? = some l

section
variable {s t u : State} {k l : LaneNo}

theorem laneOfState_updateLane (l k : LaneNo) (f : Lane → Lane) (s : State) :
    laneOfState (updateLane l f s) k = if k = l then f (laneOfState s l) else laneOfState s k := laneOfState_putLane ..

theorem laneOfState_changeLane (l k : LaneNo) (f : Lane → Lane) (s : State) : laneOfState (changeLane l f s) k =
    if k = l then { f (laneOfState s l) with changed := true } else laneOfState s k :=
  laneOfState_putLane l k { f (laneOfState s l) with changed := true } s

theorem laneOfState_appendEntry (e : OutboxEntry) (s : State) (k : LaneNo) :
    laneOfState (appendEntry e s) k = laneOfState s k := rfl

theorem laneOfState_removeEntry (l : LaneNo) (s : State) (k : LaneNo) :
    laneOfState (removeEntry l s) k = laneOfState s k := rfl

theorem laneOfState_appendIfNone (e : OutboxEntry) (l : LaneNo) (s : State) (k : LaneNo) :
    laneOfState (appendIfNone e l s) k = laneOfState s k := by
  unfold appendIfNone
  split <;> rfl

theorem laneOfState_settleLane (l k : LaneNo) (f : Lane → Lane) (s : State) : laneOfState (settleLane l f s) k =
    if k = l ∧ f (laneOfState s l) ≠ laneOfState s l then { f (laneOfState s l) with changed := true }
    else laneOfState s k := by
  unfold settleLane
  by_cases hf : f (laneOfState s l) = laneOfState s l
  · simp [hf]
  · rw [if_neg hf, laneOfState_changeLane]
    simp [hf]

theorem laneBox_congr (h : t.streams.outbox = s.streams.outbox) (k : LaneNo) : laneBox k t = laneBox k s := by
  unfold laneBox
  rw [h]

/-- A filter of the outbox that keeps every entry for a lane. -/
theorem laneBox_kept {q : Stored OutboxEntry → Bool} {ws : List (Stored OutboxEntry)}
    (h : ∀ w ∈ ws, w.val.lane? = some k → q w = true) :
    ((ws.filter q).map (·.val)).filter (fun e => e.lane? = some k) = (ws.map (·.val)).filter fun e => e.lane? = some k := by
  rw [List.filter_map, List.filter_map, List.filter_filter]
  refine congrArg _ (List.filter_congr fun w hw => ?_)
  by_cases hk : w.val.lane? = some k
  · simp [hk, h w hw hk]
  · simp [hk]

/-- A filter of the outbox that drops every entry for a lane. -/
theorem laneBox_dropped {q : Stored OutboxEntry → Bool} {ws : List (Stored OutboxEntry)}
    (h : ∀ w ∈ ws, w.val.lane? = some k → q w = false) :
    ((ws.filter q).map (·.val)).filter (fun e => e.lane? = some k) = [] := by
  rw [List.filter_eq_nil_iff]
  intro e he hk
  obtain ⟨w, hw, rfl⟩ := List.mem_map.mp he
  obtain ⟨hmem, hq⟩ := List.mem_filter.mp hw
  rw [h w hmem (of_decide_eq_true hk)] at hq
  cases hq

theorem laneBox_appendEntry (e : OutboxEntry) (s : State) (k : LaneNo) :
    laneBox k (appendEntry e s) = if e.lane? = some k then [e] else laneBox k s := by
  simp only [laneBox, appendEntry, List.map_append, List.filter_append]
  by_cases h : e.lane? = some k
  · rw [laneBox_dropped fun w _ hw => by simp [hw, h]]
    simp [h, Stored.fresh]
  · rw [laneBox_kept fun w _ hw => by simpa [hw] using Ne.symm h]
    simp [h, Stored.fresh]

theorem laneBox_removeEntry (l : LaneNo) (s : State) (k : LaneNo) :
    laneBox k (removeEntry l s) = if k = l then [] else laneBox k s := by
  simp only [laneBox, removeEntry]
  by_cases h : k = l
  · rw [if_pos h, laneBox_dropped fun w _ hw => by simp [hw, h]]
  · rw [if_neg h, laneBox_kept fun w _ hw => by simp [hw, h]]

theorem laneHasEntry_iff (l : LaneNo) (s : State) : laneHasEntry l s = true ↔ laneBox l s ≠ [] := by
  simp only [laneHasEntry, laneBox, ne_eq, List.filter_eq_nil_iff, List.any_eq_true, decide_eq_true_eq, List.mem_map,
    not_forall, Decidable.not_not]
  constructor
  · rintro ⟨w, hw, h⟩
    exact ⟨w.val, ⟨w, hw, rfl⟩, h⟩
  · rintro ⟨-, ⟨w, hw, rfl⟩, h⟩
    exact ⟨w, hw, h⟩

theorem laneBox_appendIfNone {e : OutboxEntry} (he : e.lane? = some l) (s : State) (k : LaneNo) :
    laneBox k (appendIfNone e l s) = if k = l ∧ laneBox l s = [] then [e] else laneBox k s := by
  unfold appendIfNone
  by_cases h : laneBox l s = []
  · have hn : ¬laneHasEntry l s = true := by rw [laneHasEntry_iff]; simpa using h
    rw [if_neg hn, laneBox_appendEntry, he]
    simp [h, eq_comm]
  · rw [if_pos ((laneHasEntry_iff l s).mpr h)]
    simp [h]

theorem laneBox_settleLane (l : LaneNo) (f : Lane → Lane) (s : State) (k : LaneNo) :
    laneBox k (settleLane l f s) = laneBox k s := by
  unfold settleLane
  split <;> rfl

theorem claimWaits_iff (l : LaneNo) (s : State) :
    (s.streams.outbox.any fun w => w.val = .claim l) = true ↔ OutboxEntry.claim l ∈ laneBox l s := by
  simp [laneBox, OutboxEntry.lane?]

theorem claimCondition_sent (hl : s.line.onLine = none) (hb : laneBox l s = []) : claimCondition l s = .sent := by
  have hn : ¬(s.streams.outbox.any fun w => w.val = .claim l) = true := by rw [claimWaits_iff, hb]; simp
  have hw : claimInWindow l s = false := by simp [claimInWindow, hl]
  rw [claimCondition, hw, if_neg (by decide), if_neg hn]

theorem claimCondition_held (hl : s.line.onLine = none) (hb : .claim l ∈ laneBox l s) : claimCondition l s = .held := by
  have hw : claimInWindow l s = false := by simp [claimInWindow, hl]
  rw [claimCondition, hw, if_neg (by decide), if_pos ((claimWaits_iff l s).mpr hb)]

/-! ## States that agree in a lane -/

/-- Two states that agree in all that reconciliation of a lane rests on beside the tables: its record, its outbox entries, the
line and the cycle. -/
structure LaneAgrees (l : LaneNo) (s t : State) : Prop where
  lane : laneOfState t l = laneOfState s l
  box : laneBox l t = laneBox l s
  line : t.line = s.line
  cycle : t.cycle = s.cycle

theorem LaneAgrees.refl (l : LaneNo) (s : State) : LaneAgrees l s s := ⟨rfl, rfl, rfl, rfl⟩

theorem LaneAgrees.trans (h : LaneAgrees l s t) (g : LaneAgrees l t u) : LaneAgrees l s u :=
  ⟨g.lane.trans h.lane, g.box.trans h.box, g.line.trans h.line, g.cycle.trans h.cycle⟩

theorem LaneAgrees.claimCondition (h : LaneAgrees l s t) : claimCondition l t = claimCondition l s := by
  have hw : claimInWindow l t = claimInWindow l s := by simp only [claimInWindow, h.line]
  have hb : (t.streams.outbox.any fun w => w.val = .claim l) = s.streams.outbox.any fun w => w.val = .claim l := by
    rw [Bool.eq_iff_iff, claimWaits_iff, claimWaits_iff, h.box]
  simp only [Machine.claimCondition, hw, hb]

theorem LaneAgrees.changeLane (h : LaneAgrees l s t) (f : Lane → Lane) :
    LaneAgrees l (changeLane l f s) (changeLane l f t) where
  lane := by simp only [laneOfState_changeLane, if_true, h.lane]
  box := h.box
  line := h.line
  cycle := h.cycle

theorem LaneAgrees.closeLane (h : LaneAgrees l s t) (o : StreamOutcome) :
    LaneAgrees l (closeLane l o s) (closeLane l o t) where
  lane := by simp only [laneOfState_closeLane, if_true, h.lane]
  box := h.box
  line := h.line
  cycle := h.cycle

theorem LaneAgrees.settleLane (h : LaneAgrees l s t) (f : Lane → Lane) :
    LaneAgrees l (settleLane l f s) (settleLane l f t) where
  lane := by simp only [laneOfState_settleLane, h.lane]
  box := by simp only [laneBox_settleLane, h.box]
  line := by simp only [settleLane_frame, h.line]
  cycle := by simp only [settleLane_frame, h.cycle]

theorem LaneAgrees.appendEntry (h : LaneAgrees l s t) (e : OutboxEntry) :
    LaneAgrees l (appendEntry e s) (appendEntry e t) where
  lane := h.lane
  box := by simp only [laneBox_appendEntry, h.box]
  line := h.line
  cycle := h.cycle

theorem LaneAgrees.removeEntry (h : LaneAgrees l s t) (k : LaneNo) :
    LaneAgrees l (removeEntry k s) (removeEntry k t) where
  lane := h.lane
  box := by simp only [laneBox_removeEntry, h.box]
  line := h.line
  cycle := h.cycle

theorem LaneAgrees.appendIfNone (h : LaneAgrees l s t) {e : OutboxEntry} (he : e.lane? = some l) :
    LaneAgrees l (appendIfNone e l s) (appendIfNone e l t) where
  lane := by simp only [laneOfState_appendIfNone, h.lane]
  box := by simp only [laneBox_appendIfNone he, h.box]
  line := by simp only [appendIfNone_frame, h.line]
  cycle := by simp only [appendIfNone_frame, h.cycle]

/-- Reconciliation of a lane makes the same of it in states that agree in it. -/
theorem LaneAgrees.reconcileWith (h : LaneAgrees l s t) (f : Found) :
    LaneAgrees l (reconcileWith l f s) (reconcileWith l f t) := by
  unfold Machine.reconcileWith
  simp only [h.lane, h.claimCondition, reconcileHeld, reconcileWaiting, h.cycle]
  split
  · exact h
  · exact h.appendIfNone rfl
  · exact h.appendIfNone rfl
  · split
    · exact h.closeLane _
    · exact h
  · split
    · exact h.changeLane _
    · exact ((h.removeEntry l).appendEntry _).closeLane _
  · split
    · exact h.changeLane _
    · exact ((h.removeEntry l).appendEntry _).closeLane _
  · exact h.closeLane _
  · exact h.changeLane _
  · exact h
  · exact h.closeLane _
  · exact h.settleLane _
  · exact h.changeLane _
  · exact (h.removeEntry l).closeLane _
  · exact h.appendIfNone rfl
  · exact ((h.removeEntry l).appendEntry _).changeLane _
  · exact (h.removeEntry l).closeLane _
  · exact (h.settleLane _).appendIfNone rfl
  · exact (h.settleLane _).appendIfNone rfl

/-! ## Lanes apart, and what stays clean -/

/-- The other lanes are left alone, clean words stay clean, and the alerts that were set stay set. -/
structure OneLane (l : LaneNo) (s t : State) : Prop where
  other : ∀ k, k ≠ l → LaneAgrees k s t
  clean : s.StreamsClean → t.StreamsClean
  stay : AlertsStay s t

theorem OneLane.refl (l : LaneNo) (s : State) : OneLane l s s := ⟨fun k _ => .refl k s, id, .of_eq rfl⟩

theorem OneLane.trans (h : OneLane l s t) (g : OneLane l t u) : OneLane l s u :=
  ⟨fun k hk => (h.other k hk).trans (g.other k hk), g.clean ∘ h.clean, h.stay.trans g.stay⟩

theorem oneLane_changeLane (l : LaneNo) (f : Lane → Lane) (s : State) : OneLane l s (changeLane l f s) where
  other k hk := ⟨by rw [laneOfState_changeLane, if_neg hk], rfl, rfl, rfl⟩
  clean h := putLane_clean h
  stay := .of_raise (a := .stream) rfl

theorem oneLane_closeLane (l : LaneNo) (o : StreamOutcome) (s : State) : OneLane l s (closeLane l o s) where
  other k hk := ⟨by rw [laneOfState_closeLane, if_neg hk], rfl, rfl, rfl⟩
  clean h := putLane_clean h
  stay := closeLane_alertsStay l o s

theorem oneLane_settleLane (l : LaneNo) (f : Lane → Lane) (s : State) : OneLane l s (settleLane l f s) := by
  unfold settleLane
  split
  · exact .refl l s
  · exact oneLane_changeLane l f s

theorem oneLane_appendEntry {e : OutboxEntry} (he : e.lane? = some l) (s : State) : OneLane l s (appendEntry e s) where
  other k hk := ⟨rfl, by rw [laneBox_appendEntry, he, if_neg (by simpa using Ne.symm hk)], rfl, rfl⟩
  clean h := ⟨h.1, fun w hw => by
    rcases List.mem_append.mp hw with hw | hw
    · exact h.2 w (List.mem_of_mem_filter hw)
    · rw [List.mem_singleton.mp hw]; rfl⟩
  stay := .of_eq rfl

theorem oneLane_removeEntry (l : LaneNo) (s : State) : OneLane l s (removeEntry l s) where
  other k hk := ⟨rfl, by rw [laneBox_removeEntry, if_neg hk], rfl, rfl⟩
  clean h := ⟨h.1, fun w hw => h.2 w (List.mem_of_mem_filter hw)⟩
  stay := .of_eq rfl

theorem oneLane_appendIfNone {e : OutboxEntry} (he : e.lane? = some l) (s : State) : OneLane l s (appendIfNone e l s) := by
  unfold appendIfNone
  split
  · exact .refl l s
  · exact oneLane_appendEntry he s

theorem oneLane_reconcileWith (l : LaneNo) (f : Found) (s : State) : OneLane l s (reconcileWith l f s) := by
  have hlost : OneLane l s (closeLane l .lost (appendEntry (.withdraw l) (removeEntry l s))) :=
    (oneLane_removeEntry l s).trans ((oneLane_appendEntry rfl _).trans (oneLane_closeLane l .lost _))
  unfold reconcileWith
  split
  · exact .refl l s
  · exact oneLane_appendIfNone rfl s
  · exact oneLane_appendIfNone rfl s
  · split
    · exact oneLane_closeLane ..
    · exact .refl l s
  · split
    · exact oneLane_changeLane ..
    · exact hlost
  · split
    · exact oneLane_changeLane ..
    · exact hlost
  · exact oneLane_closeLane ..
  · exact oneLane_changeLane ..
  · exact .refl l s
  · exact oneLane_closeLane ..
  · exact oneLane_settleLane ..
  · exact oneLane_changeLane ..
  · exact (oneLane_removeEntry l s).trans (oneLane_closeLane ..)
  · exact oneLane_appendIfNone rfl s
  · exact ((oneLane_removeEntry l s).trans (oneLane_appendEntry rfl _)).trans (oneLane_changeLane ..)
  · exact (oneLane_removeEntry l s).trans (oneLane_closeLane ..)
  · exact (oneLane_settleLane ..).trans (oneLane_appendIfNone rfl _)
  · exact (oneLane_settleLane ..).trans (oneLane_appendIfNone rfl _)

/-! ## Every lane in its turn -/

/-- The listed lanes reconciled: each as it would be alone, and no other lane touched. -/
structure LanesReconciled (ls : List LaneNo) (s t : State) : Prop where
  each : ∀ l ∈ ls, LaneAgrees l (reconcileWith l (find l s) s) t
  other : ∀ l, l ∉ ls → LaneAgrees l s t
  clean : t.StreamsClean
  stay : AlertsStay s t
  mode : t.mode = s.mode
  alloc : t.alloc = s.alloc
  line : t.line = s.line
  cycle : t.cycle = s.cycle
  port : t.port = s.port
  pins : t.pins = s.pins

theorem reconcileLanes_clean (ls : List LaneNo) (hn : ls.Nodup) : ∀ s : State, s.MapClean → s.QueueClean → s.StreamsClean →
    ∃ t, reconcileLanes ls s = .on t ∧ LanesReconciled ls s t := by
  induction ls with
  | nil =>
    exact fun s _ _ hs => ⟨s, rfl, ⟨fun _ hl => absurd hl (by simp), fun l _ => .refl l s, hs, .of_eq rfl, rfl, rfl, rfl, rfl,
      rfl, rfl⟩⟩
  | cons l ls ih =>
    intro s hm hq hs
    obtain ⟨hl, hn⟩ := List.nodup_cons.mp hn
    have hone := oneLane_reconcileWith l (find l s) s
    obtain ⟨hline, hcycle, hmode, halloc, -, hport, -, hpins, -⟩ := reconcileWith_frame l (find l s) s
    have hstep : reconcileLanes (l :: ls) s = reconcileLanes ls (reconcileWith l (find l s) s) := by
      rw [reconcileLanes, readMap_clean hm, Course.next_on, readQueue_clean hq, Course.next_on, readStreams_clean _ _ hs,
        Course.next_on]
    generalize hu : reconcileWith l (find l s) s = u at *
    obtain ⟨t, ht, h⟩ := ih hn u (by unfold State.MapClean; rw [halloc]; exact hm)
      (by unfold State.QueueClean; rw [halloc]; exact hq) (hone.clean hs)
    refine ⟨t, hstep.trans ht, ⟨fun k hk => ?_, fun k hk => ?_, h.clean, hone.stay.trans h.stay, h.mode.trans hmode,
      h.alloc.trans halloc, h.line.trans hline, h.cycle.trans hcycle, h.port.trans hport, h.pins.trans hpins⟩⟩
    · rcases List.mem_cons.mp hk with rfl | hk
      · rw [hu]
        exact h.other k hl
      · have hfind : find k u = find k s := find_congr (by rw [halloc]) (by rw [halloc]) hpins k
        have hkl : k ≠ l := fun e => hl (e ▸ hk)
        have := h.each k hk
        rw [hfind] at this
        exact ((hone.other k hkl).reconcileWith _).trans this
    · rw [List.mem_cons, not_or] at hk
      exact (hone.other k hk.1).trans (h.other k hk.2)

end

end Sys2Proof.Machine
end

section
/-! The mark that passes the verify in JOINING, RESYNC and WITHDRAWING (R27, R34, R91, R93, R111, R116, R117, Table 6-4): the held
notice, the report of positions and reconciliation, lane by lane. -/

namespace Sys2Proof.Machine

/-! ## Table 6-4, by what was found (R116, R117) -/

/-- The outbox entries for a lane after a message is appended for it unless there is one (R98). -/
abbrev BoxOrWaits (e : OutboxEntry) (box box' : List OutboxEntry) : Prop := box' = if box = [] then [e] else box

/-- A lane's record after a change of reconciliation that counts only where it changes anything (R117, log 34). -/
abbrev LaneSettled (v r r' : Lane) : Prop := r' = if v = r then r else { v with changed := true }

/-- A lane that reconciliation has closed. -/
abbrev Lane.lost (r : Lane) : Lane := r.closedWith .lost

section
variable {x : State} {l : LaneNo}

theorem settleLane_settled (l : LaneNo) (f : Lane → Lane) (x : State) :
    LaneSettled (f (laneOfState x l)) (laneOfState x l) (laneOfState (settleLane l f x) l) := by
  unfold LaneSettled
  rw [laneOfState_settleLane]
  by_cases h : f (laneOfState x l) = laneOfState x l <;> simp [h]

theorem appendIfNone_orWaits {e : OutboxEntry} (he : e.lane? = some l) (x : State) :
    BoxOrWaits e (laneBox l x) (laneBox l (appendIfNone e l x)) := by
  unfold BoxOrWaits
  rw [laneBox_appendIfNone he]
  simp

/-- A lane whose CLAIM is held, found in a table: closed, its CLAIM taken back by a WITHDRAW. -/
theorem lostClaim (l : LaneNo) (x : State) :
    laneOfState (closeLane l .lost (appendEntry (.withdraw l) (removeEntry l x))) l = (laneOfState x l).lost ∧
    laneBox l (closeLane l .lost (appendEntry (.withdraw l) (removeEntry l x))) = [.withdraw l] := by
  refine ⟨?_, ?_⟩
  · rw [laneOfState_closeLane, if_pos rfl, laneOfState_appendEntry, laneOfState_removeEntry]
  · exact (laneBox_appendEntry ..).trans (if_pos rfl)

theorem lostLane (l : LaneNo) (x : State) :
    laneOfState (closeLane l .lost x) l = (laneOfState x l).lost ∧ laneBox l (closeLane l .lost x) = laneBox l x :=
  ⟨by rw [laneOfState_closeLane, if_pos rfl], rfl⟩

theorem lostEntry (l : LaneNo) (x : State) :
    laneOfState (closeLane l .lost (removeEntry l x)) l = (laneOfState x l).lost ∧
    laneBox l (closeLane l .lost (removeEntry l x)) = [] := by
  refine ⟨?_, ?_⟩
  · rw [laneOfState_closeLane, if_pos rfl, laneOfState_removeEntry]
  · exact (laneBox_removeEntry ..).trans (if_pos rfl)

theorem changedLane (l : LaneNo) (f : Lane → Lane) (x : State) :
    laneOfState (changeLane l f x) l = { f (laneOfState x l) with changed := true } ∧
    laneBox l (changeLane l f x) = laneBox l x :=
  ⟨by rw [laneOfState_changeLane, if_pos rfl], rfl⟩

theorem claim_mem_of_box {e : OutboxEntry} (hb : laneBox l x = [e]) : e ∈ laneBox l x := by simp [hb]

/-- A lane found as a stream. -/
theorem reconcileWith_stream (hl : x.line.onLine = none) (slots : List Slot) (label : Label) (count : Nat) (cls : SlotClass)
    (ret : Bool) :
    let r := laneOfState x l
    let r' := laneOfState (reconcileWith l (.stream slots label count cls ret) x) l
    let box := laneBox l x
    let box' := laneBox l (reconcileWith l (.stream slots label count cls ret) x)
    let held : Lane := { r.withFound label count cls ret with
      state := .held, slots := slots, position := none, outcome := .granted, grantCycle := x.cycle.cycleNumber,
      changed := true }
    (r.state = .closed → r' = r ∧ BoxOrWaits (.withdraw l) box box') ∧
    (r.state = .opening → box = [.claim l] → r' = r.lost ∧ box' = [.withdraw l]) ∧
    (r.state = .opening → box = [] → r' = held ∧ box' = []) ∧
    (r.state = .waiting → r' = held ∧ box' = box) ∧
    (r.state = .held → LaneSettled { r.withFound label count cls ret with slots := slots } r r' ∧ box' = box) ∧
    (r.state = .closing → r' = r ∧ BoxOrWaits (.release l) box box') ∧
    (r.state = .cancelling → LaneSettled { r with slots := slots, position := none } r r' ∧
      BoxOrWaits (.withdraw l) box box') := by
  intro r r' box box' held
  have heq := show reconcileWith l (.stream slots label count cls ret) x = _ from rfl
  refine ⟨fun hs => ?_, fun hs hb => ?_, fun hs hb => ?_, fun hs => ?_, fun hs => ?_, fun hs => ?_, fun hs => ?_⟩ <;>
    simp only [r', box', reconcileWith, show (laneOfState x l).state = _ from hs]
  · exact ⟨laneOfState_appendIfNone .., appendIfNone_orWaits rfl x⟩
  · rw [claimCondition_held hl (claim_mem_of_box hb), if_neg (by decide)]
    exact lostClaim l x
  · rw [claimCondition_sent hl hb, if_pos rfl]
    obtain ⟨h1, h2⟩ := changedLane l (fun r => (r.toHeld slots x.cycle.cycleNumber).withFound label count cls ret) x
    exact ⟨h1, h2.trans hb⟩
  · exact changedLane l (fun r => (r.toHeld slots x.cycle.cycleNumber).withFound label count cls ret) x
  · exact ⟨settleLane_settled .., laneBox_settleLane ..⟩
  · exact ⟨laneOfState_appendIfNone .., appendIfNone_orWaits rfl x⟩
  · refine ⟨?_, ?_⟩
    · rw [laneOfState_appendIfNone]
      exact settleLane_settled l (fun r => { r with slots := slots, position := none }) x
    · have h := appendIfNone_orWaits (l := l) (e := .withdraw l) rfl
        (settleLane l (fun r => { r with slots := slots, position := none }) x)
      rwa [laneBox_settleLane] at h

/-- A lane found in neither table. -/
theorem reconcileWith_nothing (hl : x.line.onLine = none) :
    let r := laneOfState x l
    let r' := laneOfState (reconcileWith l .nothing x) l
    let box := laneBox l x
    let box' := laneBox l (reconcileWith l .nothing x)
    (r.state = .closed → r' = r ∧ box' = box) ∧
    (r.state = .opening → box = [.claim l] → r' = r ∧ box' = box) ∧
    (r.state = .opening → box = [] → r' = r.lost ∧ box' = []) ∧
    (r.state = .waiting ∨ r.state = .held → r' = r.lost ∧ box' = box) ∧
    (r.state = .closing ∨ r.state = .cancelling → r' = r.lost ∧ box' = []) := by
  intro r r' box box'
  refine ⟨fun hs => ?_, fun hs hb => ?_, fun hs hb => ?_, fun hs => ?_, fun hs => ?_⟩
  · simp only [r', box', reconcileWith, show (laneOfState x l).state = _ from hs]
    exact ⟨rfl, rfl⟩
  · simp only [r', box', reconcileWith, show (laneOfState x l).state = _ from hs]
    rw [claimCondition_held hl (claim_mem_of_box hb), if_neg (by decide)]
    exact ⟨rfl, rfl⟩
  · simp only [r', box', reconcileWith, show (laneOfState x l).state = _ from hs]
    rw [claimCondition_sent hl hb, if_pos rfl]
    exact ⟨(lostLane l x).1, (lostLane l x).2.trans hb⟩
  · rcases hs with hs | hs <;> simp only [r', box', reconcileWith, show (laneOfState x l).state = _ from hs]
    · exact lostLane l x
    · exact lostLane l x
  · rcases hs with hs | hs <;> simp only [r', box', reconcileWith, show (laneOfState x l).state = _ from hs]
    · exact lostEntry l x
    · exact lostEntry l x

theorem Lane.atPosition_state (p : Nat) (r : Lane) : (r.atPosition p).state = r.state := by
  unfold Lane.atPosition
  split <;> rfl

theorem Lane.atPosition_kept {p : Nat} {r : Lane} (h : ¬(r.state = .waiting ∨ r.state = .cancelling ∧ r.slots = [])) :
    r.atPosition p = r := if_neg h

/-- A lane found in the queue, whose position has been reported. -/
theorem reconcileWith_entry (hl : x.line.onLine = none) {r : Lane} {p : Nat} (hr : laneOfState x l = r.atPosition p)
    (label : Label) (count : Nat) (cls : SlotClass) (ret : Bool) :
    let r' := laneOfState (reconcileWith l (.entry p label count cls ret) x) l
    let box := laneBox l x
    let box' := laneBox l (reconcileWith l (.entry p label count cls ret) x)
    let waits (o : StreamOutcome) : Lane := { r.withFound label count cls ret with
      state := .waiting, slots := [], position := some p, outcome := o, changed := true }
    (r.state = .closed → r' = r ∧ BoxOrWaits (.withdraw l) box box') ∧
    (r.state = .opening → box = [.claim l] → r' = r.lost ∧ box' = [.withdraw l]) ∧
    (r.state = .opening → box = [] → r' = waits .queued ∧ box' = []) ∧
    (r.state = .waiting → r' = { r with position := some p } ∧ box' = box) ∧
    (r.state = .held → r' = waits .requeued ∧ box' = box) ∧
    (r.state = .closing → box' = [.withdraw l] ∧ r' = { r with
      state := .cancelling, slots := [], position := some p, outcome := .requeued, changed := true }) ∧
    (r.state = .cancelling → r.slots = [] → r' = { r with position := some p } ∧ BoxOrWaits (.withdraw l) box box') ∧
    (r.state = .cancelling → r.slots ≠ [] → BoxOrWaits (.withdraw l) box box' ∧
      r' = { r with slots := [], position := some p, changed := true }) := by
  intro r' box box' waits
  have hstate {st : StreamState} (hs : r.state = st) : (laneOfState x l).state = st := by
    rw [hr, Lane.atPosition_state, hs]
  have hkept (h : r.state ≠ .waiting) (hc : r.state = .cancelling → r.slots ≠ []) : laneOfState x l = r := by
    rw [hr, Lane.atPosition_kept]
    rintro (h1 | ⟨h1, h2⟩)
    · exact h h1
    · exact hc h1 h2
  have hplain {st : StreamState} (hs : r.state = st) (h1 : st ≠ .waiting) (h2 : st ≠ .cancelling) : laneOfState x l = r :=
    hkept (hs ▸ h1) fun h => absurd (hs.symm.trans h) h2
  have hsettle := settleLane_settled l (fun r => { r with slots := [], position := some p }) x
  have hboxes := appendIfNone_orWaits (l := l) (e := .withdraw l) rfl
    (settleLane l (fun r => { r with slots := [], position := some p }) x)
  rw [laneBox_settleLane] at hboxes
  refine ⟨fun hs => ?_, fun hs hb => ?_, fun hs hb => ?_, fun hs => ?_, fun hs => ?_, fun hs => ?_, fun hs he => ?_,
    fun hs he => ?_⟩ <;> simp only [r', box', reconcileWith, hstate hs]
  · exact ⟨(laneOfState_appendIfNone ..).trans (hplain hs (by decide) (by decide)), appendIfNone_orWaits rfl x⟩
  · rw [claimCondition_held hl (claim_mem_of_box hb), if_neg (by decide), ← hplain hs (by decide) (by decide)]
    exact lostClaim l x
  · rw [claimCondition_sent hl hb, if_pos rfl]
    obtain ⟨h1, h2⟩ := changedLane l (fun r => { r.withFound label count cls ret with
      state := .waiting, slots := [], position := some p, outcome := .queued }) x
    exact ⟨by rw [hplain hs (by decide) (by decide)] at h1; exact h1, h2.trans hb⟩
  · exact ⟨by rw [hr, Lane.atPosition, if_pos (.inl hs)], rfl⟩
  · obtain ⟨h1, h2⟩ := changedLane l (fun r => { r.withFound label count cls ret with
      state := .waiting, slots := [], position := some p, outcome := .requeued }) x
    exact ⟨by rw [hplain hs (by decide) (by decide)] at h1; exact h1, h2⟩
  · obtain ⟨h1, h2⟩ := changedLane l
      (fun r => { r with state := .cancelling, slots := [], position := some p, outcome := .requeued })
      (appendEntry (.withdraw l) (removeEntry l x))
    rw [laneOfState_appendEntry, laneOfState_removeEntry, hplain hs (by decide) (by decide)] at h1
    exact ⟨h2.trans ((laneBox_appendEntry ..).trans (if_pos rfl)), h1⟩
  · have hat : laneOfState x l = { r with position := some p } := by rw [hr, Lane.atPosition, if_pos (.inr ⟨hs, he⟩)]
    refine ⟨?_, hboxes⟩
    rw [laneOfState_appendIfNone, hsettle, hat]
    simp [← he]
  · have hat := hkept (by simp [hs]) fun _ => he
    refine ⟨hboxes, ?_⟩
    rw [laneOfState_appendIfNone, hsettle, hat, if_neg]
    intro h
    exact he (congrArg Lane.slots h).symm

end

/-! ## The verify pass (R27, R93, R116) -/

/-- One lane between the held notices (`u`), the report of positions (`x`) and the end of reconciliation (`v`). -/
structure ReconciledLane (l : LaneNo) (u x v : State) : Prop where
  onLine : x.line.onLine = u.line.onLine
  number : x.cycle.cycleNumber = u.cycle.cycleNumber
  box : laneBox l x = laneBox l u
  find : find l x = find l u
  absent : (∀ w ∈ u.alloc.queue, ¬(w.val.station = own u ∧ w.val.lane = l)) → laneOfState x l = laneOfState u l
  present : ∀ i w, u.alloc.queue[i]? = some w → w.val.station = own u → w.val.lane = l →
    laneOfState x l = (laneOfState u l).atPosition (i + 1)
  agrees : LaneAgrees l (reconcileWith l (Machine.find l x) x) v

/-- What a verify pass has made of a station before the check of the exit condition. -/
structure VerifyReconciled (u v : State) : Prop where
  mode : v.mode = if u.mode.actual = .withdrawing then u.mode else { u.mode with actual := .member }
  modeAlert : u.mode.actual ≠ .withdrawing → v.HasAlert .mode
  stay : AlertsStay u v
  phase : v.cycle.phase = .learned
  number : v.cycle.cycleNumber = u.cycle.cycleNumber
  marker : v.cycle.marker = u.cycle.marker
  alloc : v.alloc = u.alloc
  port : v.port = u.port
  line : v.line = u.line
  lanes : ∀ l, ∃ x, ReconciledLane l u x v

/-- What becoming LEARNED makes of a station in a mode that reconciles. -/
structure BecomesLearned (u w : State) : Prop where
  mode : w.mode = if u.mode.actual = .withdrawing then u.mode else { u.mode with actual := .member }
  modeAlert : u.mode.actual ≠ .withdrawing → w.HasAlert .mode
  stay : AlertsStay u w
  phase : w.cycle.phase = .learned
  number : w.cycle.cycleNumber = u.cycle.cycleNumber
  marker : w.cycle.marker = u.cycle.marker
  alloc : w.alloc = u.alloc
  port : w.port = u.port
  line : w.line = u.line
  streams : w.streams = u.streams
  pins : w.pins = u.pins

theorem becomeLearned_becomes {u : State}
    (hm : u.mode.actual = .joining ∨ u.mode.actual = .resync ∨ u.mode.actual = .withdrawing) :
    BecomesLearned u (becomeLearned u) := by
  by_cases hw : u.mode.actual = .withdrawing
  · rw [becomeLearned_stays (by simp [hw])]
    exact ⟨(if_pos hw).symm, fun h => absurd hw h, .of_eq rfl, rfl, rfl, rfl, rfl, rfl, rfl, rfl,
      rfl⟩
  · rw [becomeLearned_joins (by simpa [hw] using hm)]
    exact ⟨(if_neg hw).symm, fun _ => hasAlert_raise _ _, .of_raise (a := .mode) rfl, rfl, rfl, rfl, rfl, rfl, rfl,
      rfl, rfl⟩

theorem verifyPass_reconciles {s u : State} {m : MarkContents} (hrel : releaseHeld (takeMark m s) = .on u)
    (hm : u.mode.actual = .joining ∨ u.mode.actual = .resync ∨ u.mode.actual = .withdrawing)
    (htick : u.cycle.cycleNumber.toNat % 1024 ≠ 0) (hmap : u.MapClean) (hq : u.QueueClean) (hs : u.StreamsClean)
    (hd : u.QueueDistinct) : ∃ v, verifyPass m s = .on (exitCheck v) ∧ VerifyReconciled u v := by
  have hoff : u.mode.actual ≠ .off := by rcases hm with hm | hm | hm <;> simp [hm]
  have hw := becomeLearned_becomes hm
  rw [verifyPass_released hrel hoff htick]
  generalize becomeLearned u = w at *
  have hlanes (l : LaneNo) : laneOfState w l = laneOfState u l := congrFun (laneOfState_congr (by rw [hw.streams])) l
  have hown : own w = own u := by unfold own; rw [hw.pins]
  obtain ⟨x, hx, hnoted⟩ := positionReport_noted (s := w) (by unfold State.QueueClean; rw [hw.alloc]; exact hq)
    (streamsClean_congr (by rw [hw.streams]) hs) (by unfold State.QueueDistinct; rw [hw.alloc]; exact hd)
  have hrest := hnoted.rest
  have hxa : x.alloc = u.alloc := by rw [hrest]; exact hw.alloc
  have hact : x.mode.actual = .member ∨ x.mode.actual = .withdrawing := by
    rw [hrest]
    by_cases h : u.mode.actual = .withdrawing <;> simp [hw.mode, h]
  obtain ⟨v, hv, h⟩ := reconcileLanes_clean allLanes (List.nodup_finRange 8) x
    (by unfold State.MapClean; rw [hxa]; exact hmap) (by unfold State.QueueClean; rw [hxa]; exact hq) hnoted.clean
  have hstay : AlertsStay w v := .trans (.of_eq (by rw [hrest])) h.stay
  refine ⟨v, ?_, {
    mode := by rw [h.mode, hrest]; exact hw.mode
    modeAlert := fun hn => hstay.stays _ (hw.modeAlert hn)
    stay := hw.stay.trans hstay
    phase := by rw [h.cycle, hrest]; exact hw.phase
    number := by rw [h.cycle, hrest]; exact hw.number
    marker := by rw [h.cycle, hrest]; exact hw.marker
    alloc := by rw [h.alloc, hxa]
    port := by rw [h.port, hrest]; exact hw.port
    line := by rw [h.line, hrest]; exact hw.line
    lanes := fun l => ⟨x, {
      onLine := by rw [hrest]; rw [hw.line]
      number := by rw [hrest]; exact hw.number
      box := by rw [hrest]; unfold laneBox; rw [hw.streams]
      find := find_congr (by rw [hxa]) (by rw [hxa]) (by rw [hrest]; exact hw.pins) l
      absent := fun hno => (hnoted.absent l (by rw [hw.alloc, hown]; exact hno)).trans (hlanes l)
      present := fun i w hi ho hl => by
        rw [← hl, ← hlanes]
        exact hnoted.present i w (by rw [hw.alloc]; exact hi) (by rw [hown]; exact ho)
      agrees := h.each l (mem_allLanes l) }⟩ }⟩
  rw [hx, Course.state_on, reconcileVerified, if_pos hact, reconcile, hv, Course.finally_on]

/-! ## The end of the mark (R34) -/

theorem exitReady_iff (s : State) :
    exitReady s = true ↔ s.mode.actual = .withdrawing ∧ s.StreamsIdle := by
  simp only [exitReady, Bool.and_eq_true, decide_eq_true_eq, List.all_eq_true, List.isEmpty_iff, and_assoc, laneClosed]
  exact ⟨fun ⟨h1, h2, h3⟩ => ⟨h1, fun l => h2 l (mem_allLanes l), h3⟩, fun ⟨h1, h2, h3⟩ => ⟨h1, fun l _ => h2 l, h3⟩⟩

theorem exitCheck_busy {s : State} (h : ¬s.StreamsIdle) : exitCheck s = s :=
  if_neg fun hr => h ((exitReady_iff s).mp hr).2

/-- What leaving for a target leaves of the mark that brought it. -/
theorem leaveForTarget_mark {s : State} (ht : s.mode.target = .listen ∨ s.mode.target = .off) :
    (leaveForTarget s).cycle.cycleNumber = s.cycle.cycleNumber ∧ (leaveForTarget s).cycle.marker = s.cycle.marker ∧
    (leaveForTarget s).mode.actual ≠ .withdrawing ∧
    (s.port.snap.armed = false → (leaveForTarget s).port.snap.armed = false) := by
  rcases ht with ht | ht
  · rw [leaveForTarget_listen ht]
    have hc := changeMode_cycle .listen s
    have hm := changeMode_mode .listen s
    obtain ⟨-, hp, -⟩ := changeMode_frame .listen s
    generalize changeMode .listen s = u at *
    exact ⟨by simp only [hc], by simp only [hc], by simp [hm], by simp [hp]⟩
  · rw [leaveForTarget_off ht]
    refine ⟨?_, ?_, by simp, fun _ => rfl⟩ <;> simp only [enterOff, offEffects, clearTables_frame, changeMode_cycle]

/-- The end of a mark that has passed the verify: a withdrawal that is over leaves for its target, or counts the mark. -/
theorem execMarkReceived_verified {s v : State} {m : MarkContents} (hr : s.Running) (ho : s.mode.actual ≠ .off)
    (hlen : m.summary.length ≤ 16) (hpass : intactMark m (markArrived s) = .on (exitCheck v))
    (hmode : v.mode = if s.mode.actual = .withdrawing then s.mode else { s.mode with actual := .member })
    (hcount : s.mode.actual = .withdrawing → s.mode.withdrawCount < 15 ∧ s.mode.target ≠ .none)
    (hl : v.line.onLine = none) (harm : v.port.snap.armed = false) :
    ∃ t, exec (.markReceived (.intact m)) s = .next t ∧ t.streams = v.streams ∧
      t.cycle.cycleNumber = v.cycle.cycleNumber ∧ t.cycle.marker = v.cycle.marker ∧
      (s.mode.actual ≠ .withdrawing → t = v.markOver) ∧
      (s.mode.actual = .withdrawing → ¬t.StreamsIdle → t = v.markCounted) := by
  by_cases hw : s.mode.actual = .withdrawing
  · obtain ⟨hlt, htarget⟩ := hcount hw
    rw [if_pos hw] at hmode
    by_cases hidle : v.StreamsIdle
    · have ht : v.mode.target = .listen ∨ v.mode.target = .off := by
        rw [hmode]
        cases h : s.mode.target with
        | none => exact absurd h htarget
        | off => exact .inr rfl
        | listen => exact .inl rfl
      have hexit : exitCheck v = leaveForTarget v := if_pos ((exitReady_iff v).mpr ⟨by rw [hmode, hw], hidle⟩)
      have hleft := leaveForTarget_left ht hl
      obtain ⟨hnumber, hmarker, hout, hunarmed⟩ := leaveForTarget_mark ht
      refine ⟨(leaveForTarget v).markOver, ?_, hleft.streams, hnumber, hmarker, fun h => absurd hw h, fun _ hn => ?_⟩
      · rw [execMarkReceived_intact hr ho hlen, hpass, hexit, Course.state_on, markEnd_left hout,
          capture_unarmed (by exact hunarmed harm)]
      · exact absurd (streamsIdle_congr hleft.streams hidle) hn
    · rw [exitCheck_busy hidle] at hpass
      exact ⟨v.markCounted, execMarkReceived_counted hr hlen hw (congrArg Course.state hpass) (by simp [hmode, hw])
        (by simpa [hmode] using hlt) harm, rfl, rfl, rfl, fun h => absurd hw h, fun _ _ => rfl⟩
  · rw [exitCheck_idle (by rw [hmode, if_neg hw]; simp)] at hpass
    exact ⟨v.markOver, execMarkReceived_uncounted hr ho hlen hw (congrArg Course.state hpass) harm, rfl, rfl, rfl,
      fun _ => rfl, fun h => absurd h hw⟩

/-! ## The held notice (R91) -/

theorem releaseHeld_one {s : State} {n : Notice} (h : s.alloc.heldNotices = [.fresh n]) :
    releaseHeld s = .on (deliver n { s with alloc := { s.alloc with heldNotices := [] } }) := by
  have hs : ({ s with alloc.heldNotices := [.fresh n] } : State) = s := by rw [← h]
  have hscan : scan 0 s.alloc.heldNotices = ⟨s.alloc.heldNotices, none, none⟩ := scan_clean _ (by simp [h, Stored.fresh]) 0
  have hread : readHeld s = .on s := by
    unfold readHeld
    simp only [hscan, recordScan_clean, Option.isSome_none, Bool.false_eq_true, if_false]
  rw [releaseHeld, hread, Course.finally_on, h]
  rfl

/-- The one held notice has been delivered: a GRANTED notice for a WAITING lane. -/
structure HeldGrantTaken (l : LaneNo) (slots : List Slot) (cyc : CycleNo) (s u : State) : Prop where
  released : releaseHeld s = .on u
  lane : laneOfState u l = { (laneOfState s l).toHeld slots cyc with changed := true }
  clean : u.StreamsClean
  alert : u.HasAlert .stream
  alloc : u.alloc = { s.alloc with heldNotices := [] }
  mode : u.mode = s.mode
  cycle : u.cycle = s.cycle
  line : u.line = s.line
  port : u.port = s.port
  pins : u.pins = s.pins

/-- The lane is HELD after the notice, so that a withdrawal is not over. -/
theorem deliver_granted_waiting {s : State} {l : LaneNo} {slots : List Slot} {cyc : CycleNo} (hs : s.StreamsClean)
    (hw : (laneOfState s l).state = .waiting) :
    deliver (.granted l slots cyc) s = changeLane l (·.toHeld slots cyc) s := by
  have hbusy : ¬(changeLane l (·.toHeld slots cyc) s).StreamsIdle := fun hidle => by
    have := hidle.1 l
    rw [(changedLane l (·.toHeld slots cyc) s).1] at this
    cases this
  rw [deliver, readStreams_clean _ _ hs, Course.finally_on, Course.state_on]
  simp only [takeNotice, takeGranted, hw]
  exact exitCheck_busy hbusy

theorem releaseHeld_granted {s : State} {l : LaneNo} {slots : List Slot} {cyc : CycleNo}
    (h : s.alloc.heldNotices = [.fresh (.granted l slots cyc)]) (hs : s.StreamsClean)
    (hw : (laneOfState s l).state = .waiting) : ∃ u, HeldGrantTaken l slots cyc s u := by
  refine ⟨_, ?_, (changedLane l (·.toHeld slots cyc) { s with alloc := { s.alloc with heldNotices := [] } }).1,
    putLane_clean hs, hasAlert_raise .stream _, rfl, rfl, rfl, rfl, rfl, rfl⟩
  rw [releaseHeld_one h, deliver_granted_waiting (by exact hs) (by exact hw)]

theorem held_of_streamSlots {s : State} {l : LaneNo} (h : streamSlots (own s) l s ≠ []) :
    ∃ e ∈ heldEntries s, e.holder = own s ∧ e.lane = l := by
  obtain ⟨n, hn⟩ := List.exists_mem_of_ne_nil _ h
  obtain ⟨-, hn⟩ := List.mem_filter.mp hn
  cases he : entryAt s n with
  | free => rw [he] at hn; cases hn
  | held e =>
    rw [he] at hn
    exact ⟨e, List.mem_filterMap.mpr ⟨n, List.mem_finRange n, by rw [he]; rfl⟩, by simpa [SlotEntry.ofStream] using hn⟩

/-- Settles O16. -/
theorem verifyPassReconciles : Obligations.VerifyPassReconciles := by
  intro s m hr hp hm hmap hq hs hfit hagree hline hpat hrec hcyc hsum hlen htick harm
  have hmode : s.mode.actual = .joining ∨ s.mode.actual = .resync ∨ s.mode.actual = .withdrawing :=
    hm.imp And.left (Or.imp_right And.left)
  have ho : s.mode.actual ≠ .off := by rcases hmode with h | h | h <;> simp [h]
  have hcount (hw : s.mode.actual = .withdrawing) : s.mode.withdrawCount < 15 ∧ s.mode.target ≠ .none := by
    simpa [hw] using hm
  have hwinner : isWinnersMark (markArrived s) = false := by
    rcases hm with ⟨-, h, -⟩ | h | ⟨h, -⟩ <;> simp [isWinnersMark, h]
  have htrust : mapDistrusted (markArrived s) = false := by
    rcases hm with ⟨-, -, h⟩ | h | ⟨h, -⟩ <;> simp [mapDistrusted, h]
  have hpass : intactMark m (markArrived s) = verifyPass m (markArrived s) :=
    intactMark_passes hp hwinner hq ⟨hpat, hrec⟩ hcyc hsum htrust
  have hdistinct := queueDistinct_of_tablesAgree hagree
  have hapart := (hagree.2 (.inl hp)).1
  refine ⟨fun l slots cyc hheld hwaits hslots hsl hrecord => ?_, fun hheld => ?_⟩
  · obtain ⟨u, hu⟩ := releaseHeld_granted (s := takeMark m (markArrived s)) hheld hs hwaits
    have hmap_u : u.alloc.map = s.alloc.map := by rw [hu.alloc]; rfl
    have hqueue_u : u.alloc.queue = s.alloc.queue := by rw [hu.alloc]; rfl
    have hown : own u = own s := by unfold own; rw [hu.pins]; rfl
    obtain ⟨v, hv, h⟩ := verifyPass_reconciles hu.released (by rw [hu.mode]; exact hmode) (by rw [hu.cycle]; exact htick)
      (by unfold State.MapClean; rw [hmap_u]; exact hmap) (by unfold State.QueueClean; rw [hqueue_u]; exact hq) hu.clean
      (by unfold State.QueueDistinct; rw [hqueue_u]; exact hdistinct)
    have hvmode := h.mode
    rw [hu.mode] at hvmode
    obtain ⟨t, ht, hstreams, hnumber, -, hover, hcounted⟩ := execMarkReceived_verified hr ho hlen (hpass.trans hv) hvmode
      hcount (by rw [h.line, hu.line]; exact hline) (by rw [h.port, hu.port]; exact harm)
    obtain ⟨e, he, heo, hel⟩ := held_of_streamSlots (hsl ▸ hslots)
    obtain ⟨x, hx⟩ := h.lanes l
    have hfind : find l x = .stream slots e.label e.count e.cls e.ret := by
      rw [hx.find, find_congr (s := s) hmap_u hqueue_u (by rw [hu.pins]; rfl), hsl]
      refine find_stream he heo hel fun g hg hgo hgl => ?_
      obtain ⟨h1, h2, h3, h4⟩ := hrecord e he heo hel
      simpa only [h1, h2, h3, h4] using hrecord g hg hgo hgl
    have hkept : laneOfState x l = { (laneOfState s l).toHeld slots cyc with changed := true } :=
      (hx.absent (by
        rw [hqueue_u, hown]
        exact fun w hw ⟨hwo, hwl⟩ => (hapart e he w hw).2 ⟨hwo.trans heo.symm, hwl.trans hel.symm⟩)).trans hu.lane
    have hsettled := ((reconcileWith_stream (l := l) (x := x) (by rw [hx.onLine, hu.line]; exact hline)
      slots e.label e.count e.cls e.ret).2.2.2.2.1 (by rw [hkept]; rfl)).1
    have hsame : laneOfState v l = { (laneOfState s l).toHeld slots cyc with changed := true } := by
      rw [hx.agrees.lane, hfind, hsettled, if_pos, hkept]
      obtain ⟨h1, h2, h3, h4⟩ := hrecord e he heo hel
      rw [hkept, h1, h2, h3, h4]
      rfl
    have hlane : laneOfState t l = laneOfState v l := congrFun (laneOfState_congr (by rw [hstreams])) l
    have hbusy : ¬t.StreamsIdle := fun hidle => by
      have := hidle.1 l
      rw [hlane, hsame] at this
      cases this
    refine ⟨t, ht, ?_⟩
    have hover' : t = v.markOver ∨ t = v.markCounted := by
      by_cases hw : s.mode.actual = .withdrawing
      · exact .inr (hcounted hw hbusy)
      · exact .inl (hover hw)
    have hkeeps : t.alloc = v.alloc ∧ t.cycle.phase = v.cycle.phase ∧ t.alerts = v.alerts := by
      rcases hover' with rfl | rfl <;> exact ⟨rfl, rfl, rfl⟩
    obtain ⟨halloc, hphase, halerts⟩ := hkeeps
    refine ⟨by rw [halloc, h.alloc, hu.alloc]; rfl, by rw [hphase, h.phase], by rw [hnumber, h.number, hu.cycle]; rfl, ?_,
      by rw [hlane, hsame]; rfl⟩
    unfold State.HasAlert
    rw [halerts]
    exact h.stay.stays _ hu.alert
  · have hrel : releaseHeld (takeMark m (markArrived s)) = .on (takeMark m (markArrived s)) := releaseHeld_none hheld
    obtain ⟨v, hv, h⟩ := verifyPass_reconciles hrel hmode htick hmap hq hs hdistinct
    obtain ⟨t, ht, hstreams, hnumber, hmarker, hover, hcounted⟩ := execMarkReceived_verified hr ho hlen (hpass.trans hv)
      h.mode hcount (by rw [h.line]; exact hline) (by rw [h.port]; exact harm)
    refine ⟨t, ht, hnumber.trans h.number, hmarker.trans h.marker, fun hj => ?_, fun hw hbusy => ?_, fun l => ?_⟩
    · have hnw : s.mode.actual ≠ .withdrawing := by rcases hj with hj | hj <;> simp [hj]
      rw [hover hnw]
      exact ⟨h.mode.trans (if_neg hnw), h.phase, h.modeAlert hnw, h.alloc⟩
    · rw [hcounted hw fun hidle => ?_]
      · have hkept : v.mode = s.mode := h.mode.trans (if_pos hw)
        exact ⟨by rw [← hkept], h.phase, h.alloc⟩
      · rcases hbusy with hbusy | ⟨l, hl⟩
        · exact hbusy hidle.2
        · exact hl (hidle.1 l)
    · obtain ⟨x, hx⟩ := h.lanes l
      have hlane : laneOfState t l = laneOfState (reconcileWith l (find l x) x) l :=
        (congrFun (laneOfState_congr (by rw [hstreams])) l).trans hx.agrees.lane
      have hbox : laneBox l t = laneBox l (reconcileWith l (find l x) x) :=
        (laneBox_congr (by rw [hstreams]) l).trans hx.agrees.box
      have hxline : x.line.onLine = none := hx.onLine.trans hline
      refine ⟨fun e he heo hel hag => ?_, fun i w hi hwo hwl => ?_, fun hfree hforeign => ?_⟩
      · have hkept := hx.absent fun w hw ⟨hwo, hwl⟩ => (hapart e he w hw).2 ⟨hwo.trans heo.symm, hwl.trans hel.symm⟩
        have htable := reconcileWith_stream (l := l) hxline (streamSlots (own s) l s) e.label e.count e.cls e.ret
        have hfind : find l x = .stream (streamSlots (own s) l s) e.label e.count e.cls e.ret :=
          hx.find.trans (find_stream (by exact he) heo hel hag)
        rw [hfind] at hlane hbox
        rw [hkept, hx.box, hx.number, ← hlane, ← hbox] at htable
        exact htable
      · subst hwl
        have hfree : s.NoStream w.val.lane := fun e he ⟨heo, hel⟩ =>
          (hapart e he w (List.mem_of_getElem? hi)).2 ⟨hwo.trans heo.symm, hel.symm⟩
        have htable := reconcileWith_entry hxline (hx.present i w hi hwo rfl) w.val.label w.val.count w.val.cls w.val.ret
        have hfind : find w.val.lane x = .entry (i + 1) w.val.label w.val.count w.val.cls w.val.ret :=
          hx.find.trans (find_entry hdistinct hi hwo hfree)
        rw [hfind] at hlane hbox
        rw [hx.box, ← hlane, ← hbox] at htable
        exact htable
      · have hkept := hx.absent hforeign
        have htable := reconcileWith_nothing (l := l) hxline
        rw [hx.find.trans (find_absent hfree hforeign)] at hlane hbox
        rw [hkept, hx.box, ← hlane, ← hbox] at htable
        exact htable

end Sys2Proof.Machine
end

section
/-! The entry into WITHDRAWING from a station whose STREAMS words are clean (R33, R34, R141): each lane is asked to close as it
would be alone, and a station with nothing to withdraw is ready to leave by that. -/

namespace Sys2Proof.Machine

/-! ## A lane asked to close (R33) -/

section
variable {s t u : State} {k l : LaneNo}

theorem endLane_closed (h : (laneOfState s l).state = .closed) : endLane l s = s := by simp only [endLane, h]

theorem endLane_held (h : (laneOfState s l).state = .held) :
    endLane l s = appendEntry (.release l) (changeLane l (fun r => { r with state := .closing }) s) := by
  simp only [endLane, h]

theorem endLane_waiting (h : (laneOfState s l).state = .waiting) :
    endLane l s = appendEntry (.withdraw l) (changeLane l (fun r => { r with state := .cancelling }) s) := by
  simp only [endLane, h]

theorem endLane_claimHeld (h : (laneOfState s l).state = .opening) (hc : claimCondition l s = .held) :
    endLane l s = closeLane l .cancelled (removeEntry l s) := by
  simp only [endLane, h, hc]

theorem endLane_claimSent (h : (laneOfState s l).state = .opening) (hc : claimCondition l s = .sent) :
    endLane l s = appendEntry (.withdraw l) (changeLane l (fun r => { r with state := .cancelling }) s) := by
  simp only [endLane, h, hc]

theorem endLane_ending (h : (laneOfState s l).state = .closing ∨ (laneOfState s l).state = .cancelling) :
    endLane l s = s := by
  rcases h with h | h <;> simp only [endLane, h]

/-- A lane that holds slots or waits for them is being ended after it has been asked to close. -/
theorem endLane_ends (h : (laneOfState s l).state = .held ∨ (laneOfState s l).state = .waiting) :
    (laneOfState (endLane l s) l).state ≠ .closed ∧ (endLane l s).HasAlert .stream := by
  rcases h with h | h
  · rw [endLane_held h, laneOfState_appendEntry, (changedLane ..).1]
    exact ⟨by simp, hasAlert_raise .stream _⟩
  · rw [endLane_waiting h, laneOfState_appendEntry, (changedLane ..).1]
    exact ⟨by simp, hasAlert_raise .stream _⟩

theorem LaneAgrees.endLane (h : LaneAgrees l s t) : LaneAgrees l (endLane l s) (endLane l t) := by
  unfold Machine.endLane
  simp only [h.lane, h.claimCondition]
  split
  · exact h
  · split
    · exact (h.removeEntry l).closeLane _
    · exact h.changeLane _
    · exact (h.changeLane _).appendEntry _
  · exact (h.changeLane _).appendEntry _
  · exact (h.changeLane _).appendEntry _
  · exact h
  · exact h

theorem endLane_withCycle (c : CycleEngine) : endLane l { s with cycle := c } = { endLane l s with cycle := c } := by
  have hstate : (laneOfState { s with cycle := c } l).state = (laneOfState s l).state := rfl
  have hclaim : claimCondition l { s with cycle := c } = claimCondition l s := rfl
  simp only [endLane, hstate, hclaim]
  cases (laneOfState s l).state with
  | opening => cases claimCondition l s <;> rfl
  | closed | waiting | held | cancelling | closing => rfl

theorem oneLane_endLane (l : LaneNo) (s : State) : OneLane l s (endLane l s) := by
  unfold endLane
  split
  · exact .refl l s
  · split
    · exact (oneLane_removeEntry l s).trans (oneLane_closeLane ..)
    · exact oneLane_changeLane ..
    · exact (oneLane_changeLane ..).trans (oneLane_appendEntry rfl _)
  · exact (oneLane_changeLane ..).trans (oneLane_appendEntry rfl _)
  · exact (oneLane_changeLane ..).trans (oneLane_appendEntry rfl _)
  · exact .refl l s
  · exact .refl l s

/-- An outbox with something in it that the entry into WITHDRAWING does not remove: no CLAIM, and no RESTART (R33). -/
abbrev State.OutboxStands (s : State) : Prop :=
  s.streams.outbox ≠ [] ∧ ∀ e ∈ s.streams.outbox, e.val ≠ .restart ∧ ∀ l, e.val ≠ .claim l

theorem outboxStands_appendEntry {e : OutboxEntry} (he : e ≠ .restart ∧ ∀ l, e ≠ .claim l) (h : s.OutboxStands) :
    (appendEntry e s).OutboxStands := by
  refine ⟨by simp [appendEntry], fun w hw => ?_⟩
  rcases List.mem_append.mp hw with hw | hw
  · exact h.2 w (List.mem_of_mem_filter hw)
  · rw [List.mem_singleton.mp hw]
    exact he

theorem outboxStands_endLane (l : LaneNo) (h : s.OutboxStands) : (endLane l s).OutboxStands := by
  have hheld : claimCondition l s ≠ .held := by
    have hn : ¬(s.streams.outbox.any fun w => w.val = .claim l) = true := by
      simpa using fun w hw => (h.2 w hw).2 l
    unfold claimCondition
    rw [if_neg hn]
    split <;> decide
  unfold endLane
  split
  · exact h
  · split
    · exact absurd ‹_› hheld
    · exact h
    · exact outboxStands_appendEntry (by simp) h
  · exact outboxStands_appendEntry (by simp) h
  · exact outboxStands_appendEntry (by simp) h
  · exact h
  · exact h

/-! ## Every lane in its turn -/

/-- The listed lanes asked to close: each as it would be alone, and no other lane touched. -/
structure LanesWithdrawn (ls : List LaneNo) (s t : State) : Prop where
  each : ∀ l ∈ ls, LaneAgrees l (endLane l s) t
  other : ∀ l, l ∉ ls → LaneAgrees l s t
  clean : t.StreamsClean
  stay : AlertsStay s t
  alert : (∃ l ∈ ls, (laneOfState s l).state = .held ∨ (laneOfState s l).state = .waiting) → t.HasAlert .stream
  stands : s.OutboxStands → t.OutboxStands
  idle : (∀ l ∈ ls, (laneOfState s l).state = .closed) → t = s
  mode : t.mode = s.mode
  cycle : t.cycle = s.cycle
  alloc : t.alloc = s.alloc
  line : t.line = s.line
  port : t.port = s.port
  notes : t.notes = s.notes
  pins : t.pins = s.pins

theorem withdrawLanes_clean (ls : List LaneNo) (hn : ls.Nodup) : ∀ s : State, s.StreamsClean →
    ∃ t, withdrawLanes ls s = .on t ∧ LanesWithdrawn ls s t := by
  induction ls with
  | nil => exact fun s hs => ⟨s, rfl, by simp, fun _ _ => .refl _ s, hs, .of_eq rfl, by simp, id, fun _ => rfl, rfl, rfl, rfl,
      rfl, rfl, rfl, rfl⟩
  | cons l ls ih =>
    intro s hs
    obtain ⟨hl, hn⟩ := List.nodup_cons.mp hn
    have hone := oneLane_endLane l s
    obtain ⟨hline, hcycle, hmode, halloc, hnotes, hport, -, hpins, -⟩ := endLane_frame l s
    have hself (k : LaneNo) (hk : k ≠ l) := hone.other k hk
    have hends := endLane_ends (s := s) (l := l)
    obtain ⟨t, ht, h⟩ := ih hn (endLane l s) (hone.clean hs)
    have hother (k : LaneNo) (hk : k ∈ ls) : k ≠ l := fun heq => hl (heq ▸ hk)
    refine ⟨t, by rw [withdrawLanes, readStreams_clean _ _ hs, Course.next_on, ht], {
      each := fun k hk => ?_
      other := fun k hk => ?_
      clean := h.clean
      stay := hone.stay.trans h.stay
      alert := fun ⟨k, hk, hopen⟩ => ?_
      stands := fun hst => h.stands (outboxStands_endLane l hst)
      idle := fun hclosed => ?_
      mode := h.mode.trans hmode
      cycle := h.cycle.trans hcycle
      alloc := h.alloc.trans halloc
      line := h.line.trans hline
      port := h.port.trans hport
      notes := h.notes.trans hnotes
      pins := h.pins.trans hpins }⟩
    · rcases List.mem_cons.mp hk with rfl | hk
      · exact h.other k hl
      · exact (hself k (hother k hk)).endLane.trans (h.each k hk)
    · obtain ⟨hkl, hks⟩ : k ≠ l ∧ k ∉ ls := by simpa using hk
      exact (hself k hkl).trans (h.other k hks)
    · rcases List.mem_cons.mp hk with rfl | hk
      · exact h.stay.stays _ (hends hopen).2
      · exact h.alert ⟨k, hk, by rwa [(hself k (hother k hk)).lane]⟩
    · have hsame := endLane_closed (hclosed l List.mem_cons_self)
      rw [hsame] at h
      exact h.idle fun k hk => hclosed k (List.mem_cons_of_mem l hk)

theorem laneBox_removeRestart (s : State) (k : LaneNo) : laneBox k (removeRestart s) = laneBox k s := by
  unfold removeRestart
  split
  · rfl
  · rename_i w ws hout
    have hkeep : ∀ v ∈ ws, v.val.lane? = some k → decide (v.val ≠ .restart) = true := by
      intro v _ hv
      refine decide_eq_true fun hr => ?_
      rw [hr] at hv
      cases hv
    have hrest := laneBox_kept (q := fun e => e.val ≠ .restart) hkeep
    unfold laneBox
    rw [hout]
    simp only []
    split
    · rename_i hw
      have hr : w.val = .restart := by simp at hw; exact hw.1
      rw [List.map_cons, List.filter_cons_of_neg (by simp [hr, OutboxEntry.lane?])]
      exact hrest
    · simp only [List.map_cons, List.filter_cons]
      rw [hrest]

theorem laneOfState_removeRestart (s : State) (k : LaneNo) : laneOfState (removeRestart s) k = laneOfState s k := by
  unfold removeRestart
  split <;> rfl

theorem removeRestart_clean (h : s.StreamsClean) : (removeRestart s).StreamsClean := by
  unfold removeRestart
  split
  · exact h
  · rename_i w ws hout
    refine ⟨h.1, fun e he => h.2 e ?_⟩
    rw [hout]
    simp only [] at he
    split at he
    · exact List.mem_cons_of_mem w (List.mem_of_mem_filter he)
    · rcases List.mem_cons.mp he with rfl | he
      · exact List.mem_cons_self
      · exact List.mem_cons_of_mem w (List.mem_of_mem_filter he)

theorem removeRestart_none (h : ∀ e ∈ s.streams.outbox, e.val ≠ .restart) : removeRestart s = s := by
  unfold removeRestart
  split
  · rfl
  · rename_i w ws hout
    rw [hout] at h
    have hw : ¬(w.val = .restart && !headInWindow s) = true := by simp [h w List.mem_cons_self]
    have hws : (ws.filter fun e => e.val ≠ .restart) = ws :=
      List.filter_eq_self.mpr fun e he => decide_eq_true (h e (List.mem_cons_of_mem w he))
    simp only [hw, hws]
    rw [if_neg (by simp), ← hout]

/-! ## The entry (R33) -/

/-- What the entry into WITHDRAWING makes of a station before the check of the exit condition. -/
structure Withdrawn (tg : Target) (s v : State) : Prop where
  mode : v.mode = { s.mode with actual := .withdrawing, requested := tg.asRequest, target := tg, withdrawCount := 0 }
  cycle : v.cycle = { s.cycle with foundingPending := false, winnerMarkDue := false }
  alloc : v.alloc = s.alloc
  line : v.line = s.line
  port : v.port = s.port
  notes : v.notes = (announced .withdrawing s).notes
  pins : v.pins = s.pins
  lane : ∀ l, laneOfState v l = laneOfState (endLane l s) l
  box : ∀ l, laneBox l v = laneBox l (endLane l s)
  clean : v.StreamsClean
  alert : v.HasAlert .mode
  stay : AlertsStay (announced .withdrawing s) v
  stream : (∃ l, (laneOfState s l).state = .held ∨ (laneOfState s l).state = .waiting) → v.HasAlert .stream
  stands : s.OutboxStands → v.OutboxStands
  idle : s.StreamsIdle → v.streams = s.streams ∧ v.lanes = s.lanes

theorem enterWithdrawing_withdrawn (tg : Target) (hs : s.StreamsClean) :
    ∃ v, enterWithdrawing tg s = .on (exitCheck v) ∧ Withdrawn tg s v := by
  obtain ⟨haline, hastreams, halanes, -, hapins, haport⟩ := announced_frame .withdrawing s
  have haalloc : (announced .withdrawing s).alloc = s.alloc := by
    rw [← changeMode_cuts_nothing (by decide)]
    exact (changeMode_frame ..).1
  have hamode := announced_mode .withdrawing s
  have hacycle := announced_cycle .withdrawing s
  have halert := (announced_alertsStay .withdrawing s).1
  rw [enterWithdrawing, changeMode_cuts_nothing (by decide)]
  generalize ha : announced .withdrawing s = a at *
  generalize hy : ({ a with mode.target := tg, mode.requested := tg.asRequest, mode.withdrawCount := 0 } : State) = y
  have hystreams : y.streams = s.streams := by rw [← hy, hastreams]
  have hyline : y.line = s.line := by rw [← hy, haline]
  have hylane : laneOfState y = laneOfState s := laneOfState_congr hystreams
  have hyagrees (l : LaneNo) : laneOfState (endLane l y) l = laneOfState (endLane l s) l ∧
      laneBox l (endLane l y) = laneBox l (endLane l s) := by
    have h : LaneAgrees l ({ s with cycle := y.cycle } : State) y :=
      ⟨congrFun hylane l, laneBox_congr (by rw [hystreams]) l, hyline, rfl⟩
    have hend := h.endLane
    rw [endLane_withCycle] at hend
    exact ⟨hend.lane, hend.box⟩
  have hystands : s.OutboxStands → y.OutboxStands := by unfold State.OutboxStands; rw [hystreams]; exact id
  obtain ⟨x, hx, h⟩ := withdrawLanes_clean allLanes (List.nodup_finRange 8) y (streamsClean_congr hystreams hs)
  have hstay : AlertsStay a (removeRestart x) :=
    .trans (.of_eq (by rw [← hy])) (h.stay.trans (.of_eq (removeRestart_frame x).2.2.2.2.2.2.2.1))
  refine ⟨removeRestart x, by rw [hx, Course.finally_on], {
    mode := by simp only [removeRestart_frame, h.mode, ← hy, hamode]
    cycle := by simp only [removeRestart_frame, h.cycle, ← hy, hacycle]
    alloc := by simp only [removeRestart_frame, h.alloc, ← hy, haalloc]
    line := by simp only [removeRestart_frame, h.line, hyline]
    port := by simp only [removeRestart_frame, h.port, ← hy, haport]
    notes := by simp only [removeRestart_frame, h.notes, ← hy, ha]
    pins := by simp only [removeRestart_frame, h.pins, ← hy, hapins]
    lane := fun l => by rw [laneOfState_removeRestart, (h.each l (mem_allLanes l)).lane, (hyagrees l).1]
    box := fun l => by rw [laneBox_removeRestart, (h.each l (mem_allLanes l)).box, (hyagrees l).2]
    clean := removeRestart_clean h.clean
    alert := hstay.stays _ halert
    stay := by rwa [ha]
    stream := fun ⟨l, hl⟩ => by
      have := h.alert ⟨l, mem_allLanes l, by rwa [hylane]⟩
      rwa [State.HasAlert, (removeRestart_frame x).2.2.2.2.2.2.2.1]
    stands := fun hst => by
      have hxst := h.stands (hystands hst)
      rwa [removeRestart_none fun e he => (hxst.2 e he).1]
    idle := fun hi => by
      have hxy := h.idle fun l _ => by rw [hylane]; exact hi.1 l
      rw [hxy, removeRestart_none (by rw [hystreams, hi.2]; simp)]
      exact ⟨hystreams, by rw [← hy, halanes]⟩ }⟩

end

end Sys2Proof.Machine
end

section
/-! An intact mark at a learned station (R29, R31, R33, R34, R35, R47, R87, R88, R93, R111). -/

namespace Sys2Proof.Machine

section
variable {s t x : State} {m : MarkContents}

/-! ## What the mark is, by stamp, sequence and summary (R29) -/

/-- The stamp of a mark is the station's own. -/
abbrev StampEqual (m : MarkContents) (s : State) : Prop :=
  m.patience = s.port.config.patience ∧ m.reclaim = s.port.config.reclaim

/-- The summary of a mark is lawful and is the Claim Queue (R87, R88). -/
abbrev SummaryEqual (m : MarkContents) (s : State) : Prop :=
  lawful m = true ∧ m.summary.map entryOfSummary = s.alloc.queue.map (·.val)

theorem summaryAgrees_iff : summaryAgrees m s = true ↔ SummaryEqual m s := by
  simp [summaryAgrees]

theorem followsCycle_iff : followsCycle m s = true ↔ m.cycle = s.cycle.cycleNumber + 1 := by simp [followsCycle]

theorem intactMark_learnedMismatch (hp : s.cycle.phase = .learned) (hs : ¬StampEqual m s) :
    intactMark m s = learnedMismatch m s := by
  have h : (!stampAgrees m s) = true := by simpa using Bool.eq_false_iff.mpr (mt stampAgrees_iff.mp hs)
  simp only [intactMark, hp, learnedIntact, if_pos h]

/-- An intact mark with an equal stamp, which is not the station's own founding mark: it is followed where sequence, summary and
map are right. -/
theorem intactMark_learnedStamped (hp : s.cycle.phase = .learned) (hq : s.QueueClean) (hd : s.cycle.foundingMarkDue = false)
    (hs : StampEqual m s) : intactMark m s =
      if (m.cycle = s.cycle.cycleNumber + 1 ∧ SummaryEqual m s) ∧ mapDistrusted s = false then followMark m s
      else learnedUnequal m s := by
  have hown : isOwnFounding m s = false := by simp [isOwnFounding, hd]
  simp only [intactMark, hp, learnedIntact, stampAgrees_iff.mpr hs, hown, Bool.not_true, Bool.false_eq_true, if_false,
    Bool.or_false, followsCycle_iff, compareSummary, readQueue_clean hq, Bool.and_eq_true, summaryAgrees_iff,
    Bool.not_eq_true']
  by_cases hf : m.cycle = s.cycle.cycleNumber + 1 <;> simp only [hf, if_true, true_and, false_and, if_false]

theorem learnedMismatch_member (hm : s.mode.actual = .member) :
    learnedMismatch m s = (enterWithdrawing .listen (noteMismatch s)).next (followMark m) := by
  simp only [learnedMismatch, hm]

theorem learnedMismatch_listen (hm : s.mode.actual = .listen) :
    learnedMismatch m s = adopt false m (relearn (noteMismatch s)) := by
  simp only [learnedMismatch, hm]

theorem learnedMismatch_withdrawing (hm : s.mode.actual = .withdrawing) :
    learnedMismatch m s = followMark m (noteMismatch s) := by
  simp only [learnedMismatch, hm]

theorem learnedUnequal_member (hm : s.mode.actual = .member) : learnedUnequal m s = adopt false m (enterResync s) := by
  simp only [learnedUnequal, hm]

theorem learnedUnequal_listen (hm : s.mode.actual = .listen) : learnedUnequal m s = adopt false m (relearn s) := by
  simp only [learnedUnequal, hm]

theorem learnedUnequal_withdrawing (hm : s.mode.actual = .withdrawing) : learnedUnequal m s = followMark m s := by
  simp only [learnedUnequal, hm]

/-! ## A mark followed (R83, R93) -/

/-- What following a mark makes of a learned station: it takes the number and the marker, and reports the positions. -/
structure FollowedMark (m : MarkContents) (s x : State) : Prop where
  cycle : x.cycle = { s.cycle with cycleNumber := m.cycle, marker := m.marker }
  mode : x.mode = s.mode
  alloc : x.alloc = s.alloc
  line : x.line = s.line
  port : x.port = s.port
  notes : x.notes = s.notes
  alerts : x.alerts = s.alerts
  outbox : x.streams.outbox = s.streams.outbox
  absent : ∀ l, (∀ w ∈ s.alloc.queue, ¬(w.val.station = own s ∧ w.val.lane = l)) → laneOfState x l = laneOfState s l
  waiting : ∀ i w, s.alloc.queue[i]? = some w → w.val.station = own s → (laneOfState s w.val.lane).state = .waiting →
    laneOfState x w.val.lane = { laneOfState s w.val.lane with position := some (i + 1) }

/-- A mark at which no tick falls. -/
theorem followMark_followed (hp : s.cycle.phase = .learned) (hq : s.QueueClean) (hs : s.StreamsClean) (hd : s.QueueDistinct)
    (htick : m.cycle.toNat % 1024 ≠ 0) : ∃ x, followMark m s = .on x ∧ FollowedMark m s x := by
  obtain ⟨x, hx, h⟩ := positionReport_noted (s := takeMark m s) hq hs hd
  have hrest := h.rest
  refine ⟨x, ?_, {
    cycle := by rw [hrest]; rfl
    mode := by rw [hrest]; rfl
    alloc := by rw [hrest]; rfl
    line := by rw [hrest]; rfl
    port := by rw [hrest]; rfl
    notes := by rw [hrest]; rfl
    alerts := by rw [hrest]; rfl
    outbox := by rw [hrest]; rfl
    absent := fun l hl => h.absent l hl
    waiting := fun i w hi ho hw => (h.present i w hi ho).trans (if_pos (.inl hw)) }⟩
  rw [followMark, keepQueue, markTick_missed (by exact htick), Course.state_on]
  exact (if_pos hp).trans hx

/-- A learned station that has followed the mark. -/
abbrev MarkFollowed (m : MarkContents) (s t : State) : Prop :=
  t.cycle.cycleNumber = m.cycle ∧ t.cycle.marker = m.marker ∧ t.cycle.phase = .learned ∧ t.alloc = s.alloc ∧
  t.line.framed = true ∧ t.line.silenceTimer = some 0 ∧ t.line.txSlots = [] ∧ t.port = s.port ∧
  t.notes.ring = s.notes.ring

/-- A station that takes the mark as it arrived follows it. -/
theorem FollowedMark.over (h : FollowedMark m x t) (hp : x.cycle.phase = .learned) (hl : x.line = (markArrived s).line)
    (ha : x.alloc = s.alloc) (hport : x.port = s.port) (hn : x.notes.ring = s.notes.ring) :
    MarkFollowed m s t.markOver :=
  ⟨by simp only [h.cycle], by simp only [h.cycle], by simp only [h.cycle, hp], by simp only [h.alloc, ha],
    by simp only [h.line, hl], by simp only [h.line, hl], by simp only [h.line, hl], by simp only [h.port, hport],
    by simp only [h.notes, hn]⟩

/-- A mark followed in WITHDRAWING, which counts it. -/
theorem execMarkReceived_followed {cause : FaultCause} (hr : s.Running) (hp : s.cycle.phase = .learned)
    (hm : s.mode.actual = .withdrawing)
    (hcount : s.mode.withdrawCount < 15) (hlen : m.summary.length ≤ 16) (harm : s.port.snap.armed = false)
    (hmark : intactMark m (markArrived s) = .on t) (h : FollowedMark m x t) (hmode : x.mode = { s.mode with cause := cause })
    (hxp : x.cycle = (markArrived s).cycle) (hl : x.line = (markArrived s).line)
    (ha : x.alloc = s.alloc) (hport : x.port = s.port) (hn : x.notes = s.notes) :
    exec (.markReceived (.intact m)) s = .next t.markCounted ∧ MarkFollowed m s t.markCounted ∧
      t.markCounted.mode = { s.mode with withdrawCount := s.mode.withdrawCount + 1, cause := cause } := by
  have htm : t.mode = { s.mode with cause := cause } := h.mode.trans hmode
  refine ⟨execMarkReceived_counted hr hlen hm (congrArg Course.state hmark) (by simp only [htm, hm])
    (by simp only [htm, hcount]) (by rw [h.port, hport, harm]),
    h.over (by rw [hxp]; exact hp) hl ha hport (by rw [hn]), by simp only [htm]⟩

/-! ## Learning again with the mark (R29, R31, R35) -/

/-- What step (a) makes of a station with empty tables, at a mark with an equal stamp that is not counted. -/
structure AdoptedAnew (m : MarkContents) (x u : State) : Prop where
  mode : u.mode = x.mode
  port : u.port = x.port
  streams : u.streams = x.streams
  attempts : u.cycle.resyncAttempts = x.cycle.resyncAttempts
  free : ∀ n : Slot, entryAt u n = .free
  trusted : u.alloc.mapFoundWrong = x.alloc.mapFoundWrong
  stay : AlertsStay x u
  lawful : lawful m = true → u.cycle.cycleNumber = m.cycle ∧ u.cycle.marker = m.marker ∧ u.cycle.phase = .rebuild ∧
    u.alloc.queue = (m.summary.map fun e => .fresh (entryOfSummary e)) ∧ u.HasAlert .queueAdopted
  unlawful : Machine.lawful m = false →
    u.cycle.cycleNumber = x.cycle.cycleNumber ∧ u.cycle.phase = x.cycle.phase ∧ u.alloc.queue = []

theorem adopt_anew (hs : StampEqual m x) (he : x.TablesEmpty) (ho : x.mode.actual ≠ .off)
    (htick : m.cycle.toNat % 1024 ≠ 0) : ∃ u, adopt false m x = .on u ∧ AdoptedAnew m x u := by
  cases hlaw : lawful m with
  | true =>
    exact ⟨_, adopt_lawful hs hlaw htick ho false, rfl, rfl, rfl, rfl, he.1, rfl, .of_raise (a := .queueAdopted) rfl,
      fun _ => ⟨rfl, rfl, rfl, rfl, hasAlert_raise .queueAdopted x⟩, fun h => by rw [hlaw] at h; cases h⟩
  | false =>
    exact ⟨x, adopt_unlawful hs hlaw false, rfl, rfl, rfl, rfl, he.1, rfl, .of_eq rfl,
      fun h => (by rw [hlaw] at h; cases h), fun _ => ⟨rfl, rfl, he.2⟩⟩

theorem enterResync_trusted (s : State) : (enterResync s).alloc.mapFoundWrong = false := rfl

end

/-- Settles O13. -/
theorem intactMarkAtALearnedStation : Obligations.IntactMarkAtALearnedStation := by
  intro s m hr hp hq hs hagree harm hdue hlen htick stamp equal followed adopted
  have hdistinct := queueDistinct_of_tablesAgree hagree
  have hstamped (h : stamp) := intactMark_learnedStamped (m := m) (s := markArrived s) hp hq hdue h
  have hmismatch (h : ¬stamp) := intactMark_learnedMismatch (m := m) (s := markArrived s) hp h
  have hanew {x u : State} (h : AdoptedAnew m x u) (hstreams : x.streams = s.streams) (htrust : x.alloc.mapFoundWrong = false)
      (hattempts : x.cycle.resyncAttempts = if s.mode.actual = .member then 0 else s.cycle.resyncAttempts)
      (hnumber : x.cycle.cycleNumber = s.cycle.cycleNumber) (hphase : x.cycle.phase = .adopt) : adopted u.markOver :=
    ⟨h.attempts.trans hattempts, h.free, h.trusted.trans htrust, h.streams.trans hstreams, h.lawful, fun hlaw => by
      obtain ⟨h1, h2, h3⟩ := h.unlawful hlaw
      exact ⟨h1.trans hnumber, h2.trans hphase, h3⟩⟩
  refine ⟨fun heq hm => ?_, fun hst hm hbusy hout => ?_, fun hst hm => ?_, fun hst heq hm => ?_, fun hst heq hm => ?_,
    fun hm hcount => ?_⟩
  · have hmark := hstamped heq.1
    have htrust : mapDistrusted (markArrived s) = false := by
      rcases hm with hm | ⟨-, hw⟩ <;> simp [mapDistrusted, *]
    obtain ⟨x, hx, h⟩ := followMark_followed (s := markArrived s) hp hq hs hdistinct htick
    rw [if_pos ⟨⟨heq.2.1, heq.2.2⟩, htrust⟩, hx] at hmark
    have hact : s.mode.actual ≠ .off ∧ s.mode.actual ≠ .withdrawing := by rcases hm with hm | ⟨hm, -⟩ <;> simp [hm]
    exact ⟨_, execMarkReceived_uncounted hr hact.1 hlen hact.2 (congrArg Course.state hmark)
      (by rw [Course.state_on, h.port]; exact harm), h.over hp rfl rfl rfl rfl, h.mode, h.notes, h.alerts, h.outbox,
      h.waiting, h.absent⟩
  · obtain ⟨v, hv, hw⟩ := enterWithdrawing_withdrawn (s := noteMismatch (markArrived s)) .listen hs
    have hmode := hw.mode
    have hvbusy : ¬v.StreamsIdle := fun hidle => by
      rcases hbusy with hne | ⟨l, hl⟩
      · exact (hw.stands ⟨hne, hout⟩).1 hidle.2
      · exact (endLane_ends (s := noteMismatch (markArrived s)) (.inl hl)).1 ((hw.lane l).symm ▸ hidle.1 l)
    obtain ⟨x, hx, h⟩ := followMark_followed (m := m) (s := v) (by rw [hw.cycle]; exact hp)
      (by unfold State.QueueClean; rw [hw.alloc]; exact hq) hw.clean
      (by unfold State.QueueDistinct; rw [hw.alloc]; exact hdistinct) htick
    have hmark := hmismatch hst
    rw [learnedMismatch_member (by exact hm), hv, exitCheck_busy hvbusy, Course.next_on, hx] at hmark
    refine ⟨_, execMarkReceived_uncounted hr (by simp [hm]) hlen (by simp [hm]) (congrArg Course.state hmark)
      (by rw [Course.state_on, h.port, hw.port]; exact harm), ?_, ?_, ?_, ?_⟩
    · have hnotes : (announced .withdrawing (noteMismatch (markArrived s))).notes.ring = s.notes.ring := by
        rw [announced_notes (by exact hm)]
        rfl
      exact h.over (by rw [hw.cycle]; exact hp) hw.line hw.alloc hw.port (by rw [hw.notes, hnotes])
    · simp only [Course.state_on, h.mode, hmode]
      rfl
    · have hstay := (announced_alertsStay .withdrawing (noteMismatch (markArrived s))).2.trans hw.stay
      have hv := hstay.stays _ (noteMismatch_hasAlert _)
      rwa [State.HasAlert, ← h.alerts] at hv
    · have hv := hw.alert
      rwa [State.HasAlert, ← h.alerts] at hv
  · have hmark := hmismatch hst
    rw [learnedMismatch_listen (by exact hm), adopt_mismatch (by exact hst), adoptMismatch_stays (.inl (by exact hm))] at hmark
    refine ⟨_, execMarkReceived_uncounted hr (by simp [hm]) hlen (by simp [hm]) (congrArg Course.state hmark) (by exact harm),
      rfl, rfl, relearn_empty _, rfl, hasAlert_raise .configMismatch _, rfl⟩
  · have hmark := hstamped hst
    rw [if_neg fun ⟨⟨h1, h2⟩, _⟩ => heq ⟨hst, h1, h2⟩, learnedUnequal_member (by exact hm)] at hmark
    have hresync := enterResync_resynced (s := markArrived s) hm
    have htrust := enterResync_trusted (markArrived s)
    generalize enterResync (markArrived s) = x at *
    obtain ⟨u, hu, h⟩ := adopt_anew (m := m) (x := x) (by rw [StampEqual, hresync.port]; exact hst) hresync.empty
      (by simp [hresync.mode]) htick
    rw [hu] at hmark
    exact ⟨_, execMarkReceived_uncounted hr (by simp [hm]) hlen (by simp [hm]) (congrArg Course.state hmark)
      (by rw [Course.state_on, h.port, hresync.port]; exact harm),
      hanew h hresync.streams htrust (by rw [hresync.cycle, if_pos hm]) (by rw [hresync.cycle]) (by rw [hresync.cycle]),
      h.mode.trans hresync.mode, h.stay.stays _ hresync.conflict, h.stay.stays _ hresync.modeAlert⟩
  · have hmark := hstamped hst
    rw [if_neg, learnedUnequal_listen (by exact hm)] at hmark
    · obtain ⟨u, hu, h⟩ := adopt_anew (m := m) (x := relearn (markArrived s)) hst (relearn_empty _) (by simp [hm]) htick
      rw [hu] at hmark
      exact ⟨_, execMarkReceived_uncounted hr (by simp [hm]) hlen (by simp [hm]) (congrArg Course.state hmark)
        (by rw [Course.state_on, h.port]; exact harm), hanew h rfl rfl (by rw [if_neg (by simp [hm])]; rfl) rfl rfl, h.mode⟩
    · rintro ⟨⟨h1, h2⟩, h3⟩
      rcases heq with heq | hw
      · exact heq ⟨hst, h1, h2⟩
      · simp [mapDistrusted, hw, hm] at h3
  · by_cases hst : stamp
    · have hmark := hstamped hst
      obtain ⟨x, hx, h⟩ := followMark_followed (s := markArrived s) hp hq hs hdistinct htick
      rw [learnedUnequal_withdrawing (by exact hm), ite_self, hx] at hmark
      obtain ⟨ht, hfollowed, hmode⟩ := execMarkReceived_followed hr hp hm hcount hlen harm hmark h rfl rfl rfl rfl rfl rfl
      exact ⟨_, ht, hfollowed, h.outbox, hmode.trans (by rw [if_pos hst]), fun hn => absurd hst hn⟩
    · have hmark := hmismatch hst
      obtain ⟨x, hx, h⟩ := followMark_followed (s := noteMismatch (markArrived s)) hp hq hs hdistinct htick
      rw [learnedMismatch_withdrawing (by exact hm), hx] at hmark
      obtain ⟨ht, hfollowed, hmode⟩ := execMarkReceived_followed hr hp hm hcount hlen harm hmark h rfl rfl rfl rfl rfl rfl
      have hx := noteMismatch_hasAlert (markArrived s)
      rw [State.HasAlert, ← h.alerts] at hx
      exact ⟨_, ht, hfollowed, h.outbox, hmode.trans (by rw [if_neg hst]), fun _ => hx⟩

end Sys2Proof.Machine
end

section
/-! A withdrawal counted, and its end by the limit (R27, R28, R29, R34, R35, R47, R102). -/

namespace Sys2Proof.Machine

section
variable {s t x : State}

/-! ## The end of a withdrawal (R34) -/

/-- A station that has left WITHDRAWING for its target by the limit, its learning having been in phase `p`. -/
abbrev WithdrawalOver (p : Phase) (s t : State) : Prop := t.StreamsIdle ∧ t.ClosedFrom s .abandoned ∧ t.HasAlert .mode ∧
  (s.mode.target = .listen → t.mode.actual = .listen ∧ t.alloc.map = s.alloc.map ∧ t.alloc.queue = s.alloc.queue ∧
    t.alloc.mapFoundWrong = s.alloc.mapFoundWrong ∧ t.cycle.phase = if p = .learned then .verify else p) ∧
  (s.mode.target = .off → t.mode =
      { s.mode with actual := .off, requested := .off, target := .none, withdrawCount := 0 } ∧ t.TablesEmpty ∧
    t.alloc.mapFoundWrong = false ∧ t.cycle.phase = .idle ∧ t.line.driverEnable = false ∧ t.line.silenceTimer = none)

theorem target_of_ne_none (h : s.mode.target ≠ .none) : s.mode.target = .listen ∨ s.mode.target = .off := by
  cases ht : s.mode.target with
  | none => exact absurd ht h
  | listen => exact .inl rfl
  | off => exact .inr rfl

theorem endWithdrawal_over (ht : s.mode.target ≠ .none) : WithdrawalOver s.cycle.phase s (endWithdrawal s) := by
  have h := dropStreams_abandoned s
  unfold endWithdrawal
  generalize dropStreams .abandoned (cutTransmission s) = u at *
  have htarget : u.mode.target = .listen ∨ u.mode.target = .off := by rw [h.mode]; exact target_of_ne_none ht
  have hleft := leaveForTarget_left htarget h.onLine
  refine ⟨streamsIdle_congr hleft.streams h.idle, closedFrom_congr hleft.streams h.lanes, hleft.alert, fun ht => ?_,
    fun ht => ?_⟩
  · rw [leaveForTarget_listen (by rw [h.mode]; exact ht)]
    exact ⟨by simp only [changeMode_mode], by simp only [changeMode_frame, h.alloc], by simp only [changeMode_frame, h.alloc],
      by simp only [changeMode_frame, h.alloc], by simp only [h.phase]⟩
  · rw [leaveForTarget_off (by rw [h.mode]; exact ht)]
    exact ⟨by simp only [enterOff, offEffects, clearTables_frame, changeMode_mode, h.mode],
      clearTables_empty (changeMode .off u), rfl, rfl, rfl, rfl⟩

theorem markEnd_limit (hm : t.mode.actual = .withdrawing) (hc : t.mode.withdrawCount = 15) (hw : s.mode.actual = .withdrawing) :
    markEnd (s.mode.actual = .withdrawing) t = endWithdrawal t.markCounted := by
  have hlim : Config.withdrawalLimit ≤ t.mode.withdrawCount + 1 := by simp only [Config.withdrawalLimit]; omega
  have hover : markEnd (s.mode.actual = .withdrawing) t = countWithdrawal t.markOver := by simp [markEnd, hw]
  rw [hover, countWithdrawal, if_pos hm]
  exact if_pos hlim

/-! ## A damaged mark in WITHDRAWING -/

/-- What a damaged mark leaves of a WITHDRAWING station before it is counted. -/
structure WithdrawalKept (s x : State) : Prop where
  mode : x.mode = s.mode
  map : x.alloc.map = s.alloc.map
  queue : x.alloc.queue = s.alloc.queue
  wrong : x.alloc.mapFoundWrong = s.alloc.mapFoundWrong
  outbox : x.streams.outbox = s.streams.outbox
  framed : x.line.framed = true
  timer : x.line.silenceTimer = s.line.silenceTimer
  alerts : x.alerts = s.alerts
  lanes : ∀ l, (laneOfState x l).state = (laneOfState s l).state
  contends : ∀ l, x.ClaimContends l ↔ s.ClaimContends l

theorem damagedMark_kept_learning (hp : s.cycle.phase = .adopt ∨ s.cycle.phase = .verify) (hm : s.mode.actual = .withdrawing) :
    ∃ x, damagedMark (markLost .damaged s) = .on x ∧ WithdrawalKept s x ∧ x.cycle.phase = .adopt ∧
      x.cycle.cycleNumber = s.cycle.cycleNumber := by
  have h := stepBegun_lost hp
  have hline : (stepBegun (markLost .damaged s)).line = (markLost .damaged s).line ∧
      (stepBegun (markLost .damaged s)).alloc.mapFoundWrong = s.alloc.mapFoundWrong := by
    unfold stepBegun
    split <;> exact ⟨rfl, rfl⟩
  refine ⟨_, ?_, {
    mode := h.mode
    map := h.map
    queue := h.queue
    wrong := hline.2
    outbox := by rw [h.streams]
    framed := by rw [hline.1]; rfl
    timer := by rw [hline.1]; rfl
    alerts := h.alerts
    lanes := fun l => by rw [laneOfState_congr h.streams]
    contends := h.contends }, h.phase, h.number⟩
  rw [damagedMark_learning (by exact hp), countAttempt_uncounted (by rw [h.mode, hm]; decide)]

theorem damagedMark_kept_learned (hp : s.cycle.phase = .learned) (hm : s.mode.actual = .withdrawing) (hq : s.QueueClean)
    (hs : s.StreamsClean) (hd : s.QueueDistinct) (htick : (s.cycle.cycleNumber + 1).toNat % 1024 ≠ 0) :
    ∃ x, damagedMark (markLost .damaged s) = .on x ∧ WithdrawalKept s x ∧ x.cycle.phase = .learned ∧
      x.cycle.cycleNumber = s.cycle.cycleNumber + 1 := by
  generalize hy : ({ markLost .damaged s with cycle.cycleNumber := s.cycle.cycleNumber + 1 } : State) = y
  have hyline : y.line = (markLost .damaged s).line := by rw [← hy]
  have hystreams : y.streams = s.streams := by rw [← hy]; rfl
  have hyphase : y.cycle.phase = .learned := by rw [← hy]; exact hp
  have hynumber : y.cycle.cycleNumber = s.cycle.cycleNumber + 1 := by rw [← hy]
  have hyalloc : y.alloc = s.alloc := by rw [← hy]; rfl
  have hymode : y.mode = s.mode := by rw [← hy]; rfl
  have hyalerts : y.alerts = s.alerts := by rw [← hy]; rfl
  obtain ⟨x, hx, h⟩ := positionReport_noted (s := y) (by unfold State.QueueClean; rw [hyalloc]; exact hq)
    (streamsClean_congr hystreams hs) (by unfold State.QueueDistinct; rw [hyalloc]; exact hd)
  have hrest := h.rest
  have hlane (l : LaneNo) : (laneOfState x l).state = (laneOfState s l).state := by
    obtain ⟨p, hp⟩ := h.lane l
    rw [hp, laneOfState_congr hystreams]
  have hline : x.line = (markLost .damaged s).line := by rw [hrest]; exact hyline
  refine ⟨x, ?_, {
    mode := by rw [hrest]; exact hymode
    map := by rw [hrest]; exact congrArg _ hyalloc
    queue := by rw [hrest]; exact congrArg _ hyalloc
    wrong := by rw [hrest]; exact congrArg _ hyalloc
    outbox := by rw [hrest]; exact congrArg (·.outbox) hystreams
    framed := by rw [hline]; rfl
    timer := by rw [hline]; rfl
    alerts := by rw [hrest]; exact hyalerts
    lanes := hlane
    contends := fun l => by
      simp only [State.ClaimContends, claimInWindow, hlane, hline, markLost, h.clean.1 l, hs.1 l] },
    by rw [hrest]; exact hyphase, by rw [hrest]; exact hynumber⟩
  have hdamaged : damagedMark (markLost .damaged s) = keepQueue y := by
    rw [← hy]
    simp only [damagedMark, markLost, hp, learnedDamaged, hm]
  rw [hdamaged, keepQueue, markTick_missed (by rwa [hynumber]), Course.state_on, if_pos hyphase, hx]

/-- A damaged mark of a withdrawal, counted below the limit. -/
theorem execMarkReceived_damaged_counted (hr : s.Running) (hm : s.mode.actual = .withdrawing)
    (hx : damagedMark (markLost .damaged s) = .on x) (h : WithdrawalKept s x) (hc : s.mode.withdrawCount < 15) :
    exec (.markReceived .damaged) s = .next x.markCounted ∧
      x.markCounted.mode = { s.mode with withdrawCount := s.mode.withdrawCount + 1 } ∧ x.alloc.map = s.alloc.map ∧
      x.alloc.queue = s.alloc.queue ∧ x.streams.outbox = s.streams.outbox ∧ x.line.framed = true ∧
      x.line.silenceTimer = s.line.silenceTimer ∧ x.alerts = s.alerts := by
  refine ⟨?_, by simp only [h.mode], h.map, h.queue, h.outbox, h.framed, h.timer, h.alerts⟩
  rw [execMarkReceived_damaged hr (by simp [hm]), hx, Course.state_on,
    markEnd_counted hm (by rw [h.mode, hm]) (by rw [h.mode]; exact hc)]

/-- The sixteenth mark of a withdrawal, damaged: the station leaves at once. -/
theorem execMarkReceived_damaged_limit (hr : s.Running) (hm : s.mode.actual = .withdrawing) (ht : s.mode.target ≠ .none)
    (hx : damagedMark (markLost .damaged s) = .on x) (h : WithdrawalKept s x) (hc : s.mode.withdrawCount = 15) :
    ∃ t, exec (.markReceived .damaged) s = .next t ∧ WithdrawalOver x.cycle.phase s t := by
  have hmode : x.markCounted.mode = { s.mode with withdrawCount := s.mode.withdrawCount + 1 } := by simp only [h.mode]
  obtain ⟨hidle, hclosed, halert, hlisten, hoff⟩ := endWithdrawal_over (s := x.markCounted) (by rw [hmode]; exact ht)
  refine ⟨_, ?_, hidle, fun l hl => ?_, halert, fun htarget => ?_, fun htarget => ?_⟩
  · rw [execMarkReceived_damaged hr (by simp [hm]), hx, Course.state_on,
      markEnd_limit (by rw [h.mode, hm]) (by rw [h.mode, hc]) hm]
  · rw [hclosed l ((h.lanes l).trans_ne hl)]
    exact if_congr (h.contends l) rfl rfl
  · obtain ⟨h1, h2, h3, h4, h5⟩ := hlisten (by rw [hmode]; exact htarget)
    exact ⟨h1, h2.trans h.map, h3.trans h.queue, h4.trans h.wrong, h5⟩
  · obtain ⟨h1, hrest⟩ := hoff (by rw [hmode]; exact htarget)
    exact ⟨by rw [h1, hmode], hrest⟩

end

/-- Settles O18. -/
theorem withdrawalEndsAtItsLimit : Obligations.WithdrawalEndsAtItsLimit := by
  intro s hr hq hs hagree leaves
  refine ⟨fun hm ht htick => ?_, fun hm hc ht => ?_, fun hm hc => ?_⟩
  · intro counted
    refine ⟨fun hp => ?_, fun hp => ?_⟩
    · obtain ⟨x, hx, h, hphase, hnumber⟩ := damagedMark_kept_learning hp hm
      refine ⟨fun hc => ?_, fun hc => ?_⟩
      · obtain ⟨hexec, hcounted⟩ := execMarkReceived_damaged_counted hr hm hx h hc
        exact ⟨_, hexec, hcounted, hphase, hnumber⟩
      · exact hphase ▸ execMarkReceived_damaged_limit hr hm ht hx h hc
    · obtain ⟨x, hx, h, hphase, hnumber⟩ :=
        damagedMark_kept_learned hp hm hq hs (queueDistinct_of_tablesAgree hagree) htick
      refine ⟨fun hc => ?_, fun hc => ?_⟩
      · obtain ⟨hexec, hcounted⟩ := execMarkReceived_damaged_counted hr hm hx h hc
        exact ⟨_, hexec, hcounted, hphase, hnumber⟩
      · exact hphase ▸ execMarkReceived_damaged_limit hr hm ht hx h hc
  · have hlim : (s.mode.actual = .withdrawing && Config.withdrawalLimit ≤ s.mode.withdrawCount) = true := by
      simp [hm, Config.withdrawalLimit, hc]
    refine ⟨endWithdrawal s, ?_, endWithdrawal_over ht⟩
    simp only [exec, execWithdrawalLimit, lineEvent_on hr (show s.mode.actual ≠ .off by simp [hm]), hlim, if_true]
  · have hlim : (s.mode.actual = .resync && Config.resyncLimit ≤ s.cycle.resyncAttempts) = true := by
      simp [hm, Config.resyncLimit, hc]
    have h := faultEntry_learnsAgain (cause := .resyncFailed) (s := s) (by simp [hm]) (by simp [hm]) (.inl rfl)
    refine ⟨faultEntry .resyncFailed s, ?_, by rw [h.mode], by rw [h.mode], by rw [h.mode], h.phase, h.empty, h.idle, h.lanes,
      h.alert⟩
    simp only [exec, execResyncAttemptLimit, lineEvent_on hr (show s.mode.actual ≠ .off by simp [hm]), hlim, if_true]

end Sys2Proof.Machine
end

section
/-! The expiry of the lapse timer (R33, R34, R38, R102, R141, R170). -/

namespace Sys2Proof.Machine

section
variable {s t v : State} {l : LaneNo}

/-! ## Lanes asked to close with nothing on the line (R33) -/

/-- A lane asked to close, by its record and its outbox entries. -/
abbrev LaneEnded (l : LaneNo) (s t : State) : Prop :=
  ((laneOfState s l).state = .held →
    laneOfState t l = { laneOfState s l with state := .closing, changed := true } ∧ laneBox l t = [.release l]) ∧
  ((laneOfState s l).state = .waiting →
    laneOfState t l = { laneOfState s l with state := .cancelling, changed := true } ∧ laneBox l t = [.withdraw l]) ∧
  ((laneOfState s l).state = .opening → (∃ e ∈ s.streams.outbox, e.val = .claim l) →
    (laneOfState t l).state = .closed ∧ (laneOfState t l).outcome = .cancelled ∧ laneBox l t = []) ∧
  ((laneOfState s l).state = .opening → (∀ e ∈ s.streams.outbox, e.val.lane? ≠ some l) →
    laneOfState t l = { laneOfState s l with state := .cancelling, changed := true } ∧ laneBox l t = [.withdraw l]) ∧
  ((laneOfState s l).state = .closed ∨ (laneOfState s l).state = .closing ∨ (laneOfState s l).state = .cancelling →
    laneOfState t l = laneOfState s l)

theorem endingLane {e : OutboxEntry} (he : e.lane? = some l) (st : StreamState) (s : State) :
    let t := appendEntry e (changeLane l (fun r => { r with state := st }) s)
    laneOfState t l = { laneOfState s l with state := st, changed := true } ∧ laneBox l t = [e] :=
  ⟨(laneOfState_appendEntry ..).trans (changedLane l (fun r => { r with state := st }) s).1,
    (laneBox_appendEntry ..).trans (if_pos he)⟩

theorem endLane_ended (hl : s.line.onLine = none) : LaneEnded l s (endLane l s) := by
  refine ⟨fun h => ?_, fun h => ?_, fun h ⟨e, he, hclaim⟩ => ?_, fun h hnone => ?_, fun h => ?_⟩
  · rw [endLane_held h]
    exact endingLane rfl _ s
  · rw [endLane_waiting h]
    exact endingLane rfl _ s
  · have hmem : OutboxEntry.claim l ∈ laneBox l s := by
      rw [← claimWaits_iff, List.any_eq_true]
      exact ⟨e, he, decide_eq_true hclaim⟩
    rw [endLane_claimHeld h (claimCondition_held hl hmem), laneOfState_closeLane, if_pos rfl]
    exact ⟨rfl, rfl, (laneBox_removeEntry ..).trans (if_pos rfl)⟩
  · have hbox : laneBox l s = [] := by
      rw [List.filter_eq_nil_iff]
      intro e he
      obtain ⟨w, hw, rfl⟩ := List.mem_map.mp he
      simpa using hnone w hw
    rw [endLane_claimSent h (claimCondition_sent hl hbox)]
    exact endingLane rfl _ s
  · rcases h with h | h
    · rw [endLane_closed h]
    · rw [endLane_ending h]

/-! ## The exit condition met at the entry (R34) -/

/-- A station with no stream and nothing to send leaves WITHDRAWING for LISTEN at the entry. -/
theorem Withdrawn.leaves_listen (h : Withdrawn .listen s v) (hi : s.StreamsIdle) :
    let t := exitCheck v
    t.mode = { s.mode with actual := .listen, requested := .listen, target := .listen, withdrawCount := 0 } ∧
    t.streams = s.streams ∧ t.alloc = s.alloc ∧ t.port = s.port ∧
    t.cycle.phase = (if s.cycle.phase = .learned then .verify else s.cycle.phase) ∧ t.HasAlert .mode ∧
    AlertsStay (announced .withdrawing s) t := by
  have hstreams := (h.idle hi).1
  have hvidle : v.StreamsIdle := streamsIdle_congr hstreams hi
  have hleft : exitCheck v = leaveForTarget v := if_pos ((exitReady_iff v).mpr ⟨by rw [h.mode], hvidle⟩)
  intro t
  have ht : t = _ := hleft.trans (leaveForTarget_listen (by rw [h.mode]))
  have hclosed := changeMode_closed .listen hvidle.1
  have hmode := changeMode_mode .listen v
  obtain ⟨halloc, hport, -⟩ := changeMode_frame .listen v
  obtain ⟨halert, hstay⟩ := changeMode_alertsStay .listen v
  have hstayT := h.stay.trans hstay
  generalize changeMode .listen v = u at *
  rw [ht]
  exact ⟨by simp only [hmode, h.mode, Target.asRequest], by simp only [hclosed, hstreams], by simp only [halloc, h.alloc],
    by simp only [hport, h.port], by simp only [h.cycle], halert, hstayT.trans (.of_eq rfl)⟩

/-! ## The expiry (R38, R170) -/

/-- The station whose lapse timer has expired, before its mode acts. -/
abbrev State.lapsed (s : State) : State := raise .lapse { s with port.lapse := none, port.lapseBits := 0 }

theorem execLapseTimerExpired_running (hr : s.Running) (hl : s.port.lapse ≠ none) :
    exec .lapseTimerExpired s = .next (lapseExpired s) := by
  have hrun : (s.pins.resetnLow || s.port.lapse.isNone) = false := by
    rw [Bool.or_eq_false_iff, Option.isNone_eq_false_iff, Option.isSome_iff_ne_none]
    exact ⟨hr, hl⟩
  simp only [exec, execLapseTimerExpired, hrun, Bool.false_eq_true, if_false]

theorem lapseExpired_only (hm : s.mode.actual = .off ∨ s.mode.actual = .listen ∨ s.mode.actual = .withdrawing) :
    lapseExpired s = s.lapsed := by
  rcases hm with hm | hm | hm <;> simp only [lapseExpired, hm]

theorem lapseExpired_joining (hm : s.mode.actual = .joining) :
    lapseExpired s = listenFromLearning { s.lapsed with mode.cause := .lapse } := by
  simp only [lapseExpired, hm]

theorem lapseExpired_withdraws (hm : s.mode.actual = .member ∨ s.mode.actual = .resync) :
    lapseExpired s = (enterWithdrawing .listen { s.lapsed with mode.cause := .lapse }).state := by
  rcases hm with hm | hm <;> simp only [lapseExpired, hm]

end

/-- Settles O46. -/
theorem lapseActsByMode : Obligations.LapseActsByMode := by
  intro s hr expired
  generalize hx : ({ s.lapsed with mode.cause := .lapse } : State) = x
  have hlapse : x.HasAlert .lapse := by rw [← hx]; exact hasAlert_raise .lapse _
  have hstreams : x.streams = s.streams := by rw [← hx]; rfl
  have hmode : x.mode = { s.mode with cause := .lapse } := by rw [← hx]; rfl
  have hcycle : x.cycle = s.cycle := by rw [← hx]; rfl
  have halloc : x.alloc = s.alloc := by rw [← hx]; rfl
  have hport : x.port.lapse = none := by rw [← hx]; rfl
  have hline : x.line = s.line := by rw [← hx]; rfl
  refine ⟨fun hl hm => ?_, fun hl hm => ?_, fun hl hm hs => ?_, fun hl => ?_⟩
  · rw [execLapseTimerExpired_running hr hl, lapseExpired_only hm]
    rfl
  · have h := listenFromLearning_left x
    have hexec : exec .lapseTimerExpired s = .next (listenFromLearning x) := by
      rw [execLapseTimerExpired_running hr hl, lapseExpired_joining hm, hx]
    have hclosed : (listenFromLearning x).ClosedFrom s .abandoned :=
      closedFrom_source (laneOfState_congr hstreams) (claimContends_congr hline hstreams) h.lanes
    exact ⟨_, ⟨hexec, by rw [h.mode], by rw [h.mode, hmode], h.stay.stays _ hlapse, h.alert, by rw [h.port, hport]⟩,
      by rw [h.mode, hmode], h.idle, hclosed, by rw [h.cycle, hcycle], h.alloc.trans halloc⟩
  · obtain ⟨v, hv, h⟩ := enterWithdrawing_withdrawn .listen (streamsClean_congr hstreams hs)
    have hexec : exec .lapseTimerExpired s = .next (exitCheck v) := by
      rw [execLapseTimerExpired_running hr hl, lapseExpired_withdraws hm, hx, hv, Course.state_on]
    have hannounced : (announced .withdrawing x).HasAlert .lapse := (announced_alertsStay .withdrawing x).2.stays _ hlapse
    refine ⟨fun hi => ?_, fun hfit honLine hopen => ?_⟩
    · obtain ⟨htmode, htstreams, htalloc, htport, htphase, halert, hstay⟩ := h.leaves_listen (streamsIdle_congr hstreams hi)
      exact ⟨_, ⟨hexec, by rw [htmode], by rw [htmode, hmode], hstay.stays _ hannounced, halert, by rw [htport, hport]⟩,
        by rw [htmode], htstreams.trans hstreams, htalloc.trans halloc, by rw [htphase, hcycle]⟩
    · have hlane : laneOfState x = laneOfState s := laneOfState_congr hstreams
      have hbusy : ¬v.StreamsIdle := fun hidle => by
        obtain ⟨l, hl⟩ := hopen
        exact (endLane_ends (by rwa [hlane])).1 ((h.lane l).symm ▸ hidle.1 l)
      rw [exitCheck_busy hbusy] at hexec
      refine ⟨v, ⟨hexec, by rw [h.mode]; rfl, by rw [h.mode, hmode], h.stay.stays _ hannounced, h.alert,
        by rw [h.port, hport]⟩, by rw [h.mode], by rw [h.mode], by rw [h.mode], by rw [h.cycle, hcycle],
        h.alloc.trans halloc, fun l => ?_⟩
      have hended := endLane_ended (s := x) (l := l) (by rw [hline, honLine])
      rw [LaneEnded, ← h.lane, ← h.box, hlane, hstreams] at hended
      exact hended
  · have hstopped : (s.pins.resetnLow || s.port.lapse.isNone) = true := by simp [hl]
    simp only [exec, execLapseTimerExpired, hstopped, if_true]

end Sys2Proof.Machine
end

section
/-! SET_MODE in every mode (R14, R22, R30, R33, R34, R36, R37, R141). -/

namespace Sys2Proof.Machine

section
variable {s t u v : State}

/-! ## What a change of mode leaves of the notes received and the lanes listened to -/

theorem readTx_ring (i : Nat) (n : TxNote) (s : State) : (readTx i n s).1.notes.ring = s.notes.ring := by
  unfold readTx
  simp only []
  split
  · simp only [recordRead_frame]
  · split
    · simp only [recordRead_frame]
    · simp only [updateTx, recordRead_frame]

theorem judgeNote_ring (i : Nat) (n : TxNote) (rb : Readback) (a : Answer) (s : State) :
    (judgeNote i n rb a s).notes.ring = s.notes.ring := by
  unfold judgeNote
  simp only []
  split
  · rfl
  · split <;> rfl

theorem noteLost_ring (s : State) : (noteLost s).notes.ring = s.notes.ring := by
  unfold noteLost
  split
  · rfl
  · split
    · rfl
    · split <;> rfl

theorem noteCompleted_ring (rb : Readback) (a : Answer) (s : State) : (noteCompleted rb a s).notes.ring = s.notes.ring := by
  unfold noteCompleted
  split
  · rfl
  · split
    · rfl
    · rename_i i _ _ n _
      have hread := readTx_ring i n s
      split <;> rename_i x hx <;> rw [hx] at hread
      · exact (judgeNote_ring ..).trans hread
      · exact hread

/-- The ring of received notes and the listen table are as they were. -/
abbrev HostSideKept (s t : State) : Prop := t.notes.ring = s.notes.ring ∧ t.lanes.listen = s.lanes.listen

theorem HostSideKept.trans (h : HostSideKept s t) (g : HostSideKept t u) : HostSideKept s u :=
  ⟨g.1.trans h.1, g.2.trans h.2⟩

theorem closeOpenLanes_listen (o : StreamOutcome) (ls : List LaneNo) : ∀ s : State,
    (closeOpenLanes o ls s).lanes.listen = s.lanes.listen := by
  induction ls with
  | nil => exact fun s => rfl
  | cons l ls ih =>
    intro s
    unfold closeOpenLanes
    rw [ih]
    split <;> rfl

theorem dropStreams_hostSide (o : StreamOutcome) (s : State) : HostSideKept s (dropStreams o s) := by
  refine ⟨by rw [(dropStreams_frame o s).2.2.2.2.1], ?_⟩
  have h := closeOpenLanes_listen o allLanes s
  unfold dropStreams
  generalize closeOpenLanes o allLanes s = u at *
  exact h

theorem discardNotes_hostSide (s : State) : HostSideKept s (discardNotes s) :=
  ⟨by rw [discardNotes_notes], by rw [(discardNotes_frame s).2.2.2.2.2.1]⟩

theorem cutControl_hostSide {report : Body → State → State} (b : Body) (h : HostSideKept s (report b s)) :
    HostSideKept s (cutControl report b s) := by
  unfold cutControl
  split
  · exact ⟨rfl, rfl⟩
  · split
    · exact h
    · exact ⟨rfl, rfl⟩

theorem controlLost_hostSide (b : Body) (s : State) : HostSideKept s (controlLost b s) := by
  unfold controlLost
  split
  · exact ⟨rfl, rfl⟩
  · split <;> exact ⟨rfl, rfl⟩

theorem controlMismatch_hostSide (b : Body) (s : State) : HostSideKept s (controlMismatch b s) := by
  unfold controlMismatch
  split
  · exact ⟨rfl, rfl⟩
  · split <;> exact ⟨rfl, rfl⟩

theorem cutTransmission_hostSide (s : State) : HostSideKept s (cutTransmission s) := by
  have h : HostSideKept s (reportCut s) := by
    unfold reportCut
    split
    · rename_i src _ b _
      cases src with
      | outbox =>
        simp only [messageCut]
        split
        · exact cutControl_hostSide b (controlLost_hostSide b s)
        · exact cutControl_hostSide (s := { s with line.wonWindow := true }) b (controlMismatch_hostSide b _)
      | note =>
        simp only [messageCut]
        split
        · exact ⟨noteLost_ring s, by simp⟩
        · exact ⟨noteCompleted_ring _ _ { s with line.wonWindow := true }, by simp⟩
    all_goals exact ⟨rfl, rfl⟩
  unfold cutTransmission
  generalize reportCut s = u at *
  exact h

theorem announced_hostSide (m : Mode) (s : State) : HostSideKept s (announced m s) := by
  unfold announced
  simp only []
  split
  · exact HostSideKept.trans ⟨rfl, rfl⟩ (discardNotes_hostSide _)
  · exact ⟨rfl, rfl⟩

theorem changeMode_hostSide (m : Mode) (s : State) : HostSideKept s (changeMode m s) := by
  by_cases hm : m = .off ∨ m = .listen
  · rw [changeMode_cuts hm]
    exact (announced_hostSide m s).trans (cutTransmission_hostSide _)
  · rw [changeMode_cuts_nothing hm]
    exact announced_hostSide m s

/-! ## The entry into OFF (R22) -/

/-- What a station on its way to OFF still holds of what OFF keeps. -/
structure OffKeeps (s u : State) : Prop where
  cause : u.mode.cause = s.mode.cause
  number : u.cycle.cycleNumber = s.cycle.cycleNumber
  marker : u.cycle.marker = s.cycle.marker
  config : u.port.config = s.port.config
  host : HostSideKept s u

/-- A station that has entered OFF. -/
abbrev OffEntered (s t : State) : Prop :=
  t.mode = { s.mode with actual := .off, requested := .off, target := .none, withdrawCount := 0 } ∧
  t.line.driverEnable = false ∧ t.line.framed = false ∧ t.line.silenceTimer = none ∧ t.line.onLine = none ∧
  t.line.driverFaultCount = 0 ∧ t.cycle.phase = .idle ∧ t.cycle.resyncAttempts = 0 ∧
  t.cycle.cycleNumber = s.cycle.cycleNumber ∧ t.cycle.marker = s.cycle.marker ∧ t.TablesEmpty ∧
  (∀ l, t.lanes.txFifo.get l = [] ∧ t.lanes.rxFifo.get l = []) ∧ t.lanes.lastServed = 7 ∧
  t.lanes.listen = s.lanes.listen ∧ t.port.snap.armed = false ∧ t.port.config = s.port.config ∧
  t.notes.ring = s.notes.ring ∧ t.HasAlert .mode

theorem enterOff_entered (h : OffKeeps s u) : OffEntered s (enterOff u) := by
  have hmode := changeMode_mode .off u
  have hcycle := changeMode_cycle .off u
  have hline := (changeMode_cut (m := .off) (.inl rfl) u).1
  have hport := (changeMode_frame .off u).2.1
  have hhost := h.host.trans (changeMode_hostSide .off u)
  have halert := (changeMode_alertsStay .off u).1
  unfold enterOff
  generalize changeMode .off u = x at *
  refine ⟨?_, rfl, rfl, rfl, hline, rfl, rfl, rfl, ?_, ?_, clearTables_empty x, fun l => ⟨?_, ?_⟩, rfl, hhost.2, rfl, ?_,
    hhost.1, halert⟩
  · simp only [offEffects, clearTables_frame, hmode, h.cause]
  · simp only [offEffects, clearTables_frame, hcycle, h.number]
  · simp only [offEffects, clearTables_frame, hcycle, h.marker]
  · exact Table.get_replicate ..
  · exact Table.get_replicate ..
  · simp only [offEffects, clearTables_frame, hport, h.config]

theorem enterOff_streams (u : State) : (enterOff u).streams = (changeMode .off u).streams := rfl

/-! ## The entries and the exits of quiet stations (R13, R37) -/

/-- Nothing of the station is on the line, and it takes part in no contention. -/
theorem cutTransmission_quiet (h1 : s.line.onLine = none) (h2 : s.line.contention = .none) : cutTransmission s = s := by
  rw [cutTransmission, reportCut_vacant h1, ← h1, ← h2]

/-- A change of mode of a station that is not a MEMBER and has nothing on the line. -/
theorem changeMode_quietly (h1 : s.line.onLine = none) (h2 : s.line.contention = .none) (hm : s.mode.actual ≠ .member)
    (m : Mode) : changeMode m s =
      raise .mode { s with mode.actual := m, cycle.foundingPending := false, cycle.winnerMarkDue := false } := by
  have ha : announced m s = _ := if_neg hm
  by_cases hc : m = .off ∨ m = .listen
  · rw [changeMode_cuts hc, ha]
    exact cutTransmission_quiet h1 h2
  · rw [changeMode_cuts_nothing hc, ha]

/-- OFF from JOINING or RESYNC. -/
theorem offFromLearning_entered (s : State) :
    OffEntered s (offFromLearning s) ∧ (offFromLearning s).StreamsIdle ∧ (offFromLearning s).ClosedFrom s .abandoned ∧
    (offFromLearning s).port.response = s.port.response := by
  have hlanes := cutTransmission_lanesCut s
  have hframe := cutTransmission_frame s
  have hline := cutTransmission_onLine s
  have hhost := cutTransmission_hostSide s
  unfold offFromLearning abandonStreams
  generalize cutTransmission s = a at *
  have hframeB := discardNotes_frame a
  have hhostB := hhost.trans (discardNotes_hostSide a)
  generalize discardNotes a = b at *
  have hframeU := dropStreams_frame .abandoned b
  have hhostU := hhostB.trans (dropStreams_hostSide .abandoned b)
  have hidle := dropStreams_idle .abandoned b
  have hclosed : (dropStreams .abandoned b).ClosedFrom s .abandoned :=
    dropStreams_closedFrom (lanesCut_congr (by simp only [hframeB]) hlanes)
  generalize dropStreams .abandoned b = u at *
  have hstreams : (enterOff u).streams = u.streams := changeMode_closed .off hidle.1
  refine ⟨enterOff_entered ⟨?_, ?_, ?_, ?_, hhostU⟩, streamsIdle_congr hstreams hidle, closedFrom_congr hstreams hclosed, ?_⟩
  · simp only [hframeU, hframeB, hframe]
  · simp only [hframeU, hframeB, hframe]
  · simp only [hframeU, hframeB, hframe]
  · simp only [hframeU, hframeB, hframe]
  · simp only [enterOff, offEffects, clearTables_frame, changeMode_frame, hframeU, hframeB, hframe]

/-! ## The frame of SET_MODE -/

/-- The station as the body of a host command finds it. -/
abbrev State.heard (s : State) : State := { s.frameTaken with port.response := none }

theorem execSetMode_on {b : Byte} {r : Requested} (h : s.HostReady) (hb : requestOf b = some r)
    (hr : requestMode r s.heard = .on t) : exec (.setMode b) s = .next t := by
  simp only [exec, execSetMode, hostFrame_runs (permitted := everyMode) h hb rfl, setModeBody, hr]

theorem withStreamsRead_clean (f : State → State) (hs : s.StreamsClean) : withStreamsRead f s = .on (f s) := by
  rw [withStreamsRead, readStreams_clean _ _ hs, Course.finally_on]

/-- A station with no stream and nothing to send leaves WITHDRAWING for OFF at the entry. -/
theorem Withdrawn.leaves_off (h : Withdrawn .off s v) (hi : s.StreamsIdle) :
    OffEntered s (exitCheck v) ∧ (exitCheck v).streams = s.streams := by
  have hstreams := (h.idle hi).1
  have hvidle : v.StreamsIdle := streamsIdle_congr hstreams hi
  have hleft : exitCheck v = enterOff v :=
    (if_pos ((exitReady_iff v).mpr ⟨by rw [h.mode], hvidle⟩)).trans (leaveForTarget_off (by rw [h.mode]))
  rw [hleft]
  have hlisten : v.lanes.listen = s.lanes.listen := by rw [(h.idle hi).2]
  exact ⟨enterOff_entered ⟨by rw [h.mode], by rw [h.cycle], by rw [h.cycle], by rw [h.port],
    by rw [h.notes]; exact (announced_hostSide .withdrawing s).1, hlisten⟩, (changeMode_closed .off hvidle.1).trans hstreams⟩

/-! ## SET_MODE by mode (R37) -/

theorem setMode_badParam (h : s.HostReady) {b : Byte} (h0 : b ≠ 0) (h1 : b ≠ 1) (h3 : b ≠ 3) :
    exec (.setMode b) s = .next (s.answered .badParam []) := by
  have hnone : requestOf b = none := by
    unfold requestOf
    split
    · exact absurd (BitVec.eq_of_toNat_eq ‹_›) h0
    · exact absurd (BitVec.eq_of_toNat_eq ‹_›) h1
    · exact absurd (BitVec.eq_of_toNat_eq ‹_›) h3
    · rfl
  simp only [exec, execSetMode, hostFrame_bad (permitted := everyMode) h hnone]

theorem requestOf_off : requestOf 0 = some .off := rfl

theorem requestOf_listen : requestOf 1 = some .listen := rfl

theorem requestOf_member : requestOf 3 = some .member := rfl

theorem OffEntered.answered (h : OffEntered s.heard t) (st : Status) : OffEntered s (answer st [] t) := h

/-- OFF from a quiet station in LISTEN. -/
theorem enterOff_quietly (h1 : s.line.onLine = none) (h2 : s.line.contention = .none) (hm : s.mode.actual ≠ .member) :
    OffEntered s (enterOff s) ∧ (enterOff s).streams = s.streams ∧ (enterOff s).alerts = s.alerts.raise .mode := by
  refine ⟨enterOff_entered ⟨rfl, rfl, rfl, rfl, rfl, rfl⟩, ?_, ?_⟩
  · rw [enterOff_streams, changeMode_quietly h1 h2 hm]
    rfl
  · have h : (enterOff s).alerts = (changeMode .off s).alerts := rfl
    rw [h, changeMode_quietly h1 h2 hm]
    rfl

/-- What the entry into JOINING from OFF makes of a station. -/
theorem enterJoining_fromOff (h1 : s.line.onLine = none) (h2 : s.line.contention = .none) (hm : s.mode.actual = .off) :
    (enterJoining s).mode = { s.mode with actual := .joining, requested := .member } ∧
    (enterJoining s).line = { s.line with silenceTimer := some 0, framed := false, driverEnable := true } ∧
    (enterJoining s).cycle = { s.cycle with phase := .adopt, foundingPending := false, winnerMarkDue := false } ∧
    (enterJoining s).TablesEmpty ∧ (enterJoining s).streams = s.streams ∧ (enterJoining s).HasAlert .mode := by
  rw [enterJoining, if_pos hm, changeMode_quietly h1 h2 (by simp [hm])]
  exact ⟨rfl, rfl, rfl, relearn_empty _, rfl, hasAlert_raise .mode _⟩

theorem enterJoining_fromListen (h1 : s.line.onLine = none) (h2 : s.line.contention = .none) (hm : s.mode.actual = .listen) :
    enterJoining s = { s with
      mode := { s.mode with actual := .joining, requested := .member }
      line := { s.line with driverEnable := true }
      cycle := { s.cycle with
        phase := if s.cycle.phase = .learned then .verify else s.cycle.phase, foundingPending := false,
        winnerMarkDue := false }
      alerts := s.alerts.raise .mode } := by
  simp only [enterJoining, hm, reduceCtorEq, if_false, changeMode_quietly h1 h2 (show s.mode.actual ≠ .member by simp [hm])]
  split <;> rfl

theorem requestMode_learning (hm : s.mode.actual = .joining ∨ s.mode.actual = .resync) (hs : s.StreamsClean) :
    requestMode .off s = .on (answer .done [] (offFromLearning s)) ∧
    requestMode .listen s = .on (answer .done [] (listenFromLearning s)) := by
  rcases hm with hm | hm <;> simp only [requestMode, hm, withStreamsRead_clean _ hs, and_self]

theorem requestMode_member {tg : Target} (hm : s.mode.actual = .member) (htg : tg ≠ .none) (hs : s.StreamsClean) :
    ∃ v, requestMode tg.asRequest s = .on (answer .accepted [] (exitCheck v)) ∧ Withdrawn tg s v := by
  obtain ⟨v, hv, h⟩ := enterWithdrawing_withdrawn tg hs
  refine ⟨v, ?_, h⟩
  cases tg with
  | none => exact absurd rfl htg
  | off => simp only [requestMode, hm, Target.asRequest, hv, Course.finally_on]
  | listen => simp only [requestMode, hm, Target.asRequest, hv, Course.finally_on]

/-- A MEMBER station with a stream that holds slots enters WITHDRAWING and stays there. -/
theorem Withdrawn.stays {tg : Target} (h : Withdrawn tg s v) (hheld : ∃ l, (laneOfState s l).state = .held) :
    exitCheck v = v ∧ v.HasAlert .stream := by
  obtain ⟨l, hl⟩ := hheld
  refine ⟨exitCheck_busy fun hidle => ?_, h.stream ⟨l, .inl hl⟩⟩
  exact (endLane_ends (.inl hl)).1 ((h.lane l).symm ▸ hidle.1 l)

end

/-- Settles O49. -/
theorem setModeChangesTheMode : Obligations.SetModeChangesTheMode := by
  intro s h hquiet answers off
  refine ⟨fun b h0 h1 h3 => setMode_badParam h h0 h1 h3, fun hm => ?_, fun hm => ?_, fun hm => ?_, fun hm => ?_, fun hm => ?_⟩
  · obtain ⟨hl, hc, -, -⟩ := hquiet (.inl hm)
    refine ⟨execSetMode_on h requestOf_off (by simp only [requestMode, hm]; rfl), ?_, ?_⟩
    · refine execSetMode_on h requestOf_listen ?_
      simp only [requestMode, hm, listenFromOff, changeMode_quietly (s := s.heard) hl hc (by simp [hm])]
      rfl
    · have hjoined := enterJoining_fromOff (s := s.heard) hl hc hm
      refine ⟨_, execSetMode_on h requestOf_member (by simp only [requestMode, hm]; rfl), ?_⟩
      generalize enterJoining s.heard = t at *
      obtain ⟨hmode, hline, hcycle, hempty, hstreams, halert⟩ := hjoined
      exact ⟨hmode, hline, hcycle, hempty, hstreams, halert, rfl⟩
  · obtain ⟨hl, hc, -, -⟩ := hquiet (.inr hm)
    refine ⟨execSetMode_on h requestOf_listen (by simp only [requestMode, hm]; rfl), ?_, ?_⟩
    · have hentered := enterOff_quietly (s := s.heard) hl hc (by simp [hm])
      refine ⟨_, execSetMode_on h requestOf_off (by simp only [requestMode, hm]; rfl), ?_⟩
      generalize enterOff s.heard = t at *
      obtain ⟨hoff, hstreams, halerts⟩ := hentered
      exact ⟨hoff, hstreams, halerts, rfl⟩
    · refine execSetMode_on h requestOf_member ?_
      simp only [requestMode, hm, enterJoining_fromListen (s := s.heard) hl hc hm]
      rfl
  · refine ⟨execSetMode_on h requestOf_member (by rcases hm with hm | hm <;> simp only [requestMode, hm] <;> rfl),
      fun hs => ?_⟩
    obtain ⟨hoff, hlisten⟩ := requestMode_learning (s := s.heard) hm hs
    obtain ⟨hentered, hidle, hclosed, -⟩ := offFromLearning_entered s.heard
    have hleft := listenFromLearning_left s.heard
    generalize offFromLearning s.heard = t at *
    generalize listenFromLearning s.heard = u at *
    exact ⟨⟨_, execSetMode_on h requestOf_off hoff, hentered, hidle, hclosed, rfl⟩,
      _, execSetMode_on h requestOf_listen hlisten, hleft.mode, hleft.cycle, hleft.alloc, hleft.idle, hleft.lanes,
      hleft.onLine, hleft.contention, hleft.alert, rfl⟩
  · refine ⟨execSetMode_on h requestOf_member (by simp only [requestMode, hm]; rfl), fun hs hi => ⟨?_, ?_⟩,
      fun b hb hs hheld => ?_⟩
    · obtain ⟨v, hv, hw⟩ := requestMode_member (s := s.heard) (tg := .off) hm (by decide) hs
      obtain ⟨hentered, hstreams⟩ := hw.leaves_off hi
      generalize exitCheck v = t at *
      exact ⟨_, execSetMode_on h requestOf_off hv, hentered, hstreams, rfl⟩
    · obtain ⟨v, hv, hw⟩ := requestMode_member (s := s.heard) (tg := .listen) hm (by decide) hs
      obtain ⟨hmode, hstreams, halloc, -, hphase, halert, -⟩ := hw.leaves_listen hi
      generalize exitCheck v = t at *
      exact ⟨_, execSetMode_on h requestOf_listen hv, hstreams, halloc, halert, hmode, hphase, rfl⟩
    · obtain ⟨tg, hreq, hne, htg, hask⟩ : ∃ tg : Target, requestOf b = some tg.asRequest ∧ tg ≠ .none ∧
          tg = (if b = 0 then .off else .listen) ∧ tg.asRequest = (if b = 0 then .off else .listen) := by
        rcases hb with rfl | rfl
        · exact ⟨.off, rfl, by decide, rfl, rfl⟩
        · exact ⟨.listen, rfl, by decide, rfl, rfl⟩
      obtain ⟨v, hv, hw⟩ := requestMode_member (s := s.heard) hm hne hs
      obtain ⟨hstay, hstream⟩ := hw.stays hheld
      rw [hstay] at hv
      have hended (l : LaneNo) (hl : (laneOfState s l).state = .held) :
          laneOfState v l = { laneOfState s l with state := .closing, changed := true } := by
        rw [hw.lane, endLane_held (s := s.heard) hl]
        exact (endingLane (e := .release l) rfl .closing s.heard).1
      have hnotes : v.notes = { s.notes with tx := s.discarded } := hw.notes.trans (announced_notes (s := s.heard) hm)
      refine ⟨_, execSetMode_on h hreq hv, hw.mode.trans (by rw [hask, htg]), fun l hl => ?_, fun l hl => ?_,
        by rw [show (answer .accepted [] v).cycle = _ from hw.cycle], hw.alloc, hw.alert, hstream,
        fun _ => ⟨congrArg NoteUnit.tx hnotes, fun hp => ?_⟩, rfl⟩
      · have hv : laneOfState (answer .accepted [] v) l = _ := hended l hl
        rw [hv]
        exact ⟨rfl, rfl⟩
      · exact (hw.lane l).trans (by rw [endLane_closed (s := s.heard) hl]; rfl)
      · exact hw.stay.stays _ (announced_noteDone (s := s.heard) hm hp)
  · exact ⟨execSetMode_on h requestOf_member (by simp only [requestMode, hm]; rfl),
      execSetMode_on h requestOf_off (by simp only [requestMode, hm]; rfl),
      execSetMode_on h requestOf_listen (by simp only [requestMode, hm]; rfl)⟩

end Sys2Proof.Machine
end

section
/-! The close of the slot field in phase REBUILD (R26, R52, R53, R72 to R74, R91): the rebuilt map, the purge, and the queue
service that holds its notices. -/

namespace Sys2Proof.Machine

/-! ## The rebuilt map (R53) -/

/-- Two tags of one candidate stream. -/
abbrev SameCandidate (t g : RebuildTag) : Prop := g.holder = t.holder ∧ g.lane = t.lane

/-- The candidate of a tag is consistent among the collected tags (R53). -/
abbrev ConsistentTag (tags : List RebuildTag) (t : RebuildTag) : Prop :=
  (∀ g ∈ tags, SameCandidate t g → g.label = t.label ∧ g.cls = t.cls ∧ g.ret = t.ret ∧ g.count = t.count ∧
    g.part = (tags.filter fun k => k.holder = t.holder ∧ k.lane = t.lane ∧ k.slot < g.slot).length) ∧
  (tags.filter fun g => g.holder = t.holder ∧ g.lane = t.lane).length = t.count ∧
  (∀ g ∈ tags, ¬SameCandidate t g → g.label ≠ t.label)

theorem RebuildTag.same_iff (t g : RebuildTag) : t.same g = true ↔ SameCandidate t g := by
  simp only [RebuildTag.same, Bool.and_eq_true, decide_eq_true_eq]
  exact and_congr eq_comm eq_comm

theorem consistent_iff (tags : List RebuildTag) (t : RebuildTag) : consistent tags t = true ↔ ConsistentTag tags t := by
  have hgroup : tags.filter t.same = tags.filter fun g => g.holder = t.holder ∧ g.lane = t.lane :=
    List.filter_congr fun g _ => by rw [Bool.eq_iff_iff, RebuildTag.same_iff, decide_eq_true_iff]
  have hpart (g : RebuildTag) : (tags.filter t.same).filter (fun k => k.slot < g.slot) =
      tags.filter fun k => k.holder = t.holder ∧ k.lane = t.lane ∧ k.slot < g.slot := by
    rw [List.filter_filter]
    refine List.filter_congr fun k _ => ?_
    rw [Bool.eq_iff_iff, Bool.and_eq_true, RebuildTag.same_iff, decide_eq_true_iff, decide_eq_true_iff]
    tauto
  unfold consistent
  simp only [hpart]
  rw [hgroup]
  simp only [Bool.and_eq_true, List.all_eq_true, List.mem_filter, decide_eq_true_eq, Bool.or_eq_true, RebuildTag.same_iff,
    and_assoc]
  refine and_congr ⟨fun h g hg hc => h g ⟨hg, hc⟩, fun h g ⟨hg, hc⟩ => h g hg hc⟩ (and_congr_right fun _ => ?_)
  exact forall₂_congr fun g _ => ⟨fun h hn => h.resolve_left hn, fun h => by tauto⟩

/-- The entry that a tag makes. -/
abbrev RebuildTag.entry (t : RebuildTag) : HeldEntry :=
  { holder := t.holder, lane := t.lane, label := t.label, cls := t.cls, ret := t.ret, part := t.part,
    count := t.count, silence := 0, lastUse := .none, mark := .none }

section
variable {tags : List RebuildTag} {s x v : State} {n : Slot}

theorem find?_slot (hd : (tags.map (·.slot)).Nodup) {t : RebuildTag} (ht : t ∈ tags) :
    tags.find? (fun g => g.slot = t.slot) = some t := by
  cases hf : tags.find? (fun g => g.slot = t.slot) with
  | none => exact absurd (List.find?_eq_none.mp hf t ht) (by simp)
  | some g =>
    have hg : g.slot = t.slot := by simpa using List.find?_some hf
    rw [List.inj_on_of_nodup_map hd (List.mem_of_find?_eq_some hf) ht hg]

theorem rebuiltEntry_tag (hd : (tags.map (·.slot)).Nodup) {t : RebuildTag} (ht : t ∈ tags) (hc : ConsistentTag tags t) :
    rebuiltEntry tags t.slot = .held t.entry := by
  rw [rebuiltEntry, find?_slot hd ht]
  exact if_pos ((consistent_iff tags t).mpr hc)

theorem rebuiltEntry_free (h : ∀ t ∈ tags, t.slot = n → ¬ConsistentTag tags t) : rebuiltEntry tags n = .free := by
  unfold rebuiltEntry
  split
  · rfl
  · rename_i t hf
    have hs : t.slot = n := by simpa using List.find?_some hf
    exact if_neg fun hc => h t (List.mem_of_find?_eq_some hf) hs ((consistent_iff tags t).mp hc)

/-- A slot of the rebuilt map is HELD by a tag of a consistent candidate. -/
theorem rebuiltEntry_held {e : HeldEntry} (h : rebuiltEntry tags n = .held e) :
    ∃ t ∈ tags, t.slot = n ∧ ConsistentTag tags t ∧ e = t.entry := by
  unfold rebuiltEntry at h
  split at h
  · cases h
  · rename_i t hf
    split at h
    · rename_i hc
      cases h
      exact ⟨t, List.mem_of_find?_eq_some hf, by simpa using List.find?_some hf, (consistent_iff tags t).mp hc, rfl⟩
    · cases h

/-- The station with its map rebuilt from the collected tags. -/
structure MapRebuilt (tags : List RebuildTag) (s x : State) : Prop where
  rest : x = { s with alloc := { s.alloc with map := x.alloc.map, mapFoundWrong := false } }
  entry : ∀ n, entryAt x n = rebuiltEntry tags n
  clean : x.MapClean

theorem rebuildMap_rebuilt (h : ∀ w ∈ s.alloc.rebuildList, w.health = .clean) :
    ∃ x, rebuildMap s = .on x ∧ MapRebuilt (s.alloc.rebuildList.map (·.val)) s x := by
  have hread : readRebuildList (clearMap s) = .on (clearMap s) := by
    unfold readRebuildList
    simp only [scan_clean (clearMap s).alloc.rebuildList h, recordScan_clean, Option.isSome_none, Bool.false_eq_true, if_false]
  rw [rebuildMap, hread, Course.finally_on]
  refine ⟨_, rfl, rfl, fun n => ?_, fun n => ?_⟩
  · simp only [entryAt, Table.get_mapIdx, Stored.fresh]
    rfl
  · simp only [Table.get_mapIdx]
    rfl

/-! ## The purge (R91) -/

theorem mem_heldEntries {e : HeldEntry} : e ∈ heldEntries s ↔ ∃ n, entryAt s n = .held e := by
  simp only [heldEntries, List.mem_filterMap]
  constructor
  · rintro ⟨n, -, hn⟩
    refine ⟨n, ?_⟩
    cases h : entryAt s n with
    | free => rw [h] at hn; cases hn
    | held g => rw [h] at hn; cases hn; rfl
  · rintro ⟨n, hn⟩
    exact ⟨n, List.mem_finRange n, by rw [hn]; rfl⟩

theorem streamSlots_ne_nil {st : Station} {l : LaneNo} :
    streamSlots st l s ≠ [] ↔ ∃ e ∈ heldEntries s, e.holder = st ∧ e.lane = l := by
  simp only [streamSlots, ne_eq, List.filter_eq_nil_iff, not_forall, Decidable.not_not, mem_heldEntries]
  constructor
  · rintro ⟨n, -, hn⟩
    cases h : entryAt s n with
    | free => rw [h] at hn; cases hn
    | held e => exact ⟨e, ⟨n, h⟩, by simpa [h, SlotEntry.ofStream] using hn⟩
  · rintro ⟨e, ⟨n, hn⟩, ho, hl⟩
    exact ⟨n, List.mem_finRange n, by simp [hn, SlotEntry.ofStream, ho, hl]⟩

/-- A queue entry whose identity or label is that of a consistent candidate. -/
abbrev HeldByTag (tags : List RebuildTag) (w : QueueEntry) : Prop :=
  ∃ t ∈ tags, ConsistentTag tags t ∧ (w.label = t.label ∨ w.station = t.holder ∧ w.lane = t.lane)

theorem purged_iff (hd : (tags.map (·.slot)).Nodup) (h : MapRebuilt tags s x) (w : QueueEntry) :
    purged x w = true ↔ HeldByTag tags w := by
  have hheld (e : HeldEntry) : e ∈ heldEntries x ↔ ∃ t ∈ tags, ConsistentTag tags t ∧ e = t.entry := by
    simp only [mem_heldEntries, h.entry]
    constructor
    · rintro ⟨n, hn⟩
      obtain ⟨t, ht, -, hc, he⟩ := rebuiltEntry_held hn
      exact ⟨t, ht, hc, he⟩
    · rintro ⟨t, ht, hc, rfl⟩
      exact ⟨t.slot, rebuiltEntry_tag hd ht hc⟩
  have hstream : (!(streamSlots w.station w.lane x).isEmpty) = true ↔
      ∃ e ∈ heldEntries x, e.holder = w.station ∧ e.lane = w.lane := by
    rw [← streamSlots_ne_nil]
    simp
  rw [purged, Bool.or_eq_true, hstream, labelHeld_iff]
  simp only [hheld]
  constructor
  · rintro (⟨e, ⟨t, ht, hc, rfl⟩, ho, hl⟩ | ⟨e, ⟨t, ht, hc, rfl⟩, hl⟩)
    · exact ⟨t, ht, hc, .inr ⟨ho.symm, hl.symm⟩⟩
    · exact ⟨t, ht, hc, .inl hl.symm⟩
  · rintro ⟨t, ht, hc, hl | ⟨ho, hl⟩⟩
    · exact .inr ⟨t.entry, ⟨t, ht, hc, rfl⟩, hl.symm⟩
    · exact .inl ⟨t.entry, ⟨t, ht, hc, rfl⟩, ho.symm, hl.symm⟩

/-- The purge of a clean queue: the entries that the map shows leave it, and queue service runs where one has left. -/
theorem purge_clean (hq : x.QueueClean) :
    let kept := x.alloc.queue.filter fun w => !purged x w.val
    let y : State := { x with alloc.queue := kept }
    purge x = if kept = x.alloc.queue then .on y else service true y := by
  intro kept y
  have hlen : kept.length < x.alloc.queue.length ↔ kept ≠ x.alloc.queue := by
    have hle : kept.length ≤ x.alloc.queue.length := List.length_filter_le ..
    have heq : kept = x.alloc.queue ↔ kept.length = x.alloc.queue.length :=
      ⟨fun h => by rw [h], fun h => (List.filter_sublist).eq_of_length h⟩
    rw [ne_eq, heq]
    omega
  unfold purge
  simp only [scan_clean x.alloc.queue hq, Option.isSome_none, Bool.false_eq_true, if_false, recordScan_clean,
    List.take_length, List.drop_length, List.append_nil]
  by_cases hk : kept = x.alloc.queue
  · rw [if_pos hk, if_neg (by rw [hlen]; simpa using hk)]
  · rw [if_neg hk, if_pos (hlen.mpr hk)]

/-! ## Queue service that stops, or grants once (R72 to R74) -/

/-- Nothing waits, or a NORMAL head does not fit. -/
abbrev NoFit (q : List (Stored QueueEntry)) (n : Nat) : Prop :=
  q = [] ∨ ∃ e es, q = e :: es ∧ e.val.cls = .normal ∧ n < e.val.count

theorem serviceLoop_noFit (fuel : Nat) (hm : s.MapClean) (hq : s.QueueClean) (h : NoFit s.alloc.queue (freeSlots s).length) :
    serviceLoop fuel true s = .on s := by
  cases fuel with
  | zero => rfl
  | succ fuel =>
    unfold serviceLoop
    rw [readQueueHead_clean hq, Course.next_on]
    rcases h with h | ⟨e, es, h, hc, hn⟩
    · simp only [h]
    · have hpre : preemptable e.val.cls e.val.count s = false := by simp [preemptable, hc]
      simp only [h, readMap_clean hm, Course.next_on, Nat.not_le.mpr hn, if_false, hpre, Bool.false_eq_true]

/-- A head that fits is granted the lowest FREE slots, and the service goes on. -/
theorem serviceLoop_fits (fuel : Nat) (hm : s.MapClean) (hq : s.QueueClean) {e : Stored QueueEntry}
    {rest : List (Stored QueueEntry)} (h : s.alloc.queue = e :: rest) (hfit : e.val.count ≤ (freeSlots s).length) :
    serviceLoop (fuel + 1) true s = serviceLoop fuel true
      (grant true e.val.station e.val.lane e.val.label e.val.cls e.val.ret e.val.count { s with alloc.queue := rest }) := by
  rw [serviceLoop, readQueueHead_clean hq, Course.next_on]
  simp only [h, readMap_clean hm, Course.next_on, hfit, if_true]

/-- The lowest FREE slots granted to a queue entry with the notice held (R63). -/
structure GrantHeld (e : QueueEntry) (s y : State) : Prop where
  taken : ∀ (j : Nat) (n : Slot), ((freeSlots s).take e.count)[j]? = some n → entryAt y n = .held
    { holder := e.station, lane := e.lane, label := e.label, cls := e.cls, ret := e.ret, part := j, count := e.count,
      silence := 0, lastUse := .none, mark := .none }
  kept : ∀ n, n ∉ (freeSlots s).take e.count → entryAt y n = entryAt s n
  queue : y.alloc.queue = s.alloc.queue
  held : y.alloc.heldNotices = s.alloc.heldNotices ++ (if e.station = own s then
    [.fresh (.granted e.lane ((freeSlots s).take e.count) s.cycle.cycleNumber)] else [])

theorem freeSlots_nodup (s : State) : (freeSlots s).Nodup := (List.nodup_finRange 48).filter _

theorem grant_grantHeld (e : QueueEntry) (ho : s.mode.actual ≠ .off) :
    GrantHeld e s (grant true e.station e.lane e.label e.cls e.ret e.count s) := by
  have hsub : ((freeSlots s).take e.count).Nodup := (freeSlots_nodup s).sublist (List.take_sublist ..)
  have htell (y : State) (n : Notice) : (tell e.station true n y).alloc.map = y.alloc.map ∧
      (tell e.station true n y).alloc.queue = y.alloc.queue ∧
      (tell e.station true n y).alloc.heldNotices = y.alloc.heldNotices ++ (if e.station = own y then [.fresh n] else []) := by
    unfold tell send
    split
    · exact ⟨rfl, rfl, rfl⟩
    · exact ⟨rfl, rfl, (List.append_nil _).symm⟩
  unfold grant
  rw [if_neg ho]
  obtain ⟨hmap, hqueue, hheld⟩ := htell (enterStream e.station e.lane e.label e.cls e.ret e.count ((freeSlots s).take e.count) s)
    (.granted e.lane ((freeSlots s).take e.count) s.cycle.cycleNumber)
  refine ⟨fun j n hj => ?_, fun n hn => ?_, hqueue, hheld⟩
  · have hidx : ((freeSlots s).take e.count).findIdx? (· = n) = some j := by
      obtain ⟨hlt, hget⟩ := List.getElem?_eq_some_iff.mp hj
      rw [List.findIdx?_eq_some_iff_getElem]
      refine ⟨hlt, by simp [hget], fun i hi => ?_⟩
      have hne := (List.pairwise_iff_getElem.mp hsub) i j (by omega) hlt hi
      rw [hget] at hne
      simpa using hne
    rw [entryAt, hmap]
    simp only [enterStream, Table.get_mapIdx, hidx, Stored.fresh]
  · have hidx : ((freeSlots s).take e.count).findIdx? (· = n) = none := by
      rw [List.findIdx?_eq_none_iff]
      exact fun m hm => decide_eq_false fun h => hn (h ▸ hm)
    rw [entryAt, hmap]
    simp only [enterStream, Table.get_mapIdx, hidx, entryAt]

theorem filter_notMem_take {α : Type} [DecidableEq α] {l : List α} (h : l.Nodup) (k : Nat) :
    (l.filter fun a => a ∉ l.take k) = l.drop k := by
  have hdisj := List.disjoint_take_drop h (Nat.le_refl k)
  conv_lhs => rw [← List.take_append_drop k l]
  rw [List.filter_append, List.take_append_drop, List.filter_eq_nil_iff.mpr (by simp), List.nil_append,
    List.filter_eq_self.mpr]
  exact fun a ha => decide_eq_true fun ht => hdisj ht ha

theorem GrantHeld.freeSlots {e : QueueEntry} {y : State} (h : GrantHeld e s y) :
    freeSlots y = (freeSlots s).drop e.count := by
  rw [← filter_notMem_take (freeSlots_nodup s) e.count]
  simp only [Machine.freeSlots]
  rw [List.filter_filter]
  refine List.filter_congr fun n _ => ?_
  by_cases hn : n ∈ (Machine.freeSlots s).take e.count
  · obtain ⟨j, hj⟩ := List.mem_iff_getElem?.mp hn
    simp only [Machine.freeSlots] at hn
    simp [h.taken j n hj, hn]
  · have hk := h.kept n hn
    simp only [Machine.freeSlots] at hn
    simp [hk, hn]

/-- Queue service that grants its head and stops. -/
theorem serviceLoop_grantsOnce (fuel : Nat) (ho : s.mode.actual ≠ .off) (hm : s.MapClean) (hq : s.QueueClean)
    {e : Stored QueueEntry} {rest : List (Stored QueueEntry)} (h : s.alloc.queue = e :: rest)
    (hfit : e.val.count ≤ (freeSlots s).length) (hstop : NoFit rest ((freeSlots s).length - e.val.count)) :
    ∃ y, serviceLoop (fuel + 1) true s = .on y ∧ GrantHeld e.val { s with alloc.queue := rest } y := by
  have hg := grant_grantHeld (s := { s with alloc.queue := rest }) e.val ho
  refine ⟨_, ?_, hg⟩
  rw [serviceLoop_fits fuel hm hq h hfit]
  obtain ⟨ns, hstep⟩ := grant_heldStep e s { s with alloc.queue := s.alloc.queue.tail } [] [] ho (.refl _) (by rw [h]; rfl)
  have htail : ({ s with alloc.queue := s.alloc.queue.tail } : State) = { s with alloc.queue := rest } := by rw [h]; rfl
  rw [htail] at hstep
  refine serviceLoop_noFit fuel (hstep.mapClean hm) (hstep.queueClean hq) ?_
  rw [hg.queue, hg.freeSlots, List.length_drop]
  exact hstop

/-! ## The end of the close (R43) -/

/-- The close of a rebuild: the phase VERIFY, the list empty, and the field marks NONE. -/
def rebuildOver (y : State) : State :=
  { clearMarks { y with cycle.phase := .verify, alloc.rebuildList := [] } with alloc.fieldConflict := false }

theorem entryAt_rebuildOver (y : State) (n : Slot) : entryAt (rebuildOver y) n = match entryAt y n with
    | .free => .free
    | .held h => .held { h with mark := .none } := by
  simp only [entryAt, rebuildOver, clearMarks, Table.get_map, Stored.changeHeld]
  cases h : (y.alloc.map.get n).val with
  | free => exact h
  | held e =>
    simp only []
    split
    · rename_i he
      rw [h, he]
    · rfl

theorem entryAt_rebuildOver_free {y : State} (h : entryAt y n = .free) : entryAt (rebuildOver y) n = .free := by
  rw [entryAt_rebuildOver, h]

theorem entryAt_rebuildOver_held {y : State} {e : HeldEntry} (h : entryAt y n = .held e) (he : e.mark = .none) :
    entryAt (rebuildOver y) n = .held e := by
  rw [entryAt_rebuildOver, h, ← he]

theorem ofStream_rebuildOver (y : State) (n : Slot) (st : Station) (l : LaneNo) :
    (entryAt (rebuildOver y) n).ofStream st l = (entryAt y n).ofStream st l := by
  rw [entryAt_rebuildOver]
  cases entryAt y n <;> rfl

theorem execSlotFieldClosed_rebuild {y : State} (hf : s.Framed) (hp : s.cycle.phase = .rebuild)
    (h : (rebuildMap s).next purge = .on y) : exec .slotFieldClosed s = .next (rebuildOver y) := by
  simp only [exec, execSlotFieldClosed, framedEvent_on hf, closeField, hp, closeRebuild, h, Course.finally_on, Course.state_on]
  rfl

/-- What the purge makes of a station with a clean map and queue, `kept` being the entries that stay. -/
structure PurgeHeld (kept : List (Stored QueueEntry)) (x y : State) : Prop where
  step : ∃ g r ns, HeldStep g r ns { x with alloc.queue := kept } y
  stops : kept = x.alloc.queue ∨ NoFit kept (freeSlots x).length → y = { x with alloc.queue := kept }
  grants : ∀ e rest, kept ≠ x.alloc.queue → kept = e :: rest → e.val.count ≤ (freeSlots x).length →
    NoFit rest ((freeSlots x).length - e.val.count) → GrantHeld e.val { x with alloc.queue := rest } y

theorem purge_purgeHeld {kept : List (Stored QueueEntry)} (ho : x.mode.actual ≠ .off) (hm : x.MapClean) (hq : x.QueueClean)
    (hk : (x.alloc.queue.filter fun w => !purged x w.val) = kept) : ∃ y, purge x = .on y ∧ PurgeHeld kept x y := by
  subst hk
  have hpurge := purge_clean hq
  generalize hk : (x.alloc.queue.filter fun w => !purged x w.val) = kept at *
  have hkq : ({ x with alloc.queue := kept } : State).QueueClean := by
    subst hk
    exact fun w hw => hq w (List.mem_of_mem_filter hw)
  simp only [] at hpurge
  by_cases hsame : kept = x.alloc.queue
  · rw [if_pos hsame] at hpurge
    exact ⟨_, hpurge, ⟨[], [], [], .refl _⟩, fun _ => rfl, fun _ _ hne => absurd hsame hne⟩
  · rw [if_neg hsame] at hpurge
    obtain ⟨y, g, r, ns, hy, hstep⟩ := serviceLoop_heldStep (kept.length + 49) { x with alloc.queue := kept } ho hm hkq
    refine ⟨y, hpurge.trans hy, ⟨g, r, ns, hstep⟩, fun h => ?_, fun e rest _ he hfit hstop => ?_⟩
    · have hstop := serviceLoop_noFit (kept.length + 49) (s := { x with alloc.queue := kept }) hm hkq (h.resolve_left hsame)
      exact Course.on.inj (hy.symm.trans hstop)
    · obtain ⟨z, hz, hgrant⟩ := serviceLoop_grantsOnce (kept.length + 48) (s := { x with alloc.queue := kept }) ho hm hkq he
        hfit hstop
      rw [Course.on.inj (hy.symm.trans hz)]
      exact hgrant

end

/-- Settles O24. -/
theorem slotFieldCloseRebuilds : Obligations.SlotFieldCloseRebuilds := by
  intro s hf hp hq hlist hd tags candidate consistent held rebuilt stays isFree hstays hfree kept opened noFit
  obtain ⟨x, hx, h⟩ := rebuildMap_rebuilt hlist
  have hdt : (tags.map (·.slot)).Nodup := by
    rw [List.map_map]
    exact hd
  have hrest := h.rest
  have hxqueue : x.alloc.queue = s.alloc.queue := by rw [hrest]
  have hkept : (x.alloc.queue.filter fun w => !purged x w.val) = kept := by
    rw [hxqueue]
    refine List.filter_congr fun w _ => ?_
    rw [Bool.eq_iff_iff, hstays, Bool.not_eq_true', Bool.eq_false_iff, ne_eq, purged_iff hdt h]
  have hopened : freeSlots x = opened := by
    refine List.filter_congr fun n _ => ?_
    rw [Bool.eq_iff_iff, hfree, decide_eq_true_iff, h.entry]
    refine ⟨fun hn t ht hs hc => ?_, rebuiltEntry_free⟩
    rw [← hs, rebuiltEntry_tag hdt ht hc] at hn
    cases hn
  obtain ⟨y, hy, hpurge⟩ := purge_purgeHeld (x := x) (by rw [hrest]; exact hf.2.1) h.clean
    (by unfold State.QueueClean; rw [hxqueue]; exact hq) hkept
  have hexec := execSlotFieldClosed_rebuild hf hp (y := y) (by rw [hx, Course.next_on, hy])
  obtain ⟨⟨g, r, ns, hstep⟩, hstops, hgrants⟩ := hpurge
  have hyrest := hstep.rest
  have hfreeAt (n : Slot) (hn : ∀ t ∈ tags, t.slot = n → ¬consistent t) : entryAt x n = .free :=
    (h.entry n).trans (rebuiltEntry_free hn)
  have hheldAt (t : RebuildTag) (ht : t ∈ tags) (hc : consistent t) : entryAt x t.slot = .held t.entry :=
    (h.entry t.slot).trans (rebuiltEntry_tag hdt ht hc)
  have hxheld : x.alloc.heldNotices = s.alloc.heldNotices := by rw [hrest]
  have hxown : own x = own s := by rw [own, hrest]; rfl
  have hxcycle : x.cycle = s.cycle := by rw [hrest]
  rw [hopened, hxqueue] at hstops hgrants
  refine ⟨_, hexec, ?_, rfl, rfl, ?_, fun hstop => ?_, fun e rest hne he hfit hstop => ?_, g, r, ns, hstep.queue,
    hstep.requeuedFresh, ?_, ?_, ?_, fun t ht hc ho hgone => ?_⟩
  · have hover : rebuildOver y = { y with cycle := { y.cycle with phase := .verify }, alloc := (rebuildOver y).alloc } := rfl
    refine hover.trans ?_
    generalize (rebuildOver y).alloc = a
    rw [hyrest, hrest]
  · show y.alloc.mapFoundWrong = false
    rw [hyrest]
    show x.alloc.mapFoundWrong = false
    rw [hrest]
  · rw [hstops hstop]
    exact ⟨⟨fun t ht hc => entryAt_rebuildOver_held (hheldAt t ht hc) rfl, fun n hn => entryAt_rebuildOver_free (hfreeAt n hn)⟩,
      rfl, hxheld⟩
  · intro slots
    obtain ⟨htaken, hkeeps, hqueue, hnotices⟩ := hgrants e rest hne he hfit hstop
    rw [show freeSlots { x with alloc.queue := rest } = opened from hopened] at htaken hkeeps hnotices
    refine ⟨fun j n hj => entryAt_rebuildOver_held (htaken j n hj) rfl, fun n hn hns => ?_, fun t ht hc => ?_, hqueue, ?_⟩
    · exact entryAt_rebuildOver_free ((hkeeps n hns).trans (hfreeAt n ((hfree n).mp (List.mem_filter.mp hn).2)))
    · have hnot : t.slot ∉ slots := fun hm =>
        (hfree t.slot).mp (List.mem_filter.mp (List.mem_of_mem_take hm)).2 t ht rfl hc
      exact entryAt_rebuildOver_held ((hkeeps _ hnot).trans (hheldAt t ht hc)) rfl
    · refine hnotices.trans ?_
      rw [← hxheld, ← hxown, ← hxcycle]
      rfl
  · exact hstep.held.trans (by rw [← hxheld])
  · exact fun w hw => by simpa only [hxcycle] using hstep.kinds w hw
  · exact fun w hw ho => by simpa only [hxcycle] using hstep.told w hw (ho.trans hxown.symm)
  · rw [ho] at hgone
    refine hstep.revoked t.lane ⟨t.slot, ?_⟩ fun n => ?_
    · show (entryAt x t.slot).ofStream (own x) t.lane = true
      rw [hheldAt t ht hc, hxown, ← ho]
      simp [SlotEntry.ofStream]
    · rw [← ofStream_rebuildOver]
      exact (hxown ▸ hgone n :)

end Sys2Proof.Machine
end

section
/-! Errors of the State Memory in the regions MAP and STREAMS (R35, R149 to R152, R156). -/

namespace Sys2Proof.Machine

/-! ## Reads of the lanes (R149, R150, R156) -/

section
variable {s t u x : State} {k l : LaneNo}

/-- A lane's word corrected by its read. -/
abbrev State.laneCorrected (l : LaneNo) (s : State) : State := { s with
  streams := { s.streams with lanes := s.streams.lanes.set l (.fresh (laneOfState s l)) }
  errorRecord := some ⟨.streams, l.val, .single⟩
  alerts := s.alerts.raise .memCorrected }

theorem checkLane_single (h : (s.streams.lanes.get l).health = .single) : checkLane l s = (s.laneCorrected l, true) := by
  unfold checkLane
  simp only [h, Stored.afterRead, recordRead]
  rfl

theorem checkLane_double (h : (s.streams.lanes.get l).health = .double) :
    checkLane l s = (recordDouble .streams l.val s, false) := by
  unfold checkLane
  simp only [h, Stored.afterRead, recordRead, set_get_self]
  rfl

theorem checkLanes_append (a b : List LaneNo) (h : ∀ k ∈ a, (s.streams.lanes.get k).health = .clean) :
    checkLanes (a ++ b) s = checkLanes b s := by
  induction a with
  | nil => rfl
  | cons k a ih =>
    rw [List.cons_append, checkLanes, checkLane_clean (h k List.mem_cons_self)]
    exact ih fun j hj => h j (List.mem_cons_of_mem k hj)

theorem allLanes_split (l : LaneNo) : ∃ a b, allLanes = a ++ l :: b ∧ (∀ k ∈ a, k < l) ∧ ∀ k ∈ b, k ≠ l := by
  obtain ⟨a, b, h⟩ := List.append_of_mem (mem_allLanes l)
  have hsorted : allLanes.Pairwise (· < ·) := List.pairwise_lt_finRange 8
  rw [h, List.pairwise_append] at hsorted
  obtain ⟨-, hb, ha⟩ := hsorted
  refine ⟨a, b, h, fun k hk => ha k hk l List.mem_cons_self, fun k hk => ?_⟩
  exact (List.rel_of_pairwise_cons hb hk).ne'

theorem checkLanes_fails (hl : (s.streams.lanes.get l).health = .double)
    (h : ∀ k < l, (s.streams.lanes.get k).health = .clean) :
    checkLanes allLanes s = (recordDouble .streams l.val s, some l) := by
  obtain ⟨a, b, hsplit, ha, -⟩ := allLanes_split l
  rw [hsplit, checkLanes_append a (l :: b) fun k hk => h k (ha k hk), checkLanes, checkLane_double hl]

theorem checkLanes_corrects (hl : (s.streams.lanes.get l).health = .single)
    (h : ∀ k, k ≠ l → (s.streams.lanes.get k).health = .clean) : checkLanes allLanes s = (s.laneCorrected l, none) := by
  obtain ⟨a, b, hsplit, ha, hb⟩ := allLanes_split l
  rw [hsplit, checkLanes_append a (l :: b) fun k hk => h k (ha k hk).ne, checkLanes, checkLane_single hl]
  exact checkLanes_clean b fun k hk => by
    simp only [Table.get_set_ne _ _ _ _ (hb k hk)]
    exact h k (hb k hk)

theorem readStreams_lanesFail (hl : (s.streams.lanes.get l).health = .double)
    (h : ∀ k < l, (s.streams.lanes.get k).health = .clean) :
    readStreams allLanes false s = .abandoned (streamsFailed (some l) (recordDouble .streams l.val s)) := by
  simp only [readStreams, checkLanes_fails hl h]

theorem readStreams_laneFails (hl : (s.streams.lanes.get l).health = .double) (box : Bool) :
    readStreams [l] box s = .abandoned (streamsFailed (some l) (recordDouble .streams l.val s)) := by
  simp only [readStreams, checkLanes, checkLane_double hl]

theorem readStreams_corrects (hl : (s.streams.lanes.get l).health = .single)
    (h : ∀ k, k ≠ l → (s.streams.lanes.get k).health = .clean) :
    readStreams allLanes false s = .on (s.laneCorrected l) := by
  simp only [readStreams, checkLanes_corrects hl h, Bool.false_eq_true, if_false]

/-! ## The lanes written anew (R152) -/

/-- The defaults of Table 6-1, but for the outcome FAULT. -/
abbrev Lane.faulted (changed : Bool) : Lane := { Lane.default with outcome := .fault, changed := changed }

/-- What the entry for MEMORY writes for a lane's word. -/
def rewritten (w : Stored Lane) : Lane := if w.health = .double then .faulted true else w.val.closedWith .fault

/-- One lane read and written anew. -/
def rewriteOne (l : LaneNo) (s : State) : State :=
  if (s.streams.lanes.get l).health = .double then rewriteLane l (checkLane l s).1
  else closeLane l .fault (checkLane l s).1

theorem rewriteLanes_cons (l : LaneNo) (ls : List LaneNo) (s : State) :
    rewriteLanes (l :: ls) s = rewriteLanes ls (rewriteOne l s) := by
  unfold rewriteOne
  rw [rewriteLanes]
  split <;> rename_i y hy
  · have h2 : (checkLane l s).2 = true := by rw [hy]
    rw [if_neg (by simpa [checkLane] using h2), hy]
  · have h2 : (checkLane l s).2 = false := by rw [hy]
    rw [if_pos (by simpa [checkLane] using h2), hy]

/-- What the rewriting of the listed lanes makes of a station. -/
structure LanesRewritten (ls : List LaneNo) (s t : State) : Prop where
  each : ∀ k ∈ ls, t.streams.lanes.get k = .fresh (rewritten (s.streams.lanes.get k)) ∧ t.lanes.txFifo.get k = []
  other : ∀ k, k ∉ ls → t.streams.lanes.get k = s.streams.lanes.get k ∧ t.lanes.txFifo.get k = s.lanes.txFifo.get k
  alert : ls ≠ [] → t.HasAlert .stream
  stay : AlertsStay s t
  recordKept : (∀ k ∈ ls, (s.streams.lanes.get k).health = .clean) → t.errorRecord = s.errorRecord
  recordFailed : ∀ l ∈ ls, (s.streams.lanes.get l).health = .double →
    (∀ k ∈ ls, k ≠ l → (s.streams.lanes.get k).health = .clean) → t.errorRecord = some ⟨.streams, l.val, .double⟩

theorem checkLane_alertsStay (l : LaneNo) (s : State) : AlertsStay s (checkLane l s).1 := by
  cases hh : (s.streams.lanes.get l).health with
  | clean =>
    rw [checkLane_clean hh]
    exact .of_eq rfl
  | single =>
    rw [checkLane_single hh]
    exact .of_raise (a := .memCorrected) rfl
  | double =>
    rw [checkLane_double hh]
    exact .of_raise (a := .memFailed) rfl

theorem checkLane_words (l : LaneNo) (s : State) : laneOfState (checkLane l s).1 l = laneOfState s l ∧
    (∀ k, k ≠ l → (checkLane l s).1.streams.lanes.get k = s.streams.lanes.get k) ∧
    (checkLane l s).1.lanes = s.lanes := by
  simp only [checkLane, laneOfState, recordRead_frame]
  refine ⟨?_, fun k hk => Table.get_set_ne _ _ _ _ hk, trivial⟩
  rw [Table.get_set_self]
  unfold Stored.afterRead
  split <;> rfl

theorem rewriteOne_rewritten (l : LaneNo) (s : State) : LanesRewritten [l] s (rewriteOne l s) := by
  obtain ⟨hself, hother, hfifo⟩ := checkLane_words l s
  have hstay := checkLane_alertsStay l s
  have hclean (hh : (s.streams.lanes.get l).health = .clean) := checkLane_clean hh
  have hdouble (hh : (s.streams.lanes.get l).health = .double) := checkLane_double hh
  unfold rewriteOne
  generalize hy : (checkLane l s).1 = y at *
  have hput (r : Lane) (k : LaneNo) : (putLane l r y).streams.lanes.get k =
      if k = l then .fresh r else s.streams.lanes.get k := by
    simp only [putLane, Table.get_set]
    split
    · rfl
    · rename_i hk
      exact hother k hk
  have hflush (k : LaneNo) : (y.lanes.txFifo.set l []).get k = if k = l then [] else s.lanes.txFifo.get k := by
    rw [Table.get_set, hfifo]
  have hrecord : ((s.streams.lanes.get l).health = .clean → y.errorRecord = s.errorRecord) ∧
      ((s.streams.lanes.get l).health = .double → y.errorRecord = some ⟨.streams, l.val, .double⟩) := by
    rw [← hy]
    exact ⟨fun hh => by rw [hclean hh], fun hh => by rw [hdouble hh]; rfl⟩
  by_cases hh : (s.streams.lanes.get l).health = .double
  · rw [if_pos hh]
    refine ⟨fun k hk => ?_, fun k hk => ?_, fun _ => hasAlert_raise .stream _, hstay.trans (.of_raise (a := .stream) rfl),
      fun hc => hrecord.1 (hc l (List.mem_singleton_self l)), fun k hk _ _ => ?_⟩
    · rw [List.mem_singleton.mp hk]
      exact ⟨(hput _ l).trans (by rw [if_pos rfl, rewritten, if_pos hh]), (hflush l).trans (if_pos rfl)⟩
    · have hkl : k ≠ l := by simpa using hk
      exact ⟨(hput _ k).trans (if_neg hkl), (hflush k).trans (if_neg hkl)⟩
    · rw [List.mem_singleton.mp hk]
      exact hrecord.2 hh
  · rw [if_neg hh]
    refine ⟨fun k hk => ?_, fun k hk => ?_, fun _ => hasAlert_raise .stream _, hstay.trans (.of_raise (a := .stream) rfl),
      fun hc => hrecord.1 (hc l (List.mem_singleton_self l)), fun k hk hd _ => ?_⟩
    · rw [List.mem_singleton.mp hk]
      exact ⟨(hput _ l).trans (by rw [if_pos rfl, rewritten, if_neg hh, hself]; rfl), (hflush l).trans (if_pos rfl)⟩
    · have hkl : k ≠ l := by simpa using hk
      exact ⟨(hput _ k).trans (if_neg hkl), (hflush k).trans (if_neg hkl)⟩
    · rw [List.mem_singleton.mp hk] at hd
      exact absurd hd hh

theorem rewriteLanes_rewritten (ls : List LaneNo) (hn : ls.Nodup) : ∀ s : State, LanesRewritten ls s (rewriteLanes ls s) := by
  induction ls with
  | nil => exact fun s => ⟨by simp, fun _ _ => ⟨rfl, rfl⟩, fun h => absurd rfl h, .of_eq rfl, fun _ => rfl, by simp⟩
  | cons l ls ih =>
    intro s
    obtain ⟨hl, hn⟩ := List.nodup_cons.mp hn
    have h1 := rewriteOne_rewritten l s
    rw [rewriteLanes_cons]
    generalize rewriteOne l s = y at *
    have h2 := ih hn y
    generalize rewriteLanes ls y = z at *
    obtain ⟨hself, hflushed⟩ := h1.each l (List.mem_singleton_self l)
    have hother (k : LaneNo) (hk : k ∈ ls) := h1.other k (by simpa using fun h : k = l => hl (h ▸ hk))
    refine ⟨fun k hk => ?_, fun k hk => ?_, fun _ => h2.stay.stays _ (h1.alert (by simp)), h1.stay.trans h2.stay,
      fun hc => ?_, fun k hk hd hc => ?_⟩
    · rcases List.mem_cons.mp hk with rfl | hk
      · obtain ⟨hw, hf⟩ := h2.other k hl
        exact ⟨hw.trans hself, hf.trans hflushed⟩
      · rw [← (hother k hk).1]
        exact h2.each k hk
    · obtain ⟨hkl, hks⟩ : k ≠ l ∧ k ∉ ls := by simpa using hk
      obtain ⟨hw1, hf1⟩ := h1.other k (by simpa using hkl)
      obtain ⟨hw2, hf2⟩ := h2.other k hks
      exact ⟨hw2.trans hw1, hf2.trans hf1⟩
    · rw [h2.recordKept fun k hk => by rw [(hother k hk).1]; exact hc k (List.mem_cons_of_mem l hk)]
      exact h1.recordKept fun k hk => hc k (by simp [List.mem_singleton.mp hk])
    · rcases List.mem_cons.mp hk with rfl | hk
      · rw [h2.recordKept fun j hj => by
          rw [(hother j hj).1]
          exact hc j (List.mem_cons_of_mem k hj) fun h => hl (h ▸ hj)]
        exact h1.recordFailed k (List.mem_singleton_self k) hd fun j hj hne => absurd (List.mem_singleton.mp hj) hne
      · exact h2.recordFailed k hk (by rw [(hother k hk).1]; exact hd) fun j hj hne => by
          rw [(hother j hj).1]
          exact hc j (List.mem_cons_of_mem l hj) hne

/-! ## What a cut leaves of the lanes -/

/-- Every lane is written anew alike from both states, and a clean word stays clean. -/
abbrev RewrittenAlike (s t : State) : Prop := ∀ k,
  rewritten (t.streams.lanes.get k) = rewritten (s.streams.lanes.get k) ∧
  ((t.streams.lanes.get k).health = .double ↔ (s.streams.lanes.get k).health = .double) ∧
  ((s.streams.lanes.get k).health = .clean → (t.streams.lanes.get k).health = .clean)

theorem rewrittenAlike_of_lanes (h : t.streams.lanes = s.streams.lanes) : RewrittenAlike s t := by
  intro k
  rw [h]
  exact ⟨rfl, Iff.rfl, id⟩

theorem rewrittenAlike_set {r : Lane} (hl : laneReadable s l = true) (hr : r.closedWith .fault = (laneOfState s l).closedWith .fault)
    (h : t.streams.lanes = s.streams.lanes.set l (.fresh r)) : RewrittenAlike s t := by
  intro k
  rw [h, Table.get_set]
  split
  · rename_i hk
    subst hk
    have hne : (s.streams.lanes.get k).health ≠ .double := by simpa [laneReadable] using hl
    have hclean : (Stored.fresh r).health = .clean := rfl
    refine ⟨?_, by simp [hclean, hne], fun _ => hclean⟩
    rw [rewritten, rewritten, if_neg (by simp [hclean]), if_neg hne]
    exact hr
  · exact ⟨rfl, Iff.rfl, id⟩

theorem controlLost_rewrittenAlike {b : Body} (hb : claimLaneOf b = some l) (hl : laneReadable s l = true) :
    RewrittenAlike s (controlLost b s) := by
  simp only [controlLost, hb]
  split
  · exact rewrittenAlike_set (r := (laneOfState s l).closedWith .cancelled) hl rfl rfl
  · exact rewrittenAlike_of_lanes rfl

theorem controlMismatch_rewrittenAlike {b : Body} (hb : claimLaneOf b = some l) (hl : laneReadable s l = true) :
    RewrittenAlike s (controlMismatch b s) := by
  simp only [controlMismatch, hb]
  split
  · exact rewrittenAlike_set (r := { laneOfState s l with closeOnWithdraw := true }) hl rfl rfl
  · exact rewrittenAlike_of_lanes rfl

theorem cutControl_rewrittenAlike {report : Body → State → State} {b : Body}
    (h : ∀ l, claimLaneOf b = some l → laneReadable s l = true → RewrittenAlike s (report b s)) :
    RewrittenAlike s (cutControl report b s) := by
  unfold cutControl
  split
  · exact rewrittenAlike_of_lanes rfl
  · rename_i l hb
    split
    · exact h l hb ‹_›
    · exact rewrittenAlike_of_lanes rfl

theorem changeMode_rewrittenAlike (m : Mode) (s : State) : RewrittenAlike s (changeMode m s) := by
  have hcut (s : State) : RewrittenAlike s (reportCut s) := by
    unfold reportCut
    split
    · rename_i src _ b _
      cases src with
      | outbox =>
        simp only [messageCut]
        split
        · exact cutControl_rewrittenAlike fun l hb hl => controlLost_rewrittenAlike hb hl
        · exact cutControl_rewrittenAlike (s := { s with line.wonWindow := true }) fun l hb hl =>
            controlMismatch_rewrittenAlike hb hl
      | note =>
        simp only [messageCut]
        split
        · exact rewrittenAlike_of_lanes (by simp)
        · exact rewrittenAlike_of_lanes (by simp)
    all_goals exact rewrittenAlike_of_lanes rfl
  obtain ⟨-, hstreams, -⟩ := announced_frame m s
  by_cases hm : m = .off ∨ m = .listen
  · have h := hcut (announced m s)
    rw [changeMode_cuts hm]
    unfold RewrittenAlike at h ⊢
    rwa [cutTransmission_streams, ← hstreams]
  · rw [changeMode_cuts_nothing hm]
    exact rewrittenAlike_of_lanes (by rw [hstreams])

end

end Sys2Proof.Machine
end

section
/-! The direct fault entry for a double error in STREAMS, and the events and host commands that meet an error of the regions MAP
and STREAMS (R35, R44, R97, R100, R101, R114, R125, R149 to R152, R156, R172). -/

namespace Sys2Proof.Machine

section
variable {s t u x : State} {k l : LaneNo} {n : Slot}

/-! ## The fault entry with cause MEMORY (R35, R152) -/

/-- What a double error in STREAMS makes of a station out of OFF and LISTEN. -/
structure StreamsFaulted (s t : State) : Prop where
  mode : t.mode = { actual := .listen, requested := .listen, target := .none, withdrawCount := 0, cause := .memory }
  word : ∀ k, t.streams.lanes.get k = .fresh (rewritten (s.streams.lanes.get k))
  flushed : ∀ k, t.lanes.txFifo.get k = []
  outbox : t.streams.outbox = []
  onLine : t.line.onLine = none
  stream : t.HasAlert .stream
  modeAlert : t.HasAlert .mode
  stay : AlertsStay s t
  alloc : t.alloc = s.alloc
  phase : t.cycle.phase = s.cycle.phase
  port : t.port = s.port
  txSlots : t.line.txSlots = s.line.txSlots
  recordFailed : ∀ l, (s.streams.lanes.get l).health = .double →
    (∀ k, k ≠ l → (s.streams.lanes.get k).health = .clean) → t.errorRecord = some ⟨.streams, l.val, .double⟩
  recordKept : (∀ k, (s.streams.lanes.get k).health = .clean) → s.line.onLine = none → t.errorRecord = s.errorRecord

theorem changeMode_errorRecord_vacant (h : s.line.onLine = none) (m : Mode) :
    (changeMode m s).errorRecord = s.errorRecord := by
  obtain ⟨hline, -, -, herror, -⟩ := announced_frame m s
  have hcut : (cutTransmission (announced m s)).errorRecord = s.errorRecord := by
    rw [cutTransmission, reportCut_vacant (by rw [hline, h])]
    exact herror
  by_cases hm : m = .off ∨ m = .listen
  · rw [changeMode_cuts hm, hcut]
  · rw [changeMode_cuts_nothing hm, herror]

theorem streamsFailed_faulted (failing : Option LaneNo) (ho : s.mode.actual ≠ .off) (hl : s.mode.actual ≠ .listen) :
    StreamsFaulted s (streamsFailed failing s) := by
  have hout : streamsFailed failing s =
      faultItems .memory (emptyOutbox (rewriteLanes allLanes (discardNotes (changeMode .listen s)))) :=
    if_neg (by simp [ho, hl])
  rw [hout]
  obtain ⟨-, -, -, htxSlots, -⟩ := changeMode_line_keeps .listen s
  obtain ⟨hmodeAlert, hstayU⟩ := changeMode_alertsStay .listen s
  have honLine := (changeMode_cut (m := .listen) (.inr rfl) s).1
  obtain ⟨halloc, hport, -⟩ := changeMode_frame .listen s
  have hmode := changeMode_mode .listen s
  have hcycle := changeMode_cycle .listen s
  have halike := changeMode_rewrittenAlike .listen s
  have hrecordU (h : s.line.onLine = none) := changeMode_errorRecord_vacant h .listen
  generalize changeMode .listen s = u at *
  have hv := discardNotes_frame u
  have hstayV := discardNotes_alertsStay u
  generalize discardNotes u = v at *
  have hlanes : v.streams = u.streams := by simp only [hv]
  have herror : v.errorRecord = u.errorRecord := by simp only [hv]
  have hw := rewriteLanes_frame allLanes v
  have hr := rewriteLanes_rewritten allLanes (List.nodup_finRange 8) v
  generalize rewriteLanes allLanes v = w at *
  have hstay : AlertsStay w (faultItems .memory (emptyOutbox w)) := .of_eq rfl
  exact {
    mode := by simp only [faultItems, emptyOutbox_frame, hw, hv, hmode]
    word := fun k => by
      refine ((hr.each k (mem_allLanes k)).1).trans ?_
      rw [hlanes, (halike k).1]
    flushed := fun k => (hr.each k (mem_allLanes k)).2
    outbox := rfl
    onLine := by simp only [faultItems_frame, emptyOutbox_frame, hw, hv, honLine]
    stream := hr.alert (by decide)
    modeAlert := hr.stay.stays _ (hstayV.stays _ hmodeAlert)
    stay := hstayU.trans (hstayV.trans (hr.stay.trans hstay))
    alloc := by simp only [faultItems_frame, emptyOutbox_frame, hw, hv, halloc]
    phase := by simp only [faultItems_frame, emptyOutbox_frame, hw, hv, hcycle]
    port := by simp only [faultItems_frame, emptyOutbox_frame, hw, hv, hport]
    txSlots := by simp only [faultItems_frame, emptyOutbox_frame, hw, hv, htxSlots]
    recordFailed := fun l hd hc => hr.recordFailed l (mem_allLanes l) (by rw [hlanes]; exact (halike l).2.1.mpr hd)
      fun k _ hk => by rw [hlanes]; exact (halike k).2.2 (hc k hk)
    recordKept := fun hc hvacant => (hr.recordKept fun k _ => by rw [hlanes]; exact (halike k).2.2 (hc k)).trans
      (herror.trans (hrecordU hvacant)) }

theorem StreamsFaulted.lane (h : StreamsFaulted s t) (k : LaneNo) :
    laneOfState t k = rewritten (s.streams.lanes.get k) := by
  rw [laneOfState, h.word]
  rfl

theorem StreamsFaulted.clean (h : StreamsFaulted s t) (k : LaneNo) : (t.streams.lanes.get k).health = .clean := by
  rw [h.word]
  rfl

theorem rewritten_failed (h : (s.streams.lanes.get k).health = .double) :
    rewritten (s.streams.lanes.get k) = .faulted true := if_pos h

theorem rewritten_read (h : (s.streams.lanes.get k).health ≠ .double) :
    rewritten (s.streams.lanes.get k) = (laneOfState s k).closedWith .fault := if_neg h

/-! ## MAP, by the check of a damaged tag (R44, R151) -/

/-- A damaged tag at a learned MEMBER station: its slot's entry is read, and marked. -/
theorem execTagReceived_damaged (hf : s.Framed) (hm : s.mode.actual = .member) (hp : s.cycle.phase = .learned) :
    exec (.tagReceived n .damaged) s = .next ((readMapEntry n s).finally (markDamaged n)).state := by
  have hchecks : checksTags s = true := by simp [checksTags, hp, hm]
  simp only [exec, execTagReceived, framedEvent_on hf, tagAtMap, hp, hchecks, if_true, checkTag, hm, reduceCtorEq, decide_false,
    Bool.false_and, Bool.false_eq_true, if_false]

theorem readMapEntry_single (h : (s.alloc.map.get n).health = .single) : readMapEntry n s = .on { s with
    alloc := { s.alloc with map := s.alloc.map.set n (.fresh (entryAt s n)) }
    errorRecord := some ⟨.map, n.val, .single⟩
    alerts := s.alerts.raise .memCorrected } := by
  simp only [readMapEntry, h, reduceCtorEq, if_false, Stored.afterRead, recordRead]
  rfl

theorem readMapEntry_double (h : (s.alloc.map.get n).health = .double) :
    readMapEntry n s = .abandoned (mapQueueFailed (recordDouble .map n.val s)) := by
  simp only [readMapEntry, h, if_true, Stored.afterRead, recordRead, set_get_self]

theorem enterResync_alertsStay (s : State) : AlertsStay s (enterResync s) := by
  have h := (announced_alertsStay .resync s).2
  rw [enterResync_eq]
  generalize announced .resync s = u at *
  exact h.trans ((raise_alertsStay .conflict u).trans (.of_eq rfl))

theorem markDamaged_free (h : entryAt s n = .free) : markDamaged n s = s := by simp only [markDamaged, h]

theorem markDamaged_held {e : HeldEntry} (h : entryAt s n = .held e) : markDamaged n s =
    if e.mark = .none then setEntry n (.held { e with mark := .damaged }) s else s := by
  simp only [markDamaged, h]

theorem set_set {α : Type} {m : Nat} (t : Table α m) (i : Fin m) (a b : α) : (t.set i a).set i b = t.set i b := by
  apply Table.ext_get
  intro j
  simp only [Table.get_set]
  split <;> rfl

/-! ## STREAMS, by the naming of a slot (R114, R152) -/

theorem execSlotStart_corrects_named (hf : s.Framed) (hm : s.mode.actual = .member)
    (hl : (s.streams.lanes.get l).health = .single) (h : ∀ k, k ≠ l → (s.streams.lanes.get k).health = .clean)
    (hn : namingLane n (s.laneCorrected l) = some k) :
    exec (.slotStart n) s = .next (nameSlot n k (s.laneCorrected l)) := by
  simp only [exec, execSlotStart, framedEvent_on hf, hm, Mode.sendsTags, if_true, readStreams_corrects hl h, Course.finally_on,
    Course.state_on, hn]

theorem execSlotStart_corrects_unnamed (hf : s.Framed) (hm : s.mode.actual = .member)
    (hl : (s.streams.lanes.get l).health = .single) (h : ∀ k, k ≠ l → (s.streams.lanes.get k).health = .clean)
    (hn : namingLane n (s.laneCorrected l) = none) : exec (.slotStart n) s = .next (s.laneCorrected l) := by
  simp only [exec, execSlotStart, framedEvent_on hf, hm, Mode.sendsTags, if_true, readStreams_corrects hl h, Course.finally_on,
    Course.state_on, hn]

theorem laneOfState_laneCorrected (l k : LaneNo) (s : State) : laneOfState (s.laneCorrected l) k = laneOfState s k := by
  simp only [laneOfState, Table.get_set]
  split
  · rename_i h
    rw [h]
    rfl
  · rfl

theorem execSlotStart_fails (hf : s.Framed) (hm : s.mode.actual = .member) (hl : (s.streams.lanes.get l).health = .double)
    (h : ∀ k, k ≠ l → (s.streams.lanes.get k).health = .clean) :
    exec (.slotStart n) s = .next (streamsFailed (some l) (recordDouble .streams l.val s)) := by
  have hread := readStreams_lanesFail hl fun k hk => h k hk.ne
  simp only [exec, execSlotStart, framedEvent_on hf, hm, Mode.sendsTags, if_true, hread]
  rfl

/-! ## STREAMS, by a host command (R97, R100, R101, R125, R172) -/

theorem laneOf_eq {lane : Byte} (h : lane.toNat = l.val) : laneOf lane = some l := by
  have hlt : lane.toNat < 8 := by omega
  rw [laneOf, dif_pos hlt]
  exact congrArg some (Fin.ext h)

theorem openParams_eq {lane label count flags : Byte} (h : lane.toNat = l.val)
    (hr : 1 ≤ count.toNat ∧ count.toNat ≤ 8 ∧ flags.toNat < 8) :
    ∃ p : OpenParams, openParams lane label count flags = some p ∧ p.lane = l := by
  simp only [openParams, laneOf_eq h, if_pos hr]
  exact ⟨_, rfl, rfl⟩

theorem execReadStream_heard {lane : Byte} (hs : s.HostReady) (h : lane.toNat = l.val) :
    exec (.readStream lane) s = .next (readLane l s.heard) := by
  simp only [exec, execReadStream, hostFrame_runs (permitted := everyMode) hs (laneOf_eq h) rfl]

theorem execCloseStream_heard {lane : Byte} (hs : s.HostReady) (h : lane.toNat = l.val) :
    exec (.closeStream lane) s = .next (closeBody l s.heard) := by
  simp only [exec, execCloseStream, hostFrame_runs (permitted := everyMode) hs (laneOf_eq h) rfl]

theorem execOpenStream_heard {lane label count flags : Byte} (hs : s.HostReady) (h : lane.toNat = l.val)
    (hr : 1 ≤ count.toNat ∧ count.toNat ≤ 8 ∧ flags.toNat < 8)
    (hm : s.mode.actual ≠ .off ∧ s.mode.actual ≠ .listen ∧ s.mode.actual ≠ .withdrawing) :
    ∃ p : OpenParams, p.lane = l ∧ exec (.openStream lane label count flags) s = .next (openBody p s.heard) := by
  obtain ⟨p, hp, hl⟩ := openParams_eq (label := label) h hr
  have hopens : opensStreams s.mode.actual = true := by
    obtain ⟨hoff, hlisten, hwithdrawing⟩ := hm
    cases ha : s.mode.actual with
    | joining | member | resync => rfl
    | off => exact absurd ha hoff
    | listen => exact absurd ha hlisten
    | withdrawing => exact absurd ha hwithdrawing
  exact ⟨p, hl, by simp only [exec, execOpenStream, hostFrame_runs hs hp hopens]⟩

theorem execReadLanes_heard (hs : s.HostReady) : exec .readLanes s = .next (lanesBody () s.heard) := by
  simp only [exec, execReadLanes, hostFrame_runs (permitted := everyMode) hs rfl rfl]

theorem execReadAlerts_heard (hs : s.HostReady) : exec .readAlerts s = .next (alertsBody () s.heard) := by
  simp only [exec, execReadAlerts, hostFrame_runs (permitted := everyMode) hs rfl rfl]

/-- READ_STREAM after a double error in STREAMS, which has left `t`. -/
theorem readLane_abandoned (h : readStreams [l] false s = .abandoned t) : readLane l s =
    answer .done (streamRecord l (laneOfState t l)) (updateLane l (fun r => { r with changed := false }) t) := by
  simp only [readLane, h, Course.state_abandoned]

theorem closeBody_abandoned (h : readStreams [l] true s = .abandoned t) : closeBody l s = answer .done [] t := by
  simp only [closeBody, h]

theorem openBody_abandoned {p : OpenParams} (hp : p.lane = l) (h : readStreams [l] true s = .abandoned t) :
    openBody p s = answer .refusedMode [] t := by
  simp only [openBody, hp, h]

/-- A host command answered by a station that a double error in STREAMS has sent to LISTEN. -/
abbrev AnsweredFaulted (s : State) (st : Status) (payload : List Byte) (lanes : LaneNo → Lane) (t : State) : Prop :=
  t.port.response = some ⟨st, payload⟩ ∧ (∀ k, laneOfState t k = lanes k) ∧
  (∀ k, (t.streams.lanes.get k).health = .clean) ∧ (∀ k, t.lanes.txFifo.get k = []) ∧ t.streams.outbox = [] ∧
  t.mode = { actual := .listen, requested := .listen, target := .none, withdrawCount := 0, cause := .memory } ∧
  t.line.onLine = none ∧ t.HasAlert .memFailed ∧ t.HasAlert .stream ∧ t.HasAlert .mode ∧ t.alloc = s.alloc ∧
  t.cycle.phase = s.cycle.phase

/-- A station that has met a double error in STREAMS by a read of a host command. -/
structure ErrorMet (s x : State) : Prop where
  lanes : x.streams.lanes = s.streams.lanes
  alert : x.HasAlert .memFailed
  mode : x.mode = s.mode
  alloc : x.alloc = s.alloc
  phase : x.cycle.phase = s.cycle.phase
  onLine : x.line.onLine = s.line.onLine

theorem errorMet_recordDouble (r : Region) (i : Nat) (s : State) : ErrorMet s (recordDouble r i s) :=
  ⟨rfl, hasAlert_raise .memFailed _, rfl, rfl, rfl, rfl⟩

theorem ErrorMet.answered (h : ErrorMet s x) (ht : StreamsFaulted x t) (st : Status) (payload : List Byte) :
    AnsweredFaulted s st payload (fun k => rewritten (s.streams.lanes.get k)) (answer st payload t) :=
  ⟨rfl, fun k => (ht.lane k).trans (by rw [h.lanes]), ht.clean, ht.flushed, ht.outbox, ht.mode, ht.onLine,
    ht.stay.stays _ h.alert, ht.stream, ht.modeAlert, ht.alloc.trans h.alloc, ht.phase.trans h.phase⟩

/-- READ_STREAM clears the changed flag of the lane it has reported. -/
theorem AnsweredFaulted.unchanged {st : Status} {payload : List Byte} {lanes : LaneNo → Lane}
    (h : AnsweredFaulted s st payload lanes t) (l : LaneNo) : AnsweredFaulted s st payload
      (fun k => if k = l then { lanes l with changed := false } else lanes k)
      (updateLane l (fun r => { r with changed := false }) t) := by
  obtain ⟨hresponse, hlanes, hclean, hrest⟩ := h
  refine ⟨hresponse, fun k => ?_, fun k => ?_, hrest⟩
  · rw [laneOfState_updateLane, hlanes l, hlanes k]
  · simp only [updateLane, putLane, Table.get_set]
    split
    · rfl
    · exact hclean k

/-- In OFF and LISTEN only the failing lane is written anew (R152). -/
theorem streamsFailed_stays (hm : s.mode.actual = .off ∨ s.mode.actual = .listen) :
    streamsFailed (some l) (recordDouble .streams l.val s) = { s with
      streams := { s.streams with lanes := s.streams.lanes.set l (.fresh (.faulted true)) }
      lanes := { s.lanes with txFifo := s.lanes.txFifo.set l [] }
      mode := { s.mode with cause := .memory }
      errorRecord := some ⟨.streams, l.val, .double⟩
      alerts := (s.alerts.raise .memFailed).raise .stream } := by
  rw [streamsFailed, if_pos (by exact hm)]
  rfl

/-! ## A double error in the outbox (R156) -/

theorem scan_failed {α : Type} (a : List (Stored α)) {w : Stored α} (b : List (Stored α))
    (ha : ∀ v ∈ a, v.health ≠ .double) (hw : w.health = .double) :
    ∀ pos, (scan pos (a ++ w :: b)).failed = some (pos + a.length) := by
  induction a with
  | nil =>
    intro pos
    simp only [List.nil_append, scan, hw, List.length_nil, Nat.add_zero]
  | cons v a ih =>
    intro pos
    have htail := ih (fun u hu => ha u (List.mem_cons_of_mem v hu)) (pos + 1)
    have hplace : pos + 1 + a.length = pos + (v :: a).length := by rw [List.length_cons]; omega
    rw [hplace] at htail
    rw [List.cons_append, scan]
    cases hv : v.health with
    | clean => exact htail
    | single => exact htail
    | double => exact absurd hv (ha v List.mem_cons_self)

/-- Words read up to one that fails: a single error before it is recorded first. -/
theorem recordScan_failed {α : Type} {sc : Scan α} {p : Nat} (h : sc.failed = some p) (r : Region) (ix : Nat → Nat)
    (s : State) : recordScan r ix sc s = recordDouble r (ix p) s ∨
      ∃ q, recordScan r ix sc s = recordDouble r (ix p) (recordSingle r q s) := by
  simp only [recordScan, h]
  cases sc.single with
  | none => exact .inl rfl
  | some q => exact .inr ⟨ix q, rfl⟩

theorem readStreams_outboxFails {a b : List (Stored OutboxEntry)} {w : Stored OutboxEntry}
    (hc : ∀ k, (s.streams.lanes.get k).health = .clean) (hbox : s.streams.outbox = a ++ w :: b)
    (ha : ∀ v ∈ a, v.health ≠ .double) (hw : w.health = .double) :
    ∃ x, readStreams [l] true s = .abandoned (streamsFailed none x) ∧ ErrorMet s x ∧
      x.errorRecord = some ⟨.streams, 8 + a.length, .double⟩ := by
  have hfailed := scan_failed a b ha hw 0
  rw [← hbox, Nat.zero_add] at hfailed
  have hcheck : checkOutbox s = (recordScan .streams (8 + ·) (scan 0 s.streams.outbox)
      { s with streams.outbox := (scan 0 s.streams.outbox).words }, false) := by
    simp only [checkOutbox, hfailed, Option.isNone_some]
  refine ⟨(checkOutbox s).1, by simp only [readStreams, checkLanes_clean [l] fun k _ => hc k, if_true, hcheck], ?_⟩
  rw [hcheck]
  rcases recordScan_failed hfailed .streams (8 + ·) { s with streams.outbox := (scan 0 s.streams.outbox).words } with
    h | ⟨q, h⟩
  · rw [h]
    exact ⟨⟨rfl, hasAlert_raise .memFailed _, rfl, rfl, rfl, rfl⟩, rfl⟩
  · rw [h]
    exact ⟨⟨rfl, hasAlert_raise .memFailed _, rfl, rfl, rfl, rfl⟩, rfl⟩

end

/-- Settles O26. -/
theorem memoryErrorsAreHandled : Obligations.MemoryErrorsAreHandled := by
  refine ⟨fun s n hf hm => ⟨fun hp hh he => ?_, fun e hp hh he => ?_, fun hp hh => ?_, fun l hl hc => ?_, fun l hl hc hv => ?_⟩,
    fun s l lane label count flags hs hlane => ?_⟩
  · rw [execTagReceived_damaged hf hm hp, readMapEntry_single hh, Course.finally_on, Course.state_on, he,
      markDamaged_free (by simp only [entryAt, Table.get_set_self, Stored.fresh])]
  · intro marked
    rw [execTagReceived_damaged hf hm hp, readMapEntry_single hh, Course.finally_on, Course.state_on, he,
      markDamaged_held (e := e) (by simp only [entryAt, Table.get_set_self, Stored.fresh])]
    by_cases hmark : e.mark = .none
    · simp only [hmark, if_true, setEntry, set_set, marked]
    · simp only [hmark, if_false, marked]
  · have h := enterResync_resynced (s := recordDouble .map n.val s) hm
    have herror := (enterResync_alertsStay (recordDouble .map n.val s)).stays _ (hasAlert_raise .memFailed _)
    rw [execTagReceived_damaged hf hm hp, readMapEntry_double hh]
    simp only [mapQueueFailed, recordDouble_frame, hm]
    generalize enterResync _ = t at *
    exact ⟨t, rfl, h.mode, by rw [h.cycle], by rw [h.cycle], h.empty, h.errorRecord, herror, h.conflict, h.modeAlert, h.streams⟩
  · intro r corrected
    refine ⟨fun hnone => ?_, fun p c hd hstate hp hfirst hlow hcount => ?_⟩
    · refine execSlotStart_corrects_unnamed hf hm hl hc (namingLane_none ?_)
      rintro k ⟨hk, -⟩
      rw [laneOfState_laneCorrected] at hk
      exact hnone k hk
    · have hlane := laneOfState_laneCorrected l l s
      have hnamed : namingLane n (s.laneCorrected l) = some l := by
        refine namingLane_lowest ⟨?_, ?_⟩ fun k hk ⟨hn, _⟩ => ?_
        · rw [hlane]
          exact List.mem_of_getElem? hp
        · rw [hlane]
          exact .inr (.inr hstate)
        · rw [laneOfState_laneCorrected] at hn
          exact hlow k hk hn
      rw [execSlotStart_corrects_named hf hm hl hc hnamed]
      simp only [nameSlot]
      rw [slotWord_cancelling (by rw [hlane]; exact hstate), ownTag_eq (c := c) (p := p) (by rw [hlane]; exact hcount)
        (by rw [hlane]; exact hp) (by rw [hlane]; exact hfirst), hlane, sendTag, if_pos (by exact hd)]
      rfl
  · have ht := streamsFailed_faulted (s := recordDouble .streams l.val s) (some l) (by simp [hm]) (by simp [hm])
    refine ⟨_, execSlotStart_fails hf hm hl hc, ?_⟩
    generalize streamsFailed (some l) (recordDouble .streams l.val s) = t at *
    have hmet := errorMet_recordDouble .streams l.val s
    refine ⟨ht.mode, (ht.lane l).trans (rewritten_failed hl), fun k hk => ?_, ht.clean, ht.outbox, ht.onLine, ht.txSlots,
      ht.recordFailed l hl hc, ht.stay.stays _ hmet.alert, ht.stream, ht.modeAlert, ht.alloc, ht.phase⟩
    have hread : laneOfState t k = (laneOfState s k).closedWith .fault :=
      (ht.lane k).trans (rewritten_read (s := s) (by rw [hc k hk]; decide))
    rw [hread]
    exact ⟨rfl, rfl, rfl⟩
  · intro inRange fails open_ close read fresh closed answers repaired
    refine ⟨fun ho hl hfail => ?_, fun a w b ho hl hc hv hbox ha hw => ?_, fun hm hfail => ?_, fun hm hfail hlow => ?_⟩
    · have hmet := errorMet_recordDouble .streams l.val s.heard
      have hstreams := streamsFailed_faulted (s := recordDouble .streams l.val s.heard) (some l) ho hl
      have hread := readStreams_laneFails (s := s.heard) hfail
      generalize streamsFailed (some l) (recordDouble .streams l.val s.heard) = t at *
      have hself : laneOfState t l = .faulted true := (hstreams.lane l).trans (rewritten_failed hfail)
      refine ⟨?_, ?_, fun hr hw => ?_⟩
      · have hbody := readLane_abandoned (hread false)
        rw [hself] at hbody
        obtain ⟨hresponse, hlanes, hrest⟩ := (hmet.answered hstreams .done (streamRecord l (.faulted true))).unchanged l
        refine ⟨_, ⟨(execReadStream_heard hs hlane).trans (congrArg _ hbody), hresponse, fun k => (hlanes k).trans ?_, hrest⟩,
          hstreams.recordFailed l hfail⟩
        rw [rewritten_failed (s := s.heard) hfail]
        rfl
      · exact ⟨_, ⟨(execCloseStream_heard hs hlane).trans (congrArg _ (closeBody_abandoned (hread true))),
          hmet.answered hstreams .done []⟩, hstreams.recordFailed l hfail⟩
      · obtain ⟨p, hp, hexec⟩ := execOpenStream_heard (label := label) hs hlane hr ⟨ho, hl, hw⟩
        exact ⟨_, ⟨hexec.trans (congrArg _ (openBody_abandoned hp (hread true))), hmet.answered hstreams .refusedMode []⟩,
          hstreams.recordFailed l hfail⟩
    · obtain ⟨x, hread, hmet, hrecord⟩ := readStreams_outboxFails (s := s.heard) (l := l) hc hbox ha hw
      have hstreams := streamsFailed_faulted (s := x) none (by rw [hmet.mode]; exact ho) (by rw [hmet.mode]; exact hl)
      have hkept := (hstreams.recordKept (fun k => by rw [hmet.lanes]; exact hc k) (by rw [hmet.onLine]; exact hv)).trans hrecord
      have hclosed (k : LaneNo) : rewritten (s.streams.lanes.get k) = closed k :=
        rewritten_read (s := s) (by rw [hc k]; decide)
      generalize streamsFailed none x = t at *
      have hanswered (st : Status) : AnsweredFaulted s st [] closed (answer st [] t) := by
        obtain ⟨hresponse, hlanes, hrest⟩ := hmet.answered hstreams st []
        exact ⟨hresponse, fun k => (hlanes k).trans (hclosed k), hrest⟩
      refine ⟨⟨_, ⟨(execCloseStream_heard hs hlane).trans (congrArg _ (closeBody_abandoned hread)), hanswered .done⟩, hkept⟩,
        fun hr hw => ?_⟩
      obtain ⟨p, hp, hexec⟩ := execOpenStream_heard (label := label) hs hlane hr ⟨ho, hl, hw⟩
      exact ⟨_, ⟨hexec.trans (congrArg _ (openBody_abandoned hp hread)), hanswered .refusedMode⟩, hkept⟩
    · have hread := readStreams_laneFails (s := s.heard) hfail
      rw [streamsFailed_stays (s := s.heard) hm] at hread
      refine ⟨?_, ?_⟩
      · rw [show read = _ from execReadStream_heard hs hlane, readLane_abandoned (hread false)]
        simp only [laneOfState, Table.get_set_self, updateLane, putLane, set_set]
        rfl
      · rw [show close = _ from execCloseStream_heard hs hlane, closeBody_abandoned (hread true)]
        rfl
    · have hread := readStreams_lanesFail (s := s.heard) hfail hlow
      rw [streamsFailed_stays (s := s.heard) hm] at hread
      have hall : readAllLanes s.heard = _ := congrArg Course.state hread
      refine ⟨?_, ?_⟩
      · rw [execReadLanes_heard hs, lanesBody, hall]
        rfl
      · rw [execReadAlerts_heard hs, alertsBody, hall]
        rfl

end Sys2Proof.Machine
end

section
/-! What enters nothing in the shared tables (R40, R52, R66, R79, R98, R118, R131, R142): most parts of an event only take entries
out of the Slot Map and the Claim Queue, or leave them; `Sheds` says so, with what they keep of the station's own lists. -/

namespace Sys2Proof.Machine

/-! ## The stored lists but for the Claim Queue -/

/-- The Control Outbox holds no two entries for one lane, nor two RESTARTs (R98). -/
def BoxFits (b : List (Stored OutboxEntry)) : Prop := (b.map fun e => e.val.lane?).Nodup

/-- A lane FIFO holds at most 32 words (R118). -/
def LaneUnit.Fits (u : LaneUnit) : Prop := ∀ l : LaneNo, (u.txFifo.get l).length ≤ 32 ∧ (u.rxFifo.get l).length ≤ 32

/-- At most 4 notes are stored each way, and an ACTIVE one stands behind DONE ones only (R131, R133, R142). -/
def NoteUnit.Fits (u : NoteUnit) : Prop :=
  u.tx.length ≤ 4 ∧ (u.tx.Pairwise fun m n => n.state = .active → m.state = .done) ∧ u.ring.length ≤ 4

/-- What `State.ListsFit` says of every list but the Claim Queue. -/
structure State.SideFits (s : State) : Prop where
  box : BoxFits s.streams.outbox
  lanes : s.lanes.Fits
  notes : s.notes.Fits
  rebuild : s.alloc.rebuildList.length ≤ 48

/-- The outbox has an entry for each of 8 lanes and a RESTART at most (R98). -/
theorem BoxFits.length_le {b : List (Stored OutboxEntry)} (h : BoxFits b) : b.length ≤ 9 := by
  have hcard : (b.map fun e => e.val.lane?).length ≤ Fintype.card (Option LaneNo) := List.Nodup.length_le_card h
  simpa using hcard

theorem BoxFits.sublist {b c : List (Stored OutboxEntry)} (h : BoxFits b) (hc : c.Sublist b) : BoxFits c :=
  List.Nodup.sublist (hc.map _) h

theorem boxFits_congr {b c : List (Stored OutboxEntry)} (h : c.map (·.val) = b.map (·.val)) (hb : BoxFits b) : BoxFits c := by
  have hmap (d : List (Stored OutboxEntry)) :
      (d.map fun e => e.val.lane?) = (d.map (·.val)).map OutboxEntry.lane? := by rw [List.map_map]; rfl
  rw [BoxFits, hmap, h, ← hmap]
  exact hb

/-- An entry appended in the place of the one of its lane (R98). -/
theorem BoxFits.append {b : List (Stored OutboxEntry)} (h : BoxFits b) (e : OutboxEntry) :
    BoxFits ((b.filter fun w => w.val.lane? ≠ e.lane?) ++ [.fresh e]) := by
  have hb : BoxFits (b.filter fun w => w.val.lane? ≠ e.lane?) := h.sublist List.filter_sublist
  rw [BoxFits, List.map_append, List.nodup_append]
  refine ⟨hb, by simp, fun x hx y hy => ?_⟩
  obtain ⟨w, hw, rfl⟩ := List.mem_map.mp hx
  have hy : y = e.lane? := by simpa [Stored.fresh] using hy
  simpa [hy] using (List.mem_filter.mp hw).2

/-! ## Notes -/

/-- Entries that keep their place and their state, or become DONE. -/
def Settled (ns ms : List TxNote) : Prop := List.Forall₂ (fun n m => m.state = n.state ∨ m.state = .done) ns ms

theorem settled_modify {f : TxNote → TxNote} (h : ∀ n, (f n).state = n.state ∨ (f n).state = .done) :
    ∀ (ns : List TxNote) (i : Nat), Settled ns (ns.modify i f)
  | [], _ => by rw [List.modify_nil]; exact .nil
  | n :: ns, 0 => .cons (h n) (List.forall₂_same.mpr fun _ _ => .inl rfl)
  | n :: ns, i + 1 => .cons (.inl rfl) (settled_modify h ns i)

theorem settled_map {f : TxNote → TxNote} (h : ∀ n, (f n).state = n.state ∨ (f n).state = .done) (ns : List TxNote) :
    Settled ns (ns.map f) := by
  rw [Settled, List.forall₂_map_right_iff]
  exact List.forall₂_same.mpr fun n _ => h n

/-- The order of the notes stands while entries keep their state or become DONE (R133). -/
theorem Settled.ordered {ns ms : List TxNote} (h : Settled ns ms)
    (hn : ns.Pairwise fun m n => n.state = .active → m.state = .done) :
    ms.Pairwise fun m n => n.state = .active → m.state = .done := by
  induction h with
  | nil => exact .nil
  | @cons n m ns ms hnm hrest ih =>
    obtain ⟨hhead, htail⟩ := List.pairwise_cons.mp hn
    refine List.pairwise_cons.mpr ⟨fun k hk hactive => ?_, ih htail⟩
    obtain ⟨i, hi, rfl⟩ := List.mem_iff_getElem.mp hk
    have hlen : i < ns.length := by rw [hrest.length_eq]; exact hi
    have hki := hrest.get hlen hi
    simp only [List.get_eq_getElem, hactive, reduceCtorEq, or_false] at hki
    rcases hnm with hnm | hnm
    · rw [hnm]; exact hhead _ (List.getElem_mem hlen) hki.symm
    · exact hnm

theorem NoteUnit.Fits.settled {u v : NoteUnit} (h : u.Fits) (htx : Settled u.tx v.tx) (hring : v.ring.length ≤ u.ring.length) :
    v.Fits :=
  ⟨htx.length_eq ▸ h.1, htx.ordered h.2.1, hring.trans h.2.2⟩

/-! ## The shared tables by name -/

/-- An identity with its label (R40, R80). -/
structure StreamName where
  station : Station
  lane : LaneNo
  label : Label

/-- The name that an entry of the map holds. -/
def SlotEntry.name? : SlotEntry → Option StreamName
  | .free => none
  | .held h => some ⟨h.holder, h.lane, h.label⟩

/-- A queue entry but for its age. -/
def QueueEntry.ageless (e : QueueEntry) : QueueEntry := { e with age := 0 }

/-- The Claim Queue but for the ages and the check bits. -/
def queueEntries (s : State) : List QueueEntry := s.alloc.queue.map (·.val.ageless)

/-- The name that a slot of the map holds. -/
def slotName (s : State) (n : Slot) : Option StreamName := (entryAt s n).name?

/-- The phases in which the shared tables are in force: messages are applied (R24, R55). -/
def Phase.InForce (p : Phase) : Prop := p = .verify ∨ p = .learned

/-- A part of an event that enters nothing in the shared tables, does not put them in force, and keeps the other lists. -/
structure Sheds (s t : State) : Prop where
  side : s.SideFits → t.SideFits
  queue : (queueEntries t).Sublist (queueEntries s)
  map : ∀ n, slotName t n = none ∨ slotName t n = slotName s n
  phase : t.cycle.phase.InForce → s.cycle.phase.InForce

theorem Sheds.refl (s : State) : Sheds s s := ⟨id, .refl _, fun _ => .inr rfl, id⟩

theorem Sheds.trans {s t u : State} (h : Sheds s t) (g : Sheds t u) : Sheds s u where
  side := g.side ∘ h.side
  queue := g.queue.trans h.queue
  map n := (g.map n).elim .inl fun e => (h.map n).imp e.trans e.trans
  phase := h.phase ∘ g.phase

/-- An event that goes on enters nothing if its parts do not. -/
theorem next_sheds {s : State} {c : Course} {f : State → Course} (hc : Sheds s c.state) (hf : ∀ u, Sheds u (f u).state) :
    Sheds s (c.next f).state :=
  Course.next_keeps hc fun u hu => hu.trans (hf u)

theorem finally_sheds {s : State} {c : Course} {f : State → State} (hc : Sheds s c.state) (hf : ∀ u, Sheds u (f u)) :
    Sheds s (c.finally f).state :=
  next_sheds hc hf

section
variable {s t : State}

/-! ## Changes elsewhere -/

/-- A change of the Line Unit, the mode, the Command Port and what else holds no stored list. -/
theorem elsewhere_sheds (ha : t.alloc = s.alloc) (hp : t.cycle.phase = s.cycle.phase) (hs : t.streams = s.streams)
    (hl : t.lanes = s.lanes) (hn : t.notes = s.notes) : Sheds s t where
  side h := ⟨hs ▸ h.box, hl ▸ h.lanes, hn ▸ h.notes, ha ▸ h.rebuild⟩
  queue := by rw [queueEntries, ha]; exact .refl _
  map n := .inr (by simp only [slotName, entryAt, ha])
  phase := hp ▸ id

theorem line_sheds (l : LineUnit) (s : State) : Sheds s { s with line := l } := elsewhere_sheds rfl rfl rfl rfl rfl

theorem mode_sheds (m : ModeController) (s : State) : Sheds s { s with mode := m } := elsewhere_sheds rfl rfl rfl rfl rfl

theorem port_sheds (p : CommandPort) (s : State) : Sheds s { s with port := p } := elsewhere_sheds rfl rfl rfl rfl rfl

/-- A change of the Cycle Engine's items but for the phase. -/
theorem cycle_sheds {c : CycleEngine} (h : c.phase = s.cycle.phase) : Sheds s { s with cycle := c } :=
  elsewhere_sheds rfl h rfl rfl rfl

/-- A change of the Stream Table and the outbox. -/
theorem streams_sheds (ha : t.alloc = s.alloc) (hp : t.cycle.phase = s.cycle.phase)
    (hs : BoxFits s.streams.outbox → BoxFits t.streams.outbox) (hl : t.lanes = s.lanes) (hn : t.notes = s.notes) :
    Sheds s t where
  side h := ⟨hs h.box, hl ▸ h.lanes, hn ▸ h.notes, ha ▸ h.rebuild⟩
  queue := by rw [queueEntries, ha]; exact .refl _
  map n := .inr (by simp only [slotName, entryAt, ha])
  phase := hp ▸ id

/-- A change of the Lane Unit. -/
theorem lanes_sheds {u : LaneUnit} (h : s.lanes.Fits → u.Fits) : Sheds s { s with lanes := u } where
  side hs := ⟨hs.box, h hs.lanes, hs.notes, hs.rebuild⟩
  queue := .refl _
  map _ := .inr rfl
  phase := id

/-- A change of the Note Unit. -/
theorem notes_sheds {u : NoteUnit} (h : s.notes.Fits → u.Fits) : Sheds s { s with notes := u } where
  side hs := ⟨hs.box, hs.lanes, h hs.notes, hs.rebuild⟩
  queue := .refl _
  map _ := .inr rfl
  phase := id

/-- A change of the shared tables that enters nothing. -/
theorem alloc_sheds {a : AllocationUnit} (hq : (a.queue.map (·.val.ageless)).Sublist (queueEntries s))
    (hm : ∀ n, (a.map.get n).val.name? = none ∨ (a.map.get n).val.name? = slotName s n)
    (hr : s.alloc.rebuildList.length ≤ 48 → a.rebuildList.length ≤ 48) : Sheds s { s with alloc := a } where
  side h := ⟨h.box, h.lanes, h.notes, hr h.rebuild⟩
  queue := hq
  map := hm
  phase := id

/-- A change of the learning phase that does not put the tables in force. -/
theorem phase_sheds {p : Phase} (h : p.InForce → s.cycle.phase.InForce) : Sheds s { s with cycle.phase := p } :=
  ⟨fun ⟨hb, hl, hn, hr⟩ => ⟨hb, hl, hn, hr⟩, .refl _, fun _ => .inr rfl, h⟩

theorem raise_sheds (a : Alert) (s : State) : Sheds s (raise a s) := elsewhere_sheds rfl rfl rfl rfl rfl

theorem recordRead_sheds (r : Region) (i : Nat) (h : Health) (s : State) : Sheds s (recordRead r i h s) := by
  obtain ⟨u, e, hr⟩ := recordRead_shape r i h s
  rw [hr]
  exact elsewhere_sheds rfl rfl rfl rfl rfl

theorem recordScan_sheds {α : Type} (r : Region) (ix : Nat → Nat) (sc : Scan α) (s : State) :
    Sheds s (recordScan r ix sc s) := by
  obtain ⟨u, e, hr⟩ := recordScan_shape r ix sc s
  rw [hr]
  exact elsewhere_sheds rfl rfl rfl rfl rfl

/-! ## The shared tables emptied (R41, R52, R81, R91) -/

theorem clearMap_sheds (s : State) : Sheds s (clearMap s) :=
  alloc_sheds (.refl _) (fun n => .inl (by rw [Table.get_replicate]; rfl)) id

theorem clearTables_sheds (s : State) : Sheds s (clearTables s) :=
  alloc_sheds (List.nil_sublist _) (fun n => .inl (by rw [clearMap, Table.get_replicate]; rfl)) id

theorem not_inForce_adopt : ¬Phase.adopt.InForce := by rintro (h | h) <;> cases h

theorem toAdopt_sheds (s : State) : Sheds s (toAdopt s) where
  side h := ⟨h.box, h.lanes, h.notes, Nat.zero_le 48⟩
  queue := .refl _
  map _ := .inr rfl
  phase h := absurd h not_inForce_adopt

theorem relearn_sheds (s : State) : Sheds s (relearn s) := (toAdopt_sheds s).trans (clearTables_sheds _)

/-! ## Lanes, FIFOs and the outbox -/

theorem updateLane_sheds (l : LaneNo) (f : Lane → Lane) (s : State) : Sheds s (updateLane l f s) :=
  streams_sheds rfl rfl id rfl rfl

theorem changeLane_sheds (l : LaneNo) (f : Lane → Lane) (s : State) : Sheds s (changeLane l f s) :=
  (updateLane_sheds l _ s).trans (raise_sheds ..)

/-- A FIFO replaced by one that fits. -/
theorem fifo_fits {t : Table (List (Stored Sample)) 8} {l : LaneNo} {q : List (Stored Sample)}
    (h : ∀ k, (t.get k).length ≤ 32) (hq : q.length ≤ 32) (k : LaneNo) : ((t.set l q).get k).length ≤ 32 := by
  rw [Table.get_set]
  split
  · exact hq
  · exact h k

theorem LaneUnit.Fits.setTx {u : LaneUnit} (h : u.Fits) {l : LaneNo} {q : List (Stored Sample)} (hq : q.length ≤ 32) :
    LaneUnit.Fits { u with txFifo := u.txFifo.set l q } :=
  fun k => ⟨fifo_fits (fun k => (h k).1) hq k, (h k).2⟩

theorem LaneUnit.Fits.setRx {u : LaneUnit} (h : u.Fits) {l : LaneNo} {q : List (Stored Sample)} (hq : q.length ≤ 32) :
    LaneUnit.Fits { u with rxFifo := u.rxFifo.set l q } :=
  fun k => ⟨(h k).1, fifo_fits (fun k => (h k).2) hq k⟩

theorem flushTx_sheds (l : LaneNo) (s : State) : Sheds s (flushTx l s) := lanes_sheds fun hf => hf.setTx (Nat.zero_le 32)

theorem closeLane_sheds (l : LaneNo) (o : StreamOutcome) (s : State) : Sheds s (closeLane l o s) :=
  (changeLane_sheds l _ s).trans (flushTx_sheds ..)

theorem rewriteLane_sheds (l : LaneNo) (s : State) : Sheds s (rewriteLane l s) :=
  (changeLane_sheds l _ s).trans (flushTx_sheds ..)

theorem closeOpenLanes_sheds (o : StreamOutcome) (ls : List LaneNo) : ∀ s, Sheds s (closeOpenLanes o ls s) := by
  induction ls with
  | nil => exact .refl
  | cons l ls ih =>
    intro s
    unfold closeOpenLanes
    split
    · exact ih s
    · exact (closeLane_sheds l o s).trans (ih _)

theorem appendEntry_sheds (e : OutboxEntry) (s : State) : Sheds s (appendEntry e s) :=
  streams_sheds rfl rfl (fun h => h.append e) rfl rfl

/-- Entries taken out of the outbox. -/
theorem outbox_sheds {b : List (Stored OutboxEntry)} (h : b.Sublist s.streams.outbox) :
    Sheds s { s with streams.outbox := b } :=
  streams_sheds rfl rfl (fun hb => hb.sublist h) rfl rfl

theorem removeEntry_sheds (l : LaneNo) (s : State) : Sheds s (removeEntry l s) := outbox_sheds List.filter_sublist

theorem removeHead_sheds (s : State) : Sheds s (removeHead s) := outbox_sheds (List.tail_sublist _)

theorem emptyOutbox_sheds (s : State) : Sheds s (emptyOutbox s) := outbox_sheds (List.nil_sublist _)

theorem appendIfNone_sheds (e : OutboxEntry) (l : LaneNo) (s : State) : Sheds s (appendIfNone e l s) := by
  unfold appendIfNone
  split
  · exact .refl s
  · exact appendEntry_sheds e s

theorem settleLane_sheds (l : LaneNo) (f : Lane → Lane) (s : State) : Sheds s (settleLane l f s) := by
  unfold settleLane
  split
  · exact .refl s
  · exact changeLane_sheds l f s

theorem dropStreams_sheds (o : StreamOutcome) (s : State) : Sheds s (dropStreams o s) :=
  (closeOpenLanes_sheds o allLanes s).trans (emptyOutbox_sheds _)

theorem removeRestart_sheds (s : State) : Sheds s (removeRestart s) := by
  unfold removeRestart
  split
  · exact .refl s
  · rename_i w ws hbox
    have hrest : (ws.filter fun e => e.val ≠ .restart).Sublist ws := List.filter_sublist
    refine outbox_sheds ?_
    rw [hbox]
    split
    · exact hrest.trans (List.sublist_cons_self w ws)
    · exact hrest.cons_cons w

/-! ## Reads of the STREAMS region -/

theorem streamsRead_sheds (h : StreamsRead s t) : Sheds s t := by
  obtain ⟨c, u, e, rfl, -, hbox⟩ := h
  exact streams_sheds rfl rfl (boxFits_congr hbox) rfl rfl

theorem checkLane_sheds (l : LaneNo) (s : State) : Sheds s (checkLane l s).1 := streamsRead_sheds (checkLane_read l s)

theorem checkOutboxHead_sheds (s : State) : Sheds s (checkOutboxHead s).1 := by
  unfold checkOutboxHead
  split
  · exact .refl s
  · rename_i w ws hbox
    have hwritten : Sheds s { s with streams.outbox := w.afterRead :: ws } :=
      streams_sheds rfl rfl (boxFits_congr (by simp [hbox])) rfl rfl
    exact hwritten.trans (recordRead_sheds ..)

theorem rewriteLanes_sheds (ls : List LaneNo) : ∀ s, Sheds s (rewriteLanes ls s) := by
  induction ls with
  | nil => exact .refl
  | cons l ls ih =>
    intro s
    have hread := checkLane_sheds l s
    unfold rewriteLanes
    split
    · rename_i u heq; rw [heq] at hread; exact (hread.trans (closeLane_sheds ..)).trans (ih _)
    · rename_i u heq; rw [heq] at hread; exact (hread.trans (rewriteLane_sheds ..)).trans (ih _)

end

end Sys2Proof.Machine
end

section
/-! Notes, changes of mode, reads, notices and reports enter nothing in the shared tables (R13, R20 to R38, R57, R99 to R117, R131
to R145, R149 to R152). -/

namespace Sys2Proof.Machine

section
variable {s : State}

/-! ## Notes (R131 to R145) -/

/-- Entries of the Transmit Note Queue that keep their state or become DONE. -/
theorem settled_sheds {tx : List TxNote} (h : Settled s.notes.tx tx) : Sheds s { s with notes.tx := tx } :=
  notes_sheds fun hf => hf.settled h le_rfl

theorem updateTx_sheds {f : TxNote → TxNote} (h : ∀ n, (f n).state = n.state ∨ (f n).state = .done) (i : Nat) (s : State) :
    Sheds s (updateTx i f s) :=
  settled_sheds (settled_modify h s.notes.tx i)

theorem finishNote_sheds (i : Nat) (o : NoteOutcome) (s : State) : Sheds s (finishNote i o s) :=
  (updateTx_sheds (fun _ => .inr rfl) i s).trans (raise_sheds ..)

theorem corruptNote_sheds (i : Nat) (s : State) : Sheds s (corruptNote i s) := finishNote_sheds i .corrupt s

theorem readTx_sheds (i : Nat) (n : TxNote) (s : State) : Sheds s (readTx i n s).1 := by
  have hcontrol := recordRead_sheds .notes i n.control s
  have hbody := hcontrol.trans (recordRead_sheds .notes i n.body _)
  unfold readTx
  split
  · exact hcontrol
  · dsimp only
    split
    · exact hbody
    · exact hbody.trans (updateTx_sheds (fun _ => by simp) i _)

theorem noteLost_sheds (s : State) : Sheds s (noteLost s) := by
  unfold noteLost
  split
  · exact .refl s
  · rename_i i _
    split
    · exact .refl s
    · split
      · exact finishNote_sheds i .aborted s
      · exact finishNote_sheds i .discarded s
      · exact .refl s

theorem judgeNote_sheds (i : Nat) (n : TxNote) (rb : Readback) (a : Answer) (s : State) : Sheds s (judgeNote i n rb a s) := by
  have htried : Sheds s (updateTx i (fun m => { m with attempts := n.attempts + 1 }) s) :=
    updateTx_sheds (fun _ => by simp) i s
  unfold judgeNote
  dsimp only
  split
  · exact htried.trans (finishNote_sheds ..)
  · split
    · exact htried.trans (finishNote_sheds ..)
    · exact htried.trans (finishNote_sheds ..)
    · refine (htried.trans (updateTx_sheds (f := fun m => { m with countdown := s.port.config.noteSpacing }) ?_ i _)).trans
        (notes_sheds id)
      exact fun _ => .inl rfl

theorem noteCompleted_sheds (rb : Readback) (a : Answer) (s : State) : Sheds s (noteCompleted rb a s) := by
  unfold noteCompleted
  split
  · exact .refl s
  · rename_i i _
    split
    · exact .refl s
    · rename_i n _
      have hread := readTx_sheds i n s
      split
      · rename_i heq; rw [heq] at hread; exact hread.trans (judgeNote_sheds ..)
      · rename_i heq; rw [heq] at hread; exact hread.trans (corruptNote_sheds ..)

theorem endNotes_sheds (o : NoteOutcome) (mark : Ending → Ending) (s : State) : Sheds s (endNotes o mark s) := by
  have hended : Sheds s { s with notes.tx := s.notes.tx.map fun n =>
      if n.state = .done then n
      else if (n.state = .active && noteInWindow s) then { n with ending := mark n.ending } else n.finish o } := by
    refine settled_sheds (settled_map (fun n => ?_) _)
    split_ifs
    · exact .inl rfl
    · exact .inl rfl
    · exact .inr rfl
  unfold endNotes
  dsimp only
  split
  · exact hended.trans (raise_sheds ..)
  · exact hended

theorem discardNotes_sheds (s : State) : Sheds s (discardNotes s) := endNotes_sheds ..

theorem decreaseCountdown_sheds (i : Nat) (n : TxNote) (s : State) : Sheds s (decreaseCountdown i n s) := by
  have hread := recordRead_sheds .notes i n.control s
  unfold decreaseCountdown
  dsimp only
  split
  · exact hread.trans (corruptNote_sheds ..)
  · exact hread.trans (updateTx_sheds (fun _ => by simp) i _)

theorem spaceActive_sheds (due : Nat → Bool) (s : State) : Sheds s (spaceActive due s) := by
  unfold spaceActive
  split
  · exact .refl s
  · split
    · exact .refl s
    · split
      · exact decreaseCountdown_sheds ..
      · exact .refl s

theorem spaceNotes_sheds (s : State) : Sheds s (spaceNotes s) := by
  unfold spaceNotes
  split
  · exact notes_sheds id
  · exact spaceActive_sheds ..

/-- A note received is placed while the ring has room (R142, R144, R145). -/
theorem placeNote_sheds (n : RxNote) (s : State) : Sheds s (placeNote n s) := by
  unfold placeNote
  split
  · rename_i hroom
    have hlt := (ringHasRoom_iff s).mp hroom
    refine (notes_sheds (u := { s.notes with ring := s.notes.ring ++ [.fresh n] }) fun hf => ?_).trans (raise_sheds ..)
    exact ⟨hf.1, hf.2.1, by rw [List.length_append]; exact hlt⟩
  · exact raise_sheds ..

/-! ## What is cut at an entry into OFF or LISTEN (R13, R99, R102) -/

theorem controlLost_sheds (b : Body) (s : State) : Sheds s (controlLost b s) := by
  unfold controlLost
  split
  · exact .refl s
  · split
    · exact (removeEntry_sheds ..).trans (closeLane_sheds ..)
    · exact .refl s

theorem controlMismatch_sheds (b : Body) (s : State) : Sheds s (controlMismatch b s) := by
  unfold controlMismatch
  split
  · exact .refl s
  · split
    · exact ((removeHead_sheds s).trans (appendEntry_sheds ..)).trans (updateLane_sheds ..)
    · exact .refl s

theorem controlGood_sheds (b : Body) (s : State) : Sheds s (controlGood b s) := by
  have hhead := removeHead_sheds s
  unfold controlGood
  dsimp only
  split
  · split
    · exact hhead.trans (appendEntry_sheds ..)
    · exact hhead
  · split
    · exact hhead.trans (closeLane_sheds ..)
    · exact hhead
  all_goals exact hhead

theorem cutControl_sheds {report : Body → State → State} (h : ∀ b s, Sheds s (report b s)) (b : Body) (s : State) :
    Sheds s (cutControl report b s) := by
  unfold cutControl
  split
  · exact .refl s
  · split
    · exact h b s
    · exact .refl s

theorem messageCut_sheds (src : Source) (b : Body) (s : State) : Sheds s (messageCut src b s) := by
  have hwon : Sheds s { s with line.wonWindow := true } := elsewhere_sheds rfl rfl rfl rfl rfl
  unfold messageCut
  cases src <;> dsimp only <;> split
  · exact cutControl_sheds controlLost_sheds b s
  · exact hwon.trans (cutControl_sheds controlMismatch_sheds b _)
  · exact noteLost_sheds s
  · exact hwon.trans (noteCompleted_sheds ..)

theorem reportCut_sheds (s : State) : Sheds s (reportCut s) := by
  unfold reportCut
  split
  · exact messageCut_sheds ..
  all_goals exact .refl s

theorem cutTransmission_sheds (s : State) : Sheds s (cutTransmission s) :=
  (reportCut_sheds s).trans (elsewhere_sheds rfl rfl rfl rfl rfl)

theorem announced_sheds (m : Mode) (s : State) : Sheds s (announced m s) := by
  have hset : Sheds s (raise .mode { s with
      mode.actual := m, cycle.foundingPending := false, cycle.winnerMarkDue := false }) :=
    elsewhere_sheds rfl rfl rfl rfl rfl
  unfold announced
  dsimp only
  split
  · exact hset.trans (discardNotes_sheds _)
  · exact hset

theorem changeMode_sheds (m : Mode) (s : State) : Sheds s (changeMode m s) := by
  by_cases hm : m = .off ∨ m = .listen
  · rw [changeMode_cuts hm]
    exact (announced_sheds m s).trans (cutTransmission_sheds _)
  · rw [changeMode_cuts_nothing hm]
    exact announced_sheds m s

/-! ## Entries into the modes (R22, R30 to R38) -/

theorem not_inForce_idle : ¬Phase.idle.InForce := by rintro (h | h) <;> cases h

theorem not_inForce_rebuild : ¬Phase.rebuild.InForce := by rintro (h | h) <;> cases h

theorem enterOff_sheds (s : State) : Sheds s (enterOff s) := by
  refine ((changeMode_sheds .off s).trans (clearTables_sheds _)).trans ⟨fun h => ?_, .refl _, fun _ => .inr rfl, fun h => ?_⟩
  · refine ⟨h.box, fun l => ?_, h.notes, Nat.zero_le 48⟩
    rw [enterOff, offEffects, Table.get_replicate]
    decide
  · exact absurd h not_inForce_idle

theorem listenFromOff_sheds (s : State) : Sheds s (listenFromOff s) := by
  have hleft : Sheds s (leaveOff (changeMode .listen s)) :=
    (changeMode_sheds .listen s).trans (line_sheds ..)
  exact (hleft.trans (toAdopt_sheds _)).trans (mode_sheds ..)

theorem enterJoining_sheds (s : State) : Sheds s (enterJoining s) := by
  have hjoin := changeMode_sheds .joining s
  have hend (u : State) : Sheds u { u with mode.requested := .member, line.driverEnable := true } :=
    elsewhere_sheds rfl rfl rfl rfl rfl
  unfold enterJoining
  refine Sheds.trans ?_ (hend _)
  split
  · exact (hjoin.trans (line_sheds ..)).trans (relearn_sheds (leaveOff (changeMode .joining s)))
  · dsimp only
    split
    · rename_i hp
      exact hjoin.trans (phase_sheds fun _ => .inr (by rw [changeMode_cycle]; exact hp))
    · exact hjoin

theorem abandonStreams_sheds (s : State) : Sheds s (abandonStreams s) :=
  (discardNotes_sheds s).trans (dropStreams_sheds ..)

theorem listenFromLearning_sheds (s : State) : Sheds s (listenFromLearning s) :=
  ((changeMode_sheds .listen s).trans (abandonStreams_sheds _)).trans (mode_sheds ..)

theorem offFromLearning_sheds (s : State) : Sheds s (offFromLearning s) :=
  ((cutTransmission_sheds s).trans (abandonStreams_sheds _)).trans (enterOff_sheds _)

theorem enterResync_sheds (s : State) : Sheds s (enterResync s) :=
  (((changeMode_sheds .resync s).trans (raise_sheds ..)).trans (relearn_sheds _)).trans (cycle_sheds rfl)

theorem silenceInResync_sheds (s : State) : Sheds s (silenceInResync s) := by
  have hdropped : Sheds s (dropStreams .fault (toAdopt (changeMode .joining s))) :=
    ((changeMode_sheds .joining s).trans (toAdopt_sheds _)).trans (dropStreams_sheds ..)
  unfold silenceInResync
  generalize dropStreams .fault (toAdopt (changeMode .joining s)) = u at hdropped
  exact hdropped.trans (elsewhere_sheds rfl rfl rfl rfl rfl)

theorem faultItems_sheds (c : FaultCause) (s : State) : Sheds s (faultItems c s) := elsewhere_sheds rfl rfl rfl rfl rfl

theorem faultEntry_sheds (c : FaultCause) (s : State) : Sheds s (faultEntry c s) := by
  have hfault : Sheds s (faultItems c (dropStreams .fault (discardNotes (changeMode .listen s)))) :=
    (((changeMode_sheds .listen s).trans (discardNotes_sheds _)).trans (dropStreams_sheds ..)).trans (faultItems_sheds ..)
  unfold faultEntry
  split
  · exact .refl s
  · exact elsewhere_sheds rfl rfl rfl rfl rfl
  · dsimp only
    split
    · exact hfault.trans (relearn_sheds _)
    · exact hfault

/-! ## Reads and what a double error does (R149 to R152) -/

theorem streamsFailed_sheds (f : Option LaneNo) (s : State) : Sheds s (streamsFailed f s) := by
  unfold streamsFailed
  split
  · cases f with
    | some l => exact (rewriteLane_sheds l s).trans (mode_sheds ..)
    | none => exact (emptyOutbox_sheds s).trans (mode_sheds ..)
  · exact ((((changeMode_sheds .listen s).trans (discardNotes_sheds _)).trans (rewriteLanes_sheds ..)).trans
      (emptyOutbox_sheds _)).trans (faultItems_sheds ..)

theorem readStreams_sheds (ls : List LaneNo) (box : Bool) (s : State) : Sheds s (readStreams ls box s).state := by
  have hlanes := streamsRead_sheds (checkLanes_read ls s)
  unfold readStreams
  split
  · rename_i u l heq; rw [heq] at hlanes; exact Sheds.trans hlanes (streamsFailed_sheds (some l) u)
  · rename_i u heq
    rw [heq] at hlanes
    have hbox := hlanes.trans (streamsRead_sheds (checkOutbox_read u))
    split
    · split
      · rename_i v heq2; rw [heq2] at hbox; exact hbox
      · rename_i v heq2; rw [heq2] at hbox; exact Sheds.trans hbox (streamsFailed_sheds none v)
    · exact hlanes

theorem mapQueueFailed_sheds (s : State) : Sheds s (mapQueueFailed s) := by
  unfold mapQueueFailed
  split
  · exact .refl s
  · exact enterResync_sheds s
  · split
    · exact relearn_sheds s
    · exact toAdopt_sheds s
  · split
    · exact .refl s
    · exact toAdopt_sheds s
  · exact toAdopt_sheds s
  · exact toAdopt_sheds s

/-- A read that goes on where it finds no double error, and else is abandoned. -/
theorem read_sheds {c : Prop} [Decidable c] {u : State} (h : Sheds s u) :
    Sheds s (if c then Course.abandoned (mapQueueFailed u) else .on u).state := by
  split
  · exact h.trans (mapQueueFailed_sheds u)
  · exact h

theorem scan_entries (pos : Nat) (ws : List (Stored QueueEntry)) :
    (scan pos ws).words.map (·.val.ageless) = ws.map (·.val.ageless) := by
  have hmap (vs : List (Stored QueueEntry)) : vs.map (·.val.ageless) = (vs.map (·.val)).map QueueEntry.ageless := by
    rw [List.map_map]; rfl
  rw [hmap, scan_vals, ← hmap]

theorem scanTable_val {α : Type} {n : Nat} (t : Table (Stored α) n) (i : Fin n) : ((scanTable t).get i).val = (t.get i).val := by
  have hlist := scan_vals t.cells 0
  have hat := congrArg (·[i.val]?) hlist
  simpa [Table.get, scanTable, t.size, scan_length] using hat

theorem readMap_sheds (s : State) : Sheds s (readMap s).state := by
  refine read_sheds ((alloc_sheds (a := { s.alloc with map := scanTable s.alloc.map }) (.refl _) (fun n => .inr ?_) id).trans
    (recordScan_sheds ..))
  rw [scanTable_val]
  rfl

theorem readMapEntry_sheds (n : Slot) (s : State) : Sheds s (readMapEntry n s).state := by
  refine read_sheds ((alloc_sheds (a := { s.alloc with map := s.alloc.map.set n (s.alloc.map.get n).afterRead }) (.refl _)
    (fun k => .inr ?_) id).trans (recordRead_sheds ..))
  rw [Table.get_set]
  split
  · rename_i hk; rw [hk, afterRead_val]; rfl
  · rfl

theorem readQueue_sheds (s : State) : Sheds s (readQueue s).state := by
  refine read_sheds ((alloc_sheds (a := { s.alloc with queue := (scan 1 s.alloc.queue).words }) ?_ (fun _ => .inr rfl) id).trans
    (recordScan_sheds ..))
  rw [scan_entries]
  exact .refl _

theorem readQueueHead_sheds (s : State) : Sheds s (readQueueHead s).state := by
  unfold readQueueHead
  split
  · exact .refl s
  · rename_i w ws hq
    refine read_sheds ((alloc_sheds (a := { s.alloc with queue := w.afterRead :: ws }) ?_ (fun _ => .inr rfl) id).trans
      (recordRead_sheds ..))
    rw [queueEntries, hq, List.map_cons, List.map_cons, afterRead_val]

/-! ## Withdrawal and notices (R33, R34, R57) -/

theorem endLane_sheds (l : LaneNo) (s : State) : Sheds s (endLane l s) := by
  unfold endLane
  split
  · exact .refl s
  · split
    · exact (removeEntry_sheds l s).trans (closeLane_sheds ..)
    · exact changeLane_sheds ..
    · exact (changeLane_sheds l _ s).trans (appendEntry_sheds ..)
  · exact (changeLane_sheds l _ s).trans (appendEntry_sheds ..)
  · exact (changeLane_sheds l _ s).trans (appendEntry_sheds ..)
  · exact .refl s
  · exact .refl s

theorem leaveForTarget_sheds (s : State) : Sheds s (leaveForTarget s) := by
  unfold leaveForTarget
  split
  · exact enterOff_sheds s
  · dsimp only
    split
    · rename_i hp
      exact (changeMode_sheds .listen s).trans (phase_sheds fun _ => .inr hp)
    · exact changeMode_sheds .listen s
  · exact .refl s

theorem exitCheck_sheds (s : State) : Sheds s (exitCheck s) := by
  unfold exitCheck
  split
  · exact leaveForTarget_sheds s
  · exact .refl s

theorem endWithdrawal_sheds (s : State) : Sheds s (endWithdrawal s) :=
  ((cutTransmission_sheds s).trans (dropStreams_sheds ..)).trans (leaveForTarget_sheds _)

theorem withdrawLanes_sheds (ls : List LaneNo) : ∀ s, Sheds s (withdrawLanes ls s).state := by
  induction ls with
  | nil => exact .refl
  | cons l ls ih => exact fun s => next_sheds (readStreams_sheds ..) fun u => (endLane_sheds l u).trans (ih _)

theorem enterWithdrawing_sheds (t : Target) (s : State) : Sheds s (enterWithdrawing t s).state :=
  finally_sheds (((changeMode_sheds .withdrawing s).trans (mode_sheds ..)).trans (withdrawLanes_sheds allLanes _))
    fun u => (removeRestart_sheds u).trans (exitCheck_sheds _)

theorem takeRestart_sheds (s : State) : Sheds s (takeRestart s) := by
  refine (closeOpenLanes_sheds .restart allLanes s).trans (outbox_sheds ?_)
  split
  · exact List.take_sublist ..
  · exact List.nil_sublist _

/-- Table 6-3: a notice changes its lane and the outbox (R103 to R110). -/
theorem takeNotice_sheds (n : Notice) (s : State) : Sheds s (takeNotice n s) := by
  have hremoved (l : LaneNo) (o : StreamOutcome) : Sheds s (closeLane l o (removeEntry l s)) :=
    (removeEntry_sheds l s).trans (closeLane_sheds ..)
  cases n with
  | granted l slots cycle =>
    unfold takeNotice takeGranted
    dsimp only
    split
    · split
      · exact changeLane_sheds ..
      · exact .refl s
    · exact changeLane_sheds ..
    · exact changeLane_sheds ..
    all_goals exact .refl s
  | queued l p =>
    unfold takeNotice takeQueued
    dsimp only
    split
    · split
      · exact changeLane_sheds ..
      · exact .refl s
    · exact changeLane_sheds ..
    all_goals exact .refl s
  | refused l r =>
    unfold takeNotice takeRefused
    dsimp only
    split
    · split
      · exact closeLane_sheds ..
      · exact .refl s
    · exact hremoved ..
    all_goals exact .refl s
  | revoked l p =>
    unfold takeNotice takeRevoked
    dsimp only
    split
    · exact closeLane_sheds ..
    · exact changeLane_sheds ..
    · exact hremoved ..
    · exact ((removeEntry_sheds l s).trans (appendEntry_sheds ..)).trans (changeLane_sheds ..)
    · split
      · exact .refl s
      · exact hremoved ..
    · split
      · exact .refl s
      · exact changeLane_sheds ..
    all_goals exact .refl s
  | displaced l =>
    unfold takeNotice takeRemoved
    dsimp only
    split
    · exact closeLane_sheds ..
    · split
      · exact hremoved ..
      · exact .refl s
    all_goals exact .refl s
  | released l =>
    unfold takeNotice takeReleased
    dsimp only
    split
    · exact closeLane_sheds ..
    · exact .refl s
  | cancelled l =>
    unfold takeNotice takeCancelled
    dsimp only
    split
    · exact closeLane_sheds ..
    · exact .refl s
  | reclaimed l =>
    unfold takeNotice takeReclaimed
    dsimp only
    split
    · exact closeLane_sheds ..
    · exact hremoved ..
    · split
      · exact .refl s
      · exact hremoved ..
    all_goals exact .refl s
  | expired l =>
    unfold takeNotice takeRemoved
    dsimp only
    split
    · exact closeLane_sheds ..
    · split
      · exact hremoved ..
      · exact .refl s
    all_goals exact .refl s
  | restart => exact takeRestart_sheds s

theorem deliver_sheds (n : Notice) (s : State) : Sheds s (deliver n s) :=
  (finally_sheds (readStreams_sheds ..) (takeNotice_sheds n)).trans (exitCheck_sheds _)

theorem tell_sheds (st : Station) (hold : Bool) (n : Notice) (s : State) : Sheds s (tell st hold n s) := by
  unfold tell send
  split
  · split
    · exact alloc_sheds (.refl _) (fun _ => .inr rfl) id
    · exact deliver_sheds n s
  · exact .refl s

theorem controlReport_sheds {effect : Body → State → State} (h : ∀ b s, Sheds s (effect b s)) (b : Body) (s : State) :
    Sheds s (controlReport effect b s) :=
  (finally_sheds ((elsewhere_sheds rfl rfl rfl rfl rfl : Sheds s { s with line.onLine := none }).trans (readStreams_sheds ..))
    (h b)).trans (exitCheck_sheds _)

/-! ## Positions and reconciliation (R93, R111, R116) -/

theorem recordPositions_sheds (es : List QueueEntry) : ∀ (p : Nat) (s : State), Sheds s (recordPositions p es s).state := by
  induction es with
  | nil => exact fun _ => .refl
  | cons e es ih =>
    intro p s
    unfold recordPositions
    split
    · refine next_sheds (readStreams_sheds ..) fun u => Sheds.trans ?_ (ih ..)
      unfold recordPosition
      dsimp only
      split
      · exact updateLane_sheds ..
      · exact .refl u
    · exact ih (p + 1) s

theorem positionReport_sheds (s : State) : Sheds s (positionReport s).state :=
  next_sheds (readQueue_sheds s) fun u => recordPositions_sheds _ 1 u

/-- Table 6-4: reconciliation changes its lane and the outbox (R116). -/
theorem reconcileWith_sheds (l : LaneNo) (f : Found) (s : State) : Sheds s (reconcileWith l f s) := by
  have hlost : Sheds s (closeLane l .lost s) := closeLane_sheds ..
  have hremoved : Sheds s (closeLane l .lost (removeEntry l s)) := (removeEntry_sheds l s).trans (closeLane_sheds ..)
  have hwithdrawn : Sheds s (appendEntry (.withdraw l) (removeEntry l s)) :=
    (removeEntry_sheds l s).trans (appendEntry_sheds ..)
  have hheld (slots label count cls ret) : Sheds s (reconcileHeld l slots label count cls ret s) := changeLane_sheds ..
  have hwaiting (o p label count cls ret) : Sheds s (reconcileWaiting l o p label count cls ret s) := changeLane_sheds ..
  have hsettled (g : Lane → Lane) : Sheds s (appendIfNone (.withdraw l) l (settleLane l g s)) :=
    (settleLane_sheds l g s).trans (appendIfNone_sheds ..)
  cases hstate : (laneOfState s l).state with
  | closed =>
    cases f <;> simp only [reconcileWith, hstate]
    · exact appendIfNone_sheds ..
    · exact appendIfNone_sheds ..
    · exact .refl s
  | opening =>
    cases f <;> simp only [reconcileWith, hstate] <;> split
    · exact hheld ..
    · exact hwithdrawn.trans (closeLane_sheds ..)
    · exact hwaiting ..
    · exact hwithdrawn.trans (closeLane_sheds ..)
    · exact hlost
    · exact .refl s
  | waiting =>
    cases f <;> simp only [reconcileWith, hstate]
    · exact hheld ..
    · exact .refl s
    · exact hlost
  | held =>
    cases f <;> simp only [reconcileWith, hstate]
    · exact settleLane_sheds ..
    · exact hwaiting ..
    · exact hlost
  | closing =>
    cases f <;> simp only [reconcileWith, hstate]
    · exact appendIfNone_sheds ..
    · exact hwithdrawn.trans (changeLane_sheds ..)
    · exact hremoved
  | cancelling =>
    cases f <;> simp only [reconcileWith, hstate]
    · exact hsettled _
    · exact hsettled _
    · exact hremoved

theorem reconcile_sheds (s : State) : Sheds s (reconcile s).state := by
  have hlanes (ls : List LaneNo) : ∀ s, Sheds s (reconcileLanes ls s).state := by
    induction ls with
    | nil => exact .refl
    | cons l ls ih =>
      exact fun s => next_sheds (next_sheds (next_sheds (readMap_sheds s) readQueue_sheds) (readStreams_sheds [l] true))
        fun u => (reconcileWith_sheds l _ u).trans (ih _)
  exact finally_sheds (hlanes allLanes s) exitCheck_sheds

/-! ## Failed attempts, withdrawals counted, line silence and lapse (R14, R28, R34, R38) -/

theorem countAttempt_sheds (s : State) : Sheds s (countAttempt s) := by
  have hcount : Sheds s { s with cycle.resyncAttempts := s.cycle.resyncAttempts + 1 } := elsewhere_sheds rfl rfl rfl rfl rfl
  unfold countAttempt
  split
  · dsimp only
    split
    · exact hcount.trans (faultEntry_sheds ..)
    · exact hcount
  · exact .refl s

theorem countWithdrawal_sheds (s : State) : Sheds s (countWithdrawal s) := by
  have hcount : Sheds s { s with mode.withdrawCount := s.mode.withdrawCount + 1 } := elsewhere_sheds rfl rfl rfl rfl rfl
  unfold countWithdrawal
  split
  · dsimp only
    split
    · exact hcount.trans (endWithdrawal_sheds _)
    · exact hcount
  · exact .refl s

theorem silenceNotice_sheds (s : State) : Sheds s (silenceNotice s) := by
  have hrestart : Sheds s (restartSilence s) := elsewhere_sheds rfl rfl rfl rfl rfl
  unfold silenceNotice
  dsimp only
  split
  · exact .refl s
  · split
    · exact hrestart.trans (elsewhere_sheds rfl rfl rfl rfl rfl)
    · exact hrestart
  · exact hrestart.trans (relearn_sheds _)
  · exact hrestart.trans (silenceInResync_sheds _)
  · exact hrestart.trans (endWithdrawal_sheds _)
  · exact hrestart

theorem lapseExpired_sheds (s : State) : Sheds s (lapseExpired s) := by
  have hlapse : Sheds s (raise .lapse { s with port.lapse := none, port.lapseBits := 0 }) :=
    elsewhere_sheds rfl rfl rfl rfl rfl
  have hcause := hlapse.trans (elsewhere_sheds (t := { raise .lapse { s with port.lapse := none, port.lapseBits := 0 } with
    mode.cause := .lapse }) rfl rfl rfl rfl rfl)
  unfold lapseExpired
  dsimp only
  split
  · exact hcause.trans (enterWithdrawing_sheds ..)
  · exact hcause.trans (enterWithdrawing_sheds ..)
  · exact hcause.trans (listenFromLearning_sheds _)
  all_goals exact hlapse

theorem tick_sheds (s : State) : Sheds s (tick s) := by
  have hmessage : Sheds s (tickMessage s) := by
    obtain ⟨n, hn⟩ := tickMessage_eq s
    rw [hn]
    exact elsewhere_sheds rfl rfl rfl rfl rfl
  have hsilence (u : State) : Sheds u (tickSilence u) := by
    unfold tickSilence
    split
    · exact .refl u
    · split
      · exact silenceNotice_sheds u
      · exact elsewhere_sheds rfl rfl rfl rfl rfl
  have hlapse (u : State) : Sheds u (tickLapse u) := by
    unfold tickLapse
    split
    · exact .refl u
    · split_ifs
      · exact elsewhere_sheds rfl rfl rfl rfl rfl
      · exact lapseExpired_sheds u
      · exact elsewhere_sheds rfl rfl rfl rfl rfl
  exact ((hmessage.trans (hsilence _)).trans (hlapse _)).trans (elsewhere_sheds rfl rfl rfl rfl rfl)

end

end Sys2Proof.Machine
end

section
/-! The commands that enter nothing in the shared tables: all but those of marks, of the close of the slot field, of messages
received and of a founding completed (R6, R52, R118 to R125, R127, R132, R139 to R146, R157 to R168). -/

namespace Sys2Proof.Machine

section
variable {s t : State}

theorem lineEvent_sheds {f : State → State} (h : ∀ u, Sheds u (f u)) (s : State) : Sheds s (lineEvent f s) := by
  unfold lineEvent
  split
  · exact .refl s
  · exact h s

theorem framedEvent_sheds {f : State → State} (h : ∀ u, Sheds u (f u)) (s : State) : Sheds s (framedEvent f s) := by
  unfold framedEvent
  split
  · exact .refl s
  · exact h s

/-! ## Frames of the Command Port and resets (R21, R157 to R159) -/

theorem reset_sideFits : State.reset.SideFits := by
  obtain ⟨_, _, hbox, _, hlanes, htx, horder, hring, hrebuild⟩ := reset_listsFit
  exact ⟨hbox, hlanes, ⟨htx, horder, hring⟩, hrebuild⟩

theorem resetStation_sheds (s : State) : Sheds s (resetStation s) where
  side _ := ⟨reset_sideFits.box, reset_sideFits.lanes, reset_sideFits.notes, reset_sideFits.rebuild⟩
  queue := List.nil_sublist _
  map n := .inl (congrArg SlotEntry.name? (reset_entryAt n))
  phase h := absurd h not_inForce_idle

theorem pins_sheds (p : Pins) (s : State) : Sheds s { s with pins := p } := elsewhere_sheds rfl rfl rfl rfl rfl

theorem alerts_sheds (u : AlertUnit) (s : State) : Sheds s { s with alerts := u } := elsewhere_sheds rfl rfl rfl rfl rfl

theorem answer_sheds (st : Status) (p : List Byte) (s : State) : Sheds s (answer st p s) := port_sheds ..

theorem reloadLapse_sheds (s : State) : Sheds s (reloadLapse s) := port_sheds ..

theorem csnRise_sheds (s : State) : Sheds s (csnRise s) := by
  unfold csnRise
  split
  · exact resetStation_sheds s
  · exact port_sheds ..

theorem frameBegun_sheds (s : State) : Sheds s (frameBegun s) := (csnRise_sheds s).trans (port_sheds ..)

theorem frameCollected_sheds (s : State) : Sheds s (frameCollected s) := (frameBegun_sheds s).trans (port_sheds ..)

theorem hostFrame_sheds {α : Type} {params : Option α} {permitted : Mode → Bool} {body : α → State → State}
    (h : ∀ a u, Sheds u (body a u)) (s : State) : Sheds s (hostFrame params permitted body s) := by
  have htaken := (frameCollected_sheds s).trans (reloadLapse_sheds _)
  unfold hostFrame
  split
  · exact .refl s
  · dsimp only
    split
    · exact htaken.trans (answer_sheds ..)
    · split
      · exact htaken.trans (h ..)
      · exact htaken.trans (answer_sheds ..)

/-! ## Tags and slots (R43 to R48, R52, R114, R127) -/

/-- An entry of the map rewritten under the name it has. -/
theorem setEntry_sheds {n : Slot} {e : SlotEntry} (h : e.name? = slotName s n) : Sheds s (setEntry n e s) := by
  refine alloc_sheds (.refl _) (fun k => .inr ?_) id
  rw [Table.get_set]
  split
  · rename_i hk; rw [hk, ← h]; rfl
  · rfl

theorem markDamaged_sheds (n : Slot) (s : State) : Sheds s (markDamaged n s) := by
  unfold markDamaged
  split
  · exact .refl s
  · rename_i h hn
    split
    · exact setEntry_sheds (by rw [slotName, hn]; rfl)
    · exact .refl s

theorem unmatchedTag_sheds (n : Slot) (s : State) : Sheds s (unmatchedTag n s) := by
  unfold unmatchedTag
  split
  · exact enterResync_sheds s
  · have hfound : Sheds s { s with alloc.fieldConflict := true, alloc.mapFoundWrong := true } :=
      alloc_sheds (.refl _) (fun _ => .inr rfl) id
    exact (hfound.trans (raise_sheds ..)).trans (markDamaged_sheds ..)
  · exact markDamaged_sheds n s
  all_goals exact .refl s

theorem learnedTag_sheds (n : Slot) (g : TagContents) (s : State) : Sheds s (learnedTag n g s) := by
  unfold learnedTag
  split
  · exact unmatchedTag_sheds n s
  · rename_i h hn
    split
    · exact setEntry_sheds (by rw [slotName, hn]; rfl)
    · exact unmatchedTag_sheds n s

/-- A tag is collected while the rebuild list holds fewer than 48 (R52). -/
theorem collectTag_sheds (n : Slot) (g : TagContents) (s : State) : Sheds s (collectTag n g s) := by
  unfold collectTag
  split
  · rename_i hroom
    exact alloc_sheds (.refl _) (fun _ => .inr rfl) fun _ => by rw [List.length_append]; exact hroom
  · exact .refl s

theorem tagAtMap_sheds (n : Slot) (r : TagReport) (s : State) : Sheds s (tagAtMap n r s).state := by
  have hread {f : State → State} (h : ∀ u, Sheds u (f u)) : Sheds s ((readMapEntry n s).finally f).state :=
    finally_sheds (readMapEntry_sheds n s) h
  unfold tagAtMap
  split
  · cases r with
    | intact g => exact collectTag_sheds n g s
    | damaged => exact .refl s
    | silent => exact .refl s
  · split
    · unfold checkTag
      split
      · exact hread (markDamaged_sheds n)
      · cases r with
        | silent => exact .refl s
        | damaged => exact hread (markDamaged_sheds n)
        | intact g => exact hread (learnedTag_sheds n g)
    · exact .refl s
  all_goals exact .refl s

/-- A word added to a FIFO that fits leaves one that fits (R118). -/
theorem length_fifoAdd (x : Sample) {q : List (Stored Sample)} (h : q.length ≤ 32) : (fifoAdd x q).1.length ≤ 32 := by
  unfold fifoAdd Config.fifoRoom
  split
  · rw [List.length_append, List.length_tail, List.length_singleton]; omega
  · rw [List.length_append, List.length_singleton]; omega

theorem addTx_sheds (l : LaneNo) (x : Sample) (s : State) : Sheds s (addTx l x s) := by
  have hfits (hf : s.lanes.Fits) := hf.setTx (l := l) (length_fifoAdd x (hf l).1)
  unfold addTx
  dsimp only
  split
  · refine Sheds.trans ?_ (raise_sheds ..)
    exact lanes_sheds hfits
  · exact lanes_sheds hfits

theorem addRx_sheds (l : LaneNo) (x : Sample) (s : State) : Sheds s (addRx l x s) := by
  have hfits (hf : s.lanes.Fits) := hf.setRx (l := l) (length_fifoAdd x (hf l).2)
  unfold addRx
  dsimp only
  split
  · refine Sheds.trans ?_ (raise_sheds ..)
    exact lanes_sheds hfits
  · exact lanes_sheds hfits

theorem takeTx_sheds (l : LaneNo) (s : State) : Sheds s (takeTx l s).1 := by
  unfold takeTx
  split
  · exact .refl s
  · rename_i w ws hq
    have htaken : Sheds s { s with lanes.txFifo := s.lanes.txFifo.set l ws } :=
      lanes_sheds fun hf => hf.setTx (by have hlen := (hf l).1; rw [hq] at hlen; exact (Nat.le_succ _).trans hlen)
    exact htaken.trans (recordRead_sheds ..)

theorem takeRx_sheds (l : LaneNo) (s : State) : Sheds s (takeRx l s).1 := by
  unfold takeRx
  split
  · exact .refl s
  · rename_i w ws hq
    have htaken : Sheds s { s with lanes.rxFifo := s.lanes.rxFifo.set l ws } :=
      lanes_sheds fun hf => hf.setRx (by have hlen := (hf l).2; rw [hq] at hlen; exact (Nat.le_succ _).trans hlen)
    exact htaken.trans (recordRead_sheds ..)

theorem deliverTag_sheds (g : TagContents) (s : State) : Sheds s (deliverTag g s) := by
  unfold deliverTag
  split
  · split
    · exact .refl s
    · exact addRx_sheds ..
  · exact .refl s

theorem restartSilence_sheds (s : State) : Sheds s (restartSilence s) := line_sheds ..

theorem duplicateFound_sheds (s : State) : Sheds s (duplicateFound s) := (raise_sheds ..).trans (faultEntry_sheds ..)

theorem tagReceived_sheds (n : Slot) (r : TagReport) (h : exec (.tagReceived n r) s = .next t) : Sheds s t := by
  cases h
  refine framedEvent_sheds (fun u => ?_) s
  cases r with
  | silent => exact tagAtMap_sheds ..
  | damaged => exact tagAtMap_sheds ..
  | intact g =>
    dsimp only
    refine ((restartSilence_sheds u).trans ?_).trans (deliverTag_sheds ..)
    split
    · exact duplicateFound_sheds _
    · exact tagAtMap_sheds ..

theorem countGap_sheds (l : LaneNo) (s : State) : Sheds s (countGap l s) := updateLane_sheds ..

theorem slotWord_sheds (l : LaneNo) (s : State) : Sheds s (slotWord l s).1 := by
  have htaken := takeTx_sheds l s
  unfold slotWord
  split
  · exact .refl s
  · split
    · rename_i heq; rw [heq] at htaken; exact htaken
    · rename_i u heq; rw [heq] at htaken; exact Sheds.trans htaken (countGap_sheds l u)

theorem nameSlot_sheds (n : Slot) (l : LaneNo) (s : State) : Sheds s (nameSlot n l s) := by
  unfold nameSlot sendTag
  dsimp only
  split
  · exact (slotWord_sheds l s).trans (line_sheds ..)
  · exact slotWord_sheds l s

theorem slotStart_sheds (n : Slot) (h : exec (.slotStart n) s = .next t) : Sheds s t := by
  cases h
  refine framedEvent_sheds (fun u => ?_) s
  split
  · refine finally_sheds (readStreams_sheds ..) fun v => ?_
    split
    · exact .refl v
    · exact nameSlot_sheds ..
  · exact .refl u

/-! ## Windows (R7 to R10, R134 to R145) -/

theorem contenderLost_sheds (s : State) : Sheds s (contenderLost s) := by
  unfold contenderLost
  split
  · exact controlReport_sheds controlLost_sheds ..
  · exact (line_sheds ..).trans (noteLost_sheds _)
  all_goals exact .refl s

theorem takeContender_sheds (src : Source) (b : Body) (s : State) : Sheds s (takeContender src b s) := by
  unfold takeContender
  split
  · exact line_sheds ..
  · exact .refl s

theorem offerHead_sheds (e : OutboxEntry) (s : State) : Sheds s (offerHead e s) := by
  have hread := checkOutboxHead_sheds s
  unfold offerHead
  split
  · rename_i u heq; rw [heq] at hread; exact Sheds.trans hread (streamsFailed_sheds none u)
  · rename_i u heq
    rw [heq] at hread
    exact Sheds.trans hread (finally_sheds (readStreams_sheds (offerReads e) false u) fun v => takeContender_sheds ..)

/-- The oldest open note becomes ACTIVE: those before it are DONE, and no note behind it is ACTIVE (R133, R134). -/
theorem activated_fits {u : NoteUnit} {i : Nat} (hi : u.tx.findIdx? (fun n => n.state ≠ .done) = some i) (h : u.Fits) :
    NoteUnit.Fits { u with tx := u.tx.modify i fun m => { m with state := .active } } := by
  obtain ⟨hlen, horder, hring⟩ := h
  obtain ⟨hlt, hopen, hbefore⟩ := List.findIdx?_eq_some_iff_getElem.mp hi
  rw [List.pairwise_iff_getElem] at horder
  refine ⟨by rwa [List.length_modify], ?_, hring⟩
  rw [List.pairwise_iff_getElem]
  intro j k hj hk hjk hactive
  rw [List.length_modify] at hj hk
  rw [List.getElem_modify] at hactive ⊢
  have hopen : (u.tx[i]).state ≠ .done := by simpa using hopen
  by_cases hik : i = k
  · have hdone := hbefore j (hik ▸ hjk)
    rw [if_neg (by omega)]
    simpa using hdone
  · rw [if_neg hik] at hactive
    have hdone := horder j k hj hk hjk hactive
    by_cases hij : i = j
    · subst hij; exact absurd hdone hopen
    · rwa [if_neg hij]

theorem findIdx?_modify {α : Type} {p : α → Bool} {f : α → α} (h : ∀ x, p (f x) = p x) :
    ∀ (xs : List α) (i : Nat), (xs.modify i f).findIdx? p = xs.findIdx? p
  | [], _ => by rw [List.modify_nil]
  | x :: xs, 0 => by rw [List.modify_zero_cons, List.findIdx?_cons, List.findIdx?_cons, h]
  | x :: xs, i + 1 => by
    rw [List.modify_succ_cons, List.findIdx?_cons, List.findIdx?_cons, findIdx?_modify h xs i]

theorem readTx_open {i : Nat} {n : TxNote} (s : State) : oldestOpen (readTx i n s).1 = oldestOpen s := by
  have hread (u : State) (hu : u.notes = s.notes) : oldestOpen u = oldestOpen s := by rw [oldestOpen, hu]; rfl
  unfold readTx
  split
  · exact hread _ (by simp)
  · dsimp only
    split
    · exact hread _ (by simp)
    · simp only [oldestOpen, updateTx, recordRead_frame]
      exact findIdx?_modify (fun _ => by simp) ..

theorem offerNote_sheds (s : State) : Sheds s (offerNote s) := by
  unfold offerNote
  split
  · exact .refl s
  · rename_i i hopen
    split
    · exact .refl s
    · rename_i n _
      split
      · have hread := readTx_sheds i n s
        have hstill := readTx_open (i := i) (n := n) s
        split
        · rename_i u heq; rw [heq] at hread; exact Sheds.trans hread (corruptNote_sheds i u)
        · rename_i u heq
          rw [heq] at hread hstill
          split
          · have hactive : Sheds u (updateTx i (fun m => { m with state := .active }) u) :=
              notes_sheds (activated_fits (hstill.trans hopen))
            exact (Sheds.trans hread hactive).trans (takeContender_sheds ..)
          · exact hread
      · exact .refl s

theorem offer_sheds (s : State) : Sheds s (offer s) := by
  unfold offer
  split
  · split
    · exact offerHead_sheds ..
    · exact .refl s
  · split
    · exact offerNote_sheds s
    · exact .refl s

theorem windowStart_sheds (h : exec .windowStart s = .next t) : Sheds s t := by
  cases h
  refine framedEvent_sheds (fun u => ?_) s
  have hlost : Sheds u { contenderLost u with line.wonWindow := false } := (contenderLost_sheds u).trans (line_sheds ..)
  exact hlost.trans (offer_sheds _)

theorem arbitrationLost_sheds (h : exec .arbitrationLost s = .next t) : Sheds s t := by
  cases h
  refine lineEvent_sheds (fun u => ?_) s
  split
  · exact line_sheds ..
  · exact elsewhere_sheds rfl rfl rfl rfl rfl
  · exact contenderLost_sheds u

theorem countReadback_sheds (rb : Readback) (s : State) : Sheds s (countReadback rb s) := by
  unfold countReadback
  split
  · exact .refl s
  · split
    · exact line_sheds ..
    · dsimp only
      split
      · exact (((line_sheds ..).trans (line_sheds ..)).trans (raise_sheds ..)).trans (faultEntry_sheds ..)
      · exact line_sheds ..

theorem noteAttemptLimit_sheds (a : Answer) (h : exec (.noteAttemptLimit a) s = .next t) : Sheds s t := by
  cases h
  refine lineEvent_sheds (fun u => ?_) s
  split
  · exact .refl u
  · split
    · exact .refl u
    · split
      · exact finishNote_sheds ..
      · exact .refl u

theorem decideNote_sheds (sender : Station) (n : NoteContents) (s : State) : Sheds s (decideNote sender n s) := by
  unfold decideNote driveAnswer
  split
  · have hplaced := placeNote_sheds (ringEntry sender n s) s
    split
    · exact hplaced.trans (line_sheds ..)
    · exact hplaced
  · exact .refl s

theorem takeWindowNote_sheds (sender : Station) (b : Body) (s : State) : Sheds s (takeWindowNote sender b s) := by
  unfold takeWindowNote
  split
  · split
    · exact placeNote_sheds ..
    · exact .refl s
  all_goals exact .refl s

/-! ## Contention (R11, R15, R86) -/

theorem markContentionWon_sheds (h : exec .markContentionWon s = .next t) : Sheds s t := by
  cases h
  refine framedEvent_sheds (fun u => ?_) s
  split
  · dsimp only
    split
    · exact ((line_sheds ..).trans (readQueue_sheds _)).trans (line_sheds ..)
    · exact line_sheds ..
  · exact .refl u

theorem contendFounding_sheds (s : State) : Sheds s (if foundingReady s then contendFounding s else s) := by
  split
  · exact line_sheds ..
  · exact .refl s

theorem foundingContentionWon_sheds (h : exec .foundingContentionWon s = .next t) : Sheds s t := by
  cases h
  refine lineEvent_sheds (fun u => ?_) s
  split
  · exact elsewhere_sheds rfl rfl rfl rfl rfl
  · exact .refl u

/-! ## The Sample Port (R119 to R121) -/

theorem sampleSync_sheds (level : Bool) (s : State) : Sheds s (sampleSync level s) := by
  have hchoose (u : State) : Sheds u (chooseWord u) := by
    unfold chooseWord
    split
    · exact lanes_sheds id
    · rename_i l _
      have htaken := takeRx_sheds l u
      split
      · rename_i v heq; rw [heq] at htaken; exact Sheds.trans htaken (lanes_sheds id)
      · rename_i v x heq
        rw [heq] at htaken
        exact Sheds.trans htaken (lanes_sheds (u := { v.lanes with
          lastServed := l, period := some { out := sampleWord l x, collected := [] } }) id)
  have hsampled : Sheds s { s with lanes.smpSync := level } := lanes_sheds id
  unfold sampleSync
  dsimp only
  split
  · exact hsampled.trans (hchoose _)
  · exact hsampled

theorem takeWord_sheds (w : BitVec 32) (s : State) : Sheds s (takeWord w s) := by
  unfold takeWord
  split
  · refine finally_sheds (readStreams_sheds ..) fun u => ?_
    split
    · exact .refl u
    · exact addTx_sheds ..
  · exact .refl s

theorem driveOut_sheds (level : Bool) (s : State) : Sheds s (driveOut level s) := lanes_sheds id

theorem driveBit_sheds (s : State) : Sheds s (driveBit s) := by
  unfold driveBit
  split
  · exact driveOut_sheds ..
  · dsimp only
    split
    · exact driveOut_sheds ..
    · refine Sheds.trans ?_ (takeWord_sheds ..)
      exact lanes_sheds id

theorem clockBit_sheds (s : State) (b : Bool) : Sheds s (clockBit s b) := by
  have hcollect : Sheds s (collectBit s b) := by
    unfold collectBit
    split
    · exact .refl s
    · split
      · exact lanes_sheds id
      · exact .refl s
  exact hcollect.trans (driveBit_sheds _)

theorem clockBits_sheds (bits : List Bool) : ∀ s, Sheds s (bits.foldl clockBit s) := by
  induction bits with
  | nil => exact .refl
  | cons b bits ih => exact fun s => (clockBit_sheds s b).trans (ih _)

theorem wordPeriodEnd_sheds (w : BitVec 32) (h : exec (.wordPeriodEnd w) s = .next t) : Sheds s t := by
  cases h
  split
  · exact .refl s
  · split
    · exact .refl s
    · rename_i p _
      have hopened : Sheds s (openPeriod p.out s) := lanes_sheds id
      exact ((hopened.trans (sampleSync_sheds ..)).trans (clockBits_sheds ..)).trans (driveOut_sheds ..)

/-! ## Host commands (R37, R97, R100, R101, R125, R132, R139, R140, R146, R155, R156, R164) -/

theorem frameCheckFailed_sheds (c l : Byte) (p : List Byte) (x : BitVec 16)
    (h : exec (.frameCheckFailed c l p x) s = .next t) : Sheds s t := by
  cases h
  have hcollected := frameCollected_sheds s
  have hraised := hcollected.trans (raise_sheds .cmdError _)
  split
  · exact .refl s
  · split
    · exact .refl s
    · rename_i f _
      cases f with
      | tooLong => exact hraised.trans (answer_sheds ..)
      | badCrc => exact hraised.trans (answer_sheds ..)
      | unknownCode => exact (hcollected.trans (reloadLapse_sheds _)).trans (answer_sheds ..)
      | wrongLength => exact (hraised.trans (reloadLapse_sheds _)).trans (answer_sheds ..)

theorem requestMode_sheds (r : Requested) (s : State) : Sheds s (requestMode r s).state := by
  have hread {f : State → State} (h : ∀ u, Sheds u (f u)) : Sheds s (withStreamsRead f s).state :=
    finally_sheds (readStreams_sheds ..) h
  have hoff (u : State) : Sheds u (answer .done [] (offFromLearning u)) := (offFromLearning_sheds u).trans (answer_sheds ..)
  have hlisten (u : State) : Sheds u (answer .done [] (listenFromLearning u)) :=
    (listenFromLearning_sheds u).trans (answer_sheds ..)
  have hleave (tg : Target) : Sheds s ((enterWithdrawing tg s).finally (answer .accepted [])).state :=
    finally_sheds (enterWithdrawing_sheds tg s) fun u => answer_sheds ..
  unfold requestMode
  split
  · exact answer_sheds ..
  · exact (listenFromOff_sheds s).trans (answer_sheds ..)
  · exact (enterJoining_sheds s).trans (answer_sheds ..)
  · exact (enterOff_sheds s).trans (answer_sheds ..)
  · exact answer_sheds ..
  · exact (enterJoining_sheds s).trans (answer_sheds ..)
  · exact hread hoff
  · exact hread hlisten
  · exact answer_sheds ..
  · exact hleave .off
  · exact hleave .listen
  · exact answer_sheds ..
  · exact hread hoff
  · exact hread hlisten
  · exact answer_sheds ..
  · exact (mode_sheds ..).trans (answer_sheds ..)
  · exact (mode_sheds ..).trans (answer_sheds ..)
  · exact answer_sheds ..

theorem setModeBody_sheds (r : Requested) (s : State) : Sheds s (setModeBody r s) := by
  have hfirst := requestMode_sheds r s
  unfold setModeBody
  split
  · rename_i u heq; rw [heq] at hfirst; exact hfirst
  · rename_i u heq; rw [heq] at hfirst; exact Sheds.trans hfirst (requestMode_sheds r u)

theorem openBody_sheds (p : OpenParams) (s : State) : Sheds s (openBody p s) := by
  have hread := readStreams_sheds [p.lane] true s
  unfold openBody
  split
  · rename_i u heq
    rw [heq] at hread
    refine Sheds.trans hread ?_
    unfold openLane
    split
    · exact ((changeLane_sheds ..).trans (appendEntry_sheds ..)).trans (answer_sheds ..)
    · exact answer_sheds ..
  · rename_i u heq; rw [heq] at hread; exact Sheds.trans hread (answer_sheds .refusedMode [] u)

theorem closeBody_sheds (l : LaneNo) (s : State) : Sheds s (closeBody l s) := by
  have hread := readStreams_sheds [l] true s
  unfold closeBody
  split
  · rename_i u heq
    rw [heq] at hread
    exact ((Sheds.trans hread (endLane_sheds l u)).trans (exitCheck_sheds _)).trans (answer_sheds ..)
  · rename_i u heq; rw [heq] at hread; exact Sheds.trans hread (answer_sheds .done [] u)

theorem restartBody_sheds (a : Unit) (s : State) : Sheds s (restartBody a s) := by
  have hread := readStreams_sheds [] true s
  unfold restartBody
  split
  · rename_i u heq
    rw [heq] at hread
    refine Sheds.trans hread ?_
    split
    · exact answer_sheds ..
    · exact (appendEntry_sheds .restart u).trans (answer_sheds ..)
  · rename_i u heq; rw [heq] at hread; exact Sheds.trans hread (answer_sheds .refusedMode [] u)

/-- A note is taken while the queue holds fewer than 4, behind those it holds (R131, R132). -/
theorem sendBody_sheds (p : SendParams) (s : State) : Sheds s (sendBody p s) := by
  unfold sendBody
  split
  · rename_i hroom
    refine Sheds.trans ?_ (answer_sheds ..)
    refine notes_sheds fun ⟨_, horder, hring⟩ => ⟨by rw [List.length_append]; exact hroom, ?_, hring⟩
    rw [List.pairwise_append]
    refine ⟨horder, List.pairwise_singleton .., fun m _ n hn hactive => ?_⟩
    rw [List.mem_singleton.mp hn] at hactive
    cases hactive
  · exact answer_sheds ..

theorem sendNote_sheds (tag kind number length : Byte) (payload : List Byte)
    (h : exec (.sendNote tag kind number length payload) s = .next t) : Sheds s t := by
  have hraised := (frameCollected_sheds s).trans (raise_sheds .cmdError _)
  cases h
  split
  · exact hostFrame_sheds sendBody_sheds s
  · split
    · exact .refl s
    · split
      · exact hraised.trans (answer_sheds ..)
      · exact (hraised.trans (reloadLapse_sheds _)).trans (answer_sheds ..)

theorem freeNote_sheds (i : Nat) (s : State) : Sheds s (freeNote i s) :=
  notes_sheds fun ⟨hlen, horder, hring⟩ =>
    ⟨(List.eraseIdx_sublist ..).length_le.trans hlen, horder.sublist (List.eraseIdx_sublist ..), hring⟩

theorem outcomeBody_sheds (a : Unit) (s : State) : Sheds s (outcomeBody a s) := by
  unfold outcomeBody
  split
  · exact answer_sheds ..
  · rename_i i _
    split
    · exact answer_sheds ..
    · rename_i n _
      have hread := readTx_sheds i n s
      split
      · rename_i u heq; rw [heq] at hread; exact (Sheds.trans hread (freeNote_sheds i u)).trans (answer_sheds ..)
      · rename_i u heq; rw [heq] at hread; exact (Sheds.trans hread (freeNote_sheds i u)).trans (answer_sheds ..)

theorem takeBody_sheds (a : Unit) (s : State) : Sheds s (takeBody a s) := by
  unfold takeBody
  split
  · exact answer_sheds ..
  · rename_i w ws hring
    have htaken : Sheds s { s with notes.ring := ws } :=
      notes_sheds fun ⟨hlen, horder, hfits⟩ => ⟨hlen, horder, by rw [hring] at hfits; exact (Nat.le_succ _).trans hfits⟩
    exact (htaken.trans (recordRead_sheds ..)).trans (answer_sheds ..)

theorem readSnapPart_sheds (p : SnapshotPart) (s : State) : Sheds s (readSnapPart p s).1 := by
  have hslots (ns : List Slot) : ∀ s, Sheds s (readSnapSlots ns s).1 := by
    induction ns with
    | nil => exact .refl
    | cons n ns ih =>
      intro s
      have hread : Sheds s (readSnapSlot n s).1 := (port_sheds ..).trans (recordRead_sheds ..)
      unfold readSnapSlots
      split
      · rename_i u heq; rw [heq] at hread; exact hread
      · rename_i u heq
        rw [heq] at hread
        have hrest := Sheds.trans hread (ih u)
        split
        · rename_i v heq2; rw [heq2] at hrest; exact hrest
        · rename_i v _ heq2; rw [heq2] at hrest; exact hrest
  have hentries (is : List Nat) : ∀ s, Sheds s (readSnapEntries is s).1 := by
    induction is with
    | nil => exact .refl
    | cons i is ih =>
      intro s
      unfold readSnapEntries
      split
      · exact ih s
      · rename_i w _
        have hread : Sheds s (readSnapEntry i w s).1 := (port_sheds ..).trans (recordRead_sheds ..)
        split
        · rename_i u heq; rw [heq] at hread; exact hread
        · rename_i u heq
          rw [heq] at hread
          have hrest := Sheds.trans hread (ih u)
          split
          · rename_i v heq2; rw [heq2] at hrest; exact hrest
          · rename_i v _ heq2; rw [heq2] at hrest; exact hrest
  cases p with
  | map first count => exact hslots ..
  | queue first count => exact hentries ..

theorem snapshotBody_sheds (p : SnapshotPart) (s : State) : Sheds s (snapshotBody p s) := by
  have hfailed (u : State) : Sheds u (snapFailed u) := (port_sheds ..).trans (answer_sheds ..)
  have hcycle : Sheds s (readSnapCycle s).1 := (port_sheds ..).trans (recordRead_sheds ..)
  unfold snapshotBody
  split
  · split
    · rename_i u heq; rw [heq] at hcycle; exact Sheds.trans hcycle (hfailed u)
    · rename_i u heq
      rw [heq] at hcycle
      have hpart := Sheds.trans hcycle (readSnapPart_sheds p u)
      split
      · rename_i v heq2; rw [heq2] at hpart; exact Sheds.trans hpart (hfailed v)
      · rename_i v _ heq2; rw [heq2] at hpart; exact Sheds.trans hpart (answer_sheds _ _ v)
  · exact answer_sheds ..

/-! ## Every command but those that can enter something -/

/-- The commands that can enter something in the shared tables, or put them in force: marks, the close of the slot field, messages
received, and a founding completed. -/
def entersTables : Instr → Bool
  | .markReceived _ | .ageTick | .queueEntryExpired | .slotFieldClosed | .silenceReclaim | .windowEnded _
  | .ownTransmissionCompleted _ _ | .founded => true
  | _ => false

theorem exec_sheds {i : Instr} (hi : entersTables i = false) (h : exec i s = .next t) : Sheds s t := by
  cases i with
  | markReceived _ => cases hi
  | ageTick => cases hi
  | queueEntryExpired => cases hi
  | slotFieldClosed => cases hi
  | silenceReclaim => cases hi
  | windowEnded _ => cases hi
  | ownTransmissionCompleted _ _ => cases hi
  | founded => cases hi
  | powerOnReset n => cases h; exact (resetStation_sheds s).trans (pins_sheds ..)
  | resetnLow => cases h; exact (resetStation_sheds s).trans (pins_sheds ..)
  | resetnRelease n =>
    cases h
    split
    · exact (pins_sheds ..).trans (pins_sheds ..)
    · exact .refl s
  | resetStationReset =>
    cases h
    split
    · exact .refl s
    · exact csnRise_sheds s
  | withdrawalLimit =>
    cases h
    refine lineEvent_sheds (fun u => ?_) s
    split
    · exact endWithdrawal_sheds u
    · exact .refl u
  | resyncAttemptLimit =>
    cases h
    refine lineEvent_sheds (fun u => ?_) s
    split
    · exact faultEntry_sheds ..
    · exact .refl u
  | tagReceived n r => exact tagReceived_sheds n r h
  | windowStart => exact windowStart_sheds h
  | arbitrationLost => exact arbitrationLost_sheds h
  | noteAttemptLimit a => exact noteAttemptLimit_sheds a h
  | driverFault =>
    cases h
    exact lineEvent_sheds (fun u => ((line_sheds ..).trans (raise_sheds ..)).trans (faultEntry_sheds ..)) s
  | noteCheckSequenceReceived r =>
    cases h
    refine framedEvent_sheds (fun u => ?_) s
    cases r with
    | damaged => exact .refl u
    | intact sender n => exact decideNote_sheds ..
  | spacingCountdownExpired => cases h; exact lineEvent_sheds (spaceActive_sheds _) s
  | slotStart n => exact slotStart_sheds n h
  | markContention =>
    cases h
    refine framedEvent_sheds (fun u => ?_) s
    split
    · exact line_sheds ..
    · exact .refl u
  | markContentionWon => exact markContentionWon_sheds h
  | lineSilence => cases h; exact lineEvent_sheds silenceNotice_sheds s
  | foundingContentionStart => cases h; exact lineEvent_sheds contendFounding_sheds s
  | foundingContentionJoined => cases h; exact lineEvent_sheds contendFounding_sheds s
  | foundingContentionWon => exact foundingContentionWon_sheds h
  | wordPeriodBegin =>
    cases h
    split
    · exact .refl s
    · exact (sampleSync_sheds false s).trans (sampleSync_sheds true _)
  | wordPeriodEnd w => exact wordPeriodEnd_sheds w h
  | frameCutShort =>
    cases h
    split
    · exact .refl s
    · exact ((frameBegun_sheds s).trans (port_sheds ..)).trans (raise_sheds ..)
  | frameCheckFailed c l p x => exact frameCheckFailed_sheds c l p x h
  | lapseTimerExpired =>
    cases h
    split
    · exact .refl s
    · exact lapseExpired_sheds s
  | sendNote a b c d p => exact sendNote_sheds a b c d p h
  | status => cases h; exact hostFrame_sheds (fun _ u => answer_sheds ..) s
  | configure _ _ _ _ _ _ =>
    cases h
    exact hostFrame_sheds (fun _ u => ((port_sheds ..).trans (reloadLapse_sheds _)).trans (answer_sheds ..)) s
  | setMode _ => cases h; exact hostFrame_sheds setModeBody_sheds s
  | openStream _ _ _ _ => cases h; exact hostFrame_sheds openBody_sheds s
  | closeStream _ => cases h; exact hostFrame_sheds closeBody_sheds s
  | readStream _ =>
    cases h
    exact hostFrame_sheds (fun l u => ((readStreams_sheds [l] false u).trans (updateLane_sheds ..)).trans (answer_sheds ..)) s
  | setListen _ _ _ _ _ =>
    cases h
    refine hostFrame_sheds (fun _ u => ?_) s
    refine Sheds.trans ?_ (answer_sheds ..)
    exact lanes_sheds id
  | readListen _ => cases h; exact hostFrame_sheds (fun _ u => answer_sheds ..) s
  | readLanes =>
    cases h
    refine hostFrame_sheds (fun _ u => ?_) s
    have hcleared (v : State) : Sheds v (clearOverruns v) := lanes_sheds id
    exact ((readStreams_sheds allLanes false u).trans (hcleared _)).trans (answer_sheds ..)
  | noteOutcome => cases h; exact hostFrame_sheds outcomeBody_sheds s
  | abortNotes => cases h; exact hostFrame_sheds (fun _ u => (endNotes_sheds ..).trans (answer_sheds ..)) s
  | takeNote => cases h; exact hostFrame_sheds takeBody_sheds s
  | snapshot =>
    cases h
    refine hostFrame_sheds (fun _ u => ?_) s
    unfold armBody
    split
    · exact answer_sheds ..
    · exact (port_sheds ..).trans (answer_sheds ..)
  | readSnapshot _ _ _ => cases h; exact hostFrame_sheds snapshotBody_sheds s
  | readAlerts => cases h; exact hostFrame_sheds (fun _ u => (readStreams_sheds allLanes false u).trans (answer_sheds ..)) s
  | clearAlerts _ => cases h; exact hostFrame_sheds (fun _ u => (alerts_sheds ..).trans (answer_sheds ..)) s
  | setAlertMask _ => cases h; exact hostFrame_sheds (fun _ u => (alerts_sheds ..).trans (answer_sheds ..)) s
  | readMemoryError =>
    cases h
    refine hostFrame_sheds (fun _ u => ?_) s
    unfold memoryErrorBody
    split
    · exact answer_sheds ..
    · refine Sheds.trans ?_ (answer_sheds ..)
      exact elsewhere_sheds rfl rfl rfl rfl rfl
  | restartBus => cases h; exact hostFrame_sheds restartBody_sheds s
  | resetStation => cases h; exact hostFrame_sheds (fun _ u => (port_sheds ..).trans (answer_sheds ..)) s

end

end Sys2Proof.Machine
end

section
/-! The commands that can enter something in the shared tables (R52, R53, R55 to R76, R83, R84, R89 to R91), for any property
that what they do to the tables leaves true: `Served` says what that is, and `Served.step_keeps` that every step then keeps the
property. -/

namespace Sys2Proof.Machine

/-- The claim that a revoked stream is requeued with (R65). -/
def HeldEntry.requeued (h : HeldEntry) : QueueEntry :=
  { station := h.holder, lane := h.lane, label := h.label, count := h.count, cls := .normal, ret := true, age := 0 }

/-- A revoked stream freed and requeued at the tail (R65). -/
def requeue (h : HeldEntry) (s : State) : State :=
  { freeStream h.holder h.lane s with alloc.queue := s.alloc.queue ++ [.fresh h.requeued] }

/-- Neither table holds the identity or the label of a claim (R60, R61). -/
def Absent (e : QueueEntry) (s : State) : Prop :=
  (∀ h ∈ heldEntries s, h.label ≠ e.label ∧ ¬(h.holder = e.station ∧ h.lane = e.lane)) ∧
  ∀ w ∈ s.alloc.queue, w.val.label ≠ e.label ∧ ¬(w.val.station = e.station ∧ w.val.lane = e.lane)

/-- Where a claim is inserted: an URGENT one behind the last URGENT, a NORMAL one at the tail (R66). -/
def placeOf (e : QueueEntry) (s : State) : Nat := if e.cls = .urgent then urgentAhead s else s.alloc.queue.length

/-- What the shared tables need to keep: `W` always, `P` while they are in force, and `Q e` where, besides, the claim `e` is in
neither of them and about to be entered. -/
structure Served (W P : State → Prop) (Q : QueueEntry → State → Prop) : Prop where
  sheds : ∀ {s t}, W s → Sheds s t → W t
  shedsForce : ∀ {s t}, P s → Sheds s t → P t
  shedsClaim : ∀ {e s t}, Q e s → Sheds s t → Q e t
  weaken : ∀ {s}, P s → W s
  inForce : ∀ {s}, s.cycle.phase.InForce → W s → P s
  phase : ∀ {s p}, P s → P { s with cycle.phase := p }
  given : ∀ {e s}, Q e s → P s
  /-- a claim taken from the head by queue service (R72) -/
  head : ∀ {s w ws}, P s → s.alloc.queue = w :: ws → Q w.val { s with alloc.queue := ws }
  /-- a claim that passes the checks of Table 4-2 (R60, R61) -/
  claimed : ∀ {e s}, P s → Absent e s → Q e s
  /-- a grant (R63) -/
  entered : ∀ {e s slots}, Q e s → P (enterStream e.station e.lane e.label e.cls e.ret e.count slots s)
  /-- a revocation with return, for the claim's sake (R65) -/
  requeued : ∀ {e s h}, Q e s → h ∈ heldEntries s → s.alloc.queue.length < 16 → Q e (requeue h s)
  /-- a claim placed in the queue (R66, R67): in OFF nothing is placed; what was displaced before has made room -/
  placed : ∀ {e s t}, Q e s → Sheds s t → (s.alloc.queue.length ≤ 16 → t.alloc.queue.length < 16) →
    P { t with alloc.queue := t.alloc.queue.insertIdx (placeOf e t) (.fresh e) }
  /-- step (a), the rebuild, and the purge that puts the tables in force (R25, R53, R91) -/
  adopted : ∀ {s m}, W s → ¬s.cycle.phase.InForce → lawful m = true → m.summary.length ≤ 16 → W (replaceQueue m s)
  mapped : ∀ {s m}, W s → ¬s.cycle.phase.InForce → W { s with alloc.map := m }
  purged : ∀ {s t tags}, W s → (∀ n, entryAt s n = rebuiltEntry tags n) → Sheds s t → t.alloc.map = s.alloc.map →
    (∀ w ∈ t.alloc.queue, purged s w.val = false) → P t
  /-- a founding (R16) -/
  cleared : ∀ {s}, W s → P (clearTables s)

section
variable {s t : State}

/-! ## What only takes entries out (R41, R65, R71, R81, R84) -/

/-- Entries taken out of the queue. -/
theorem queue_sheds {q : List (Stored QueueEntry)} (h : q.Sublist s.alloc.queue) : Sheds s { s with alloc.queue := q } :=
  alloc_sheds (h.map _) (fun _ => .inr rfl) id

theorem removeQueued_sheds (i : Nat) (s : State) : Sheds s (removeQueued i s) := queue_sheds (List.eraseIdx_sublist ..)

theorem freeStream_sheds (st : Station) (l : LaneNo) (s : State) : Sheds s (freeStream st l s) := by
  refine alloc_sheds (.refl _) (fun n => ?_) id
  rw [Table.get_map]
  split
  · exact .inl rfl
  · exact .inr rfl

theorem expireEntries_sheds (fuel : Nat) : ∀ s, Sheds s (expireEntries fuel s) := by
  induction fuel with
  | zero => exact .refl
  | succ fuel ih =>
    intro s
    unfold expireEntries
    split
    · exact .refl s
    · split
      · exact .refl s
      · exact ((removeQueued_sheds ..).trans (tell_sheds ..)).trans (ih _)

theorem reclaimStreams_sheds (fuel : Nat) : ∀ s, Sheds s (reclaimStreams fuel s) := by
  induction fuel with
  | zero => exact .refl
  | succ fuel ih =>
    intro s
    unfold reclaimStreams
    split
    · exact .refl s
    · exact ((freeStream_sheds ..).trans (tell_sheds ..)).trans (ih _)

/-- The queue with ages increased as far as it has been read (R84, R95). -/
theorem aged_sheds (k : Nat) (s : State) :
    Sheds s { s with alloc.queue :=
      ((scan 1 s.alloc.queue).words.take k).map older ++ (scan 1 s.alloc.queue).words.drop k } := by
  refine alloc_sheds ?_ (fun _ => .inr rfl) id
  have holder (ws : List (Stored QueueEntry)) : (ws.map older).map (·.val.ageless) = ws.map (·.val.ageless) := by
    rw [List.map_map]; rfl
  rw [List.map_append, holder, ← List.map_append, List.take_append_drop, scan_entries]
  exact .refl _

/-- A tick increases the ages, and either a double error abandons it or the entries that have reached the patience expire (R84,
R95). -/
theorem ageAll_cases (withService : Bool) (s : State) : ∃ u, Sheds s u ∧
    (ageAll withService s = .abandoned (mapQueueFailed u) ∨ ageAll withService s = expire withService u) := by
  let sc := scan 1 s.alloc.queue
  let aged : Nat := match sc.failed with
    | none => sc.words.length
    | some p => p - 1
  refine ⟨_, (aged_sheds aged s).trans (recordScan_sheds .queue id sc _), ?_⟩
  unfold ageAll
  dsimp only
  split
  · exact .inl rfl
  · exact .inr rfl

/-- Expiry without queue service, as at an adoption, enters nothing (R84, R89). -/
theorem markTick_adopts_sheds (s : State) : Sheds s (markTick false s).state := by
  have hexpire (u : State) : Sheds u (expire false u).state := by
    unfold expire
    split
    · exact expireEntries_sheds ..
    · exact .refl u
  unfold markTick
  split
  · have hdone : Sheds s { s with cycle.tickDone := true } := cycle_sheds rfl
    obtain ⟨u, hu, he | he⟩ := ageAll_cases false { s with cycle.tickDone := true }
    · rw [he]; exact (hdone.trans hu).trans (mapQueueFailed_sheds u)
    · rw [he]; exact (hdone.trans hu).trans (hexpire u)
  · exact .refl s

/-- A word of the map that keeps its name. -/
theorem mapWords_sheds {f : Stored SlotEntry → Stored SlotEntry} (h : ∀ w, (f w).val.name? = w.val.name?) (s : State) :
    Sheds s { s with alloc.map := s.alloc.map.map f } :=
  alloc_sheds (.refl _) (fun n => .inr (by rw [Table.get_map, h]; rfl)) id

theorem changeHeld_name {f : HeldEntry → HeldEntry} (hf : ∀ h, (SlotEntry.held (f h)).name? = (SlotEntry.held h).name?)
    (w : Stored SlotEntry) : (w.changeHeld f).val.name? = w.val.name? := by
  unfold Stored.changeHeld
  split
  · rfl
  · rename_i h hw
    split
    · rfl
    · rw [hw]; exact hf h

theorem countSilence_sheds (s : State) : Sheds s (countSilence s) := 
  mapWords_sheds (changeHeld_name (f := fun h => { h with silence := newSilence h s }) fun _ => rfl) s

theorem clearMarks_sheds (s : State) : Sheds s (clearMarks s) :=
  (mapWords_sheds (changeHeld_name (f := fun h => { h with mark := .none }) fun _ => rfl) s).trans
    (alloc_sheds (.refl _) (fun _ => .inr rfl) id)

theorem takeMark_sheds (m : MarkContents) (s : State) : Sheds s (takeMark m s) := cycle_sheds rfl

theorem noteMismatch_sheds (s : State) : Sheds s (noteMismatch s) := (raise_sheds ..).trans (mode_sheds ..)

theorem adoptMismatch_sheds (s : State) : Sheds s (adoptMismatch s) := by
  have hnoted := noteMismatch_sheds s
  unfold adoptMismatch
  split
  · exact hnoted.trans (listenFromLearning_sheds _)
  · exact hnoted.trans (faultEntry_sheds ..)
  · exact hnoted
  · exact hnoted
  · exact hnoted
  · exact .refl s

theorem alive_sheds {c : Course} (h : Sheds s c.state) : Sheds s c.alive.state := Course.alive_keeps h

/-- The notices held by the purge are read and sent (R91). -/
theorem releaseHeld_sheds (s : State) : Sheds s (releaseHeld s).state := by
  have hall (ns : List Notice) : ∀ u, Sheds u (deliverAll ns u) := by
    induction ns with
    | nil => exact .refl
    | cons n ns ih => exact fun u => (deliver_sheds n u).trans (ih _)
  have hread : Sheds s (readHeld s).state :=
    read_sheds ((alloc_sheds (a := { s.alloc with heldNotices := (scan 0 s.alloc.heldNotices).words }) (.refl _)
      (fun _ => .inr rfl) id).trans (recordScan_sheds ..))
  refine finally_sheds hread fun u => Sheds.trans ?_ (hall ..)
  exact alloc_sheds (.refl _) (fun _ => .inr rfl) id

theorem reconcileVerified_sheds (s : State) : Sheds s (reconcileVerified s).state := by
  unfold reconcileVerified
  split
  · exact reconcile_sheds s
  · exact .refl s

theorem capture_sheds (s : State) : Sheds s (capture s) := by
  have hread : Sheds s ((readMap s).next readQueue).state := next_sheds (readMap_sheds s) readQueue_sheds
  unfold capture
  split
  · split
    · rename_i u heq; rw [heq] at hread; exact hread
    · rename_i u heq; rw [heq] at hread; exact (Sheds.trans hread (port_sheds _ u)).trans (raise_sheds ..)
  · exact .refl s

theorem readMap_on_eq (h : readMap s = .on t) :
    ∃ u e, t = { s with alloc.map := scanTable s.alloc.map, alerts := u, errorRecord := e } := by
  unfold readMap at h
  dsimp only at h
  split at h
  · cases h
  · cases h
    exact recordScan_shape ..

end

namespace Served

variable {W P : State → Prop} {Q : QueueEntry → State → Prop} {s : State}

/-! ## Grants, revocations and queue service (R63 to R65, R72 to R74) -/

theorem grant_claim (hs : Served W P Q) {e : QueueEntry} (h : Q e s) (hold : Bool) :
    P (grant hold e.station e.lane e.label e.cls e.ret e.count s) := by
  unfold grant
  split
  · exact hs.given h
  · exact hs.shedsForce (hs.entered h) (tell_sheds ..)

theorem revoke_claim (hs : Served W P Q) {e : QueueEntry} {h : HeldEntry} (hq : Q e s) (hh : h ∈ heldEntries s) (hold : Bool) :
    Q e (revoke hold h s) := by
  unfold revoke
  dsimp only
  split
  · rename_i hroom
    simp only [Bool.and_eq_true, decide_eq_true_eq] at hroom
    exact hs.shedsClaim (hs.requeued hq hh hroom.2) (tell_sheds ..)
  · exact hs.shedsClaim hq ((freeStream_sheds ..).trans (tell_sheds ..))

theorem victim_mem {h : HeldEntry} (hv : victim s = some h) : h ∈ heldEntries s :=
  (List.mem_filter.mp (List.mem_of_getLast? hv)).1

theorem preempt_claim (hs : Served W P Q) {e : QueueEntry} (hold : Bool) (k fuel : Nat) :
    ∀ {s}, Q e s → Q e (preempt fuel hold k s) := by
  induction fuel with
  | zero => exact id
  | succ fuel ih =>
    intro s hq
    unfold preempt
    split
    · exact hq
    · split
      · exact hq
      · rename_i h hv
        exact ih (hs.revoke_claim hq (victim_mem hv) hold)

theorem serviceLoop_force (hs : Served W P Q) (hold : Bool) (fuel : Nat) :
    ∀ {s}, P s → P (serviceLoop fuel hold s).state := by
  induction fuel with
  | zero => exact id
  | succ fuel ih =>
    intro s h
    unfold serviceLoop
    refine Course.next_keeps (hs.shedsForce h (readQueueHead_sheds s)) fun u hu => ?_
    split
    · exact hu
    · rename_i w ws hqueue
      have hread := hs.shedsForce hu (readMap_sheds u)
      cases hmap : readMap u with
      | abandoned v => rw [hmap] at hread; exact hread
      | on v =>
        rw [hmap] at hread
        obtain ⟨a, r, hv⟩ := readMap_on_eq hmap
        have hclaim : Q w.val { v with alloc.queue := ws } := hs.head hread (by rw [hv]; exact hqueue)
        rw [Course.next_on]
        dsimp only
        split
        · exact ih (hs.grant_claim hclaim hold)
        · split
          · exact ih (hs.grant_claim (hs.preempt_claim hold _ 48 hclaim) hold)
          · exact hread

theorem service_force (hs : Served W P Q) (hold : Bool) (h : P s) : P (service hold s).state := hs.serviceLoop_force hold _ h

/-! ## Control messages (R55 to R76) -/

theorem insertQueued_claim (hs : Served W P Q) {e : QueueEntry} {t : State} (h : Q e s) (hst : Sheds s t)
    (hroom : s.alloc.queue.length ≤ 16 → t.alloc.queue.length < 16) : P (insertQueued (placeOf e t) e t) := by
  unfold insertQueued
  split
  · exact hs.given (hs.shedsClaim h hst)
  · exact hs.placed h hst hroom

theorem placeClaim_force (hs : Served W P Q) {e : QueueEntry} (h : Q e s) : P (placeClaim e s) := by
  have hrefused : P (tell e.station false (.refused e.lane .full) s) := hs.shedsForce (hs.given h) (tell_sheds ..)
  unfold placeClaim
  split
  · rename_i hroom
    exact hs.shedsForce (hs.insertQueued_claim h (.refl s) fun _ => hroom) (tell_sheds ..)
  · rename_i hfull
    split
    · rename_i last hcls hlast
      dsimp only
      split
      · have hdropped : Sheds s { s with alloc.queue := s.alloc.queue.dropLast } := queue_sheds (List.dropLast_sublist _)
        have htold := hdropped.trans (tell_sheds last.val.station false (.displaced last.val.lane) _)
        have hroom (hlen : s.alloc.queue.length ≤ 16) : (tell last.val.station false (.displaced last.val.lane)
            { s with alloc.queue := s.alloc.queue.dropLast }).alloc.queue.length < 16 := by
          have hle := (tell_sheds last.val.station false (.displaced last.val.lane)
            { s with alloc.queue := s.alloc.queue.dropLast }).queue.length_le
          simp only [queueEntries, List.length_map, List.length_dropLast] at hle
          have hpos : s.alloc.queue ≠ [] := by rintro hnil; rw [hnil] at hlast; cases hlast
          have hpos := List.length_pos_iff.mpr hpos
          exact lt_of_le_of_lt hle (by omega)
        have hplaced := hs.insertQueued_claim h htold hroom
        rw [placeOf, if_pos hcls] at hplaced
        exact hs.shedsForce hplaced (tell_sheds ..)
      · exact hrefused
    · exact hrefused
    · exact hrefused

/-- The checks of Table 4-2 that refuse a claim already there (R60, R61). -/
theorem absent_of_checks {e : QueueEntry}
    (hid : ¬(!(streamSlots e.station e.lane s).isEmpty || (queuedAt e.station e.lane s).isSome) = true)
    (hlabel : ¬(labelHeld e.label s || labelQueued e.label s) = true) : Absent e s := by
  simp only [Bool.or_eq_true, not_or, Bool.not_eq_true, Bool.not_eq_false', List.isEmpty_iff, Option.isSome_eq_false_iff,
    Option.isNone_iff_eq_none] at hid hlabel
  obtain ⟨hslots, hqueued⟩ := hid
  obtain ⟨hheld, hcarried⟩ := hlabel
  refine ⟨fun h hh => ⟨fun hl => ?_, fun ⟨ho, hln⟩ => ?_⟩, fun w hw => ⟨fun hl => ?_, fun ⟨ho, hln⟩ => ?_⟩⟩
  · have := (labelHeld_iff e.label s).mpr ⟨h, hh, hl⟩
    rw [hheld] at this
    cases this
  · exact streamSlots_ne_nil.mpr ⟨h, hh, ho, hln⟩ hslots
  · have := List.any_eq_false.mp hcarried w hw
    simp [hl] at this
  · have := List.findIdx?_eq_none_iff.mp hqueued w hw
    simp [ho, hln] at this

theorem grantRule_force (hs : Served W P Q) (e : QueueEntry) (wait : Bool) (h : P s) : P (grantRule e wait s) := by
  have hrefused (r : RefusalReason) : P (tell e.station false (.refused e.lane r) s) := hs.shedsForce h (tell_sheds ..)
  unfold grantRule
  dsimp only
  split
  · exact hrefused _
  · rename_i hid
    split
    · exact hrefused _
    · rename_i hlabel
      have hclaim := hs.claimed h (absent_of_checks hid hlabel)
      split_ifs
      · exact hs.placeClaim_force hclaim
      · exact hrefused _
      · exact hs.grant_claim hclaim false
      · exact hs.grant_claim (hs.preempt_claim false _ 48 hclaim) false
      · exact hs.placeClaim_force hclaim
      · exact hrefused _

/-- A stream freed or an entry removed, its station told, and the queue served (R70, R71). -/
theorem served_force (hs : Served W P Q) {t : State} (h : P s) (hst : Sheds s t) (st : Station) (n : Notice) :
    P (service false (tell st false n t)).state :=
  hs.service_force false (hs.shedsForce h (hst.trans (tell_sheds ..)))

theorem applyMessage_keeps (hs : Served W P Q) (sender : Station) (b : Body) (h : W s) : W (applyMessage sender b s).state := by
  have hforce (ha : (s.cycle.phase = .verify || s.cycle.phase = .learned) = true) : P s :=
    hs.inForce (by simpa [Phase.InForce] using ha) h
  unfold applyMessage
  dsimp only
  cases b with
  | claim l label count cls wait ret =>
    dsimp only
    split
    · rename_i ha
      unfold applyClaim
      split
      · exact h
      · have hread := hs.shedsForce (hforce ha) (next_sheds (readMap_sheds s) readQueue_sheds)
        exact hs.weaken (Course.finally_keeps hread fun u => hs.grantRule_force _ wait)
    · exact h
  | release l =>
    dsimp only
    split
    · rename_i ha
      refine hs.weaken (Course.next_keeps (hs.shedsForce (hforce ha) (readMap_sheds s)) fun u hu => ?_)
      split
      · exact hu
      · exact hs.served_force hu (freeStream_sheds ..) ..
    · exact h
  | withdraw l =>
    dsimp only
    split
    · rename_i ha
      refine hs.weaken (Course.next_keeps (hs.shedsForce (hforce ha) (readQueue_sheds s)) fun u hu => ?_)
      split
      · exact hs.served_force hu (removeQueued_sheds ..) ..
      · refine Course.next_keeps (hs.shedsForce hu (readMap_sheds u)) fun v hv => ?_
        split
        · exact hv
        · exact hs.served_force hv (freeStream_sheds ..) ..
    · exact h
  | restart =>
    dsimp only
    split
    · exact h
    · refine hs.sheds h ?_
      have hcleared := clearTables_sheds s
      unfold applyRestart
      dsimp only
      split
      · exact ((hcleared.trans (toAdopt_sheds _)).trans (raise_sheds ..)).trans (deliver_sheds ..)
      · exact (hcleared.trans (raise_sheds ..)).trans (deliver_sheds ..)
  | note n => exact h
  | noKind => exact h

/-! ## Ageing and reclaim (R50, R83, R84) -/

theorem expire_force (hs : Served W P Q) (withService : Bool) (h : P s) : P (expire withService s).state := by
  have hexpired := hs.shedsForce h (expireEntries_sheds s.alloc.queue.length s)
  unfold expire
  split
  · dsimp only
    split
    · exact hs.service_force false hexpired
    · exact hexpired
  · exact h

theorem markTick_force (hs : Served W P Q) (h : P s) : P (markTick true s).state := by
  unfold markTick
  split
  · have hdone : Sheds s { s with cycle.tickDone := true } := cycle_sheds rfl
    obtain ⟨u, hu, he | he⟩ := ageAll_cases true { s with cycle.tickDone := true }
    · rw [he]; exact hs.shedsForce h ((hdone.trans hu).trans (mapQueueFailed_sheds u))
    · rw [he]; exact hs.expire_force true (hs.shedsForce h (hdone.trans hu))
  · exact h

theorem reclaim_force (hs : Served W P Q) (h : P s) : P (reclaim s).state := by
  unfold reclaim
  split
  · exact hs.service_force false (hs.shedsForce h (reclaimStreams_sheds ..))
  · exact h

end Served

end Sys2Proof.Machine
end

section
/-! The close of the slot field, marks and a founding completed, for what `Served` keeps; and with them every step (R16, R25 to R30,
R49 to R53, R83, R87 to R93). -/

namespace Sys2Proof.Machine

section
variable {s : State}

/-- The purge takes out the entries that the map shows, as far as it reads; then a double error abandons it, or the queue is
served, or it is over (R91, R95). -/
theorem purge_cases (s : State) : ∃ t, Sheds s t ∧ t.alloc.map = s.alloc.map ∧ (purge s = .abandoned (mapQueueFailed t) ∨
    (∀ w ∈ t.alloc.queue, purged s w.val = false) ∧ (purge s = service true t ∨ purge s = .on t)) := by
  let sc := scan 1 s.alloc.queue
  let reached : Nat := match sc.failed with
    | none => sc.words.length
    | some p => p - 1
  let kept := (sc.words.take reached).filter fun w => !purged s w.val
  let queue := kept ++ sc.words.drop reached
  let t := recordScan .queue (purgePosition s sc.words) sc { s with alloc.queue := queue }
  have hpurge : purge s = if sc.failed.isSome then .abandoned (mapQueueFailed t)
    else if kept.length < reached then service true t else .on t := rfl
  have hqueue : queue.Sublist sc.words := by
    conv_rhs => rw [← List.take_append_drop reached sc.words]
    exact List.filter_sublist.append_right _
  have hentries : (queue.map (·.val.ageless)).Sublist (queueEntries s) := by
    have hread : (sc.words.map (·.val.ageless)) = queueEntries s := scan_entries 1 s.alloc.queue
    exact hread ▸ hqueue.map _
  have htaken : Sheds s { s with alloc.queue := queue } := alloc_sheds hentries (fun _ => .inr rfl) id
  have halloc : t.alloc = { s.alloc with queue := queue } := by simp [t]
  refine ⟨t, htaken.trans (recordScan_sheds ..), by rw [halloc], ?_⟩
  rw [hpurge]
  by_cases hfailed : sc.failed.isSome
  · exact .inl (if_pos hfailed)
  · have hall : reached = sc.words.length := by
      have hnone : sc.failed = none := by simpa using hfailed
      simp only [reached, hnone]
    rw [if_neg hfailed]
    refine .inr ⟨fun w hw => ?_, ite_eq_or_eq ..⟩
    rw [halloc] at hw
    simp only [queue, kept, hall, List.take_length, List.drop_length, List.append_nil, List.mem_filter] at hw
    simpa using hw.2

theorem readRebuildList_sheds (s : State) : Sheds s (readRebuildList s).state := by
  refine read_sheds ((alloc_sheds (a := { s.alloc with rebuildList := (scan 0 s.alloc.rebuildList).words }) (.refl _)
    (fun _ => .inr rfl) fun h => ?_).trans (recordScan_sheds ..))
  rw [scan_length]
  exact h

end

namespace Served

variable {W P : State → Prop} {Q : QueueEntry → State → Prop} {s : State}

/-! ## The close of the slot field (R49 to R53, R91) -/

theorem closeLearned_force (hs : Served W P Q) (h : P s) : P (closeLearned s).state :=
  Course.next_keeps (hs.shedsForce h (readMap_sheds s)) fun u hu =>
    hs.reclaim_force (hs.shedsForce hu ((countSilence_sheds u).trans (clearMarks_sheds _)))

/-- Behind the purge no entry is held by the rebuilt map, so that the tables may be put in force (R26, R53, R91). -/
theorem closeRebuild_keeps (hs : Served W P Q) (hp : ¬s.cycle.phase.InForce) (h : W s) : W (closeRebuild s).state := by
  unfold closeRebuild rebuildMap
  have hread := (clearMap_sheds s).trans (readRebuildList_sheds (clearMap s))
  cases hlist : readRebuildList (clearMap s) with
  | abandoned u => rw [hlist] at hread; exact hs.sheds h hread
  | on u =>
    have hread : Sheds s u := by rw [hlist] at hread; exact hread
    rw [Course.finally_on, Course.next_on]
    have hrebuilt := hs.mapped (m := u.alloc.map.mapIdx fun n _ => .fresh (rebuiltEntry (u.alloc.rebuildList.map (·.val)) n))
      (hs.sheds h hread) (hp ∘ hread.phase)
    generalize hx : ({ u with
      alloc.map := u.alloc.map.mapIdx fun n _ => .fresh (rebuiltEntry (u.alloc.rebuildList.map (·.val)) n) } : State) = x
      at hrebuilt ⊢
    have hentry (n : Slot) : entryAt x n = rebuiltEntry (u.alloc.rebuildList.map (·.val)) n := by
      rw [← hx, entryAt, Table.get_mapIdx]; rfl
    have hlist (v : State) : Sheds v { v with alloc.rebuildList := [] } :=
      alloc_sheds (.refl _) (fun _ => .inr rfl) fun _ => Nat.zero_le 48
    have hend {v : State} (hv : P v) : W { v with cycle.phase := .verify, alloc.rebuildList := [] } :=
      hs.weaken (hs.shedsForce (hs.phase hv) (hlist { v with cycle.phase := .verify }))
    obtain ⟨y, hy, hmap, hfails | ⟨hkept, hserves⟩⟩ := purge_cases x
    · rw [hfails]
      exact hs.sheds hrebuilt (hy.trans (mapQueueFailed_sheds y))
    · have hforce : P y := hs.purged hrebuilt hentry hy hmap hkept
      rcases hserves with hserves | hserves
      · have hserved := hs.service_force true hforce
        rw [hserves]
        cases hv : service true y with
        | abandoned v => rw [hv] at hserved; exact hs.weaken hserved
        | on v => rw [hv] at hserved; exact hend hserved
      · rw [hserves]
        exact hend hforce

theorem closeField_keeps (hs : Served W P Q) (h : W s) : W (closeField s).state := by
  have hmarks : W (clearMarks s) := hs.sheds h (clearMarks_sheds s)
  unfold closeField
  split
  · rename_i hp
    split
    · exact hs.weaken (hs.closeLearned_force (hs.inForce (.inr hp) h))
    · exact hmarks
  · rename_i hp
    exact Course.finally_keeps (hs.closeRebuild_keeps (hp ▸ not_inForce_rebuild) h) fun u hu => hs.sheds hu (clearMarks_sheds u)
  all_goals exact hmarks

/-! ## Marks (R25 to R30) -/

/-- Step (a): the summary takes the place of the queue while the tables are not in force (R25, R81, R88, R89). -/
theorem adopt_keeps (hs : Served W P Q) {m : MarkContents} (hm : m.summary.length ≤ 16) (counts : Bool)
    (hp : ¬s.cycle.phase.InForce) (h : W s) : W (adopt counts m s).state := by
  unfold adopt
  split
  · split
    · rename_i hlawful
      have hqueue : W (replaceQueue m (takeMark m s)) := hs.adopted (hs.sheds h (takeMark_sheds m s)) hp hlawful hm
      have hticked := (raise_sheds .queueAdopted (replaceQueue m (takeMark m s))).trans (markTick_adopts_sheds _)
      refine hs.sheds hqueue (finally_sheds (alive_sheds hticked) fun u => ?_)
      have hbegun : Sheds u { u with cycle.phase := .rebuild } := phase_sheds fun hr => absurd hr not_inForce_rebuild
      exact hbegun.trans (alloc_sheds (.refl _) (fun _ => .inr rfl) fun _ => Nat.zero_le 48)
    · rw [Course.state_on]
      split
      · exact hs.sheds h (countAttempt_sheds s)
      · exact h
  · exact hs.sheds h (adoptMismatch_sheds s)

theorem becomeLearned_force (hs : Served W P Q) (h : P s) : P (becomeLearned s) := by
  unfold becomeLearned
  dsimp only
  split
  · exact hs.shedsForce (hs.phase h) (changeMode_sheds .member _)
  · exact hs.phase h

theorem verifyPass_force (hs : Served W P Q) {m : MarkContents} (h : P s) : P (verifyPass m s).state := by
  have hreleased : P (releaseHeld (takeMark m s)).state :=
    hs.shedsForce h ((takeMark_sheds m s).trans (releaseHeld_sheds _))
  have hticked := Course.next_keeps (f := markTick true) (Course.alive_keeps hreleased) fun u => hs.markTick_force
  refine Course.next_keeps (Course.finally_keeps (Course.alive_keeps hticked) fun u => hs.becomeLearned_force) fun u hu => ?_
  exact hs.shedsForce hu ((positionReport_sheds u).trans (reconcileVerified_sheds _))

/-- After the phase ADOPT is entered nothing puts the tables in force before step (a). -/
theorem adopt_again (hs : Served W P Q) {m : MarkContents} {t : State} (hm : m.summary.length ≤ 16)
    (hst : Sheds s t) (hp : ¬t.cycle.phase.InForce) (h : W s) (counts : Bool) : W (adopt counts m t).state :=
  hs.adopt_keeps hm counts hp (hs.sheds h hst)

theorem verify_keeps (hs : Served W P Q) {m : MarkContents} (hm : m.summary.length ≤ 16) (hp : s.cycle.phase = .verify)
    (h : W s) : W (verify m s).state := by
  have hread := hs.shedsForce (hs.inForce (.inl hp) h) (readQueue_sheds s)
  unfold verify
  cases hqueue : readQueue s with
  | abandoned u => rw [hqueue] at hread; exact hs.weaken hread
  | on u =>
    rw [hqueue] at hread
    rw [Course.next_on]
    split
    · exact hs.weaken (hs.verifyPass_force hread)
    · have hcounted := countAttempt_sheds (toAdopt u)
      exact hs.adopt_again hm ((toAdopt_sheds u).trans hcounted) (not_inForce_adopt ∘ hcounted.phase) (hs.weaken hread) false

theorem keepQueue_force (hs : Served W P Q) (h : P s) : P (keepQueue s).state := by
  have hticked := hs.markTick_force h
  unfold keepQueue
  dsimp only
  split
  · exact hs.shedsForce hticked (positionReport_sheds _)
  · exact hticked

theorem followMark_force (hs : Served W P Q) (m : MarkContents) (h : P s) : P (followMark m s).state :=
  hs.keepQueue_force (hs.shedsForce h (takeMark_sheds m s))

theorem learnedDamaged_force (hs : Served W P Q) (h : P s) : P (learnedDamaged s).state := by
  have hcounted : Sheds s { s with cycle.cycleNumber := s.cycle.cycleNumber + 1 } := cycle_sheds rfl
  unfold learnedDamaged
  dsimp only
  split
  · exact hs.shedsForce h (hcounted.trans (enterResync_sheds _))
  · exact hs.shedsForce h (hcounted.trans (relearn_sheds _))
  · exact hs.keepQueue_force (hs.shedsForce h hcounted)
  all_goals exact h

theorem learnedMismatch_keeps (hs : Served W P Q) {m : MarkContents} (hm : m.summary.length ≤ 16) (h : P s) :
    W (learnedMismatch m s).state := by
  have hnoted := hs.shedsForce h (noteMismatch_sheds s)
  unfold learnedMismatch
  split
  · exact hs.weaken (Course.next_keeps (hs.shedsForce hnoted (enterWithdrawing_sheds ..)) fun u => hs.followMark_force m)
  · exact hs.adopt_again hm (relearn_sheds _) not_inForce_adopt (hs.weaken hnoted) false
  · exact hs.weaken (hs.followMark_force m hnoted)
  all_goals exact hs.weaken h

theorem learnedUnequal_keeps (hs : Served W P Q) {m : MarkContents} (hm : m.summary.length ≤ 16) (h : P s) :
    W (learnedUnequal m s).state := by
  unfold learnedUnequal
  split
  · exact hs.adopt_again hm (enterResync_sheds s) not_inForce_adopt (hs.weaken h) false
  · exact hs.adopt_again hm (relearn_sheds s) not_inForce_adopt (hs.weaken h) false
  · exact hs.weaken (hs.followMark_force m h)
  all_goals exact hs.weaken h

theorem compareSummary_keeps (hs : Served W P Q) {m : MarkContents} (hm : m.summary.length ≤ 16) (h : P s) :
    W (compareSummary m s).state := by
  have hread := hs.shedsForce h (readQueue_sheds s)
  unfold compareSummary
  cases hqueue : readQueue s with
  | abandoned u => rw [hqueue] at hread; exact hs.weaken (hs.shedsForce hread (takeMark_sheds m u))
  | on u =>
    rw [hqueue] at hread
    dsimp only
    split
    · exact hs.weaken (hs.followMark_force m hread)
    · exact hs.learnedUnequal_keeps hm hread

theorem learnedIntact_keeps (hs : Served W P Q) {m : MarkContents} (hm : m.summary.length ≤ 16) (h : P s) :
    W (learnedIntact m s).state := by
  unfold learnedIntact
  split_ifs
  · exact hs.learnedMismatch_keeps hm h
  · exact hs.compareSummary_keeps hm h
  · exact hs.learnedUnequal_keeps hm h

theorem intactMark_keeps (hs : Served W P Q) {m : MarkContents} (hm : m.summary.length ≤ 16) (h : W s) :
    W (intactMark m s).state := by
  unfold intactMark
  split
  · exact h
  · rename_i hp; exact hs.adopt_keeps hm true (hp ▸ not_inForce_adopt) h
  · exact h
  · rename_i hp
    split
    · exact hs.adopt_again hm (toAdopt_sheds s) not_inForce_adopt h true
    · exact hs.verify_keeps hm hp h
  · rename_i hp; exact hs.learnedIntact_keeps hm (hs.inForce (.inr hp) h)

theorem damagedMark_keeps (hs : Served W P Q) (h : W s) : W (damagedMark s).state := by
  unfold damagedMark
  split
  · exact h
  · exact hs.sheds h (countAttempt_sheds s)
  · exact h
  · exact hs.sheds h ((toAdopt_sheds s).trans (countAttempt_sheds _))
  · rename_i hp; exact hs.weaken (hs.learnedDamaged_force (hs.inForce (.inr hp) h))

end Served

theorem markStart_sheds (s : State) : Sheds s (markStart s) := elsewhere_sheds rfl rfl rfl rfl rfl

theorem markEnd_sheds (wasWithdrawing : Bool) (s : State) : Sheds s (markEnd wasWithdrawing s) := by
  have hdue : Sheds s { s with cycle.foundingMarkDue := false, cycle.winnerMarkDue := false } := cycle_sheds rfl
  unfold markEnd
  dsimp only
  split
  · exact hdue.trans (countWithdrawal_sheds _)
  · exact hdue

namespace Served

variable {W P : State → Prop} {Q : QueueEntry → State → Prop} {s t : State}

theorem takeDamagedMark_keeps (hs : Served W P Q) (h : W s) : W (takeDamagedMark s) :=
  hs.sheds (hs.damagedMark_keeps h) (markEnd_sheds ..)

theorem takeIntactMark_keeps (hs : Served W P Q) {m : MarkContents} (hm : m.summary.length ≤ 16) (h : W s) :
    W (takeIntactMark m s) :=
  hs.sheds (hs.intactMark_keeps hm (hs.sheds h (restartSilence_sheds s))) ((markEnd_sheds ..).trans (capture_sheds _))

/-! ## A founding completed (R16, R30) -/

theorem foundedReport_keeps (hs : Served W P Q) (h : W s) : W (foundedReport s) := by
  have hcleared := hs.cleared (hs.sheds h ((changeMode_sheds .member s).trans (toAdopt_sheds _)))
  have hlearned := hs.phase (p := .learned) hcleared
  unfold foundedReport
  dsimp only
  refine hs.weaken (hs.shedsForce hlearned (Sheds.trans ?_ (reconcile_sheds _)))
  exact cycle_sheds rfl

theorem foundingCompleted_keeps (hs : Served W P Q) (rb : Readback) (h : W s) : W (foundingCompleted rb s) := by
  have hfailed : Sheds s (foundingFailed s) := (toAdopt_sheds s).trans (cycle_sheds rfl)
  unfold foundingCompleted
  split
  · cases rb with
    | good => exact hs.foundedReport_keeps h
    | mismatch => exact hs.sheds h hfailed
  · exact h

theorem completeField_keeps (hs : Served W P Q) (rb : Readback) (a : Answer) (f : OwnField) (h : W s) :
    W (completeField rb a f s) := by
  have hcontrol (b : Body) (u : State) : Sheds u (controlCompleted rb b u) := by
    cases rb with
    | good => exact controlReport_sheds controlGood_sheds b u
    | mismatch => exact controlReport_sheds controlMismatch_sheds b u
  have hfreed : W { s with line.onLine := none } := hs.sheds h (line_sheds ..)
  unfold completeField
  dsimp only
  split
  · exact hfreed
  · split
    · exact hs.foundingCompleted_keeps rb hfreed
    · exact hfreed
  · exact hs.sheds h ((line_sheds ..).trans (hcontrol ..))
  · exact hs.sheds h ((line_sheds ..).trans (noteCompleted_sheds ..))
  · exact hfreed

/-! ## Every step -/

theorem lineEvent_keeps {f : State → State} (hf : ∀ u, W u → W (f u)) (h : W s) : W (lineEvent f s) := by
  unfold lineEvent
  split
  · exact h
  · exact hf s h

theorem framedEvent_keeps {f : State → State} (hf : ∀ u, W u → W (f u)) (h : W s) : W (framedEvent f s) := by
  unfold framedEvent
  split
  · exact h
  · exact hf s h

theorem markReceived_keeps (hs : Served W P Q) (r : MarkReport) (h : W s) (he : exec (.markReceived r) s = .next t) :
    W t := by
  cases he
  refine lineEvent_keeps (fun u hu => ?_) h
  have hstarted := hs.sheds hu (markStart_sheds u)
  cases r with
  | missing =>
    dsimp only
    split
    · exact hs.takeDamagedMark_keeps (hs.sheds hu (elsewhere_sheds rfl rfl rfl rfl rfl))
    · exact hu
  | damaged => exact hs.takeDamagedMark_keeps hstarted
  | intact m =>
    dsimp only
    split
    · exact hs.takeDamagedMark_keeps hstarted
    · rename_i hlen; exact hs.takeIntactMark_keeps (not_lt.mp hlen) hstarted

theorem ageTick_keeps (hs : Served W P Q) (h : W s) (he : exec .ageTick s = .next t) : W t := by
  cases he
  refine lineEvent_keeps (fun u hu => ?_) h
  split
  · rename_i hdue
    have hlearned : u.cycle.phase = .learned := by
      simp only [tickDue, Bool.and_eq_true, decide_eq_true_eq] at hdue
      obtain ⟨⟨⟨hlearned, -⟩, -⟩, -⟩ := hdue
      exact hlearned
    exact hs.weaken (hs.markTick_force (hs.inForce (.inr hlearned) hu))
  · exact hu

theorem queueEntryExpired_keeps (hs : Served W P Q) (h : W s) (he : exec .queueEntryExpired s = .next t) : W t := by
  cases he
  refine lineEvent_keeps (fun u hu => ?_) h
  by_cases hp : u.cycle.phase.InForce
  · exact hs.weaken (Course.next_keeps (hs.shedsForce (hs.inForce hp hu) (readQueue_sheds u)) fun v => hs.expire_force _)
  · have hnone : (decide (u.cycle.phase = .verify) || decide (u.cycle.phase = .learned)) = false := by
      simpa [Phase.InForce] using hp
    rw [hnone]
    refine hs.sheds hu (next_sheds (readQueue_sheds u) fun v => ?_)
    unfold expire
    split
    · exact expireEntries_sheds ..
    · exact .refl v

theorem slotFieldClosed_keeps (hs : Served W P Q) (h : W s) (he : exec .slotFieldClosed s = .next t) : W t := by
  cases he
  exact framedEvent_keeps (fun u hu => hs.sheds (hs.closeField_keeps hu) (alloc_sheds (.refl _) (fun _ => .inr rfl) id)) h

theorem silenceReclaim_keeps (hs : Served W P Q) (h : W s) (he : exec .silenceReclaim s = .next t) : W t := by
  cases he
  refine framedEvent_keeps (fun u hu => ?_) h
  split
  · rename_i hchecks
    have hlearned : u.cycle.phase = .learned := by
      simp only [checksTags, Bool.and_eq_true, decide_eq_true_eq] at hchecks
      exact hchecks.1
    exact hs.weaken (Course.next_keeps (hs.shedsForce (hs.inForce (.inr hlearned) hu) (readMap_sheds u)) fun v =>
      hs.reclaim_force)
  · exact hu

theorem windowEnded_keeps (hs : Served W P Q) (r : WindowReport) (h : W s) (he : exec (.windowEnded r) s = .next t) :
    W t := by
  cases he
  refine framedEvent_keeps (fun u hu => ?_) h
  have hlost := hs.sheds hu (contenderLost_sheds u)
  have hend (v : State) : Sheds v { spaceNotes v with line.wonWindow := false } :=
    (spaceNotes_sheds v).trans (line_sheds ..)
  have hmessage (sender : Station) (b : Body) (v : State) (hv : W v) : W (takeMessage sender b v) := by
    unfold takeMessage
    dsimp only
    refine hs.sheds (hs.applyMessage_keeps sender b (hs.sheds hv ?_)) (takeWindowNote_sheds ..)
    split
    · exact (restartSilence_sheds v).trans (duplicateFound_sheds _)
    · exact restartSilence_sheds v
  dsimp only
  split
  · exact hlost
  · unfold takeWindow
    cases r with
    | empty => exact hs.sheds hlost (hend _)
    | damaged => exact hs.sheds hlost (hend _)
    | intact sender b => exact hs.sheds (hmessage sender b _ hlost) (hend _)

theorem ownTransmissionCompleted_keeps (hs : Served W P Q) (rb : Readback) (a : Answer) (h : W s)
    (he : exec (.ownTransmissionCompleted rb a) s = .next t) : W t := by
  cases he
  refine lineEvent_keeps (fun u hu => ?_) h
  split
  · exact hu
  · exact hs.sheds (hs.completeField_keeps rb a _ hu) (countReadback_sheds ..)

theorem founded_keeps (hs : Served W P Q) (h : W s) (he : exec .founded s = .next t) : W t := by
  cases he
  refine lineEvent_keeps (fun u hu => ?_) h
  split
  · exact hs.foundingCompleted_keeps .good (hs.sheds hu (line_sheds ..))
  all_goals exact hu

theorem exec_keeps (hs : Served W P Q) {i : Instr} (h : W s) (he : exec i s = .next t) : W t := by
  by_cases hi : entersTables i = false
  · exact hs.sheds h (exec_sheds hi he)
  · cases i
    case markReceived r => exact hs.markReceived_keeps r h he
    case ageTick => exact hs.ageTick_keeps h he
    case queueEntryExpired => exact hs.queueEntryExpired_keeps h he
    case slotFieldClosed => exact hs.slotFieldClosed_keeps h he
    case silenceReclaim => exact hs.silenceReclaim_keeps h he
    case windowEnded r => exact hs.windowEnded_keeps r h he
    case ownTransmissionCompleted rb a => exact hs.ownTransmissionCompleted_keeps rb a h he
    case founded => exact hs.founded_keeps h he
    all_goals exact absurd rfl hi

theorem step_keeps (hs : Served W P Q) (h : W s) (hstep : step s = .next t) : W t := by
  cases hp : s.pending with
  | nil =>
    rw [step_empty hp] at hstep
    cases hstep
    exact hs.sheds h (tick_sheds s)
  | cons c rest =>
    rw [step_pending hp] at hstep
    have htaken : Sheds s { s with pending := rest } := elsewhere_sheds rfl rfl rfl rfl rfl
    exact hs.exec_keeps (hs.sheds h htaken) hstep

end Served

end Sys2Proof.Machine
end

section
/-! The stored lists within their sizes and in their order (O9; R52, R66, R78, R79, R98, R118, R131, R133, R142): what the Claim
Queue needs for `Served`, the other lists being kept by `Sheds`. -/

namespace Sys2Proof.Machine

/-- Every URGENT entry stands in front of every NORMAL one (R66). -/
def UrgentFirst (q : List (Stored QueueEntry)) : Prop := q.Pairwise fun v w => w.val.cls = .urgent → v.val.cls = .urgent

/-- At most 16 claims wait, the URGENT ones in front (R66, R78). -/
def QueueFits (q : List (Stored QueueEntry)) : Prop := q.length ≤ 16 ∧ UrgentFirst q

section
variable {s t : State} {q : List (Stored QueueEntry)}

theorem listsFit_iff : s.ListsFit ↔ QueueFits s.alloc.queue ∧ s.SideFits := by
  constructor
  · rintro ⟨hlen, horder, hbox, -, hlanes, htx, hactive, hring, hrebuild⟩
    exact ⟨⟨hlen, horder⟩, hbox, hlanes, ⟨htx, hactive, hring⟩, hrebuild⟩
  · rintro ⟨⟨hlen, horder⟩, hbox, hlanes, ⟨htx, hactive, hring⟩, hrebuild⟩
    exact ⟨hlen, horder, hbox, hbox.length_le, hlanes, htx, hactive, hring, hrebuild⟩

/-- Length and order of the queue are those of its entries but for the ages. -/
theorem queueFits_iff : QueueFits s.alloc.queue ↔
    (queueEntries s).length ≤ 16 ∧ (queueEntries s).Pairwise fun v w => w.cls = .urgent → v.cls = .urgent := by
  rw [queueEntries, List.length_map, List.pairwise_map]
  rfl

theorem queueFits_sheds (h : QueueFits s.alloc.queue) (hst : Sheds s t) : QueueFits t.alloc.queue := by
  obtain ⟨hlen, horder⟩ := queueFits_iff.mp h
  exact queueFits_iff.mpr ⟨hst.queue.length_le.trans hlen, horder.sublist hst.queue⟩

theorem listsFit_sheds (h : s.ListsFit) (hst : Sheds s t) : t.ListsFit := by
  obtain ⟨hqueue, hside⟩ := listsFit_iff.mp h
  exact listsFit_iff.mpr ⟨queueFits_sheds hqueue hst, hst.side hside⟩

/-- The lists but for the queue do not change with it. -/
theorem listsFit_queue (h : s.ListsFit) (hq : QueueFits q) : State.ListsFit { s with alloc.queue := q } := by
  obtain ⟨hbox, hlanes, hnotes, hrebuild⟩ := (listsFit_iff.mp h).2
  exact listsFit_iff.mpr ⟨hq, hbox, hlanes, hnotes, hrebuild⟩

/-! ## Insertions (R65, R66) -/

/-- A NORMAL entry at the tail. -/
theorem UrgentFirst.append_normal (h : UrgentFirst q) {w : Stored QueueEntry} (hw : w.val.cls = .normal) :
    UrgentFirst (q ++ [w]) := by
  refine List.pairwise_append.mpr ⟨h, List.pairwise_singleton .., fun v _ x hx hurgent => ?_⟩
  rw [List.mem_singleton.mp hx, hw] at hurgent
  cases hurgent

/-- Up to the last URGENT entry every entry is URGENT. -/
theorem UrgentFirst.take_urgentAhead (h : UrgentFirst s.alloc.queue) :
    ∀ w ∈ s.alloc.queue.take (urgentAhead s), w.val.cls = .urgent := by
  let normal : Stored QueueEntry → Bool := fun w => w.val.cls = .normal
  have htake : s.alloc.queue.take (urgentAhead s) = s.alloc.queue.rdropWhile normal := by
    have hlen : (s.alloc.queue.rdropWhile normal).length = urgentAhead s := List.length_reverse
    rw [← hlen]
    exact (List.prefix_iff_eq_take.mp (List.rdropWhile_prefix ..)).symm
  rw [htake]
  intro w hw
  have hne : s.alloc.queue.rdropWhile normal ≠ [] := List.ne_nil_of_mem hw
  have hlast : ((s.alloc.queue.rdropWhile normal).getLast hne).val.cls = .urgent := by
    have hnot := List.rdropWhile_last_not normal s.alloc.queue hne
    cases hc : ((s.alloc.queue.rdropWhile normal).getLast hne).val.cls with
    | urgent => rfl
    | normal => simp [normal, hc] at hnot
  have horder : UrgentFirst (s.alloc.queue.rdropWhile normal) := h.sublist (List.rdropWhile_prefix ..).sublist
  rw [← List.dropLast_append_getLast hne] at hw horder
  rcases List.mem_append.mp hw with hfront | hend
  · exact (List.pairwise_append.mp horder).2.2 w hfront _ (List.mem_singleton_self _) hlast
  · rw [List.mem_singleton.mp hend]
    exact hlast

/-- An URGENT entry behind URGENT ones only. -/
theorem UrgentFirst.insert_urgent (h : UrgentFirst q) {w : Stored QueueEntry} (hw : w.val.cls = .urgent) {i : Nat}
    (hi : i ≤ q.length) (hfront : ∀ v ∈ q.take i, v.val.cls = .urgent) : UrgentFirst (q.insertIdx i w) := by
  have hsplit : q.insertIdx i w = q.take i ++ w :: q.drop i := by
    have hadd := List.modifyTailIdx_add (List.cons w) 0 (q.take i) (q.drop i)
    rw [List.take_append_drop, List.length_take_of_le hi] at hadd
    exact hadd
  rw [← List.take_append_drop i q] at h
  obtain ⟨htake, hdrop, hcross⟩ := List.pairwise_append.mp h
  rw [hsplit]
  refine List.pairwise_append.mpr ⟨htake, List.pairwise_cons.mpr ⟨fun _ _ _ => hw, hdrop⟩, fun v hv _ _ _ => hfront v hv⟩

theorem QueueFits.placed (h : QueueFits s.alloc.queue) (hroom : s.alloc.queue.length < 16) (e : QueueEntry) :
    QueueFits (s.alloc.queue.insertIdx (placeOf e s) (.fresh e)) := by
  have hahead : urgentAhead s ≤ s.alloc.queue.length := by
    rw [urgentAhead, ← List.length_reverse (as := s.alloc.queue)]
    exact (List.dropWhile_sublist _).length_le
  unfold placeOf
  split
  · rename_i hcls
    refine ⟨?_, h.2.insert_urgent hcls hahead h.2.take_urgentAhead⟩
    rw [List.length_insertIdx_of_le_length hahead]
    exact hroom
  · rename_i hcls
    have hnormal : e.cls = .normal := by
      cases hc : e.cls with
      | normal => rfl
      | urgent => exact absurd hc hcls
    rw [List.insertIdx_length_self]
    exact ⟨by rw [List.length_append]; exact hroom, h.2.append_normal hnormal⟩

/-- A lawful summary is in order (R88). -/
theorem queueFits_of_lawful {m : MarkContents} (hlawful : lawful m = true) (hlen : m.summary.length ≤ 16) :
    QueueFits (m.summary.map fun e => .fresh (entryOfSummary e)) := by
  refine ⟨by rw [List.length_map]; exact hlen, ?_⟩
  have hnormal : ∀ e ∈ m.summary.dropWhile fun e => e.cls = .urgent, e.cls = .normal := by
    simp only [lawful, Bool.and_eq_true, List.all_eq_true, decide_eq_true_eq] at hlawful
    obtain ⟨⟨⟨-, hnormal⟩, -⟩, -⟩ := hlawful
    exact hnormal
  have hurgent : ∀ e ∈ m.summary.takeWhile fun e => e.cls = .urgent, e.cls = .urgent := fun e he => by
    simpa using List.mem_takeWhile_imp he
  rw [UrgentFirst, List.pairwise_map, ← List.takeWhile_append_dropWhile (p := fun e => e.cls = .urgent) (l := m.summary)]
  refine List.pairwise_append.mpr ⟨?_, ?_, fun e he _ _ _ => hurgent e he⟩
  · exact List.pairwise_of_forall_mem_list fun e he _ _ _ => hurgent e he
  · refine List.pairwise_of_forall_mem_list fun _ _ e he hcls => ?_
    have hcls : e.cls = .urgent := hcls
    rw [hnormal e he] at hcls
    cases hcls

theorem listsFit_served : Served State.ListsFit State.ListsFit (fun _ => State.ListsFit) where
  sheds := listsFit_sheds
  shedsForce := listsFit_sheds
  shedsClaim := listsFit_sheds
  weaken := id
  inForce _ := id
  phase h := h
  given := id
  head h hqueue := listsFit_sheds h (queue_sheds (hqueue ▸ List.sublist_cons_self ..))
  claimed h _ := h
  entered h := h
  requeued {e s h} hs _ hroom := by
    have hqueue := (listsFit_iff.mp hs).1
    refine listsFit_queue (listsFit_sheds hs (freeStream_sheds ..)) ⟨?_, hqueue.2.append_normal rfl⟩
    rw [List.length_append]
    exact hroom
  placed {e s t} hs hst hroom := by
    have ht := listsFit_sheds hs hst
    exact listsFit_queue ht ((listsFit_iff.mp ht).1.placed (hroom (listsFit_iff.mp hs).1.1) e)
  adopted h _ hlawful hlen := listsFit_queue h (queueFits_of_lawful hlawful hlen)
  mapped h _ := h
  purged h _ hst _ _ := listsFit_sheds h hst
  cleared h := listsFit_sheds h (clearTables_sheds _)

end

/-- Settles O9: `Served` for the sizes and the order of the Claim Queue, and `Sheds` for the other lists. -/
theorem storedListsKept : Obligations.StoredListsKept :=
  fun _ _ h hstep => listsFit_served.step_keeps h hstep

end Sys2Proof.Machine
end

section
/-! The shared tables in agreement (O10; R40, R53, R59 to R61, R80, R88, R91), by the names that they carry: the identity and
the label of each claim and of each stream that the map holds. -/

namespace Sys2Proof.Machine

/-- Two names with neither the identity nor the label in common. -/
def StreamName.Apart (x y : StreamName) : Prop := x.label ≠ y.label ∧ ¬(x.station = y.station ∧ x.lane = y.lane)

theorem StreamName.Apart.symm {x y : StreamName} (h : x.Apart y) : y.Apart x :=
  ⟨h.1.symm, fun ⟨hst, hl⟩ => h.2 ⟨hst.symm, hl.symm⟩⟩

/-- The names of one stream, or of streams apart. -/
def StreamName.Agrees (x y : StreamName) : Prop := x.label = y.label ↔ x.station = y.station ∧ x.lane = y.lane

theorem StreamName.Apart.agrees {x y : StreamName} (h : x.Apart y) : x.Agrees y := iff_of_false h.1 h.2

theorem StreamName.Agrees.apart {x y : StreamName} (h : x.Agrees y) (hne : ¬(x.station = y.station ∧ x.lane = y.lane)) :
    x.Apart y :=
  ⟨mt h.mp hne, hne⟩

/-- The name of a claim. -/
def QueueEntry.name (e : QueueEntry) : StreamName := ⟨e.station, e.lane, e.label⟩

/-- The name of a stream that the map holds. -/
def HeldEntry.name (h : HeldEntry) : StreamName := ⟨h.holder, h.lane, h.label⟩

/-- The names in the Claim Queue. -/
def queueNames (s : State) : List StreamName := (queueEntries s).map QueueEntry.name

/-- Claims of given names are apart from each other and from the streams that the map holds, which agree. -/
structure NamesAgree (xs : List StreamName) (s : State) : Prop where
  claims : xs.Pairwise StreamName.Apart
  tables : ∀ n y, slotName s n = some y → ∀ x ∈ xs, x.Apart y
  map : ∀ n y, slotName s n = some y → ∀ m z, slotName s m = some z → y.Agrees z

section
variable {s t : State} {xs ys : List StreamName}

theorem mem_queueNames {x : StreamName} : x ∈ queueNames s ↔ ∃ w ∈ s.alloc.queue, w.val.name = x := by
  simp only [queueNames, queueEntries, List.mem_map, exists_exists_and_eq_and]
  rfl

theorem slotName_eq_some {n : Slot} {x : StreamName} : slotName s n = some x ↔ ∃ h, entryAt s n = .held h ∧ h.name = x := by
  unfold slotName
  cases entryAt s n with
  | free => exact iff_of_false (by rintro ⟨⟩) (by rintro ⟨h, he, -⟩; cases he)
  | held h =>
    refine ⟨fun he => ⟨h, rfl, Option.some.inj he⟩, ?_⟩
    rintro ⟨g, hg, rfl⟩
    cases hg
    rfl

/-- What the map holds by slot and by entry. -/
theorem forall_slotName {p : StreamName → Prop} : (∀ n y, slotName s n = some y → p y) ↔ ∀ h ∈ heldEntries s, p h.name := by
  simp only [slotName_eq_some, mem_heldEntries]
  exact ⟨fun hp h ⟨n, hn⟩ => hp n _ ⟨h, hn, rfl⟩, fun hp n y ⟨h, hn, hy⟩ => hy ▸ hp h ⟨n, hn⟩⟩

theorem pairwise_queueNames : (queueNames s).Pairwise StreamName.Apart ↔ s.alloc.queue.Pairwise fun v w =>
    v.val.label ≠ w.val.label ∧ ¬(v.val.station = w.val.station ∧ v.val.lane = w.val.lane) := by
  rw [queueNames, queueEntries, List.pairwise_map, List.pairwise_map]
  rfl

theorem tablesAgree_iff : s.TablesAgree ↔
    (queueNames s).Pairwise StreamName.Apart ∧ (s.cycle.phase.InForce → NamesAgree (queueNames s) s) := by
  rw [pairwise_queueNames]
  refine and_congr_right fun hqueue => forall_congr' fun _ => ⟨fun ⟨htables, hmap⟩ => ?_, fun h => ⟨?_, ?_⟩⟩
  · refine ⟨pairwise_queueNames.mpr hqueue, forall_slotName.mpr fun h hh x hx => ?_, forall_slotName.mpr fun g hg => ?_⟩
    · obtain ⟨w, hw, rfl⟩ := mem_queueNames.mp hx
      exact htables h hh w hw
    · exact forall_slotName.mpr fun h hh => hmap g hg h hh
  · exact fun h' hh w hw => forall_slotName.mp h.tables h' hh _ (mem_queueNames.mpr ⟨w, hw, rfl⟩)
  · exact fun g hg h' hh => forall_slotName.mp (forall_slotName.mp h.map g hg) h' hh

/-! ## Fewer names -/

theorem slotName_of_sheds (hst : ∀ n, slotName t n = none ∨ slotName t n = slotName s n) {n : Slot} {x : StreamName}
    (h : slotName t n = some x) : slotName s n = some x := by
  rcases hst n with hn | hn
  · rw [hn] at h; cases h
  · rw [← hn]; exact h

theorem queueNames_sheds (hst : Sheds s t) : (queueNames t).Sublist (queueNames s) := hst.queue.map _

/-- Names taken out of either table; the claims may stand in any order. -/
theorem NamesAgree.fewer (h : NamesAgree xs s) (hxs : ys.Subperm xs)
    (hst : ∀ n, slotName t n = none ∨ slotName t n = slotName s n) : NamesAgree ys t where
  claims := by
    obtain ⟨zs, hperm, hsub⟩ := hxs
    exact (hperm.pairwise_iff StreamName.Apart.symm).mp (h.claims.sublist hsub)
  tables n y hy x hx := h.tables n y (slotName_of_sheds hst hy) x (hxs.subset hx)
  map n y hy m z hz := h.map n y (slotName_of_sheds hst hy) m z (slotName_of_sheds hst hz)

theorem NamesAgree.sheds (h : NamesAgree (queueNames s) s) (hst : Sheds s t) : NamesAgree (queueNames t) t :=
  h.fewer (queueNames_sheds hst).subperm hst.map

theorem NamesAgree.shedsClaim {x : StreamName} (h : NamesAgree (x :: queueNames s) s) (hst : Sheds s t) :
    NamesAgree (x :: queueNames t) t :=
  h.fewer ((queueNames_sheds hst).cons_cons x).subperm hst.map

theorem tablesAgree_sheds (h : s.TablesAgree) (hst : Sheds s t) : t.TablesAgree := by
  obtain ⟨hqueue, hforce⟩ := tablesAgree_iff.mp h
  exact tablesAgree_iff.mpr ⟨hqueue.sublist (queueNames_sheds hst), fun hp => (hforce (hst.phase hp)).sheds hst⟩

/-! ## A claim entered (R60, R61, R63, R66) -/

/-- A claim that neither table holds by its identity or by its label. -/
theorem NamesAgree.claim {e : QueueEntry} (h : NamesAgree (queueNames s) s) (habsent : Absent e s) :
    NamesAgree (e.name :: queueNames s) s where
  claims := List.pairwise_cons.mpr ⟨fun x hx => by
    obtain ⟨w, hw, rfl⟩ := mem_queueNames.mp hx
    exact StreamName.Apart.symm (habsent.2 w hw), h.claims⟩
  tables n y hy x hx := by
    rcases List.mem_cons.mp hx with rfl | hx
    · have hheld : ∀ g ∈ heldEntries s, e.name.Apart g.name := fun g hg =>
        StreamName.Apart.symm (x := g.name) (y := e.name) (habsent.1 g hg)
      exact forall_slotName.mpr hheld n y hy
    · exact h.tables n y hy x hx
  map := h.map

theorem slotName_enterStream (e : QueueEntry) (slots : List Slot) (s : State) (n : Slot) :
    slotName (enterStream e.station e.lane e.label e.cls e.ret e.count slots s) n =
      if n ∈ slots then some e.name else slotName s n := by
  unfold enterStream slotName
  rw [entryAt, Table.get_mapIdx]
  cases hfind : slots.findIdx? (· = n) with
  | none =>
    have hnot : n ∉ slots := fun hn => by simpa using List.findIdx?_eq_none_iff.mp hfind n hn
    rw [if_neg hnot]
    rfl
  | some j =>
    obtain ⟨hj, heq, -⟩ := List.findIdx?_eq_some_iff_getElem.mp hfind
    have hin : n ∈ slots := by
      rw [← of_decide_eq_true heq]
      exact List.getElem_mem hj
    rw [if_pos hin]
    rfl

/-- A claim entered in the map. -/
theorem NamesAgree.entered {e : QueueEntry} {slots : List Slot} (h : NamesAgree (e.name :: queueNames s) s) :
    NamesAgree (queueNames s) (enterStream e.station e.lane e.label e.cls e.ret e.count slots s) := by
  have hname (n : Slot) (y : StreamName)
      (hy : slotName (enterStream e.station e.lane e.label e.cls e.ret e.count slots s) n = some y) :
      y = e.name ∨ slotName s n = some y := by
    rw [slotName_enterStream] at hy
    split at hy
    · exact .inl (Option.some.inj hy).symm
    · exact .inr hy
  obtain ⟨hhead, htail⟩ := List.pairwise_cons.mp h.claims
  have hapart (n : Slot) (y : StreamName) (hy : slotName s n = some y) : e.name.Apart y :=
    h.tables n y hy _ List.mem_cons_self
  refine ⟨htail, fun n y hy x hx => ?_, fun n y hy m z hz => ?_⟩
  · rcases hname n y hy with rfl | hy
    · exact (hhead x hx).symm
    · exact h.tables n y hy x (List.mem_cons_of_mem _ hx)
  · rcases hname n y hy with rfl | hy <;> rcases hname m z hz with rfl | hz
    · exact iff_of_true rfl ⟨rfl, rfl⟩
    · exact (hapart m z hz).agrees
    · exact (hapart n y hy).symm.agrees
    · exact h.map n y hy m z hz

/-- A claim placed in the queue. -/
theorem NamesAgree.placed {e : QueueEntry} (h : NamesAgree (e.name :: queueNames s) s) (i : Nat) :
    NamesAgree (queueNames { s with alloc.queue := s.alloc.queue.insertIdx i (.fresh e) })
      { s with alloc.queue := s.alloc.queue.insertIdx i (.fresh e) } := by
  refine h.fewer ?_ fun _ => .inr rfl
  by_cases hi : i ≤ s.alloc.queue.length
  · exact ((List.perm_insertIdx (.fresh e) _ hi).map _ |>.map _).subperm
  · have hnone : s.alloc.queue.insertIdx i (.fresh e) = s.alloc.queue :=
      List.insertIdx_of_length_lt (not_le.mp hi)
    rw [hnone]
    exact (List.sublist_cons_self ..).subperm

/-! ## A stream revoked (R65) -/

theorem slotName_freeStream {st : Station} {l : LaneNo} {n : Slot} {x : StreamName}
    (h : slotName (freeStream st l s) n = some x) : slotName s n = some x ∧ ¬(x.station = st ∧ x.lane = l) := by
  obtain ⟨g, hg, rfl⟩ := slotName_eq_some.mp h
  rw [freeStream, entryAt, Table.get_map] at hg
  split at hg
  · cases hg
  · rename_i hother
    have hg : entryAt s n = .held g := hg
    refine ⟨slotName_eq_some.mpr ⟨g, hg, rfl⟩, fun ⟨hst, hl⟩ => hother ?_⟩
    change (entryAt s n).ofStream st l = true
    rw [hg]
    simp only [SlotEntry.ofStream, Bool.and_eq_true, decide_eq_true_eq]
    exact ⟨hst, hl⟩

/-- A revoked stream goes from the map to the tail of the queue. -/
theorem NamesAgree.requeue {x : StreamName} {h : HeldEntry} (hx : NamesAgree (x :: queueNames s) s) (hh : h ∈ heldEntries s) :
    NamesAgree (x :: queueNames (requeue h s)) (requeue h s) := by
  obtain ⟨n, hn⟩ := mem_heldEntries.mp hh
  have hheld : slotName s n = some h.name := slotName_eq_some.mpr ⟨h, hn, rfl⟩
  have hkept (m : Slot) (y : StreamName) (hy : slotName (Machine.requeue h s) m = some y) :
      slotName s m = some y ∧ ¬(y.station = h.holder ∧ y.lane = h.lane) :=
    slotName_freeStream hy
  have hqueue : x :: queueNames (Machine.requeue h s) = (x :: queueNames s) ++ [h.name] := by
    simp only [queueNames, queueEntries, Machine.requeue, List.map_append, List.cons_append]
    rfl
  rw [hqueue]
  refine ⟨?_, fun m y hy z hz => ?_, fun m y hy k z hz => hx.map m y (hkept m y hy).1 k z (hkept k z hz).1⟩
  · refine List.pairwise_append.mpr ⟨hx.claims, List.pairwise_singleton .., fun y hy z hz => ?_⟩
    rw [List.mem_singleton.mp hz]
    exact hx.tables n _ hheld y hy
  · obtain ⟨hys, hother⟩ := hkept m y hy
    rcases List.mem_append.mp hz with hz | hz
    · exact hx.tables m y hys z hz
    · rw [List.mem_singleton.mp hz]
      exact ((hx.map m y hys n _ hheld).apart hother).symm

/-! ## The tables taken over (R25, R53, R88, R91) -/

theorem pairwise_of_lawful {m : MarkContents} (h : lawful m = true) :
    (queueNames (replaceQueue m s)).Pairwise StreamName.Apart := by
  obtain ⟨hids, hlabels⟩ : (m.summary.map fun e => (e.station, e.lane)).Nodup ∧ (m.summary.map fun e => e.label).Nodup := by
    simp only [lawful, Bool.and_eq_true, decide_eq_true_eq] at h
    exact ⟨h.1.2, h.2⟩
  rw [List.Nodup, List.pairwise_map] at hids hlabels
  have hnames : queueNames (replaceQueue m s) = m.summary.map fun e => (entryOfSummary e).name := by
    simp only [queueNames, queueEntries, replaceQueue, List.map_map]
    rfl
  rw [hnames, List.pairwise_map]
  exact hlabels.imp₂ (fun _ _ hlabel hid => ⟨hlabel, fun ⟨hst, hl⟩ => hid (Prod.ext hst hl)⟩) hids

/-- What a rebuilt map holds comes from consistent tags, so that its streams agree (R53). -/
theorem rebuilt_agrees {tags : List RebuildTag} {m n : Slot} {g h : HeldEntry} (hm : rebuiltEntry tags m = .held g)
    (hn : rebuiltEntry tags n = .held h) : g.name.Agrees h.name := by
  obtain ⟨t, ht, -, ⟨hsame, -, hother⟩, rfl⟩ := rebuiltEntry_held hm
  obtain ⟨u, hu, -, -, rfl⟩ := rebuiltEntry_held hn
  by_cases hid : SameCandidate t u
  · exact iff_of_true (hsame u hu hid).1.symm ⟨hid.1.symm, hid.2.symm⟩
  · exact iff_of_false (hother u hu hid).symm fun ⟨hst, hl⟩ => hid ⟨hst.symm, hl.symm⟩

/-- A claim that the purge leaves is apart from what the map holds (R91). -/
theorem apart_of_not_purged {e : QueueEntry} {h : HeldEntry} (he : purged s e = false) (hh : h ∈ heldEntries s) :
    e.name.Apart h.name := by
  simp only [purged, Bool.or_eq_false_iff, Bool.not_eq_false', List.isEmpty_iff] at he
  obtain ⟨hslots, hlabel⟩ := he
  refine ⟨fun heq => ?_, fun ⟨hst, hl⟩ => streamSlots_ne_nil.mpr ⟨h, hh, hst.symm, hl.symm⟩ hslots⟩
  have hlabelled := (labelHeld_iff e.label s).mpr ⟨h, hh, heq.symm⟩
  rw [hlabel] at hlabelled
  cases hlabelled

theorem tablesAgree_served : Served State.TablesAgree (fun s => NamesAgree (queueNames s) s)
    (fun e s => NamesAgree (e.name :: queueNames s) s) where
  sheds := tablesAgree_sheds
  shedsForce := NamesAgree.sheds
  shedsClaim := NamesAgree.shedsClaim
  weaken h := tablesAgree_iff.mpr ⟨h.claims, fun _ => h⟩
  inForce hp h := (tablesAgree_iff.mp h).2 hp
  phase := fun ⟨hclaims, htables, hmap⟩ => ⟨hclaims, htables, hmap⟩
  given h := h.fewer (List.sublist_cons_self ..).subperm fun _ => .inr rfl
  head {s w ws} h hqueue := by
    have hnames : queueNames s = w.val.name :: queueNames { s with alloc.queue := ws } := by
      simp only [queueNames, queueEntries, hqueue, List.map_cons]
      rfl
    exact (hnames ▸ h).fewer (List.Subperm.refl _) fun _ => .inr rfl
  claimed h habsent := h.claim habsent
  entered h := h.entered
  requeued h hh _ := h.requeue hh
  placed h hst _ := (h.shedsClaim hst).placed _
  adopted _ hp hlawful _ := tablesAgree_iff.mpr ⟨pairwise_of_lawful hlawful, fun hforce => absurd hforce hp⟩
  mapped h hp := tablesAgree_iff.mpr ⟨(tablesAgree_iff.mp h).1, fun hforce => absurd hforce hp⟩
  purged {s t tags} h hentry hst hmap hkept := by
    have hheld {p : StreamName → Prop} (hp : ∀ g ∈ heldEntries s, p g.name) : ∀ n y, slotName t n = some y → p y :=
      fun n y hy => forall_slotName.mpr hp n y (slotName_of_sheds hst.map hy)
    refine ⟨(tablesAgree_iff.mp h).1.sublist (queueNames_sheds hst), hheld fun g hg x hx => ?_,
      hheld fun g hg => hheld fun k hk => ?_⟩
    · obtain ⟨w, hw, rfl⟩ := mem_queueNames.mp hx
      exact apart_of_not_purged (hkept w hw) hg
    · obtain ⟨m, hm⟩ := mem_heldEntries.mp hg
      obtain ⟨n, hn⟩ := mem_heldEntries.mp hk
      exact rebuilt_agrees (hentry m ▸ hm) (hentry n ▸ hn)
  cleared {s} _ := by
    have hfree (n : Slot) (y : StreamName) : slotName (clearTables s) n ≠ some y := by
      rw [slotName, entryAt, clearTables, clearMap, Table.get_replicate]
      rintro ⟨⟩
    exact ⟨.nil, fun n y hy => absurd hy (hfree n y), fun n y hy => absurd hy (hfree n y)⟩

end

/-- Settles O10: `Served` for the names that the two tables carry. -/
theorem sharedTablesAgreeKept : Obligations.SharedTablesAgreeKept :=
  fun _ _ h hstep => tablesAgree_served.step_keeps h hstep

end Sys2Proof.Machine
end

section
/-! Tag reports at a learned station by its mode (O20; R44 to R48): what the map check makes of a report, and what a delivery leaves. -/

namespace Sys2Proof.Machine

section
variable {s t u : State} {n : Slot} {g : TagContents} {h : HeldEntry}

/-! ## What a delivery leaves (R127) -/

/-- A delivery touches the receive FIFOs, their overruns and the alert LANE only. -/
structure Delivered (s t : State) : Prop where
  line : t.line = s.line
  cycle : t.cycle = s.cycle
  mode : t.mode = s.mode
  alloc : t.alloc = s.alloc
  streams : t.streams = s.streams
  notes : t.notes = s.notes
  port : t.port = s.port
  txFifo : t.lanes.txFifo = s.lanes.txFifo
  listen : t.lanes.listen = s.lanes.listen
  alerts : ∀ a, a ≠ .lane → (s.HasAlert a ↔ t.HasAlert a)

theorem Delivered.refl (s : State) : Delivered s s := ⟨rfl, rfl, rfl, rfl, rfl, rfl, rfl, rfl, rfl, fun _ _ => Iff.rfl⟩

theorem hasAlert_raise_other {a b : Alert} (hab : b ≠ a) (s : State) : (raise a s).HasAlert b ↔ s.HasAlert b := by
  have hset : (raise a s).alerts.isSet b = s.alerts.isSet b := AlertUnit.isSet_raise_ne s.alerts a b hab
  unfold State.HasAlert
  rw [hset]

theorem addRx_delivered (l : LaneNo) (x : Sample) (s : State) : Delivered s (addRx l x s) := by
  unfold addRx
  dsimp only
  split
  · exact ⟨rfl, rfl, rfl, rfl, rfl, rfl, rfl, rfl, rfl, fun a ha => (hasAlert_raise_other ha _).symm⟩
  · exact ⟨rfl, rfl, rfl, rfl, rfl, rfl, rfl, rfl, rfl, fun _ _ => Iff.rfl⟩

theorem deliverTag_delivered (g : TagContents) (s : State) : Delivered s (deliverTag g s) := by
  unfold deliverTag
  split
  · split
    · exact .refl s
    · exact addRx_delivered ..
  · exact .refl s

theorem entryAt_congr (halloc : t.alloc = s.alloc) (n : Slot) : entryAt t n = entryAt s n := by
  rw [entryAt, entryAt, halloc]

/-! ## The map check (R44) -/

theorem matches_iff : h.matches g = true ↔
    h.holder = g.holder ∧ h.lane = g.lane ∧ h.label = g.label ∧ h.part = g.part.val := by
  simp only [HeldEntry.matches, Bool.and_eq_true, decide_eq_true_eq, and_assoc]

theorem checksTags_iff : checksTags s = true ↔ s.cycle.phase = .learned ∧
    (s.mode.actual = .member ∨ s.mode.actual = .withdrawing ∨ s.mode.actual = .listen) := by
  simp only [checksTags, Bool.and_eq_true, Bool.or_eq_true, decide_eq_true_eq, or_assoc]

/-- A station that checks tags reads the entry of the slot, here without error. -/
structure Checking (n : Slot) (s : State) : Prop where
  checks : checksTags s = true
  clean : (s.alloc.map.get n).health = .clean

theorem tagAtMap_checking (hc : checksTags s = true) (r : TagReport) : tagAtMap n r s = checkTag n r s := by
  unfold tagAtMap
  rw [(checksTags_iff.mp hc).1]
  exact if_pos hc

/-- Whether a conflict has ended the checks of the slot field (R47). -/
def conflicted (s : State) : Bool := s.mode.actual = .withdrawing && s.alloc.fieldConflict

/-- After a conflict of a WITHDRAWING station every report marks its entry (R47). -/
theorem tagAtMap_conflicted (hc : Checking n s) (hconflict : conflicted s = true) (r : TagReport) :
    tagAtMap n r s = .on (markDamaged n s) := by
  rw [tagAtMap_checking hc.checks]
  unfold checkTag
  rw [readMapEntry_clean hc.clean]
  exact if_pos hconflict

theorem tagAtMap_silent (hc : Checking n s) (hconflict : conflicted s = false) : tagAtMap n .silent s = .on s := by
  rw [tagAtMap_checking hc.checks]
  exact if_neg (Bool.eq_false_iff.mp hconflict)

theorem tagAtMap_damaged (hc : Checking n s) : tagAtMap n .damaged s = .on (markDamaged n s) := by
  rw [tagAtMap_checking hc.checks, checkTag, readMapEntry_clean hc.clean]
  exact ite_self _

theorem tagAtMap_intact (hc : Checking n s) (hconflict : conflicted s = false) :
    tagAtMap n (.intact g) s = .on (learnedTag n g s) := by
  rw [tagAtMap_checking hc.checks, checkTag, readMapEntry_clean hc.clean]
  exact if_neg (Bool.eq_false_iff.mp hconflict)

theorem learnedTag_match (he : entryAt s n = .held h) (hm : h.matches g = true) :
    learnedTag n g s = markHeard n h g.use s := by
  simp only [learnedTag, he, hm, if_true]

theorem learnedTag_unmatched (hm : ∀ h, entryAt s n = .held h → h.matches g = false) :
    learnedTag n g s = unmatchedTag n s := by
  unfold learnedTag
  split
  · rfl
  · rename_i h he
    rw [if_neg (Bool.eq_false_iff.mp (hm h he))]

/-- The map with the entry of a slot marked DAMAGED where it is HELD and its mark NONE (R43, R48). -/
def damagedMap (n : Slot) (s : State) : Table (Stored SlotEntry) 48 := (markDamaged n s).alloc.map

theorem markDamaged_eq (hmap : u.alloc.map = s.alloc.map) : markDamaged n u = { u with alloc.map := damagedMap n s } := by
  have hentry : entryAt u n = entryAt s n := by rw [entryAt, entryAt, hmap]
  unfold damagedMap markDamaged
  rw [hentry]
  cases entryAt s n with
  | free => rw [← hmap]
  | held h =>
    dsimp only
    split
    · rw [setEntry, setEntry, hmap]
    · rw [← hmap]

theorem damagedMap_free (he : entryAt s n = .free) : damagedMap n s = s.alloc.map := by
  rw [damagedMap, markDamaged_free he]

theorem damagedMap_held (he : entryAt s n = .held h) : damagedMap n s =
    if h.mark = .none then s.alloc.map.set n (.fresh (.held { h with mark := .damaged })) else s.alloc.map := by
  rw [damagedMap, markDamaged_held he]
  split <;> rfl

/-! ## A tag that does not match (R46 to R48) -/

theorem unmatchedTag_member (hm : s.mode.actual = .member) : unmatchedTag n s = enterResync s := by
  rw [unmatchedTag, hm]

theorem unmatchedTag_withdrawing (hm : u.mode.actual = .withdrawing) (hmap : u.alloc.map = s.alloc.map) :
    unmatchedTag n u = { raise .conflict u with
      alloc := { u.alloc with map := damagedMap n s, fieldConflict := true, mapFoundWrong := true } } := by
  rw [unmatchedTag, hm]
  exact markDamaged_eq hmap

theorem unmatchedTag_listen (hm : u.mode.actual = .listen) (hmap : u.alloc.map = s.alloc.map) :
    unmatchedTag n u = { u with alloc.map := damagedMap n s } := by
  rw [unmatchedTag, hm]
  exact markDamaged_eq hmap

/-! ## TAG_RECEIVED (R6, R12, R19) -/

theorem execTagReceived_intact (hf : s.Framed) (hown : g.holder = own s → n ∈ s.line.txSlots) :
    exec (.tagReceived n (.intact g)) s = .next (deliverTag g (tagAtMap n (.intact g) (restartSilence s)).state) := by
  have hdup : isDuplicateTag n g (restartSilence s) = false := by
    have hsame : own (restartSilence s) = own s := rfl
    have hsent : (restartSilence s).line.txSlots = s.line.txSlots := rfl
    simpa [isDuplicateTag, hsame, hsent] using hown
  simp only [exec, execTagReceived, framedEvent_on hf, hdup, Bool.false_eq_true, if_false]

theorem execTagReceived_damagedTag (hf : s.Framed) (hc : Checking n s) :
    exec (.tagReceived n .damaged) s = .next (markDamaged n s) := by
  simp only [exec, execTagReceived, framedEvent_on hf, tagAtMap_damaged hc, Course.state_on]

theorem execTagReceived_silent (hf : s.Framed) :
    exec (.tagReceived n .silent) s = .next (tagAtMap n .silent s).state := by
  simp only [exec, execTagReceived, framedEvent_on hf]

theorem entryAt_setEntry_same (e : SlotEntry) (s : State) : entryAt (setEntry n e s) n = e := by
  simp only [entryAt, setEntry, Table.get_set, if_true]
  rfl

theorem entryAt_setEntry_other {k : Slot} (hk : k ≠ n) (e : SlotEntry) (s : State) :
    entryAt (setEntry n e s) k = entryAt s k := by
  simp only [entryAt, setEntry, Table.get_set, if_neg hk]

theorem lastUseOf_eq (u : Use) : lastUseOf u = if u = .hold then .hold else .live := by cases u <;> rfl

/-- What an intact tag that does not match makes of a station that checks it (R46 to R48). -/
structure Unmatched (n : Slot) (s t : State) : Prop where
  streams : t.streams = s.streams
  line : t.line = { s.line with silenceTimer := some 0 }
  member : s.mode.actual = .member → t.mode = { s.mode with actual := .resync } ∧ t.cycle.phase = .adopt ∧
    t.cycle.resyncAttempts = 0 ∧ t.cycle.cycleNumber = s.cycle.cycleNumber ∧ t.TablesEmpty ∧
    t.HasAlert .conflict ∧ t.HasAlert .mode
  withdrawing : s.mode.actual = .withdrawing → s.alloc.fieldConflict = false → t.mode = s.mode ∧ t.cycle = s.cycle ∧
    t.alloc = { s.alloc with map := damagedMap n s, fieldConflict := true, mapFoundWrong := true } ∧ t.HasAlert .conflict
  listen : s.mode.actual = .listen → t.mode = s.mode ∧ t.cycle = s.cycle ∧
    t.alloc = { s.alloc with map := damagedMap n s } ∧ (s.HasAlert .conflict ↔ t.HasAlert .conflict)

theorem unmatchedTag_unmatched (hmode : s.mode.actual = .member ∨ s.mode.actual = .withdrawing ∨ s.mode.actual = .listen) :
    Unmatched n s (unmatchedTag n (restartSilence s)) := by
  rcases hmode with hm | hm | hm
  · rw [unmatchedTag_member (s := restartSilence s) hm]
    have hr := enterResync_resynced (s := restartSilence s) hm
    exact ⟨hr.streams, hr.line,
      fun _ => ⟨hr.mode, by rw [hr.cycle], by rw [hr.cycle], by rw [hr.cycle]; rfl, hr.empty, hr.conflict, hr.modeAlert⟩,
      fun hw => (by rw [hm] at hw; cases hw), fun hl => (by rw [hm] at hl; cases hl)⟩
  · rw [unmatchedTag_withdrawing (u := restartSilence s) (s := s) hm rfl]
    exact ⟨rfl, rfl, fun hmember => (by rw [hm] at hmember; cases hmember),
      fun _ _ => ⟨rfl, rfl, rfl, hasAlert_raise .conflict (restartSilence s)⟩, fun hl => (by rw [hm] at hl; cases hl)⟩
  · rw [unmatchedTag_listen (u := restartSilence s) (s := s) hm rfl]
    exact ⟨rfl, rfl, fun hmember => (by rw [hm] at hmember; cases hmember), fun hw => (by rw [hm] at hw; cases hw),
      fun _ => ⟨rfl, rfl, rfl, Iff.rfl⟩⟩

/-- After a conflict of its field a WITHDRAWING station compares nothing more (R47). -/
theorem conflicted_unmatched (hconflict : conflicted s = true) :
    Unmatched n s { restartSilence s with alloc.map := damagedMap n s } := by
  obtain ⟨hw, hfield⟩ : s.mode.actual = .withdrawing ∧ s.alloc.fieldConflict = true := by simpa [conflicted] using hconflict
  exact ⟨rfl, rfl, fun hm => (by rw [hw] at hm; cases hm), fun _ hf => (by rw [hfield] at hf; cases hf),
    fun _ => ⟨rfl, rfl, rfl, Iff.rfl⟩⟩

theorem Unmatched.delivered (h : Unmatched n s t) (hd : Delivered t u) : Unmatched n s u where
  streams := hd.streams.trans h.streams
  line := hd.line.trans h.line
  member hm := by
    obtain ⟨hmode, hphase, hattempts, hnumber, ⟨hmap, hqueue⟩, hconflict, halert⟩ := h.member hm
    exact ⟨hd.mode.trans hmode, by rw [hd.cycle, hphase], by rw [hd.cycle, hattempts], by rw [hd.cycle, hnumber],
      ⟨fun k => (entryAt_congr hd.alloc k).trans (hmap k), by rw [hd.alloc, hqueue]⟩,
      (hd.alerts _ (by decide)).mp hconflict, (hd.alerts _ (by decide)).mp halert⟩
  withdrawing hw hf := by
    obtain ⟨hmode, hcycle, halloc, hconflict⟩ := h.withdrawing hw hf
    exact ⟨hd.mode.trans hmode, hd.cycle.trans hcycle, hd.alloc.trans halloc, (hd.alerts _ (by decide)).mp hconflict⟩
  listen hl := by
    obtain ⟨hmode, hcycle, halloc, hconflict⟩ := h.listen hl
    exact ⟨hd.mode.trans hmode, hd.cycle.trans hcycle, hd.alloc.trans halloc, hconflict.trans (hd.alerts _ (by decide))⟩

theorem tagAtMap_unmatched (hc : Checking n s) (hm : ∀ h, entryAt s n = .held h → h.matches g = false) :
    Unmatched n s (tagAtMap n (.intact g) (restartSilence s)).state := by
  have hheard : Checking n (restartSilence s) := ⟨hc.checks, hc.clean⟩
  cases hconflict : conflicted (restartSilence s) with
  | true =>
    rw [tagAtMap_conflicted hheard hconflict, Course.state_on, markDamaged_eq (u := restartSilence s) (s := s) rfl]
    exact conflicted_unmatched hconflict
  | false =>
    rw [tagAtMap_intact hheard hconflict, Course.state_on, learnedTag_unmatched (s := restartSilence s) hm]
    exact unmatchedTag_unmatched (checksTags_iff.mp hc.checks).2

end

/-- Settles O20: the map check by the mode, then the delivery, which leaves what the statement names. -/
theorem tagReportsByMode : Obligations.TagReportsByMode := by
  intro s n hf hp hclean hmode marked matching
  have hc : Checking n s := ⟨checksTags_iff.mpr ⟨hp, hmode⟩, hclean⟩
  have hheard : Checking n (restartSilence s) := ⟨hc.checks, hclean⟩
  have hmarked : damagedMap n s = marked := by
    cases he : entryAt s n with
    | free => simp only [marked, he, damagedMap_free]
    | held h => simp only [marked, he, damagedMap_held he]
  have hdamaged {u : State} (hmap : u.alloc.map = s.alloc.map) : markDamaged n u = { u with alloc.map := marked } :=
    hmarked ▸ markDamaged_eq hmap
  refine ⟨fun g h hconflict he hm hown => ?_, fun g hown hm => ?_, ?_, fun hquiet => ?_,
    fun hw hconflict => ⟨?_, fun g hown => ?_⟩⟩
  · have hchecked : conflicted (restartSilence s) = false := by simp [conflicted, restartSilence, hconflict]
    rw [execTagReceived_intact hf hown, tagAtMap_intact hheard hchecked, Course.state_on,
      learnedTag_match (s := restartSilence s) he (matches_iff.mpr hm)]
    have hd := deliverTag_delivered g (markHeard n h g.use (restartSilence s))
    refine ⟨_, rfl, ?_, fun k hk => ?_, by rw [hd.alloc]; rfl, hd.mode, hd.cycle, hd.line, hd.streams, hd.notes, hd.port,
      hd.txFifo, hd.listen⟩
    · rw [entryAt_congr hd.alloc, markHeard, entryAt_setEntry_same, lastUseOf_eq]
    · rw [entryAt_congr hd.alloc, markHeard, entryAt_setEntry_other hk]
      rfl
  · rw [execTagReceived_intact hf hown, ← hmarked]
    have hmismatch (h : HeldEntry) (he : entryAt s n = .held h) : h.matches g = false :=
      Bool.eq_false_iff.mpr fun hmatch => hm h he (matches_iff.mp hmatch)
    have hu := (tagAtMap_unmatched hc hmismatch).delivered (deliverTag_delivered g _)
    exact ⟨_, rfl, hu.streams, hu.line, hu.member, hu.withdrawing, hu.listen⟩
  · rw [execTagReceived_damagedTag hf hc, hdamaged rfl]
  · have hchecked : conflicted s = false := by
      rcases hquiet with hw | hfield
      · simp [conflicted, hw]
      · simp [conflicted, hfield]
    rw [execTagReceived_silent hf, tagAtMap_silent hc hchecked, Course.state_on]
  · have hfound : conflicted s = true := by simp [conflicted, hw, hconflict]
    rw [execTagReceived_silent hf, tagAtMap_conflicted hc hfound, Course.state_on, hdamaged rfl]
  · have hfound : conflicted (restartSilence s) = true := by simp [conflicted, restartSilence, hw, hconflict]
    rw [execTagReceived_intact hf hown, tagAtMap_conflicted hheard hfound, Course.state_on,
      hdamaged (u := restartSilence s) rfl]
    have hd := deliverTag_delivered g { restartSilence s with alloc.map := marked }
    exact ⟨_, rfl, hd.alloc, hd.mode, hd.cycle, hd.alerts .conflict (by decide)⟩

end Sys2Proof.Machine
end

section
/-! The close of the slot field at a learned station and the reclaim of a silent stream (O23; R43, R49, R50, R107). -/

namespace Sys2Proof.Machine

section
variable {s u v : State} {n : Slot} {h : HeldEntry} {st : Station} {l : LaneNo}

/-! ## Entries after a freeing and after a count (R41, R43, R49) -/

theorem entryAt_freeStream (st : Station) (l : LaneNo) (s : State) (n : Slot) :
    entryAt (freeStream st l s) n = if (entryAt s n).ofStream st l then .free else entryAt s n := by
  unfold entryAt freeStream
  rw [Table.get_map]
  exact apply_ite Stored.val ..

theorem ofStream_held : (SlotEntry.held h).ofStream st l = true ↔ h.holder = st ∧ h.lane = l := by
  simp only [SlotEntry.ofStream, Bool.and_eq_true, decide_eq_true_eq]

theorem changeHeld_free {f : HeldEntry → HeldEntry} {w : Stored SlotEntry} (hw : w.val = .free) :
    (w.changeHeld f).val = .free := by
  simp only [Stored.changeHeld, hw]

theorem changeHeld_held {f : HeldEntry → HeldEntry} {w : Stored SlotEntry} (hw : w.val = .held h) :
    (w.changeHeld f).val = .held (f h) := by
  simp only [Stored.changeHeld, hw]
  split
  · rename_i hsame
    rw [hw, hsame]
  · rfl

/-- The map at the close of a slot field at a learned station, before reclaim. -/
def counted (s : State) : State := clearMarks (countSilence s)

theorem entryAt_counted_free (he : entryAt s n = .free) : entryAt (counted s) n = .free := by
  simp only [entryAt, counted, clearMarks, countSilence, Table.get_map]
  exact changeHeld_free (changeHeld_free he)

theorem entryAt_counted_held (he : entryAt s n = .held h) :
    entryAt (counted s) n = .held { h with mark := .none, silence := newSilence h s } := by
  simp only [entryAt, counted, clearMarks, countSilence, Table.get_map]
  exact changeHeld_held (h := { h with silence := newSilence h s })
    (changeHeld_held (f := fun h => { h with silence := newSilence h s }) he)

theorem entryAt_counted {e : HeldEntry} (he : entryAt (counted s) n = .held e) :
    ∃ h, entryAt s n = .held h ∧ e = { h with mark := .none, silence := newSilence h s } := by
  cases hn : entryAt s n with
  | free => rw [entryAt_counted_free hn] at he; cases he
  | held h =>
    rw [entryAt_counted_held hn] at he
    cases he
    exact ⟨h, rfl, rfl⟩

/-- An entry of the stream of another carries a field mark. -/
def Shows (s : State) (m : FieldMark) (h : HeldEntry) : Prop :=
  ∃ k g, entryAt s k = .held g ∧ g.holder = h.holder ∧ g.lane = h.lane ∧ g.mark = m

theorem streamMarked_iff {m : FieldMark} : streamMarked m h s = true ↔ Shows s m h := by
  simp only [streamMarked, List.any_eq_true, Bool.and_eq_true, decide_eq_true_eq, mem_heldEntries, Shows, and_assoc]
  exact ⟨fun ⟨g, ⟨k, hk⟩, hg⟩ => ⟨k, g, hk, hg⟩, fun ⟨k, g, hk, hg⟩ => ⟨g, ⟨k, hk⟩, hg⟩⟩

theorem newSilence_heard (hh : Shows s .heard h) : newSilence h s = 0 := if_pos (streamMarked_iff.mpr hh)

theorem newSilence_damaged (hh : ¬Shows s .heard h) (hd : Shows s .damaged h) : newSilence h s = h.silence := by
  rw [newSilence, if_neg (mt streamMarked_iff.mp hh), if_pos (streamMarked_iff.mpr hd)]

theorem newSilence_silent (hh : ¬Shows s .heard h) (hd : ¬Shows s .damaged h) : newSilence h s = h.silence + 1 := by
  rw [newSilence, if_neg (mt streamMarked_iff.mp hh), if_neg (mt streamMarked_iff.mp hd)]

theorem newSilence_le (h : HeldEntry) (s : State) : newSilence h s ≤ h.silence + 1 := by
  unfold newSilence
  split_ifs
  · exact Nat.zero_le _
  · exact Nat.le_succ _
  · exact le_rfl

/-- The silence counts of an entry at the close (R49). -/
abbrev CountsTo (s : State) (h : HeldEntry) (e : SlotEntry) : Prop :=
  ∃ c, e = .held { h with mark := .none, silence := c } ∧ (Shows s .heard h → c = 0) ∧
    (¬Shows s .heard h → Shows s .damaged h → c = h.silence) ∧
    (¬Shows s .heard h → ¬Shows s .damaged h → c = h.silence + 1)

theorem counted_countsTo (he : entryAt s n = .held h) : CountsTo s h (entryAt (counted s) n) :=
  ⟨newSilence h s, entryAt_counted_held he, newSilence_heard, newSilence_damaged, newSilence_silent⟩

/-! ## Reclaim (R50) -/

theorem reclaimable_eq_none : reclaimable s = none ↔
    ∀ n h, entryAt s n = .held h → h.silence < s.port.config.reclaim.toNat := by
  simp only [reclaimable, List.find?_eq_none, mem_heldEntries, decide_eq_true_eq, not_le]
  exact ⟨fun hs n h hn => hs h ⟨n, hn⟩, fun hs h ⟨n, hn⟩ => hs n h hn⟩

theorem reclaimStreams_done (hnone : reclaimable s = none) (fuel : Nat) : reclaimStreams fuel s = s := by
  cases fuel with
  | zero => rfl
  | succ fuel => simp only [reclaimStreams, hnone]

/-- The stream of an identity is the one that has reached the reclaim count. -/
structure Due (st : Station) (l : LaneNo) (s : State) : Prop where
  some_entry : ∃ n h, entryAt s n = .held h ∧ s.port.config.reclaim.toNat ≤ h.silence
  only : ∀ n h, entryAt s n = .held h → s.port.config.reclaim.toNat ≤ h.silence → h.holder = st ∧ h.lane = l

theorem Due.reclaimable (hd : Due st l s) : ∃ h, reclaimable s = some h ∧ h.holder = st ∧ h.lane = l := by
  cases hr : Machine.reclaimable s with
  | none =>
    obtain ⟨n, h, hn, hlimit⟩ := hd.some_entry
    exact absurd (reclaimable_eq_none.mp hr n h hn) (not_lt.mpr hlimit)
  | some h =>
    obtain ⟨n, hn⟩ := mem_heldEntries.mp (List.mem_of_find?_eq_some hr)
    have hlimit : s.port.config.reclaim.toNat ≤ h.silence := by simpa using List.find?_some hr
    exact ⟨h, rfl, hd.only n h hn hlimit⟩

/-- With its stream freed nothing is due. -/
theorem Due.freed (hd : Due st l s) (halloc : v.alloc = (freeStream st l s).alloc) (hport : v.port = s.port) :
    Machine.reclaimable v = none := by
  refine reclaimable_eq_none.mpr fun n h hn => not_le.mp fun hlimit => ?_
  rw [entryAt_congr halloc, entryAt_freeStream] at hn
  rw [hport] at hlimit
  split at hn
  · cases hn
  · rename_i hother
    rw [hn] at hother
    exact hother (ofStream_held.mpr (hd.only n h hn hlimit))

theorem service_empty (hq : s.alloc.queue = []) (hold : Bool) : service hold s = .on s := by
  have hclean : s.QueueClean := by rw [State.QueueClean, hq]; simp
  unfold service serviceLoop
  rw [readQueueHead_clean hclean, Course.next_on, hq]

/-- The stream that is due is freed, its station told, and queue service has no entry to serve (R50, R72). -/
theorem reclaim_due (hd : Due st l s) (hq : s.alloc.queue = []) (hv : tell st false (.reclaimed l) (freeStream st l s) = v)
    (halloc : v.alloc = (freeStream st l s).alloc) (hport : v.port = s.port) : reclaim s = .on v := by
  obtain ⟨h, hr, rfl, rfl⟩ := hd.reclaimable
  have hstreams : reclaimStreams 48 s = v := by
    rw [reclaimStreams, hr]
    dsimp only
    rw [hv]
    exact reclaimStreams_done (hd.freed halloc hport) 47
  have hempty : v.alloc.queue = [] := by rw [halloc]; exact hq
  rw [reclaim, hr, Option.isSome_some, if_pos rfl, hstreams, service_empty hempty]

/-- The stream of another station (R57). -/
theorem reclaim_other (hd : Due st l s) (hq : s.alloc.queue = []) (hst : st ≠ own s) :
    reclaim s = .on (freeStream st l s) :=
  reclaim_due hd hq (if_neg hst) rfl rfl

/-- A stream of this station, in MEMBER (R107). -/
theorem reclaim_own (hd : Due st l s) (hq : s.alloc.queue = []) (hst : st = own s) (hm : s.mode.actual = .member)
    (hs : s.StreamsClean) : reclaim s = .on (takeReclaimed l (freeStream st l s)) := by
  obtain ⟨-, -, hmode, halloc, -, hport, -⟩ := takeReclaimed_frame l (freeStream st l s)
  refine reclaim_due hd hq ?_ halloc hport
  have hclean : (freeStream st l s).StreamsClean := hs
  have hstays : (takeReclaimed l (freeStream st l s)).mode.actual ≠ .withdrawing := by
    rw [hmode]
    exact fun hw => by rw [show (freeStream st l s).mode.actual = .member from hm] at hw; cases hw
  have htold : deliver (.reclaimed l) (freeStream st l s) = takeReclaimed l (freeStream st l s) := by
    rw [deliver, readStreams_clean _ _ hclean]
    exact exitCheck_idle hstays
  have hown : st = own (freeStream st l s) := hst
  rw [tell, if_pos hown]
  exact htold

/-! ## The lane of a reclaimed stream (R107) -/

/-- What RECLAIMED makes of the streams of the station. -/
structure Reclaimed (l : LaneNo) (s t : State) : Prop where
  mode : t.mode = s.mode
  others : ∀ j, j ≠ l → laneOfState t j = laneOfState s j
  held : (laneOfState s l).state = .held → laneOfState t l = (laneOfState s l).closedWith .reclaimed ∧
    t.HasAlert .stream ∧ t.lanes.txFifo.get l = [] ∧ t.streams.outbox = s.streams.outbox
  closing : (laneOfState s l).state = .closing ∨ (laneOfState s l).state = .cancelling ∧ (laneOfState s l).slots ≠ [] →
    laneOfState t l = (laneOfState s l).closedWith .reclaimed ∧ t.HasAlert .stream ∧ t.lanes.txFifo.get l = [] ∧
    t.streams.outbox = s.streams.outbox.filter fun e => e.val.lane? ≠ some l
  waiting : (laneOfState s l).state = .cancelling ∧ (laneOfState s l).slots = [] →
    laneOfState t l = laneOfState s l ∧ t.streams.outbox = s.streams.outbox

/-- What a lane closed as RECLAIMED shows. -/
theorem closeLane_reclaimed (l : LaneNo) (s : State) :
    (closeLane l .reclaimed s).mode = s.mode ∧
    (∀ j, j ≠ l → laneOfState (closeLane l .reclaimed s) j = laneOfState s j) ∧
    laneOfState (closeLane l .reclaimed s) l = (laneOfState s l).closedWith .reclaimed ∧
    (closeLane l .reclaimed s).HasAlert .stream ∧ (closeLane l .reclaimed s).lanes.txFifo.get l = [] ∧
    (closeLane l .reclaimed s).streams.outbox = s.streams.outbox :=
  ⟨rfl, fun j hj => by rw [laneOfState_closeLane, if_neg hj], by rw [laneOfState_closeLane, if_pos rfl],
    hasAlert_raise .stream _, Table.get_set_self .., rfl⟩

theorem takeReclaimed_reclaimed (l : LaneNo) (s : State) : Reclaimed l s (takeReclaimed l s) := by
  have hremoved : laneOfState (removeEntry l s) = laneOfState s := rfl
  obtain ⟨hmode, hothers, hlane, halert, hfifo, hbox⟩ := closeLane_reclaimed l s
  obtain ⟨hmodeR, hothersR, hlaneR, halertR, hfifoR, hboxR⟩ := closeLane_reclaimed l (removeEntry l s)
  rw [hremoved] at hothersR hlaneR
  unfold takeReclaimed
  cases hr : (laneOfState s l).state with
  | held =>
    exact ⟨hmode, hothers, fun _ => ⟨hlane, halert, hfifo, hbox⟩, fun h => by simp [hr] at h, fun h => by simp [hr] at h⟩
  | closing =>
    exact ⟨hmodeR, hothersR, fun h => by simp [hr] at h, fun _ => ⟨hlaneR, halertR, hfifoR, hboxR⟩,
      fun h => by simp [hr] at h⟩
  | cancelling =>
    dsimp only
    split
    · rename_i hslots
      exact ⟨rfl, fun _ _ => rfl, fun h => by simp [hr] at h, fun h => by simp [hr, hslots] at h, fun _ => ⟨rfl, rfl⟩⟩
    · rename_i hslots
      exact ⟨hmodeR, hothersR, fun h => by simp [hr] at h, fun _ => ⟨hlaneR, halertR, hfifoR, hboxR⟩,
        fun h => absurd h.2 hslots⟩
  | opening | waiting | closed =>
    exact ⟨rfl, fun _ _ => rfl, fun h => by simp [hr] at h, fun h => by simp [hr] at h, fun h => by simp [hr] at h⟩

/-! ## SLOT_FIELD_CLOSED and SILENCE_RECLAIM (R49, R50) -/

theorem execSlotFieldClosed_checking (hf : s.Framed) (hc : checksTags s = true) (hclean : s.MapClean) :
    exec .slotFieldClosed s = .next { (reclaim (counted s)).state with alloc.fieldConflict := false } := by
  have hclose : closeField s = reclaim (counted s) := by
    rw [closeField, (checksTags_iff.mp hc).1]
    dsimp only
    rw [if_pos hc, closeLearned, readMap_clean hclean]
    rfl
  simp only [exec, execSlotFieldClosed, framedEvent_on hf, hclose]

theorem execSilenceReclaim_checking (hf : s.Framed) (hc : checksTags s = true) (hclean : s.MapClean) :
    exec .silenceReclaim s = .next (reclaim s).state := by
  simp only [exec, execSilenceReclaim, framedEvent_on hf, if_pos hc, readMap_clean hclean, Course.next_on]

/-- Where no stream reaches the reclaim count at the close. -/
theorem counted_none (h : ∀ n h, entryAt s n = .held h → h.silence + 1 < s.port.config.reclaim.toNat) :
    reclaim (counted s) = .on (counted s) := by
  have hnone : reclaimable (counted s) = none := reclaimable_eq_none.mpr fun n e he => by
    obtain ⟨g, hg, rfl⟩ := entryAt_counted he
    exact lt_of_le_of_lt (newSilence_le g s) (h n g hg)
  rw [reclaim, hnone]
  rfl

/-- Where one stream, that no tag has shown, reaches it. -/
theorem counted_due (hsome : ∃ n h, entryAt s n = .held h ∧ h.holder = st ∧ h.lane = l)
    (hreach : ∀ n h, entryAt s n = .held h → h.holder = st → h.lane = l →
      h.mark = .none ∧ s.port.config.reclaim.toNat ≤ h.silence + 1)
    (hrest : ∀ n h, entryAt s n = .held h → ¬(h.holder = st ∧ h.lane = l) → h.silence + 1 < s.port.config.reclaim.toNat) :
    Due st l (counted s) := by
  refine ⟨?_, fun n e he hlimit => ?_⟩
  · obtain ⟨n, h, hn, rfl, rfl⟩ := hsome
    have hunmarked {m : FieldMark} (hm : m ≠ .none) : ¬Shows s m h := by
      rintro ⟨k, g, hk, hst, hl, rfl⟩
      exact hm (hreach k g hk hst hl).1
    refine ⟨n, _, entryAt_counted_held hn, ?_⟩
    rw [newSilence_silent (hunmarked (by decide)) (hunmarked (by decide))]
    exact (hreach n h hn rfl rfl).2
  · obtain ⟨h, hn, rfl⟩ := entryAt_counted he
    by_contra hother
    exact absurd (hlimit.trans (newSilence_le h s)) (not_le.mpr (hrest n h hn hother))

/-- The map of a close that frees one stream. -/
theorem entryAt_freed_counted (st : Station) (l : LaneNo) (s : State) (n : Slot) :
    ((entryAt s n).ofStream st l = true ∨ entryAt s n = .free →
      entryAt (freeStream st l (counted s)) n = .free) ∧
    ∀ h, entryAt s n = .held h → ¬(h.holder = st ∧ h.lane = l) →
      CountsTo s h (entryAt (freeStream st l (counted s)) n) := by
  rw [entryAt_freeStream]
  refine ⟨fun hn => ?_, fun h hn hother => ?_⟩
  · cases he : entryAt s n with
    | free => rw [entryAt_counted_free he]; rfl
    | held h =>
      rw [he] at hn
      rw [entryAt_counted_held he]
      exact if_pos (hn.resolve_right (by rintro ⟨⟩))
  · have hkept : ¬(entryAt (counted s) n).ofStream st l = true := by
      rw [entryAt_counted_held hn]
      exact mt ofStream_held.mp hother
    rw [if_neg hkept]
    exact counted_countsTo hn

end

/-- Settles O23: the close counts, and at the close as by SILENCE_RECLAIM the one stream due is freed and its station told. -/
theorem slotFieldCloseCountsAndReclaims : Obligations.SlotFieldCloseCountsAndReclaims := by
  intro s hf hp hclean hmode limit shows counts closed
  have hc : checksTags s = true := checksTags_iff.mpr ⟨hp, hmode⟩
  have hclosed := execSlotFieldClosed_checking hf hc hclean
  have hreclaims := execSilenceReclaim_checking hf hc hclean
  refine ⟨fun hsilent => ?_, fun st l hq => ?_⟩
  · rw [hclosed, counted_none hsilent]
    exact ⟨_, rfl, rfl, fun n => entryAt_counted_free, fun n h hn => counted_countsTo hn⟩
  intro r cleared reclaimed
  refine ⟨fun hsome hreach hrest => ?_, fun hsome honly => ?_⟩
  · have hdue := counted_due hsome hreach hrest
    intro freed
    refine ⟨fun hst => ?_, fun hst hm hs => ?_⟩
    · rw [hclosed, reclaim_other hdue hq hst]
      exact ⟨_, rfl, entryAt_freed_counted st l s, rfl⟩
    · rw [hclosed, reclaim_own hdue hq hst hm hs]
      have ht := takeReclaimed_reclaimed l (freeStream st l (counted s))
      have halloc : (takeReclaimed l (freeStream st l (counted s))).alloc = (freeStream st l (counted s)).alloc := by simp
      refine ⟨_, rfl, fun n => ?_, ht.mode, ht.others, ht.held, ht.closing, ht.waiting⟩
      have hentry : entryAt { takeReclaimed l (freeStream st l (counted s)) with alloc.fieldConflict := false } n =
          entryAt (freeStream st l (counted s)) n := entryAt_congr halloc n
      have hmap := entryAt_freed_counted st l s n
      rw [← hentry] at hmap
      exact hmap
  · have hdue : Due st l s := ⟨hsome, honly⟩
    intro freed
    refine ⟨fun hst => ?_, fun hst hm hs => ?_⟩
    · rw [hreclaims, reclaim_other hdue hq hst]
      exact ⟨_, rfl, entryAt_freeStream st l s, rfl⟩
    · rw [hreclaims, reclaim_own hdue hq hst hm hs]
      have ht := takeReclaimed_reclaimed l (freeStream st l s)
      have halloc : (takeReclaimed l (freeStream st l s)).alloc = (freeStream st l s).alloc := by simp
      refine ⟨_, rfl, fun n => ?_, ht.mode, ht.others, ht.held, ht.closing, ht.waiting⟩
      rw [Course.state_on, entryAt_congr halloc, entryAt_freeStream]

end Sys2Proof.Machine
end

section
/-! Control messages where no word reads with an error (R9, R12, R19, R55, R57): the window that brings one, the notices to the
Stream Controller, what the two tables answer, and the rows of the grant rule (Table 4-2). -/

namespace Sys2Proof.Machine

section
variable {s t : State} {st : Station} {l : LaneNo} {x : Label} {b : Body} {e : QueueEntry} {c : SlotClass} {k : Nat}

/-! ## The window of a control message (R9, R12, R14, R19) -/

/-- A window with a control message that is applied to its end at a station that sends none. -/
theorem execWindowEnded_applied (hf : s.Framed) (hl : s.line.onLine = none) (hi : s.NotesIdle)
    (hst : st ≠ own s ∨ s.line.wonWindow = true) (hb : ∀ n, b ≠ .note n)
    (happ : applyMessage st b (restartSilence s) = .on t) (hn : t.notes = s.notes) :
    exec (.windowEnded (.intact st b)) s = .next { t with line := { t.line with wonWindow := false } } := by
  have hc : contenderLost s = s := by simp only [contenderLost, hl]
  have hdup : (decide (st = own (restartSilence s)) && !(restartSilence s).line.wonWindow) = false := by
    have hown : own (restartSilence s) = own s := rfl
    have hwon : (restartSilence s).line.wonWindow = s.line.wonWindow := rfl
    rcases hst with hst | hst
    · simp [hown, hst]
    · simp [hwon, hst]
  have hnote (u : State) : takeWindowNote st b u = u := by
    cases b with
    | note n => exact absurd rfl (hb n)
    | _ => rfl
  have hidle : t.NotesIdle := by rw [State.NotesIdle, hn]; exact hi
  simp only [exec, execWindowEnded, framedEvent_on hf, hc, if_neg (framed_on hf), takeWindow, takeMessage, hdup,
    Bool.false_eq_true, if_false, happ, Course.state_on, hnote, spaceNotes_idle hidle]

/-! ## Notices told (R34, R57, R152) -/

theorem tell_other (hst : st ≠ own s) (hold : Bool) (n : Notice) : tell st hold n s = s := if_neg hst

/-- A station to which a notice brings its effect and nothing else: the STREAMS words are clean, and no exit condition is
checked. -/
structure Tellable (s : State) : Prop where
  stays : s.mode.actual ≠ .withdrawing
  clean : s.StreamsClean

theorem tellable_member (hm : s.mode.actual = .member) (hs : s.StreamsClean) : Tellable s := ⟨by rw [hm]; decide, hs⟩

theorem tell_own (h : Tellable s) (hst : st = own s) (n : Notice) : tell st false n s = takeNotice n s := by
  have hstays : (takeNotice n s).mode.actual ≠ .withdrawing := by
    rw [(takeNotice_frame n s).2.2.1]
    exact h.stays
  rw [tell, if_pos hst, send, if_neg Bool.false_ne_true, deliver, readStreams_clean _ _ h.clean]
  exact exitCheck_idle hstays

/-- A state that differs in what the Stream Controller and the Lane Unit hold and in the alerts alone. -/
structure SameBut (s t : State) : Prop where
  line : t.line = s.line
  cycle : t.cycle = s.cycle
  mode : t.mode = s.mode
  alloc : t.alloc = s.alloc
  notes : t.notes = s.notes
  pins : t.pins = s.pins

theorem takeNotice_sameBut (n : Notice) (s : State) : SameBut s (takeNotice n s) := by
  obtain ⟨hline, hcycle, hmode, halloc, hnotes, -, -, hpins, -⟩ := takeNotice_frame n s
  exact ⟨hline, hcycle, hmode, halloc, hnotes, hpins⟩

/-! ## What the tables answer (R42, R60, R61) -/

/-- The identity is a stream of the map. -/
abbrev InMap (st : Station) (l : LaneNo) (s : State) : Prop := ∃ n h, entryAt s n = .held h ∧ h.holder = st ∧ h.lane = l

/-- The identity is an entry of the queue. -/
abbrev InQueue (st : Station) (l : LaneNo) (s : State) : Prop := ∃ w ∈ s.alloc.queue, w.val.station = st ∧ w.val.lane = l

/-- Either table carries the label. -/
abbrev Carried (x : Label) (s : State) : Prop :=
  (∃ n h, entryAt s n = .held h ∧ h.label = x) ∨ ∃ w ∈ s.alloc.queue, w.val.label = x

theorem streamSlots_isEmpty : (streamSlots st l s).isEmpty = true ↔ ¬InMap st l s := by
  rw [List.isEmpty_iff, ← not_iff_not, ← ne_eq, streamSlots_ne_nil, not_not]
  simp only [mem_heldEntries]
  exact ⟨fun ⟨h, ⟨n, hn⟩, hid⟩ => ⟨n, h, hn, hid⟩, fun ⟨n, h, hn, hid⟩ => ⟨h, ⟨n, hn⟩, hid⟩⟩

theorem queuedAt_isSome : (queuedAt st l s).isSome = true ↔ InQueue st l s := by
  simp only [queuedAt, List.findIdx?_isSome, List.any_eq_true, Bool.and_eq_true, decide_eq_true_eq]

theorem queuedAt_none (h : ¬InQueue st l s) : queuedAt st l s = none := by
  rwa [← queuedAt_isSome, Option.not_isSome_iff_eq_none] at h

theorem carried_iff : (labelHeld x s || labelQueued x s) = true ↔ Carried x s := by
  simp only [Bool.or_eq_true, labelHeld_iff, mem_heldEntries, labelQueued, List.any_eq_true, decide_eq_true_eq]
  exact or_congr_left ⟨fun ⟨h, ⟨n, hn⟩, hx⟩ => ⟨n, h, hn, hx⟩, fun ⟨n, h, hn, hx⟩ => ⟨h, ⟨n, hn⟩, hx⟩⟩

theorem listed_iff : (!(streamSlots st l s).isEmpty || (queuedAt st l s).isSome) = true ↔ InMap st l s ∨ InQueue st l s := by
  rw [Bool.or_eq_true, queuedAt_isSome, Bool.not_eq_true', Bool.eq_false_iff, ne_eq, streamSlots_isEmpty, not_not]

/-- The queue holds an entry that would stand ahead of a claim of the class (R62). -/
abbrev Behind (c : SlotClass) (s : State) : Prop :=
  c = .normal ∧ s.alloc.queue ≠ [] ∨ c = .urgent ∧ ∃ w ∈ s.alloc.queue, w.val.cls = .urgent

theorem cannotOvertake_iff : cannotOvertake c s = true ↔ Behind c s := by
  cases c <;> simp [cannotOvertake, Behind]

theorem not_behind_of_empty (h : s.alloc.queue = []) : ¬Behind c s := by
  rintro (⟨-, hne⟩ | ⟨-, w, hw, -⟩)
  · exact hne h
  · rw [h] at hw
    cases hw

/-- Neither the FREE slots nor pre-emption suffice (R64, R68). -/
abbrev NoRoom (c : SlotClass) (k : Nat) (s : State) : Prop :=
  (freeSlots s).length < k ∧ (c = .urgent → (freeSlots s).length + normalTotal s < k)

theorem NoRoom.not_preemptable (h : NoRoom c k s) : preemptable c k s = false := by
  rw [preemptable, Bool.and_eq_false_iff, decide_eq_false_iff_not, decide_eq_false_iff_not, not_le]
  exact (em (c = .urgent)).symm.imp id h.2

/-- The queue is full, and no NORMAL entry is at its end for the claim to displace (R67). -/
abbrev QueueFull (c : SlotClass) (s : State) : Prop :=
  16 ≤ s.alloc.queue.length ∧ (c = .urgent → ∀ w ∈ s.alloc.queue, w.val.cls = .urgent)

theorem QueueFull.behind (h : QueueFull c s) : Behind c s := by
  have hne : s.alloc.queue ≠ [] := List.ne_nil_of_length_pos (by have := h.1; omega)
  cases hc : c with
  | normal => exact .inl ⟨rfl, hne⟩
  | urgent => exact .inr ⟨rfl, _, List.head_mem hne, h.2 hc _ (List.head_mem hne)⟩

/-! ## The rows of Table 4-2 -/

/-- Neither table holds the identity or the label of a claim, so that it reaches step 3 (R60, R61). -/
structure Passes (e : QueueEntry) (s : State) : Prop where
  unlisted : ¬(InMap e.station e.lane s ∨ InQueue e.station e.lane s)
  unlabelled : ¬Carried e.label s

theorem Passes.of_absent (hmap : ∀ n h, entryAt s n = .held h → h.label ≠ e.label ∧ ¬(h.holder = e.station ∧ h.lane = e.lane))
    (hqueue : ∀ w ∈ s.alloc.queue, w.val.label ≠ e.label ∧ ¬(w.val.station = e.station ∧ w.val.lane = e.lane)) :
    Passes e s where
  unlisted := by
    rintro (⟨n, h, hn, hid⟩ | ⟨w, hw, hid⟩)
    · exact (hmap n h hn).2 hid
    · exact (hqueue w hw).2 hid
  unlabelled := by
    rintro (⟨n, h, hn, hx⟩ | ⟨w, hw, hx⟩)
    · exact (hmap n h hn).1 hx
    · exact (hqueue w hw).1 hx

/-- Steps 3 to 7, for a claim that passes steps 1 and 2. -/
theorem Passes.grantRule (h : Passes e s) (wait : Bool) : grantRule e wait s =
    if cannotOvertake e.cls s then (if wait then placeClaim e s else tell e.station false (.refused e.lane .busy) s)
    else if e.count ≤ (freeSlots s).length then grant false e.station e.lane e.label e.cls e.ret e.count s
    else if preemptable e.cls e.count s then
      grant false e.station e.lane e.label e.cls e.ret e.count (preempt 48 false e.count s)
    else if wait then placeClaim e s
    else tell e.station false (.refused e.lane .noRoom) s := by
  simp only [Machine.grantRule, if_neg (mt listed_iff.mp h.unlisted), if_neg (mt carried_iff.mp h.unlabelled)]

/-- Step 4 (R63). -/
theorem Passes.grantRule_free (h : Passes e s) (hb : ¬Behind e.cls s) (hk : e.count ≤ (freeSlots s).length) (wait : Bool) :
    Machine.grantRule e wait s = grant false e.station e.lane e.label e.cls e.ret e.count s := by
  rw [h.grantRule, if_neg (mt cannotOvertake_iff.mp hb), if_pos hk]

/-- Step 5 (R64). -/
theorem Passes.grantRule_preempts (h : Passes e s) (hb : ¬Behind e.cls s) (hk : (freeSlots s).length < e.count)
    (hc : e.cls = .urgent) (hroom : e.count ≤ (freeSlots s).length + normalTotal s) (wait : Bool) :
    Machine.grantRule e wait s =
      grant false e.station e.lane e.label e.cls e.ret e.count (preempt 48 false e.count s) := by
  have hp : preemptable e.cls e.count s = true := by simp [preemptable, hc, hroom]
  rw [h.grantRule, if_neg (mt cannotOvertake_iff.mp hb), if_neg (not_le.mpr hk), if_pos hp]

/-- Step 6 of a claim with WAIT (R62, R66). -/
theorem Passes.grantRule_waits (h : Passes e s) (hw : Behind e.cls s ∨ NoRoom e.cls e.count s) :
    Machine.grantRule e true s = placeClaim e s := by
  rw [h.grantRule, if_pos rfl]
  by_cases hb : Behind e.cls s
  · rw [if_pos (cannotOvertake_iff.mpr hb)]
  · have hroom := hw.resolve_left hb
    rw [if_neg (mt cannotOvertake_iff.mp hb), if_neg (not_le.mpr hroom.1), hroom.not_preemptable, if_neg Bool.false_ne_true,
      if_pos rfl]

/-- Why Table 4-2 refuses a claim, without WAIT and with it (R60, R61, R62, R67, R68). -/
inductive RefusedFor (e : QueueEntry) (s : State) : Bool → RefusalReason → Prop where
  | already (wait : Bool) : InMap e.station e.lane s ∨ InQueue e.station e.lane s → RefusedFor e s wait .already
  | label (wait : Bool) : ¬(InMap e.station e.lane s ∨ InQueue e.station e.lane s) → Carried e.label s →
      RefusedFor e s wait .label
  | busy : Passes e s → Behind e.cls s → RefusedFor e s false .busy
  | noRoom : Passes e s → ¬Behind e.cls s → NoRoom e.cls e.count s → RefusedFor e s false .noRoom
  | full : Passes e s → QueueFull e.cls s → RefusedFor e s true .full

theorem placeClaim_full (h : QueueFull e.cls s) : placeClaim e s = tell e.station false (.refused e.lane .full) s := by
  have hroom : ¬s.alloc.queue.length < Config.queueRoom := not_lt.mpr h.1
  rw [placeClaim, if_neg hroom]
  split
  · rename_i last hc hlast
    have hurgent : last.val.cls = .urgent := h.2 hc _ (List.mem_of_getLast? hlast)
    rw [if_neg (by rw [hurgent]; decide)]
  · rfl
  · rfl

/-- A refused claim changes neither table: its station is told why. -/
theorem grantRule_refused {wait : Bool} {r : RefusalReason} (h : RefusedFor e s wait r) :
    grantRule e wait s = tell e.station false (.refused e.lane r) s := by
  cases h with
  | already _ hid => simp only [grantRule, if_pos (listed_iff.mpr hid)]
  | label _ hid hx => simp only [grantRule, if_neg (mt listed_iff.mp hid), if_pos (carried_iff.mpr hx)]
  | busy hp hb => rw [hp.grantRule, if_pos (cannotOvertake_iff.mpr hb), if_neg Bool.false_ne_true]
  | noRoom hp hb hroom =>
    rw [hp.grantRule, if_neg (mt cannotOvertake_iff.mp hb), if_neg (not_le.mpr hroom.1), hroom.not_preemptable,
      if_neg Bool.false_ne_true, if_neg Bool.false_ne_true]
  | full hp hfull => rw [hp.grantRule_waits (.inl hfull.behind), placeClaim_full hfull]

/-! ## A CLAIM heard (R55, R58) -/

/-- The phases in which CLAIM, RELEASE and WITHDRAW are applied (R24, R55). -/
theorem applies_iff : (decide (s.cycle.phase = .verify) || decide (s.cycle.phase = .learned)) = true ↔
    s.cycle.phase = .learned ∨ s.cycle.phase = .verify := by
  rw [Bool.or_eq_true, decide_eq_true_eq, decide_eq_true_eq, or_comm]

/-- What a CLAIM asks for, as a queue entry of age 0. -/
abbrev claimed (st : Station) (l : LaneNo) (x : Label) (k : Nat) (c : SlotClass) (r : Bool) : QueueEntry :=
  { station := st, lane := l, label := x, count := k, cls := c, ret := r, age := 0 }

/-- A station with nothing of its own on the line or ACTIVE, in a phase in which claims are applied, and the window of a
message that another station has sent or this one has won. -/
structure Hears (st : Station) (s : State) : Prop where
  framed : s.Framed
  phase : s.cycle.phase = .learned ∨ s.cycle.phase = .verify
  vacant : s.line.onLine = none
  idle : s.NotesIdle
  sender : st ≠ own s ∨ s.line.wonWindow = true

theorem Hears.claim (h : Hears st s) (hm : s.MapClean) (hq : s.QueueClean) {k : Fin 16} (h1 : 1 ≤ k.val) (h8 : k.val ≤ 8)
    {w r : Bool} (ht : grantRule (claimed st l x k.val c r) w (restartSilence s) = t) (hn : t.notes = s.notes) :
    exec (.windowEnded (.intact st (.claim l x k c w r))) s = .next { t with line := { t.line with wonWindow := false } } := by
  have hcount : ¬(k.val = 0 ∨ 8 < k.val) := by omega
  refine execWindowEnded_applied h.framed h.vacant h.idle h.sender (fun _ => by simp) ?_ hn
  rw [← ht]
  simp only [applyMessage, show (restartSilence s).cycle = s.cycle from rfl, applies_iff.mpr h.phase, if_true, applyClaim,
    if_neg hcount, readMap_clean (s := restartSilence s) hm, readQueue_clean (s := restartSilence s) hq, Course.next_on,
    Course.finally_on]

/-- A CLAIM with a count out of its range is ignored (R58). -/
theorem Hears.claim_ignored (h : Hears st s) {k : Fin 16} (hk : k.val = 0 ∨ 8 < k.val) {w r : Bool} :
    exec (.windowEnded (.intact st (.claim l x k c w r))) s =
      .next { s with line := { s.line with silenceTimer := some 0, wonWindow := false } } := by
  refine execWindowEnded_applied (t := restartSilence s) h.framed h.vacant h.idle h.sender (fun _ => by simp) ?_ rfl
  simp only [applyMessage, show (restartSilence s).cycle = s.cycle from rfl, applies_iff.mpr h.phase, if_true, applyClaim,
    if_pos hk]

end

end Sys2Proof.Machine
end

section
/-! Claims that take no slot (O37, O38; R58 to R62, R66 to R68, R103, R104, R108): refusals, and placing in the queue. -/

namespace Sys2Proof.Machine

section
variable {s t : State} {l : LaneNo} {r : RefusalReason}

/-! ## The lane of a refused claim (R103, R104) -/

/-- With nothing on the line a CLAIM that the outbox does not hold has been sent (6.1). -/
theorem claimCondition_left (hl : s.line.onLine = none) (hb : ∀ w ∈ s.streams.outbox, w.val ≠ .claim l) :
    claimCondition l s = .sent := by
  have hw : claimInWindow l s = false := by simp only [claimInWindow, hl]
  have hn : ¬(s.streams.outbox.any fun w => w.val = .claim l) = true := by simpa using hb
  rw [claimCondition, hw, if_neg Bool.false_ne_true, if_neg hn]

/-- With nothing on the line a CLAIM that the outbox holds has not been sent (6.1). -/
theorem claimCondition_waits (hl : s.line.onLine = none) (hb : ∃ w ∈ s.streams.outbox, w.val = .claim l) :
    claimCondition l s ≠ .sent := by
  have hw : claimInWindow l s = false := by simp only [claimInWindow, hl]
  have hy : (s.streams.outbox.any fun w => w.val = .claim l) = true := by simpa using hb
  rw [claimCondition, hw, if_neg Bool.false_ne_true, if_pos hy]
  decide

theorem takeRefused_opening (h : (laneOfState s l).state = .opening) (hc : claimCondition l s = .sent) :
    takeRefused l r s = closeLane l r.outcome s := by
  simp only [takeRefused, h, hc, if_true]

theorem takeRefused_cancelling (h : (laneOfState s l).state = .cancelling) :
    takeRefused l r s = closeLane l .cancelled (removeEntry l s) := by
  simp only [takeRefused, h]

theorem takeRefused_other (h : (laneOfState s l).state ≠ .opening ∨ claimCondition l s ≠ .sent)
    (hc : (laneOfState s l).state ≠ .cancelling) : takeRefused l r s = s := by
  unfold takeRefused
  cases hr : (laneOfState s l).state with
  | opening => exact if_neg (h.resolve_left (not_not.mpr hr))
  | cancelling => exact absurd hr hc
  | waiting | held | closing | closed => rfl

end

/-- Settles O37: the row of Table 4-2 that refuses the claim, and the lane of its station. -/
theorem refusedClaimsChangeNothing : Obligations.RefusedClaimsChangeNothing := by
  intro s st l x k c w r hf hp hm hq hl hi already labelled behind noRoom full refused heard claim
  refine ⟨fun hst hk => Hears.claim_ignored ⟨hf, hp, hl, hi, hst⟩ hk, ?_⟩
  intro o h1 h8 ho lane closedAs
  obtain ⟨reason, hreason, rfl⟩ : ∃ reason, RefusedFor (claimed st l x k.val c r) (restartSilence s) w reason ∧
      reason.outcome = o := by
    rcases ho with ⟨ha, rfl⟩ | ⟨ha, ⟨hx, rfl⟩ | ⟨hx, ⟨rfl, ⟨hb, rfl⟩ | ⟨hb, hroom, rfl⟩⟩ | ⟨rfl, hfull, rfl⟩⟩⟩
    · exact ⟨_, .already w ha, rfl⟩
    · exact ⟨_, .label w ha hx, rfl⟩
    · exact ⟨_, .busy ⟨ha, hx⟩ hb, rfl⟩
    · exact ⟨_, .noRoom ⟨ha, hx⟩ hb hroom, rfl⟩
    · exact ⟨_, .full ⟨ha, hx⟩ hfull, rfl⟩
  have hrule := grantRule_refused hreason
  refine ⟨fun hst => ?_, fun hst hw hmem hs => ?_⟩
  · exact Hears.claim ⟨hf, hp, hl, hi, .inl hst⟩ hm hq h1 h8 (hrule.trans (tell_other (by exact hst) _ _)) rfl
  · have hears : Hears st s := ⟨hf, hp, hl, hi, .inr hw⟩
    have htold : tell st false (.refused l reason) (restartSilence s) = takeRefused l reason (restartSilence s) :=
      tell_own (s := restartSilence s) (tellable_member hmem hs) hst _
    have heard_as {t : State} (ht : takeRefused l reason (restartSilence s) = t) (hn : t.notes = s.notes) :
        claim = .next { t with line := { t.line with wonWindow := false } } :=
      hears.claim hm hq h1 h8 (hrule.trans (htold.trans ht)) hn
    refine ⟨fun hopen hbox => ?_, fun hcan => ?_, fun hopen hcan => ?_⟩
    · exact heard_as (takeRefused_opening hopen (claimCondition_left hl hbox)) rfl
    · exact heard_as (takeRefused_cancelling hcan) rfl
    · exact heard_as (takeRefused_other (hopen.imp_right (claimCondition_waits hl)) hcan) rfl

section
variable {s t u : State} {e : QueueEntry} {us ns q : List (Stored QueueEntry)}

/-! ## Placing in the queue (R66, R67) -/

theorem urgentAhead_split (hq : s.alloc.queue = us ++ ns) (hu : ∀ w ∈ us, w.val.cls = .urgent)
    (hn : ∀ w ∈ ns, w.val.cls = .normal) : urgentAhead s = us.length := by
  have hdrop : (us.reverse.dropWhile fun w => w.val.cls = .normal) = us.reverse := by
    refine List.dropWhile_eq_self_iff.mpr fun hlen => ?_
    have hurgent := hu _ (List.mem_reverse.mp (List.getElem_mem hlen))
    rw [hurgent]
    decide
  rw [urgentAhead, hq, List.reverse_append, List.dropWhile_append_of_pos (by simpa using hn), hdrop, List.length_reverse]

theorem insertIdx_between {α : Type} (as bs : List α) (a : α) : (as ++ bs).insertIdx as.length a = as ++ [a] ++ bs := by
  have hadd := List.modifyTailIdx_add (List.cons a) 0 as bs
  rw [List.append_assoc]
  exact hadd

theorem insertQueued_on (ho : s.mode.actual ≠ .off) (i : Nat) : insertQueued i e s =
    { s with alloc := { s.alloc with queue := s.alloc.queue.insertIdx i (.fresh e) } } := if_neg ho

/-- Room in the queue: the claim is placed by its class and its station told the position (R66). -/
theorem placeClaim_room (ho : s.mode.actual ≠ .off) (hlen : s.alloc.queue.length < 16) :
    placeClaim e s = tell e.station false (.queued e.lane (placeOf e s + 1))
      { s with alloc := { s.alloc with queue := s.alloc.queue.insertIdx (placeOf e s) (.fresh e) } } := by
  have hroom : s.alloc.queue.length < Config.queueRoom := hlen
  rw [placeClaim, if_pos hroom, ← insertQueued_on ho]
  rfl

theorem placeClaim_normal (ho : s.mode.actual ≠ .off) (hlen : s.alloc.queue.length < 16) (hc : e.cls = .normal) :
    placeClaim e s = tell e.station false (.queued e.lane (s.alloc.queue.length + 1))
      { s with alloc := { s.alloc with queue := s.alloc.queue ++ [.fresh e] } } := by
  have hplace : placeOf e s = s.alloc.queue.length := if_neg (by rw [hc]; decide)
  rw [placeClaim_room ho hlen, hplace, List.insertIdx_length_self]

theorem placeClaim_urgent (ho : s.mode.actual ≠ .off) (hlen : s.alloc.queue.length < 16) (hc : e.cls = .urgent)
    (hq : s.alloc.queue = us ++ ns) (hu : ∀ w ∈ us, w.val.cls = .urgent) (hn : ∀ w ∈ ns, w.val.cls = .normal) :
    placeClaim e s = tell e.station false (.queued e.lane (us.length + 1))
      { s with alloc := { s.alloc with queue := us ++ [.fresh e] ++ ns } } := by
  have hplace : placeOf e s = us.length := (if_pos hc).trans (urgentAhead_split hq hu hn)
  rw [placeClaim_room ho hlen, hplace, hq, insertIdx_between]

/-- An URGENT claim at a full queue that ends in a NORMAL entry: that entry leaves, its station is told, and the claim is placed
behind the last URGENT entry (R67). -/
theorem placeClaim_displaces {last : Stored QueueEntry} (hlen : s.alloc.queue.length = 16) (hc : e.cls = .urgent)
    (hq : s.alloc.queue = us ++ (ns ++ [last])) (hu : ∀ w ∈ us, w.val.cls = .urgent)
    (hn : ∀ w ∈ ns ++ [last], w.val.cls = .normal)
    (ht : tell last.val.station false (.displaced last.val.lane)
      { s with alloc := { s.alloc with queue := us ++ ns } } = t) (ho : t.mode.actual ≠ .off)
    (htq : t.alloc.queue = us ++ ns) :
    placeClaim e s = tell e.station false (.queued e.lane (us.length + 1))
      { t with alloc := { t.alloc with queue := us ++ [.fresh e] ++ ns } } := by
  have hroom : ¬s.alloc.queue.length < Config.queueRoom := not_lt.mpr hlen.ge
  have hq' : s.alloc.queue = us ++ ns ++ [last] := hq.trans (List.append_assoc ..).symm
  have hlast : s.alloc.queue.getLast? = some last := by rw [hq', List.getLast?_concat]
  have hplace : urgentAhead t = us.length :=
    urgentAhead_split htq hu fun w hw => hn w (List.mem_append_left _ hw)
  have hnormal : last.val.cls = .normal := hn last (List.mem_append_right _ (List.mem_singleton_self _))
  have hdrop : s.alloc.queue.dropLast = us ++ ns := by rw [hq', List.dropLast_concat]
  rw [placeClaim, if_neg hroom, hc, hlast]
  dsimp only
  rw [if_pos hnormal, hdrop, ht, hplace, insertQueued_on ho, htq, insertIdx_between]

/-! ## The lanes of claims placed and displaced (R103, R104, R108) -/

theorem takeQueued_opening {l : LaneNo} {p : Nat} (h : (laneOfState s l).state = .opening) (hc : claimCondition l s = .sent) :
    takeQueued l p s = changeLane l (fun r => { r with
      state := .waiting, slots := [], position := some p, outcome := .queued }) s := by
  simp only [takeQueued, h, hc, if_true]

theorem takeQueued_cancelling {l : LaneNo} {p : Nat} (h : (laneOfState s l).state = .cancelling) :
    takeQueued l p s = changeLane l (fun r => { r with position := some p, outcome := .queued }) s := by
  simp only [takeQueued, h]

/-- What the removal of its queue entry makes of a lane that waits or is to be withdrawn (R108). -/
theorem takeRemoved_closes {l : LaneNo} (o : StreamOutcome) (h : (laneOfState s l).state = .waiting ∨
    (laneOfState s l).state = .cancelling ∧ (laneOfState s l).slots = []) :
    (takeRemoved l o s).HasAlert .stream ∧
    ((laneOfState s l).state = .waiting → (takeRemoved l o s).streams.outbox = s.streams.outbox) ∧
    ((laneOfState s l).state ≠ .waiting →
      (takeRemoved l o s).streams.outbox = s.streams.outbox.filter fun b => b.val.lane? ≠ some l) ∧
    laneOfState (takeRemoved l o s) l = (laneOfState s l).closedWith o := by
  have hclosed (u : State) : laneOfState (closeLane l o u) l = (laneOfState u l).closedWith o :=
    (laneOfState_closeLane ..).trans (if_pos rfl)
  rcases h with h | ⟨h, hslots⟩
  · have htake : takeRemoved l o s = closeLane l o s := by simp only [takeRemoved, h]
    rw [htake]
    exact ⟨hasAlert_raise .stream _, fun _ => rfl, fun hno => absurd h hno, hclosed s⟩
  · have htake : takeRemoved l o s = closeLane l o (removeEntry l s) := by simp only [takeRemoved, h, hslots, if_true]
    rw [htake, h]
    exact ⟨hasAlert_raise .stream _, fun hno => (nomatch hno), fun _ => rfl, hclosed (removeEntry l s)⟩

end

/-- Settles O38: step 6 of Table 4-2 for each class and each length of the queue, and the lanes of this station. -/
theorem waitingClaimIsQueued : Obligations.WaitingClaimIsQueued := by
  intro s st l x k r us ns hf hp hm hqc hl hi h1 h8 hmap hqueue hq hu hn entry queued claim urgentWaits normalWaits
  have ho : (restartSilence s).mode.actual ≠ .off := framed_on hf
  have passes (c : SlotClass) : Passes (claimed st l x k.val c r) (restartSilence s) := .of_absent hmap hqueue
  have hnormal (h : normalWaits) : Behind .normal (restartSilence s) ∨ NoRoom .normal k.val (restartSilence s) :=
    h.imp (fun hne => .inl ⟨rfl, hne⟩) fun hk => ⟨hk, fun hc => nomatch hc⟩
  have hurgent (h : urgentWaits) : Behind .urgent (restartSilence s) ∨ NoRoom .urgent k.val (restartSilence s) :=
    h.imp (fun hne => by
      obtain ⟨w, hw⟩ := List.exists_mem_of_ne_nil _ hne
      exact .inr ⟨rfl, w, by show w ∈ s.alloc.queue; rw [hq]; exact List.mem_append_left _ hw, hu w hw⟩)
      fun ⟨hk, hk'⟩ => ⟨hk, fun _ => hk'⟩
  have ruleNormal (h : normalWaits) := (passes .normal).grantRule_waits (hnormal h)
  have ruleUrgent (h : urgentWaits) := (passes .urgent).grantRule_waits (hurgent h)
  refine ⟨fun hst hlen => ⟨fun hw => ?_, fun hw => ?_⟩, fun hst hlen hw ms e hns => ⟨fun he => ?_, ?_⟩, ?_⟩
  · refine Hears.claim ⟨hf, .inl hp, hl, hi, .inl hst⟩ hm hqc h1 h8
      ((ruleNormal hw).trans ((placeClaim_normal ho hlen rfl).trans (tell_other (by exact hst) _ _))) rfl |>.trans ?_
    rw [← hq]
    rfl
  · exact Hears.claim ⟨hf, .inl hp, hl, hi, .inl hst⟩ hm hqc h1 h8
      ((ruleUrgent hw).trans ((placeClaim_urgent ho hlen rfl hq hu hn).trans (tell_other (by exact hst) _ _))) rfl
  · subst hns
    exact Hears.claim ⟨hf, .inl hp, hl, hi, .inl hst⟩ hm hqc h1 h8 ((ruleUrgent hw).trans
      ((placeClaim_displaces (s := restartSilence s) hlen rfl hq hu hn (tell_other (by exact he) _ _) ho rfl).trans
        (tell_other (by exact hst) _ _))) rfl
  · subst hns
    intro he hmem hs waiting hlane
    let left : State := { restartSilence s with alloc := { s.alloc with queue := us ++ ms } }
    have told := tell_own (s := left) (tellable_member hmem hs) he (.displaced e.val.lane)
    have same := takeNotice_sameBut (.displaced e.val.lane) left
    have htq : (takeNotice (.displaced e.val.lane) left).alloc.queue = us ++ ms := by rw [same.alloc]
    have placed := placeClaim_displaces (e := claimed st l x k.val .urgent r) (s := restartSilence s) hlen rfl hq hu hn told
      (by rw [same.mode]; exact ho) htq
    have hother : st ≠ own (takeNotice (.displaced e.val.lane) left) := by rw [own, same.pins]; exact hst
    refine ⟨_, Hears.claim ⟨hf, .inl hp, hl, hi, .inl hst⟩ hm hqc h1 h8 ((ruleUrgent hw).trans
      (placed.trans (tell_other (by exact hother) _ _))) same.notes, ?_, same.mode, ?_⟩
    · show { (takeNotice (.displaced e.val.lane) left).alloc with queue := us ++ [entry .urgent] ++ ms } = _
      rw [same.alloc]
    · exact takeRemoved_closes (s := left) .displaced hlane
  · intro hst hwon hmem hs hlen hw lane placed
    have rule := (ruleNormal hw).trans (placeClaim_normal ho hlen rfl)
    let waits : State := { restartSilence s with alloc := { s.alloc with queue := s.alloc.queue ++ [entry .normal] } }
    have told := tell_own (s := waits) (tellable_member hmem hs) hst (.queued l (s.alloc.queue.length + 1))
    have placed_as {f : Lane → Lane} (ht : takeQueued l (s.alloc.queue.length + 1) waits = changeLane l f waits) :
        ∃ t, placed t ∧ laneOfState t l = { f lane with changed := true } := by
      refine ⟨_, ⟨Hears.claim ⟨hf, .inl hp, hl, hi, .inr hwon⟩ hm hqc h1 h8 (rule.trans (told.trans ht)) rfl, rfl,
        hasAlert_raise .stream _, ?_, rfl⟩, (laneOfState_changeLane l l f waits).trans (if_pos rfl)⟩
      rw [← hq]
      rfl
    exact ⟨fun hopen hbox => placed_as (takeQueued_opening hopen (claimCondition_left hl hbox)),
      fun hcan => placed_as (takeQueued_cancelling hcan)⟩

end Sys2Proof.Machine
end

section
/-! Grants from FREE slots (O35; R57, R63, R103 to R105), and RESTART (O40; R55, R75, R110). -/

namespace Sys2Proof.Machine

section
variable {s t : State} {e : QueueEntry} {l : LaneNo} {slots : List Slot} {cyc : CycleNo} {n : Slot} {j : Nat}

/-! ## The stream entered by a grant (R41, R63) -/

/-- A claim entered in the lowest FREE slots, its station not yet told. -/
def entered (e : QueueEntry) (s : State) : State :=
  enterStream e.station e.lane e.label e.cls e.ret e.count ((freeSlots s).take e.count) s

/-- The map entry of the part of a stream, newly entered. -/
abbrev QueueEntry.partEntry (e : QueueEntry) (j : Nat) : HeldEntry :=
  { holder := e.station, lane := e.lane, label := e.label, cls := e.cls, ret := e.ret, part := j, count := e.count,
    silence := 0, lastUse := .none, mark := .none }

theorem grant_told (ho : s.mode.actual ≠ .off) (hold : Bool) :
    grant hold e.station e.lane e.label e.cls e.ret e.count s = tell e.station hold
      (.granted e.lane ((freeSlots s).take e.count) s.cycle.cycleNumber) (entered e s) := if_neg ho

/-- A grant whose notice is held enters what any grant enters. -/
theorem entryAt_entered (ho : s.mode.actual ≠ .off) (n : Slot) :
    entryAt (entered e s) n = entryAt (grant true e.station e.lane e.label e.cls e.ret e.count s) n := by
  rw [grant_told ho, tell]
  split <;> rfl

theorem entered_taken (ho : s.mode.actual ≠ .off) (hj : ((freeSlots s).take e.count)[j]? = some n) :
    entryAt (entered e s) n = .held (e.partEntry j) :=
  (entryAt_entered ho n).trans ((grant_grantHeld e ho).taken j n hj)

theorem entered_kept (ho : s.mode.actual ≠ .off) (hn : n ∉ (freeSlots s).take e.count) :
    entryAt (entered e s) n = entryAt s n :=
  (entryAt_entered ho n).trans ((grant_grantHeld e ho).kept n hn)

theorem freeSlots_congr (h : ∀ n, entryAt t n = entryAt s n) : freeSlots t = freeSlots s := by
  simp only [freeSlots, h]

theorem freeSlots_entered (ho : s.mode.actual ≠ .off) : freeSlots (entered e s) = (freeSlots s).drop e.count :=
  (freeSlots_congr (entryAt_entered ho)).trans (grant_grantHeld e ho).freeSlots

theorem entered_mapClean (h : s.MapClean) : (entered e s).MapClean := enterStream_mapClean _ _ _ _ _ _ _ _ h

/-! ## The lane of a granted claim (R103 to R105) -/

theorem takeGranted_opening (h : (laneOfState s l).state = .opening) (hc : claimCondition l s = .sent) :
    takeGranted l slots cyc s = changeLane l (·.toHeld slots cyc) s := by
  simp only [takeGranted, h, hc, if_true]

theorem takeGranted_waiting (h : (laneOfState s l).state = .waiting) :
    takeGranted l slots cyc s = changeLane l (·.toHeld slots cyc) s := by
  simp only [takeGranted, h]

theorem takeGranted_cancelling (h : (laneOfState s l).state = .cancelling) : takeGranted l slots cyc s =
    changeLane l (fun r => { r with slots := slots, position := none, outcome := .granted, grantCycle := cyc }) s := by
  simp only [takeGranted, h]

end

/-- Settles O35: step 4 of Table 4-2, and the lane of this station. -/
theorem claimTakesLowestFreeSlots : Obligations.ClaimTakesLowestFreeSlots := by
  intro s st l x k c w r hf hp hmem hm hq hl hi h1 h8 hk hmap slots granted
  have ho : (restartSilence s).mode.actual ≠ .off := framed_on hf
  have hqc : s.QueueClean := by rw [State.QueueClean, hq]; simp
  let e : QueueEntry := claimed st l x k.val c r
  let placed : State := entered e (restartSilence s)
  have hpass : Passes e (restartSilence s) := by
    refine .of_absent hmap fun v hv => ?_
    rw [show (restartSilence s).alloc.queue = [] from hq] at hv
    cases hv
  have hfirst : ¬Behind c (restartSilence s) := not_behind_of_empty hq
  have hrule : grantRule e w (restartSilence s) = tell st false (.granted l slots s.cycle.cycleNumber) placed :=
    (hpass.grantRule_free hfirst hk w).trans (grant_told ho false)
  have hgranted {y : State} (hy : SameBut placed y) (hbox : y.streams.outbox = s.streams.outbox) :
      granted { y with line := { y.line with wonWindow := false } } := by
    have hentry (n : Slot) : entryAt y n = entryAt placed n := entryAt_congr hy.alloc n
    refine ⟨fun j n hj => (hentry n).trans (entered_taken ho hj), fun n hn => (hentry n).trans (entered_kept ho hn), ?_,
      hy.mode, hy.cycle, ?_, hy.notes, hbox⟩
    · show y.alloc.queue = []
      rw [hy.alloc]
      exact hq
    · show { y.line with wonWindow := false } = _
      rw [hy.line]
      rfl
  refine ⟨fun hst => ?_, fun hst hw hs hopen hbox => ?_, fun hst hw hs hcan => ?_⟩
  · have htold := hrule.trans (tell_other (by exact hst) false _)
    exact ⟨_, Hears.claim ⟨hf, .inl hp, hl, hi, .inl hst⟩ hm hqc h1 h8 htold rfl,
      hgranted ⟨rfl, rfl, rfl, rfl, rfl, rfl⟩ rfl, rfl, rfl⟩
  all_goals
    have htold := hrule.trans (tell_own (s := placed) (tellable_member hmem hs) hst _)
    have hgrant {f : Lane → Lane} (ht : takeGranted l slots s.cycle.cycleNumber placed = changeLane l f placed) :
        ∃ t, exec (.windowEnded (.intact st (.claim l x k c w r))) s = .next t ∧ granted t ∧
          laneOfState t l = { f (laneOfState s l) with changed := true } ∧
          (∀ j, j ≠ l → laneOfState t j = laneOfState s j) ∧ t.HasAlert .stream :=
      ⟨_, Hears.claim ⟨hf, .inl hp, hl, hi, .inr hw⟩ hm hqc h1 h8 (htold.trans ht) rfl,
        hgranted ⟨rfl, rfl, rfl, rfl, rfl, rfl⟩ rfl, (laneOfState_changeLane l l f placed).trans (if_pos rfl),
        fun j hj => (laneOfState_changeLane l j f placed).trans (if_neg hj), hasAlert_raise .stream _⟩
  · exact hgrant (takeGranted_opening hopen (claimCondition_left hl hbox))
  · exact hgrant (takeGranted_cancelling hcan)

section
variable {s : State}

/-! ## RESTART (R75, R110) -/

/-- The tables cleared and the alert set, the Stream Controller not yet told. -/
def restarted (s : State) : State :=
  raise .restart (if s.cycle.phase = .rebuild then toAdopt (clearTables s) else clearTables s)

theorem restarted_frame (s : State) :
    (restarted s).line = s.line ∧ (restarted s).mode = s.mode ∧ (restarted s).streams = s.streams ∧
    (restarted s).notes = s.notes ∧
    (restarted s).cycle = { s.cycle with phase := if s.cycle.phase = .rebuild then .adopt else s.cycle.phase } := by
  unfold restarted
  split <;> exact ⟨rfl, rfl, rfl, rfl, rfl⟩

theorem restarted_tablesEmpty (s : State) : (restarted s).TablesEmpty := by
  have hfree (n : Slot) : ((Table.replicate 48 (Stored.fresh SlotEntry.free)).get n).val = .free := by
    rw [Table.get_replicate]
    rfl
  unfold restarted
  split <;> exact ⟨hfree, rfl⟩

/-- With no message in its window the RESTART notice drops the streams (R110). -/
theorem takeRestart_vacant (hl : s.line.onLine = none) : takeRestart s = dropStreams .restart s := by
  have hw : headInWindow (closeOpenLanes .restart allLanes s) = false := by
    simp only [headInWindow, (closeOpenLanes_frame .restart allLanes s).1, hl]
  simp only [takeRestart, hw, Bool.false_eq_true, if_false, dropStreams, emptyOutbox]

theorem applyRestart_vacant (hm : s.mode.actual ≠ .withdrawing) (hs : s.StreamsClean) (hl : s.line.onLine = none) :
    applyRestart s = dropStreams .restart (restarted s) := by
  obtain ⟨hline, hmode, hstreams, -, -⟩ := restarted_frame s
  have hclean : (restarted s).StreamsClean := by rw [State.StreamsClean, hstreams]; exact hs
  have htake : takeNotice .restart (restarted s) = dropStreams .restart (restarted s) :=
    takeRestart_vacant (by rw [hline, hl])
  have hstays : (takeNotice .restart (restarted s)).mode.actual ≠ .withdrawing := by
    rw [(takeNotice_frame .restart (restarted s)).2.2.1, hmode]
    exact hm
  have hdeliver : deliver .restart (restarted s) = takeNotice .restart (restarted s) := by
    rw [deliver, readStreams_clean _ _ hclean]
    exact exitCheck_idle hstays
  exact hdeliver.trans htake

end

/-- Settles O40. -/
theorem restartClearsEverything : Obligations.RestartClearsEverything := by
  intro s st hf hp hm hs hl hi hst
  obtain ⟨hline, hmode, hstreams, hnotes, hcycle⟩ := restarted_frame (restartSilence s)
  have hempty : (restarted (restartSilence s)).TablesEmpty := restarted_tablesEmpty _
  have halert : (restarted (restartSilence s)).HasAlert .restart := hasAlert_raise .restart _
  have happ : applyMessage st .restart (restartSilence s) = .on (applyRestart (restartSilence s)) := if_neg hp
  rw [applyRestart_vacant (s := restartSilence s) hm hs hl] at happ
  generalize restarted (restartSilence s) = u at *
  have hlane (l : LaneNo) : laneOfState u l = laneOfState s l := by simp only [laneOfState, hstreams]; rfl
  have hdropped (l : LaneNo) := laneOfState_dropStreams .restart u l
  simp only [hlane] at hdropped
  have hidle := dropStreams_idle .restart u
  have halertD := (dropStreams_alertsStay .restart u).stays .restart halert
  obtain ⟨hlineD, hcycleD, hmodeD, hallocD, hnotesD, -⟩ := dropStreams_frame .restart u
  generalize dropStreams .restart u = t at *
  refine ⟨_, execWindowEnded_applied hf hl hi hst (fun _ => by simp) happ (hnotesD.trans hnotes), ⟨fun n => ?_, ?_⟩, ?_, ?_,
    fun l hopen => ?_, fun l hclosed => ?_, hcycleD.trans hcycle, hmodeD.trans hmode, hnotesD.trans hnotes, ?_⟩
  · exact (entryAt_congr hallocD n).trans (hempty.1 n)
  · exact (congrArg AllocationUnit.queue hallocD).trans hempty.2
  · exact halertD
  · exact hidle
  · exact congrArg Lane.outcome ((hdropped l).trans (if_pos hopen))
  · exact (hdropped l).trans (if_neg (not_not.mpr hclosed))
  · show { t.line with wonWindow := false } = _
    rw [hlineD, hline]
    rfl

end Sys2Proof.Machine
end

section
/-! RELEASE and WITHDRAW with the queue service that they run (O39; R57, R70 to R74, R105, R109). -/

namespace Sys2Proof.Machine

section
variable {s t : State} {st : Station} {l : LaneNo} {b : Body} {n : Slot}

/-! ## The slots that a stream leaves (R41) -/

theorem mem_freeSlots : n ∈ freeSlots s ↔ entryAt s n = .free := by
  simp only [freeSlots, allSlots, List.mem_filter, List.mem_finRange, true_and, decide_eq_true_eq]

theorem freeSlots_freeStream (st : Station) (l : LaneNo) (s : State) : freeSlots (freeStream st l s) =
    allSlots.filter fun n => entryAt s n = .free || (entryAt s n).ofStream st l := by
  refine List.filter_congr fun n _ => ?_
  rw [entryAt_freeStream]
  cases hs : (entryAt s n).ofStream st l <;> simp

theorem entryAt_freeStream_kept (hn : n ∉ freeSlots (freeStream st l s)) :
    entryAt (freeStream st l s) n = entryAt s n := by
  rw [mem_freeSlots, entryAt_freeStream] at hn
  rw [entryAt_freeStream]
  split
  · rename_i hof
    exact absurd (if_pos hof) hn
  · rfl

/-- A claim entered in the lowest of the slots `opened`, and the rest of them FREE; every other entry is that of `s`. -/
structure GrantedFrom (opened : List Slot) (e : QueueEntry) (s t : State) : Prop where
  taken : ∀ (j : Nat) (n : Slot), (opened.take e.count)[j]? = some n → entryAt t n = .held (e.partEntry j)
  surplus : ∀ n, n ∈ opened → n ∉ opened.take e.count → entryAt t n = .free
  others : ∀ n, n ∉ opened → entryAt t n = entryAt s n

theorem entered_grantedFrom {opened : List Slot} {e : QueueEntry} (ho : t.mode.actual ≠ .off)
    (hopened : freeSlots t = opened) (hkept : ∀ n, n ∉ opened → entryAt t n = entryAt s n) :
    GrantedFrom opened e s (entered e t) := by
  subst hopened
  exact ⟨fun j n hj => entered_taken ho hj, fun n hn hns => (entered_kept ho hns).trans (mem_freeSlots.mp hn),
    fun n hn => (entered_kept ho fun hns => hn (List.mem_of_mem_take hns)).trans (hkept n hn)⟩

theorem GrantedFrom.congr {opened : List Slot} {e : QueueEntry} {u : State} (h : GrantedFrom opened e s t)
    (halloc : u.alloc = t.alloc) : GrantedFrom opened e s u :=
  ⟨fun j n hj => (entryAt_congr halloc n).trans (h.taken j n hj),
    fun n hn hns => (entryAt_congr halloc n).trans (h.surplus n hn hns),
    fun n hn => (entryAt_congr halloc n).trans (h.others n hn)⟩

/-! ## Steps of queue service (R72) -/

section
variable {e : Stored QueueEntry} {rest : List (Stored QueueEntry)} {hold : Bool}

/-- Nothing waits, or a NORMAL head does not fit: the service is over, whether it sends its notices or holds them. -/
theorem serviceLoop_halts (fuel : Nat) (hm : s.MapClean) (hq : s.QueueClean) (h : NoFit s.alloc.queue (freeSlots s).length) :
    serviceLoop fuel hold s = .on s := by
  cases fuel with
  | zero => rfl
  | succ fuel =>
    unfold serviceLoop
    rw [readQueueHead_clean hq, Course.next_on]
    rcases h with h | ⟨e, es, h, hc, hn⟩
    · simp only [h]
    · have hpre : preemptable e.val.cls e.val.count s = false := by simp [preemptable, hc]
      simp only [h, readMap_clean hm, Course.next_on, Nat.not_le.mpr hn, if_false, hpre, Bool.false_eq_true]

/-- A head that fits is granted the lowest FREE slots and its station told, and the service goes on. -/
theorem serviceLoop_grants (fuel : Nat) (ho : s.mode.actual ≠ .off) (hm : s.MapClean) (hq : s.QueueClean)
    (h : s.alloc.queue = e :: rest) (hfit : e.val.count ≤ (freeSlots s).length) :
    serviceLoop (fuel + 1) hold s = serviceLoop fuel hold (tell e.val.station hold
      (.granted e.val.lane ((freeSlots s).take e.val.count) s.cycle.cycleNumber)
      (entered e.val { s with alloc := { s.alloc with queue := rest } })) := by
  rw [serviceLoop, readQueueHead_clean hq, Course.next_on]
  simp only [h, readMap_clean hm, Course.next_on, hfit, if_true]
  exact congrArg _ (grant_told (s := { s with alloc := { s.alloc with queue := rest } }) ho hold)

/-- Queue service that grants its one entry; `t` is the station with that entry's station told. -/
theorem service_grantsOne (ho : s.mode.actual ≠ .off) (hm : s.MapClean) (hq : s.QueueClean) (h : s.alloc.queue = [e])
    (hfit : e.val.count ≤ (freeSlots s).length)
    (ht : tell e.val.station hold (.granted e.val.lane ((freeSlots s).take e.val.count) s.cycle.cycleNumber)
      (entered e.val { s with alloc := { s.alloc with queue := [] } }) = t)
    (halloc : t.alloc = (entered e.val { s with alloc := { s.alloc with queue := [] } }).alloc) :
    service hold s = .on t := by
  have hempty : t.alloc.queue = [] := by rw [halloc]; rfl
  have hmap : t.MapClean := by
    rw [State.MapClean, halloc]
    exact entered_mapClean (s := { s with alloc := { s.alloc with queue := [] } }) hm
  have hqueue : t.QueueClean := by rw [State.QueueClean, hempty]; simp
  unfold service
  rw [serviceLoop_grants _ ho hm hq h hfit, ht]
  exact serviceLoop_halts _ hmap hqueue (.inl hempty)

end

/-! ## RELEASE and WITHDRAW heard (R55, R70, R71) -/

theorem applyRelease_none (hm : s.MapClean) (h : ¬InMap st l s) : applyRelease st l s = .on s := by
  rw [applyRelease, readMap_clean hm, Course.next_on, if_pos (streamSlots_isEmpty.mpr h)]

theorem applyRelease_stream (hm : s.MapClean) (h : InMap st l s) :
    applyRelease st l s = service false (tell st false (.released l) (freeStream st l s)) := by
  rw [applyRelease, readMap_clean hm, Course.next_on, if_neg (mt streamSlots_isEmpty.mp (not_not.mpr h))]

theorem applyWithdraw_none (hm : s.MapClean) (hq : s.QueueClean) (h : ¬InMap st l s) (hw : ¬InQueue st l s) :
    applyWithdraw st l s = .on s := by
  simp only [applyWithdraw, readQueue_clean hq, Course.next_on, queuedAt_none hw, readMap_clean hm,
    if_pos (streamSlots_isEmpty.mpr h)]

theorem applyWithdraw_stream (hm : s.MapClean) (hq : s.QueueClean) (h : InMap st l s) (hw : ¬InQueue st l s) :
    applyWithdraw st l s = service false (tell st false (.cancelled l) (freeStream st l s)) := by
  simp only [applyWithdraw, readQueue_clean hq, Course.next_on, queuedAt_none hw, readMap_clean hm,
    if_neg (mt streamSlots_isEmpty.mp (not_not.mpr h))]

/-- A WITHDRAW takes the entry that it names out of the queue; those behind it move forward (R71, R81). -/
theorem applyWithdraw_entry (hq : s.QueueClean) {as bs : List (Stored QueueEntry)} {e : Stored QueueEntry}
    (h : s.alloc.queue = as ++ e :: bs) (he : e.val.station = st ∧ e.val.lane = l)
    (has : ∀ v ∈ as, ¬(v.val.station = st ∧ v.val.lane = l)) : applyWithdraw st l s =
      service false (tell st false (.cancelled l) { s with alloc := { s.alloc with queue := as ++ bs } }) := by
  have hat : queuedAt st l s = some as.length := by
    rw [queuedAt, h]
    exact findIdx?_behind (fun v hv => by simpa using has v hv) (by simp [he])
  have hremoved : removeQueued as.length s = { s with alloc := { s.alloc with queue := as ++ bs } } := by
    rw [removeQueued, h, List.eraseIdx_append_of_length_le le_rfl]
    simp
  simp only [applyWithdraw, readQueue_clean hq, Course.next_on, hat, hremoved]

theorem Hears.release (h : Hears st s) (ht : applyRelease st l (restartSilence s) = .on t) (hn : t.notes = s.notes) :
    exec (.windowEnded (.intact st (.release l))) s = .next { t with line := { t.line with wonWindow := false } } := by
  refine execWindowEnded_applied h.framed h.vacant h.idle h.sender (fun _ => by simp) ?_ hn
  rw [← ht]
  exact if_pos (applies_iff.mpr h.phase)

theorem Hears.withdraw (h : Hears st s) (ht : applyWithdraw st l (restartSilence s) = .on t) (hn : t.notes = s.notes) :
    exec (.windowEnded (.intact st (.withdraw l))) s = .next { t with line := { t.line with wonWindow := false } } := by
  refine execWindowEnded_applied h.framed h.vacant h.idle h.sender (fun _ => by simp) ?_ hn
  rw [← ht]
  exact if_pos (applies_iff.mpr h.phase)

/-- The message that ends a stream of the map, with the notice to its holder: a RELEASE, or a WITHDRAW that names no entry of
the queue (R70, R71). -/
def Ends (st : Station) (l : LaneNo) (s : State) (b : Body) (n : Notice) : Prop :=
  b = .release l ∧ n = .released l ∨ b = .withdraw l ∧ n = .cancelled l ∧ ¬InQueue st l s

/-- A stream ended: freed in full, its holder told, and the queue served. -/
theorem Hears.ends (h : Hears st s) (hm : s.MapClean) (hq : s.QueueClean) (hin : InMap st l s) {n : Notice}
    (hb : Ends st l s b n) (ht : service false (tell st false n (freeStream st l (restartSilence s))) = .on t)
    (hn : t.notes = s.notes) :
    exec (.windowEnded (.intact st b)) s = .next { t with line := { t.line with wonWindow := false } } := by
  rcases hb with ⟨rfl, rfl⟩ | ⟨rfl, rfl, hw⟩
  · exact h.release ((applyRelease_stream (s := restartSilence s) hm hin).trans ht) hn
  · exact h.withdraw ((applyWithdraw_stream (s := restartSilence s) hm hq hin hw).trans ht) hn

/-! ## The lane of an ended stream (R109) -/

/-- What a lane that enters CLOSED shows (R113). -/
structure ClosesLane (l : LaneNo) (o : StreamOutcome) (s t : State) : Prop where
  alert : t.HasAlert .stream
  flushed : t.lanes.txFifo.get l = []
  lane : laneOfState t l = (laneOfState s l).closedWith o
  others : ∀ j, j ≠ l → laneOfState t j = laneOfState s j

theorem closeLane_closesLane (l : LaneNo) (o : StreamOutcome) (s : State) : ClosesLane l o s (closeLane l o s) where
  alert := hasAlert_raise .stream _
  flushed := Table.get_set_self ..
  lane := (laneOfState_closeLane l l o s).trans (if_pos rfl)
  others j hj := (laneOfState_closeLane l j o s).trans (if_neg hj)

/-! ## The station that hears the end of a stream or an entry -/

/-- The slots FREE once a stream is freed. -/
abbrev openedBy (st : Station) (l : LaneNo) (s : State) : List Slot :=
  allSlots.filter fun n => entryAt s n = .free || (entryAt s n).ofStream st l

/-- The tables with a stream freed and the queue replaced, at a station that has heard an intact message (R14, R41). -/
def freedWith (st : Station) (l : LaneNo) (q : List (Stored QueueEntry)) (s : State) : State :=
  { freeStream st l (restartSilence s) with alloc := { (freeStream st l s).alloc with queue := q } }

theorem freeSlots_freedWith (q : List (Stored QueueEntry)) : freeSlots (freedWith st l q s) = openedBy st l s :=
  freeSlots_freeStream st l s

theorem freedWith_mapClean (hm : s.MapClean) (q : List (Stored QueueEntry)) : (freedWith st l q s).MapClean :=
  freeStream_mapClean st l s hm

/-- One entry waits and fits: with the stream of another station freed it is granted its lowest slots; `t` is the station with
the entry's station told. -/
theorem Hears.ends_grants (h : Hears st s) (hm : s.MapClean) (hq : s.QueueClean) (hst : st ≠ own s) (hin : InMap st l s)
    {n : Notice} (hb : Ends st l s b n) {e : Stored QueueEntry} (hqe : s.alloc.queue = [e])
    (hfit : e.val.count ≤ (openedBy st l s).length)
    (ht : tell e.val.station false (.granted e.val.lane ((openedBy st l s).take e.val.count) s.cycle.cycleNumber)
      (entered e.val (freedWith st l [] s)) = t) (hsame : SameBut (entered e.val (freedWith st l [] s)) t) :
    exec (.windowEnded (.intact st b)) s = .next { t with line := { t.line with wonWindow := false } } ∧
    GrantedFrom (openedBy st l s) e.val s t := by
  have ho : (freedWith st l [] s).mode.actual ≠ .off := framed_on h.framed
  have hfree : freeSlots (freeStream st l (restartSilence s)) = openedBy st l s := freeSlots_freeStream st l s
  have hserved : service false (tell st false n (freeStream st l (restartSilence s))) = .on t := by
    rw [tell_other (by exact hst)]
    refine service_grantsOne ho (freeStream_mapClean st l (restartSilence s) hm) hq hqe (by rw [hfree]; exact hfit) ?_
      hsame.alloc
    rw [hfree]
    exact ht
  refine ⟨h.ends hm hq hin hb hserved (hsame.notes.trans rfl), GrantedFrom.congr ?_ hsame.alloc⟩
  exact entered_grantedFrom ho (freeSlots_freedWith []) fun n hn =>
    entryAt_freeStream_kept (by rw [freeSlots_freeStream]; exact hn)

/-- The station's own stream ended with its lane, and nothing waits (R109). -/
theorem Hears.ends_own (h : Hears st s) (hm : s.MapClean) (hq : s.alloc.queue = []) (hst : st = own s) (hs : Tellable s)
    (hin : InMap st l s) {n : Notice} (hb : Ends st l s b n) {o : StreamOutcome}
    (htake : takeNotice n (freeStream st l (restartSilence s)) = closeLane l o (freeStream st l (restartSilence s))) :
    ∃ t, exec (.windowEnded (.intact st b)) s = .next t ∧ t.alloc = (freeStream st l s).alloc ∧ ClosesLane l o s t ∧
      t.mode = s.mode ∧ t.streams.outbox = s.streams.outbox := by
  have hclean : s.QueueClean := by rw [State.QueueClean, hq]; simp
  have htell : Tellable (freeStream st l (restartSilence s)) := ⟨hs.stays, hs.clean⟩
  have hserved : service false (tell st false n (freeStream st l (restartSilence s))) =
      .on (closeLane l o (freeStream st l (restartSilence s))) := by
    rw [tell_own htell hst, htake]
    exact service_empty (s := closeLane l o (freeStream st l (restartSilence s))) hq false
  obtain ⟨halert, hflushed, hlane, hothers⟩ := closeLane_closesLane l o (freeStream st l (restartSilence s))
  exact ⟨_, h.ends hm hclean hin hb hserved rfl, rfl, ⟨halert, hflushed, hlane, hothers⟩, rfl, rfl⟩

/-- The station's own entry withdrawn, the only one that waits (R71, R109). -/
theorem Hears.withdraw_own (h : Hears st s) (hq : s.QueueClean) (hst : st = own s) (hs : Tellable s)
    (hcan : (laneOfState s l).state = .cancelling) {e : Stored QueueEntry} (hqe : s.alloc.queue = [e])
    (he : e.val.station = st ∧ e.val.lane = l) :
    ∃ t, exec (.windowEnded (.intact st (.withdraw l))) s = .next t ∧ t.alloc = { s.alloc with queue := [] } ∧
      ClosesLane l .cancelled s t ∧ t.mode = s.mode := by
  let left : State := { restartSilence s with alloc := { s.alloc with queue := [] } }
  have htell : Tellable left := ⟨hs.stays, hs.clean⟩
  have htake : takeNotice (.cancelled l) left = closeLane l .cancelled left := if_pos hcan
  have hserved : applyWithdraw st l (restartSilence s) = .on (closeLane l .cancelled left) := by
    rw [applyWithdraw_entry (s := restartSilence s) (as := []) (bs := []) hq hqe he (by simp)]
    refine (congrArg (service false) ((tell_own htell hst _).trans htake)).trans ?_
    exact service_empty (s := closeLane l .cancelled left) rfl false
  obtain ⟨halert, hflushed, hlane, hothers⟩ := closeLane_closesLane l .cancelled left
  exact ⟨_, h.withdraw hserved rfl, rfl, ⟨halert, hflushed, hlane, hothers⟩, rfl⟩

end

/-- Settles O39: the tables without the stream or the entry, then the queue service, then the lanes of this station. -/
theorem releaseAndWithdrawServeTheQueue : Obligations.ReleaseAndWithdrawServeTheQueue := by
  intro s st l hf hp hmem hm hq hl hi ends heard isStream waiting freed opened closedAs noFit
  have hears (h : st ≠ own s ∨ s.line.wonWindow = true) : Hears st s := ⟨hf, .inl hp, hl, hi, h⟩
  have hfreed {t : State} (ht : t.alloc = (freeStream st l s).alloc) : freed t := fun n =>
    (entryAt_congr ht n).trans (entryAt_freeStream st l s n)
  have hends {b : Body} (hb : b = .release l ∨ b = .withdraw l ∧ ¬waiting) : ∃ n, Ends st l s b n := by
    rcases hb with rfl | ⟨rfl, hnw⟩
    · exact ⟨_, .inl ⟨rfl, rfl⟩⟩
    · exact ⟨_, .inr ⟨rfl, rfl, hnw⟩⟩
  refine ⟨fun hst => ⟨fun hno => ?_, fun hno hnw => ?_, fun hin hfit b hb => ?_, fun as e bs hqe hest hel has hfit => ?_⟩,
    fun e hst hin hqe hfit hid => ?_, fun hst hw hs hqe hin => ⟨fun hclosing => ?_, fun hcan => ?_⟩,
    fun hst hw hs hcan e hqe hest hel => ?_⟩
  · exact (hears (.inl hst)).release (applyRelease_none (s := restartSilence s) hm hno) rfl
  · exact (hears (.inl hst)).withdraw (applyWithdraw_none (s := restartSilence s) hm hq hno hnw) rfl
  · obtain ⟨n, hn⟩ := hends hb
    have hserved : service false (tell st false n (freeStream st l (restartSilence s))) =
        .on (freeStream st l (restartSilence s)) := by
      rw [tell_other (by exact hst)]
      refine serviceLoop_halts _ (freeStream_mapClean st l (restartSilence s) hm) hq ?_
      rw [freeSlots_freeStream]
      exact hfit
    exact ⟨_, (hears (.inl hst)).ends hm hq hin hn hserved rfl, hfreed rfl, rfl⟩
  · have hserved : applyWithdraw st l (restartSilence s) =
        .on { restartSilence s with alloc := { s.alloc with queue := as ++ bs } } := by
      rw [applyWithdraw_entry (s := restartSilence s) hq hqe ⟨hest, hel⟩ has, tell_other (by exact hst)]
      refine serviceLoop_halts _ hm (fun v hv => hq v ?_) hfit
      rw [hqe]
      exact ((List.sublist_cons_self e bs).append_left as).subset hv
    exact (hears (.inl hst)).withdraw hserved rfl
  · intro slots granted b hb
    have hnw : ¬waiting := by
      rintro ⟨v, hv, hid'⟩
      rw [hqe, List.mem_singleton] at hv
      exact hid (hv ▸ hid')
    obtain ⟨n, hn⟩ := hends (hb.imp_right fun h => ⟨h, hnw⟩)
    have hgrants {t : State} := (hears (.inl hst)).ends_grants (t := t) hm hq hst hin hn hqe hfit
    refine ⟨fun he => ?_, fun he hs hwait => ?_⟩
    · obtain ⟨hexec, htaken, hsurplus, hothers⟩ := hgrants (tell_other (by exact he) _ _) ⟨rfl, rfl, rfl, rfl, rfl, rfl⟩
      exact ⟨_, hexec, ⟨rfl, htaken, hsurplus, hothers, rfl, rfl, rfl, rfl⟩, rfl⟩
    · have htold := (tell_own (s := entered e.val (freedWith st l [] s)) (tellable_member hmem hs) he
        (.granted e.val.lane slots s.cycle.cycleNumber)).trans (takeGranted_waiting hwait)
      obtain ⟨hexec, htaken, hsurplus, hothers⟩ := hgrants htold ⟨rfl, rfl, rfl, rfl, rfl, rfl⟩
      exact ⟨_, hexec, ⟨rfl, htaken, hsurplus, hothers, rfl, rfl, rfl, rfl⟩, hasAlert_raise .stream _,
        (laneOfState_changeLane _ _ _ (entered e.val (freedWith st l [] s))).trans (if_pos rfl)⟩
  · obtain ⟨t, hexec, halloc, ⟨halert, hflushed, hlane, hothers⟩, hmode, hbox⟩ := (hears (.inr hw)).ends_own hm hqe hst
      (tellable_member hmem hs) hin (b := .release l) (.inl ⟨rfl, rfl⟩) (if_pos hclosing)
    exact ⟨t, hexec, hfreed halloc, ⟨halert, hflushed, hlane, hothers⟩, hmode, hbox,
      (congrArg AllocationUnit.queue halloc).trans hqe⟩
  · have hnw : ¬InQueue st l s := by
      rintro ⟨v, hv, -⟩
      rw [hqe] at hv
      cases hv
    obtain ⟨t, hexec, halloc, ⟨halert, hflushed, hlane, hothers⟩, hmode, hbox⟩ := (hears (.inr hw)).ends_own hm hqe hst
      (tellable_member hmem hs) hin (b := .withdraw l) (.inr ⟨rfl, rfl, hnw⟩) (if_pos hcan)
    exact ⟨t, hexec, hfreed halloc, ⟨halert, hflushed, hlane, hothers⟩, hmode, hbox,
      (congrArg AllocationUnit.queue halloc).trans hqe⟩
  · obtain ⟨t, hexec, halloc, ⟨halert, hflushed, hlane, hothers⟩, hmode⟩ := (hears (.inr hw)).withdraw_own hq hst
      (tellable_member hmem hs) hcan hqe ⟨hest, hel⟩
    exact ⟨t, hexec, halloc, ⟨halert, hflushed, hlane, hothers⟩, hmode⟩

end Sys2Proof.Machine
end

section
/-! The stream that pre-emption revokes, and how one revocation after another makes room (R42, R64, R65). -/

namespace Sys2Proof.Machine

section
variable {s : State} {h g v : HeldEntry} {st : Station} {l : LaneNo} {n : Slot} {k : Nat}

/-! ## The victim (R42, R64) -/

/-- The NORMAL entry of a slot. -/
def normalAt (s : State) (n : Slot) : Option HeldEntry := (entryAt s n).fields.filter fun h => h.cls = .normal

theorem normalAt_eq_some : normalAt s n = some v ↔ entryAt s n = .held v ∧ v.cls = .normal := by
  rw [normalAt, Option.filter_eq_some_iff, decide_eq_true_eq]
  refine and_congr_left fun _ => ?_
  cases entryAt s n <;> simp [SlotEntry.fields]

theorem normalEntries_eq (s : State) :
    ((heldEntries s).filter fun h => h.cls = .normal) = allSlots.filterMap (normalAt s) :=
  List.filter_filterMap

/-- The victim stands in the highest slot with a NORMAL entry. -/
theorem victim_highest (hv : victim s = some v) : ∃ n, normalAt s n = some v ∧ ∀ m, n < m → normalAt s m = none := by
  rw [victim, normalEntries_eq, List.getLast?_filterMap, List.findSome?_eq_some_iff] at hv
  obtain ⟨above, n, below, hsplit, hn, habove⟩ := hv
  refine ⟨n, hn, fun m hm => habove m ?_⟩
  have hsorted : (allSlots.reverse).Pairwise (· > ·) := List.pairwise_reverse.mpr (List.pairwise_lt_finRange 48)
  have hmem : m ∈ allSlots.reverse := List.mem_reverse.mpr (List.mem_finRange m)
  rw [hsplit] at hsorted hmem
  have hbelow := (List.pairwise_cons.mp (List.pairwise_append.mp hsorted).2.1).1
  rcases List.mem_append.mp hmem with hmem | hmem
  · exact hmem
  · rcases List.mem_cons.mp hmem with rfl | hmem
    · exact absurd hm (lt_irrefl _)
    · exact absurd hm (not_lt.mpr (hbelow m hmem).le)

theorem normalAt_of_no_victim (hv : victim s = none) (n : Slot) : normalAt s n = none := by
  rw [victim, normalEntries_eq, List.getLast?_filterMap, List.findSome?_eq_none_iff] at hv
  exact hv n (List.mem_reverse.mpr (List.mem_finRange n))

/-- A NORMAL stream of the map whose entries agree, `h` being one of them. -/
abbrev NormalStream (h : HeldEntry) (s : State) : Prop :=
  h.cls = .normal ∧ (∃ n, entryAt s n = .held h) ∧
  ∀ n g, entryAt s n = .held g → g.holder = h.holder → g.lane = h.lane →
    g.cls = h.cls ∧ g.label = h.label ∧ g.count = h.count ∧ g.ret = h.ret

/-- No NORMAL entry stands above the stream but in the slots left out. -/
abbrev Highest (h : HeldEntry) (out : Slot → Prop) (s : State) : Prop :=
  ∀ n g, entryAt s n = .held g → g.cls = .normal → ¬out n → ∃ m, n ≤ m ∧ (entryAt s m).ofStream h.holder h.lane = true

theorem ofStream_iff : (entryAt s n).ofStream st l = true ↔ ∃ g, entryAt s n = .held g ∧ g.holder = st ∧ g.lane = l := by
  cases hn : entryAt s n with
  | free => simp [SlotEntry.ofStream]
  | held g => simp [ofStream_held]

/-- The stream that holds the highest NORMAL slot is the victim: the entry found differs from `h` in its part and its silence at
most. -/
theorem NormalStream.victim (hs : NormalStream h s) (hh : Highest h (fun _ => False) s) :
    ∃ v, victim s = some v ∧ v.requeued = h.requeued ∧ v.ret = h.ret := by
  obtain ⟨hcls, ⟨n, hn⟩, hsame⟩ := hs
  cases hv : Machine.victim s with
  | none =>
    have hnone := normalAt_of_no_victim hv n
    rw [normalAt_eq_some.mpr ⟨hn, hcls⟩] at hnone
    cases hnone
  | some v =>
    obtain ⟨top, htop, habove⟩ := victim_highest hv
    obtain ⟨hentry, hnormal⟩ := normalAt_eq_some.mp htop
    obtain ⟨m, hle, hm⟩ := hh top v hentry hnormal id
    obtain ⟨g, hg, hholder, hlane⟩ := ofStream_iff.mp hm
    have hgcls : g.cls = .normal := (hsame m g hg hholder hlane).1.trans hcls
    have hat : top = m := by
      by_contra hne
      have hnone := habove m (lt_of_le_of_ne hle hne)
      rw [normalAt_eq_some.mpr ⟨hg, hgcls⟩] at hnone
      cases hnone
    have hgv : g = v := by
      rw [← hat, hentry] at hg
      cases hg
      rfl
    obtain ⟨-, hlabel, hcount, hret⟩ := hsame m g hg hholder hlane
    refine ⟨v, rfl, ?_, hgv ▸ hret⟩
    rw [← hgv, HeldEntry.requeued, hholder, hlane, hlabel, hcount, HeldEntry.requeued]

/-! ## A stream revoked (R65) -/

/-- The queue behind which a revoked stream stands, with the stream where it is requeued. -/
def returnedTo (h : HeldEntry) (q : List (Stored QueueEntry)) : List (Stored QueueEntry) :=
  if h.ret = true ∧ q.length < 16 then q ++ [.fresh h.requeued] else q

/-- The position that the REVOKED notice carries. -/
def returnPlace (h : HeldEntry) (q : List (Stored QueueEntry)) : Option Nat :=
  if h.ret = true ∧ q.length < 16 then some (q.length + 1) else none

/-- A stream revoked, its holder not yet told. -/
def revoked (h : HeldEntry) (s : State) : State :=
  { freeStream h.holder h.lane s with
    alloc := { (freeStream h.holder h.lane s).alloc with queue := returnedTo h s.alloc.queue } }

theorem revoke_told (hold : Bool) (h : HeldEntry) (s : State) : revoke hold h s =
    tell h.holder hold (.revoked h.lane (returnPlace h s.alloc.queue)) (revoked h s) := by
  have hroom : (h.ret && decide ((freeStream h.holder h.lane s).alloc.queue.length < Config.queueRoom)) = true ↔
      h.ret = true ∧ s.alloc.queue.length < 16 := by
    rw [Bool.and_eq_true, decide_eq_true_eq]
    exact Iff.rfl
  unfold revoke revoked returnPlace returnedTo
  dsimp only
  by_cases hret : h.ret = true ∧ s.alloc.queue.length < 16
  · rw [if_pos (hroom.mpr hret), if_pos hret, if_pos hret, List.length_append]
    rfl
  · rw [if_neg (mt hroom.mp hret), if_neg hret, if_neg hret]
    rfl

theorem revoke_congr (hold : Bool) (hreq : v.requeued = h.requeued) (hret : v.ret = h.ret) :
    revoke hold v s = revoke hold h s := by
  have hholder : v.holder = h.holder := congrArg QueueEntry.station hreq
  have hlane : v.lane = h.lane := congrArg QueueEntry.lane hreq
  simp only [revoke_told, revoked, returnPlace, returnedTo, hreq, hret, hholder, hlane]

theorem returnedTo_clean {q : List (Stored QueueEntry)} (hq : ∀ w ∈ q, w.health = .clean) :
    ∀ w ∈ returnedTo h q, w.health = .clean := by
  unfold returnedTo
  split
  · intro w hw
    rcases List.mem_append.mp hw with hw | hw
    · exact hq w hw
    · rw [List.mem_singleton.mp hw]
      rfl
  · exact hq

theorem freeSlots_revoked (h : HeldEntry) (s : State) : freeSlots (revoked h s) = openedBy h.holder h.lane s :=
  freeSlots_freeStream h.holder h.lane s

theorem entryAt_revoked_kept (hn : n ∉ openedBy h.holder h.lane s) : entryAt (revoked h s) n = entryAt s n :=
  entryAt_freeStream_kept (st := h.holder) (l := h.lane) (by rw [freeSlots_freeStream]; exact hn)

/-- Behind nothing, a revoked stream waits on where the FREE slots are fewer than it needs. -/
theorem returnedTo_nil_noFit (hk : k < h.count) : NoFit (returnedTo h []) k := by
  unfold returnedTo
  split
  · exact .inr ⟨_, _, rfl, rfl, hk⟩
  · exact .inl rfl

theorem returnedTo_singleton (h : HeldEntry) (w : Stored QueueEntry) : returnedTo h [w] = w :: returnedTo h [] := by
  by_cases hret : h.ret = true <;> simp [returnedTo, hret]

theorem returnedTo_cons (h : HeldEntry) (w : Stored QueueEntry) (q : List (Stored QueueEntry)) :
    ∃ q', returnedTo h (w :: q) = w :: q' := by
  unfold returnedTo
  split
  · exact ⟨_, List.cons_append⟩
  · exact ⟨_, rfl⟩

/-! ## Room made (R64) -/

theorem preempt_enough {hold : Bool} (fuel : Nat) (hk : k ≤ (freeSlots s).length) : preempt fuel hold k s = s := by
  cases fuel with
  | zero => rfl
  | succ fuel => rw [preempt, if_pos hk]

theorem preempt_revokes {hold : Bool} (fuel : Nat) (hs : NormalStream h s) (hh : Highest h (fun _ => False) s)
    (hk : (freeSlots s).length < k) : preempt (fuel + 1) hold k s = preempt fuel hold k (revoke hold h s) := by
  obtain ⟨v, hv, hreq, hret⟩ := hs.victim hh
  rw [preempt, if_neg (not_le.mpr hk), hv]
  exact congrArg _ (revoke_congr hold hreq hret)

/-- The slots of a stream, added to the FREE ones. -/
theorem length_openedBy (st : Station) (l : LaneNo) (s : State) :
    (openedBy st l s).length = (freeSlots s).length + (streamSlots st l s).length := by
  have hfree : (openedBy st l s).filter (fun n => entryAt s n = .free) = freeSlots s := by
    rw [openedBy, List.filter_filter]
    refine List.filter_congr fun n _ => ?_
    cases hn : entryAt s n <;> simp
  have hheld : (openedBy st l s).filter (fun n => !decide (entryAt s n = .free)) = streamSlots st l s := by
    rw [openedBy, List.filter_filter]
    refine List.filter_congr fun n _ => ?_
    cases hn : entryAt s n <;> simp [SlotEntry.ofStream]
  rw [← hfree, ← hheld]
  exact List.length_eq_length_filter_add _

/-- The slots of a NORMAL stream count in the NORMAL total (R42). -/
theorem NormalStream.length_le (hs : NormalStream h s) : (streamSlots h.holder h.lane s).length ≤ normalTotal s := by
  rw [normalTotal, normalEntries_eq, List.length_filterMap_eq_countP, streamSlots, ← List.countP_eq_length_filter]
  refine List.countP_mono_left fun n _ hn => ?_
  obtain ⟨g, hg, hholder, hlane⟩ := ofStream_iff.mp hn
  rw [normalAt_eq_some.mpr ⟨hg, (hs.2.2 n g hg hholder hlane).1.trans hs.1⟩]
  rfl

/-! ## Other streams while one is freed -/

theorem ofStream_freed (hne : ¬(h.holder = st ∧ h.lane = l)) (n : Slot) :
    (entryAt (freeStream st l s) n).ofStream h.holder h.lane = (entryAt s n).ofStream h.holder h.lane := by
  rw [entryAt_freeStream]
  split
  · rename_i hof
    obtain ⟨g, hg, hholder, hlane⟩ := ofStream_iff.mp hof
    rw [hg, eq_comm, SlotEntry.ofStream, ← Bool.not_eq_true, ofStream_held]
    rintro ⟨ho, hl⟩
    exact hne ⟨ho.symm.trans hholder, hl.symm.trans hlane⟩
  · rfl

theorem streamSlots_freed (hne : ¬(h.holder = st ∧ h.lane = l)) :
    streamSlots h.holder h.lane (freeStream st l s) = streamSlots h.holder h.lane s :=
  List.filter_congr fun n _ => ofStream_freed hne n

theorem entryAt_freed_held (hn : entryAt (freeStream st l s) n = .held g) :
    entryAt s n = .held g ∧ ¬(entryAt s n).ofStream st l = true := by
  rw [entryAt_freeStream] at hn
  split at hn
  · cases hn
  · rename_i hof
    exact ⟨hn, hof⟩

theorem NormalStream.freed (hs : NormalStream h s) (hne : ¬(h.holder = st ∧ h.lane = l)) :
    NormalStream h (freeStream st l s) := by
  obtain ⟨hcls, ⟨n, hn⟩, hsame⟩ := hs
  refine ⟨hcls, ⟨n, ?_⟩, fun m g hg => hsame m g (entryAt_freed_held hg).1⟩
  rw [entryAt_freeStream, if_neg, hn]
  rw [hn, ofStream_held]
  exact hne

theorem Highest.freed (hh : Highest h (fun n => (entryAt s n).ofStream st l = true) s)
    (hne : ¬(h.holder = st ∧ h.lane = l)) : Highest h (fun _ => False) (freeStream st l s) := by
  intro n g hg hcls _
  obtain ⟨hg, hof⟩ := entryAt_freed_held hg
  obtain ⟨m, hle, hm⟩ := hh n g hg hcls hof
  exact ⟨m, hle, by rw [ofStream_freed hne, hm]⟩

/-- The slots FREE once the stream of an identity and the stream of an entry are freed. -/
abbrev roomOf (h : HeldEntry) (st : Station) (l : LaneNo) (s : State) : List Slot :=
  allSlots.filter fun n => entryAt s n = .free || (entryAt s n).ofStream st l || (entryAt s n).ofStream h.holder h.lane

theorem openedBy_freed (hne : ¬(h.holder = st ∧ h.lane = l)) :
    openedBy h.holder h.lane (freeStream st l s) = roomOf h st l s := by
  refine List.filter_congr fun n _ => ?_
  rw [ofStream_freed hne, entryAt_freeStream]
  cases hof : (entryAt s n).ofStream st l <;> simp

theorem entryAt_freed_kept (hn : n ∉ roomOf h st l s) :
    entryAt (freeStream h.holder h.lane (freeStream st l s)) n = entryAt s n := by
  simp only [roomOf, List.mem_filter, allSlots, List.mem_finRange, true_and, Bool.or_eq_true, not_or] at hn
  obtain ⟨⟨-, hfirst⟩, hsecond⟩ := hn
  have hkept : entryAt (freeStream st l s) n = entryAt s n := by rw [entryAt_freeStream, if_neg hfirst]
  rw [entryAt_freeStream, hkept, if_neg hsecond]

/-! ## Two grants, one after the other -/

/-- After a second claim is entered in what the first has left. -/
theorem GrantedFrom.next {y z : State} {room : List Slot} {e f : QueueEntry} (hr : room.Nodup)
    (hy : GrantedFrom room e s y) (hz : GrantedFrom (room.drop e.count) f y z) :
    (∀ (j : Nat) (n : Slot), (room.take e.count)[j]? = some n → entryAt z n = .held (e.partEntry j)) ∧
    (∀ (j : Nat) (n : Slot), ((room.take (e.count + f.count)).drop e.count)[j]? = some n →
      entryAt z n = .held (f.partEntry j)) ∧
    (∀ n, n ∈ room → n ∉ room.take (e.count + f.count) → entryAt z n = .free) ∧
    (∀ n, n ∉ room → entryAt z n = entryAt s n) := by
  have hdisj := List.disjoint_take_drop hr (Nat.le_refl e.count)
  refine ⟨fun j n hj => ?_, fun j n hj => hz.taken j n ?_, fun n hn hns => ?_, fun n hn => ?_⟩
  · exact (hz.others n (hdisj (List.mem_of_getElem? hj))).trans (hy.taken j n hj)
  · rwa [List.drop_take, Nat.add_sub_cancel_left] at hj
  · rw [List.take_add, List.mem_append, not_or] at hns
    rw [← List.take_append_drop e.count room, List.mem_append] at hn
    exact hz.surplus n (hn.resolve_left hns.1) hns.2
  · exact (hz.others n fun hd => hn (List.mem_of_mem_drop hd)).trans (hy.others n hn)

end

end Sys2Proof.Machine
end

section
/-! Pre-emption by an URGENT claim and by an URGENT head in queue service (O36; R63 to R65, R70, R72, R74, R106). -/

namespace Sys2Proof.Machine

section
variable {s : State} {h g : HeldEntry} {st : Station} {l : LaneNo} {x : Label} {k : Fin 16} {w r : Bool}

/-! ## The lane of a revoked stream (R106) -/

/-- What REVOKED makes of a lane with slots, `place` being the position where the stream is requeued. -/
structure RevokedLane (l : LaneNo) (place : Option Nat) (s t : State) : Prop where
  alert : t.HasAlert .stream
  others : ∀ j, j ≠ l → laneOfState t j = laneOfState s j
  held : ∀ p, place = some p → (laneOfState s l).state = .held → laneOfState t l = { laneOfState s l with
    state := .waiting, slots := [], position := some p, outcome := .requeued, changed := true } ∧
    t.streams.outbox = s.streams.outbox
  closing : ∀ p, place = some p → (laneOfState s l).state = .closing → laneOfState t l = { laneOfState s l with
    state := .cancelling, slots := [], position := some p, outcome := .requeued, changed := true } ∧
    t.streams.outbox = (s.streams.outbox.filter fun e => e.val.lane? ≠ some l) ++ [.fresh (.withdraw l)]
  cancelling : ∀ p, place = some p → (laneOfState s l).state = .cancelling → laneOfState t l = { laneOfState s l with
    state := .cancelling, slots := [], position := some p, outcome := .requeued, changed := true } ∧
    t.streams.outbox = s.streams.outbox
  closed : place = none → t.lanes.txFifo.get l = [] ∧ laneOfState t l = (laneOfState s l).closedWith .revoked ∧
    t.streams.outbox = if (laneOfState s l).state = .held then s.streams.outbox
      else s.streams.outbox.filter fun e => e.val.lane? ≠ some l

/-- A lane closed by a revocation, the others as they were. -/
theorem closeLane_revokedLane {u : State} (hlanes : u.streams.lanes = s.streams.lanes)
    (hbox : u.streams.outbox = if (laneOfState s l).state = .held then s.streams.outbox
      else s.streams.outbox.filter fun e => e.val.lane? ≠ some l) : RevokedLane l none s (closeLane l .revoked u) := by
  have hlane (j : LaneNo) : laneOfState u j = laneOfState s j := by rw [laneOfState, hlanes]; rfl
  obtain ⟨halert, hflushed, hown, hothers⟩ := closeLane_closesLane l .revoked u
  exact ⟨halert, fun j hj => (hothers j hj).trans (hlane j), fun p hp => (nomatch hp), fun p hp => (nomatch hp),
    fun p hp => (nomatch hp), fun _ => ⟨hflushed, hown.trans (by rw [hlane]), hbox⟩⟩

/-- A lane's entry replaced by a WITHDRAW at the tail (R98). -/
theorem outbox_replaced (l : LaneNo) (s : State) : (appendEntry (.withdraw l) (removeEntry l s)).streams.outbox =
    (s.streams.outbox.filter fun e => e.val.lane? ≠ some l) ++ [.fresh (.withdraw l)] :=
  congrArg (· ++ [Stored.fresh (OutboxEntry.withdraw l)])
    (List.filter_eq_self.mpr fun _ hw => (List.mem_filter.mp hw).2)

theorem takeRevoked_revokedLane (place : Option Nat) (hl : (laneOfState s l).state = .held ∨
    (laneOfState s l).state = .closing ∨ (laneOfState s l).state = .cancelling ∧ (laneOfState s l).slots ≠ []) :
    RevokedLane l place s (takeRevoked l place s) := by
  have hchanged (f : Lane → Lane) (u : State) :
      laneOfState (changeLane l f u) l = { f (laneOfState u l) with changed := true } :=
    (laneOfState_changeLane l l f u).trans (if_pos rfl)
  have hothers (f : Lane → Lane) (u : State) (j : LaneNo) (hj : j ≠ l) : laneOfState (changeLane l f u) j = laneOfState u j :=
    (laneOfState_changeLane l j f u).trans (if_neg hj)
  unfold takeRevoked
  rcases hl with hl | hl | ⟨hl, hslots⟩ <;> cases place <;> simp only [hl]
  case inl.none => exact closeLane_revokedLane rfl (if_pos hl).symm
  case inl.some p =>
    refine ⟨hasAlert_raise .stream _, hothers _ s, fun q hq _ => ?_, fun q _ hc => ?_, fun q _ hc => ?_, fun hp => (nomatch hp)⟩
    · cases hq
      exact ⟨hchanged _ s, rfl⟩
    all_goals rw [hl] at hc; cases hc
  case inr.inl.none => exact closeLane_revokedLane rfl (if_neg (by rw [hl]; decide)).symm
  case inr.inl.some p =>
    refine ⟨hasAlert_raise .stream _, hothers _ _, fun q _ hc => ?_, fun q hq _ => ?_, fun q _ hc => ?_, fun hp => (nomatch hp)⟩
    · rw [hl] at hc; cases hc
    · cases hq
      exact ⟨hchanged _ _, outbox_replaced l s⟩
    · rw [hl] at hc; cases hc
  case inr.inr.none =>
    rw [if_neg hslots]
    exact closeLane_revokedLane rfl (if_neg (by rw [hl]; decide)).symm
  case inr.inr.some p =>
    rw [if_neg hslots]
    refine ⟨hasAlert_raise .stream _, hothers _ s, fun q _ hc => ?_, fun q _ hc => ?_, fun q hq _ => ?_, fun hp => (nomatch hp)⟩
    · rw [hl] at hc; cases hc
    · rw [hl] at hc; cases hc
    · cases hq
      refine ⟨(hchanged _ s).trans ?_, rfl⟩
      rw [← hl]

/-! ## One victim, and two (R64) -/

/-- One victim makes room; `t` is the station with its holder told. -/
theorem preempt_one {t : State} {k : Nat} (hs : NormalStream h s) (hh : Highest h (fun _ => False) s)
    (hshort : (freeSlots s).length < k) (hfit : k ≤ (openedBy h.holder h.lane s).length)
    (ht : tell h.holder false (.revoked h.lane (returnPlace h s.alloc.queue)) (revoked h s) = t)
    (halloc : t.alloc = (revoked h s).alloc) : preempt 48 false k s = t := by
  have hopened : freeSlots t = openedBy h.holder h.lane s :=
    (freeSlots_congr (entryAt_congr halloc)).trans (freeSlots_revoked h s)
  rw [preempt_revokes 47 hs hh hshort, revoke_told, ht]
  exact preempt_enough 47 (by rw [hopened]; exact hfit)

/-- Two victims of other stations make room, the first not enough. -/
theorem preempt_two {k : Nat} (hs : NormalStream h s) (hh : Highest h (fun _ => False) s) (hg : NormalStream g s)
    (hgh : Highest g (fun n => (entryAt s n).ofStream h.holder h.lane = true) s)
    (hne : ¬(g.holder = h.holder ∧ g.lane = h.lane)) (hho : h.holder ≠ own s) (hgo : g.holder ≠ own s)
    (hshort : (openedBy h.holder h.lane s).length < k)
    (hfit : k ≤ (openedBy g.holder g.lane (revoked h s)).length) :
    preempt 48 false k s = revoked g (revoked h s) := by
  have hle : (freeSlots s).length ≤ (openedBy h.holder h.lane s).length := by
    rw [length_openedBy]
    exact Nat.le_add_right _ _
  have hshort' : (freeSlots (revoked h s)).length < k := by rw [freeSlots_revoked]; exact hshort
  rw [preempt_revokes 47 hs hh (hle.trans_lt hshort), revoke_told, tell_other (by exact hho),
    preempt_revokes (s := revoked h s) 46 (hg.freed hne) (hgh.freed hne) hshort', revoke_told, tell_other (by exact hgo)]
  exact preempt_enough 46 (by rw [freeSlots_revoked]; exact hfit)

/-! ## An URGENT claim (R64) -/

/-- An URGENT claim of another station for which pre-emption, and it alone, makes room. -/
structure NeedsVictims (st : Station) (l : LaneNo) (x : Label) (k : Fin 16) (r : Bool) (s : State) : Prop where
  hears : Hears st s
  sender : st ≠ own s
  mapClean : s.MapClean
  queueClean : s.QueueClean
  positive : 1 ≤ k.val
  bounded : k.val ≤ 8
  passes : Passes (claimed st l x k.val .urgent r) s
  first : ¬Behind .urgent s
  short : (freeSlots s).length < k.val
  room : k.val ≤ (freeSlots s).length + normalTotal s

/-- The claim is granted the lowest of the slots FREE once the victims are revoked; `t` is the station then. -/
theorem NeedsVictims.granted {t : State} (u : NeedsVictims st l x k r s)
    (ht : preempt 48 false k.val (restartSilence s) = t) (hmode : t.mode = s.mode) (hnotes : t.notes = s.notes)
    (hpins : t.pins = s.pins) {opened : List Slot} (hopened : freeSlots t = opened)
    (hkept : ∀ n, n ∉ opened → entryAt t n = entryAt s n) :
    exec (.windowEnded (.intact st (.claim l x k .urgent w r))) s = .next
      { entered (claimed st l x k.val .urgent r) t with line := { t.line with wonWindow := false } } ∧
    GrantedFrom opened (claimed st l x k.val .urgent r) s (entered (claimed st l x k.val .urgent r) t) := by
  have ho : t.mode.actual ≠ .off := by rw [hmode]; exact framed_on u.hears.framed
  have hother : st ≠ own t := by rw [own, hpins]; exact u.sender
  have hpass : Passes (claimed st l x k.val .urgent r) (restartSilence s) := ⟨u.passes.unlisted, u.passes.unlabelled⟩
  have hrule : grantRule (claimed st l x k.val .urgent r) w (restartSilence s) =
      entered (claimed st l x k.val .urgent r) t := by
    rw [hpass.grantRule_preempts u.first u.short rfl u.room w, ht]
    exact (grant_told ho false).trans (tell_other (by exact hother) _ _)
  exact ⟨u.hears.claim u.mapClean u.queueClean u.positive u.bounded hrule hnotes, entered_grantedFrom ho hopened hkept⟩

/-- With one victim; `t` is the station with its holder told. -/
theorem NeedsVictims.one {t : State} (u : NeedsVictims st l x k r s) (hs : NormalStream h s)
    (hh : Highest h (fun _ => False) s) (hfit : k.val ≤ (openedBy h.holder h.lane s).length)
    (ht : tell h.holder false (.revoked h.lane (returnPlace h s.alloc.queue)) (revoked h (restartSilence s)) = t)
    (hsame : SameBut (revoked h (restartSilence s)) t) :
    exec (.windowEnded (.intact st (.claim l x k .urgent w r))) s = .next
      { entered (claimed st l x k.val .urgent r) t with line := { t.line with wonWindow := false } } ∧
    GrantedFrom (openedBy h.holder h.lane s) (claimed st l x k.val .urgent r) s
      (entered (claimed st l x k.val .urgent r) t) :=
  u.granted (preempt_one (s := restartSilence s) hs hh u.short hfit ht hsame.alloc) hsame.mode hsame.notes hsame.pins
    ((freeSlots_congr (entryAt_congr hsame.alloc)).trans (freeSlots_revoked h (restartSilence s)))
    fun n hn => (entryAt_congr hsame.alloc n).trans (entryAt_revoked_kept (s := restartSilence s) hn)

/-- With two victims of other stations, the first not enough. -/
theorem NeedsVictims.two (u : NeedsVictims st l x k r s) (hs : NormalStream h s) (hh : Highest h (fun _ => False) s)
    (hg : NormalStream g s) (hgh : Highest g (fun n => (entryAt s n).ofStream h.holder h.lane = true) s)
    (hne : ¬(g.holder = h.holder ∧ g.lane = h.lane)) (hho : h.holder ≠ own s) (hgo : g.holder ≠ own s)
    (hless : (openedBy h.holder h.lane s).length < k.val)
    (hfit : k.val ≤ (openedBy h.holder h.lane s).length + (streamSlots g.holder g.lane s).length) :
    exec (.windowEnded (.intact st (.claim l x k .urgent w r))) s = .next
      { entered (claimed st l x k.val .urgent r) (revoked g (revoked h (restartSilence s))) with
        line := { s.line with silenceTimer := some 0, wonWindow := false } } ∧
    GrantedFrom (roomOf g h.holder h.lane s) (claimed st l x k.val .urgent r) s
      (entered (claimed st l x k.val .urgent r) (revoked g (revoked h (restartSilence s)))) := by
  have hfit' : k.val ≤ (openedBy g.holder g.lane (revoked h (restartSilence s))).length := by
    rw [length_openedBy, freeSlots_revoked]
    exact (streamSlots_freed (s := restartSilence s) hne).symm ▸ hfit
  exact u.granted (preempt_two (s := restartSilence s) hs hh hg hgh hne hho hgo hless hfit') rfl rfl rfl
    ((freeSlots_revoked g _).trans (openedBy_freed (s := restartSilence s) hne))
    fun n hn => entryAt_freed_kept (s := restartSilence s) hn

end

section
variable {s : State} {h f : HeldEntry} {st : Station} {l : LaneNo} {e : Stored QueueEntry} {rest : List (Stored QueueEntry)}

/-! ## An URGENT head in queue service (R72, R74) -/

/-- An URGENT head for which pre-emption, and it alone, makes room leaves the queue and is granted once the victims are
revoked. -/
theorem serviceLoop_preempts (fuel : Nat) {hold : Bool} (hm : s.MapClean) (hq : s.QueueClean) (h : s.alloc.queue = e :: rest)
    (hshort : (freeSlots s).length < e.val.count) (hc : e.val.cls = .urgent)
    (hroom : e.val.count ≤ (freeSlots s).length + normalTotal s) : serviceLoop (fuel + 1) hold s = serviceLoop fuel hold
      (grant hold e.val.station e.val.lane e.val.label e.val.cls e.val.ret e.val.count
        (preempt 48 hold e.val.count { s with alloc := { s.alloc with queue := rest } })) := by
  have hp : preemptable e.val.cls e.val.count s = true := by simp [preemptable, hc, hroom]
  rw [serviceLoop, readQueueHead_clean hq, Course.next_on]
  simp only [h, readMap_clean hm, Course.next_on, not_le.mpr hshort, if_false, hp, if_true]

/-- A stream of another station is released, and then an URGENT head, for which the slots freed do not suffice, fits once the
one stream `h` is revoked; all of other stations. -/
structure UrgentHead (h : HeldEntry) (e : Stored QueueEntry) (rest : List (Stored QueueEntry)) (st : Station) (l : LaneNo)
    (s : State) : Prop where
  hears : Hears st s
  mapClean : s.MapClean
  queueClean : s.QueueClean
  sender : st ≠ own s
  claimant : e.val.station ≠ own s
  holder : h.holder ≠ own s
  released : InMap st l s
  apart : ¬(h.holder = st ∧ h.lane = l)
  queue : s.alloc.queue = e :: rest
  urgent : e.val.cls = .urgent
  stream : NormalStream h s
  highest : Highest h (fun n => (entryAt s n).ofStream st l = true) s
  whole : (streamSlots h.holder h.lane s).length = h.count
  short : (openedBy st l s).length < e.val.count
  room : e.val.count ≤ (roomOf h st l s).length

/-- The station with the stream released, the victim requeued and the head granted. -/
def headGranted (h : HeldEntry) (e : QueueEntry) (rest : List (Stored QueueEntry)) (st : Station) (l : LaneNo) (s : State) :
    State :=
  entered e (revoked h (freedWith st l rest s))

namespace UrgentHead

theorem length_room (u : UrgentHead h e rest st l s) :
    (roomOf h st l s).length = (openedBy st l s).length + h.count := by
  rw [← openedBy_freed u.apart, length_openedBy, streamSlots_freed u.apart, u.whole, freeSlots_freeStream]

/-- What is left of the victim's slots does not take the victim back. -/
theorem surplus_lt (u : UrgentHead h e rest st l s) : (roomOf h st l s).length - e.val.count < h.count := by
  have hlen := u.length_room
  have hshort := u.short
  have hroom := u.room
  omega

theorem on (u : UrgentHead h e rest st l s) : s.mode.actual ≠ .off := framed_on u.hears.framed

theorem restClean (u : UrgentHead h e rest st l s) : ∀ w ∈ rest, w.health = .clean := fun w hw =>
  u.queueClean w (by rw [u.queue]; exact List.mem_cons_of_mem _ hw)

theorem freeSlots_revoked (u : UrgentHead h e rest st l s) :
    freeSlots (revoked h (freedWith st l rest s)) = roomOf h st l s :=
  (Machine.freeSlots_revoked h _).trans (openedBy_freed u.apart)

theorem preempted (u : UrgentHead h e rest st l s) :
    preempt 48 false e.val.count (freedWith st l rest s) = revoked h (freedWith st l rest s) := by
  have hfit : e.val.count ≤ (openedBy h.holder h.lane (freedWith st l rest s)).length := by
    rw [← Machine.freeSlots_revoked, u.freeSlots_revoked]
    exact u.room
  have hshort : (freeSlots (freedWith st l rest s)).length < e.val.count := by
    rw [freeSlots_freedWith]
    exact u.short
  exact preempt_one (s := freedWith st l rest s) (u.stream.freed u.apart) (u.highest.freed u.apart) hshort hfit
    (tell_other (by exact u.holder) _ _) rfl

theorem served (u : UrgentHead h e rest st l s) : service false (freeStream st l (restartSilence s)) =
    serviceLoop (rest.length + 49) false (headGranted h e.val rest st l s) := by
  let gone : State := freeStream st l (restartSilence s)
  have hopened : freeSlots gone = openedBy st l s := freeSlots_freeStream st l s
  have hlen : gone.alloc.queue.length + 49 = rest.length + 49 + 1 := by
    show s.alloc.queue.length + 49 = _
    rw [u.queue, List.length_cons]
  have hroom : e.val.count ≤ (freeSlots gone).length + normalTotal gone := by
    have htotal := (u.stream.freed u.apart).length_le
    rw [streamSlots_freed u.apart, u.whole] at htotal
    have hfit := u.room
    rw [u.length_room] at hfit
    rw [hopened]
    exact hfit.trans (Nat.add_le_add_left htotal _)
  have hgrant : grant false e.val.station e.val.lane e.val.label e.val.cls e.val.ret e.val.count
      (preempt 48 false e.val.count (freedWith st l rest s)) = headGranted h e.val rest st l s := by
    rw [u.preempted]
    exact (grant_told (s := revoked h (freedWith st l rest s)) u.on false).trans (tell_other (by exact u.claimant) _ _)
  rw [service, hlen, serviceLoop_preempts (s := gone) _ (freeStream_mapClean st l (restartSilence s) u.mapClean) u.queueClean
    u.queue (by rw [hopened]; exact u.short) u.urgent hroom]
  exact congrArg _ hgrant

theorem grantedFrom (u : UrgentHead h e rest st l s) :
    GrantedFrom (roomOf h st l s) e.val s (headGranted h e.val rest st l s) :=
  entered_grantedFrom u.on u.freeSlots_revoked fun _ hn => entryAt_freed_kept hn

theorem freeSlots_granted (u : UrgentHead h e rest st l s) :
    freeSlots (headGranted h e.val rest st l s) = (roomOf h st l s).drop e.val.count := by
  rw [headGranted, freeSlots_entered (s := revoked h (freedWith st l rest s)) u.on, u.freeSlots_revoked]

theorem granted_mapClean (u : UrgentHead h e rest st l s) : (headGranted h e.val rest st l s).MapClean :=
  entered_mapClean (freeStream_mapClean h.holder h.lane _ (freedWith_mapClean u.mapClean rest))

theorem granted_queueClean (u : UrgentHead h e rest st l s) : (headGranted h e.val rest st l s).QueueClean :=
  returnedTo_clean u.restClean

theorem release {t : State} (u : UrgentHead h e rest st l s)
    (ht : serviceLoop (rest.length + 49) false (headGranted h e.val rest st l s) = .on t) (hn : t.notes = s.notes) :
    exec (.windowEnded (.intact st (.release l))) s = .next { t with line := { t.line with wonWindow := false } } := by
  refine u.hears.ends u.mapClean u.queueClean u.released (.inl ⟨rfl, rfl⟩) ?_ hn
  rw [tell_other (by exact u.sender), u.served, ht]

/-- Nothing behind the head is granted. -/
theorem release_halts (u : UrgentHead h e rest st l s)
    (hstop : NoFit (returnedTo h rest) ((roomOf h st l s).length - e.val.count)) :
    exec (.windowEnded (.intact st (.release l))) s = .next { headGranted h e.val rest st l s with
      line := { s.line with silenceTimer := some 0, wonWindow := false } } := by
  refine u.release (serviceLoop_halts _ u.granted_mapClean u.granted_queueClean ?_) rfl
  rw [u.freeSlots_granted, List.length_drop]
  exact hstop

/-- The entry behind the head, the only one, is granted from what is left. -/
theorem release_grants {f : Stored QueueEntry} (u : UrgentHead h e [f] st l s) (hf : f.val.station ≠ own s)
    (hfit : f.val.count ≤ (roomOf h st l s).length - e.val.count) :
    ∃ t, exec (.windowEnded (.intact st (.release l))) s =
        .next { t with line := { s.line with silenceTimer := some 0, wonWindow := false } } ∧
      GrantedFrom ((roomOf h st l s).drop e.val.count) f.val (headGranted h e.val [f] st l s) t ∧
      t = { headGranted h e.val [f] st l s with
        alloc := { (headGranted h e.val [f] st l s).alloc with map := t.alloc.map, queue := returnedTo h [] } } := by
  let behind : State := { headGranted h e.val [f] st l s with
    alloc := { (headGranted h e.val [f] st l s).alloc with queue := returnedTo h [] } }
  have hqueue : (headGranted h e.val [f] st l s).alloc.queue = f :: returnedTo h [] := returnedTo_singleton h f
  have hfree : freeSlots behind = (roomOf h st l s).drop e.val.count := u.freeSlots_granted
  have hon : (headGranted h e.val [f] st l s).mode.actual ≠ .off := u.on
  have hnext : serviceLoop ([f].length + 49) false (headGranted h e.val [f] st l s) =
      serviceLoop 49 false (entered f.val behind) := by
    rw [List.length_singleton, Nat.add_comm, serviceLoop_grants 49 hon u.granted_mapClean u.granted_queueClean hqueue
      (by rw [u.freeSlots_granted, List.length_drop]; exact hfit)]
    exact congrArg _ (tell_other (by exact hf) _ _)
  have hstop : NoFit (returnedTo h []) (freeSlots (entered f.val behind)).length := by
    have hsurplus := u.surplus_lt
    refine returnedTo_nil_noFit ?_
    rw [freeSlots_entered (s := behind) hon, hfree, List.length_drop, List.length_drop]
    omega
  exact ⟨_, u.release (hnext.trans (serviceLoop_halts 49 (entered_mapClean (s := behind) u.granted_mapClean)
    (returnedTo_clean (by simp)) hstop)) rfl, entered_grantedFrom (t := behind) hon hfree fun _ _ => rfl, rfl⟩

end UrgentHead

end

/-- Settles O36: the victims revoked one after another until the claim fits, its grant, and the lane of a victim of this
station. -/
theorem urgentClaimPreempts : Obligations.UrgentClaimPreempts := by
  intro s st l h hf hp hmem hm hq hl hi hst stream of highest requeue entered kept hs
  have hears : Hears st s := ⟨hf, .inl hp, hl, hi, .inl hst⟩
  refine ⟨?_, ?_⟩
  · intro x k w r h1 h8 hmap hqueue hh hshort hroom claim granted
    have hpass : Passes (claimed st l x k.val .urgent r) s := .of_absent hmap fun e he => (hqueue e he).2
    have hfirst : ¬Behind .urgent s := by
      rintro (⟨hc, -⟩ | ⟨-, e, he, hc⟩)
      · cases hc
      · rw [(hqueue e he).1] at hc
        cases hc
    have u : NeedsVictims st l x k r s := ⟨hears, hst, hm, hq, h1, h8, hpass, hfirst, hshort, hroom⟩
    refine ⟨?_, ?_⟩
    · intro hfit opened requeued
      have hfit' : k.val ≤ (openedBy h.holder h.lane s).length := by rw [length_openedBy]; exact hfit
      refine ⟨fun hho => ?_, ?_⟩
      · obtain ⟨hexec, htaken, hsurplus, hothers⟩ :=
          u.one (w := w) hs hh hfit' (tell_other (by exact hho) _ _) ⟨rfl, rfl, rfl, rfl, rfl, rfl⟩
        exact ⟨_, hexec, ⟨htaken, hsurplus, hothers, rfl, rfl, rfl, rfl⟩, rfl, rfl, rfl⟩
      · intro lane others waits hho hsc hlane
        have hrevoked : RevokedLane h.lane (returnPlace h s.alloc.queue) (revoked h (restartSilence s)) _ :=
          takeRevoked_revokedLane (s := revoked h (restartSilence s)) (returnPlace h s.alloc.queue) hlane
        have hsame := takeNotice_sameBut (.revoked h.lane (returnPlace h s.alloc.queue)) (revoked h (restartSilence s))
        obtain ⟨hexec, htaken, hsurplus, hothers⟩ := u.one (w := w) hs hh hfit'
          (tell_own (s := revoked h (restartSilence s)) (tellable_member hmem hsc) hho _) hsame
        refine ⟨_, hexec, ⟨htaken, hsurplus, hothers, hsame.mode, hsame.cycle, hsame.notes, ?_⟩,
          congrArg AllocationUnit.queue hsame.alloc, hrevoked.alert, hrevoked.others,
          fun hr => hrevoked.held _ (if_pos hr), fun hr => hrevoked.closing _ (if_pos hr),
          fun hr => hrevoked.cancelling _ (if_pos hr), fun hr => hrevoked.closed (if_neg hr)⟩
        exact congrArg (fun u : LineUnit => { u with wonWindow := false }) hsame.line
    · intro g hg hne hgh hho hgo hless hfit opened
      rw [← length_openedBy] at hless hfit
      obtain ⟨hexec, htaken, hsurplus, hothers⟩ := u.two (w := w) hs hh hg hgh hne hho hgo hless hfit
      exact ⟨_, hexec, ⟨htaken, hsurplus, hothers, rfl, rfl, rfl, rfl⟩, rfl, rfl, rfl⟩
  · intro e fs hqe hc he hho hapart hin hh hwhole opened room hshort hroom release
    have hin' : InMap st l s := by
      obtain ⟨n, hn⟩ := hin
      obtain ⟨g, hg, hid⟩ := ofStream_iff.mp hn
      exact ⟨n, g, hg, hid⟩
    have u : UrgentHead h e fs st l s :=
      ⟨hears, hm, hq, hst, he, hho, hin', hapart, hqe, hc, hs, hh, hwhole, hshort, hroom⟩
    refine ⟨fun hstop => ?_, ?_⟩
    · have hnoFit : NoFit (returnedTo h fs) (room.length - e.val.count) := by
        rcases hstop with rfl | ⟨f, gs, rfl, hf, hlt⟩
        · exact returnedTo_nil_noFit u.surplus_lt
        · obtain ⟨q, hq⟩ := returnedTo_cons h f gs
          exact .inr ⟨f, q, hq, hf, hlt⟩
      obtain ⟨htaken, hsurplus, hothers⟩ := u.grantedFrom
      exact ⟨_, u.release_halts hnoFit, htaken, ⟨rfl, rfl, rfl, rfl⟩, hsurplus, hothers, rfl, rfl, rfl⟩
    · intro f hfs hf hfo hfit used
      subst hfs
      obtain ⟨t, hexec, hnext, ht⟩ := u.release_grants hfo hfit
      obtain ⟨hfirst, hsecond, hsurplus, hothers⟩ := u.grantedFrom.next ((List.nodup_finRange 48).filter _) hnext
      refine ⟨_, hexec, hfirst, ⟨?_, ?_, ?_, rfl⟩, hsecond, hsurplus, hothers, ?_, ?_, ?_⟩ <;> rw [ht] <;> rfl

end Sys2Proof.Machine
end

section
/-! Ageing at a mark (R64, R72, R83, R84, R106, R108): an own head that expires frees the queue for an URGENT entry behind it,
and the service that grants that entry pre-empts a stream of this station, whose lane then changes too. -/

namespace Sys2Proof.Machine

/-! ## A head that waits for more than pre-emption can give, and behind it one that waits for less -/

/-- The own claim at the head of the queue, one tick from its patience: 8 slots, more than pre-emption can free. -/
def expiringClaim : QueueEntry :=
  { station := 7, lane := 3, label := 8, count := 8, cls := .urgent, ret := false, age := 39 }

/-- The URGENT claim of another station behind it, which could not overtake it (R62): 2 slots, as many as pre-emption can free. -/
def followingClaim : QueueEntry :=
  { station := 2, lane := 4, label := 7, count := 2, cls := .urgent, ret := false, age := 0 }

/-- A map without a FREE slot: the last two are held by the own lane 1 as NORMAL, all others URGENT by station 3. -/
def fullMapEntry (n : Slot) : HeldEntry :=
  if n.val < 46 then
    { holder := 3, lane := Fin.ofNat 8 (n.val / 8), label := BitVec.ofNat 8 (16 + n.val / 8), cls := .urgent, ret := false,
      part := n.val % 8, count := if n.val < 40 then 8 else 6, silence := 0, lastUse := .live, mark := .none }
  else
    { holder := 7, lane := 1, label := 9, cls := .normal, ret := false, part := n.val - 46, count := 2, silence := 0,
      lastUse := .live, mark := .none }

/-- The lane that holds the last two slots. -/
def holdingLane : Lane :=
  { Lane.default with state := .held, label := 9, count := 2, slots := [46, 47], outcome := .granted }

/-- The lane that waits with the claim at the head of the queue. -/
def waitingLane : Lane :=
  { Lane.default with
    state := .waiting, label := 8, count := 8, cls := .urgent, wait := true, position := some 1, outcome := .queued }

/-- A learned MEMBER station 7 before the mark of cycle 1024: its lane 1 holds the last two slots, its lane 3 waits. -/
def beforeTick : State :=
  { State.reset with
    mode := { State.reset.mode with actual := .member, requested := .member }
    cycle := { State.reset.cycle with phase := .learned, cycleNumber := 1023 }
    line := { State.reset.line with framed := true, driverEnable := true, silenceTimer := some 3 }
    pins := { station := 7, resetnLow := false }
    alloc := { State.reset.alloc with
      map := State.reset.alloc.map.mapIdx fun n _ => .fresh (.held (fullMapEntry n))
      queue := [.fresh expiringClaim, .fresh followingClaim] }
    streams := { State.reset.streams with
      lanes := (State.reset.streams.lanes.set 1 (.fresh holdingLane)).set 3 (.fresh waitingLane) } }

/-- The mark of cycle 1024, sent by station 3 with the queue as `beforeTick` holds it. -/
def markWithTick : MarkContents :=
  { cycle := 1024, marker := 3, patience := 40, reclaim := 8, summary := [expiringClaim.toSummary, followingClaim.toSummary] }

/-- The state is one that the invariants of every step allow. -/
theorem beforeTick_lawful : beforeTick.Legal ∧ beforeTick.Quiet ∧ beforeTick.ListsFit ∧ beforeTick.TablesAgree :=
  ⟨by decide, by decide, by decide, by decide⟩

/-- Queue service pre-empts the own lane 1 for the URGENT claim (R64, R72, R106). -/
theorem laneRevoked_at_markWithTick {t : State} (h : exec (.markReceived (.intact markWithTick)) beforeTick = .next t) :
    (laneOfState t 1).state = .closed ∧ (laneOfState t 1).outcome = .revoked := by
  obtain ⟨u, hu, hlane⟩ : ∃ u, exec (.markReceived (.intact markWithTick)) beforeTick = .next u ∧
      (laneOfState u 1).state = .closed ∧ (laneOfState u 1).outcome = .revoked := ⟨_, rfl, by decide, by decide⟩
  cases hu.symm.trans h
  exact hlane

/-- Refutes O19: that no lane but the expired one changes is claimed also where the entry behind is URGENT and does not fit. Queue
service then pre-empts, and in `beforeTick` the victim is this station's own lane 1, which becomes CLOSED with outcome REVOKED. -/
theorem not_ageTicksAndExpiries : ¬Obligations.AgeTicksAndExpiries := by
  intro h
  have hmark := (h beforeTick rfl (by decide)).1 markWithTick rfl (.inl rfl) (by decide) rfl rfl rfl (by decide) (by decide)
    (by decide) rfl
  obtain ⟨t, hexec, -, -, -, -, hkept, -⟩ :=
    hmark.2 (.fresh expiringClaim) (.fresh followingClaim) rfl (by decide) (by decide) rfl (by decide) rfl rfl (by decide)
  have hsame : laneOfState t 1 = laneOfState beforeTick 1 := hkept 1 (by decide)
  have hclosed := (laneRevoked_at_markWithTick hexec).1
  rw [hsame] at hclosed
  exact absurd hclosed (by decide)

end Sys2Proof.Machine
end

section
/-! Errors of the State Memory in the regions QUEUE, LANES and NOTES, and in MAP and QUEUE out of MEMBER (R28, R34, R95, R149 to
R151, R153, R154, R156). -/

namespace Sys2Proof.Machine

/-! ## Scans that meet one failing word (R149, R150) -/

section
variable {α : Type} {a b : List (Stored α)} {w : Stored α}

/-- Reading stops at a double error, and no word is rewritten. -/
theorem scan_stops (ha : ∀ v ∈ a, v.health = .clean) (hw : w.health = .double) (pos : Nat) :
    scan pos (a ++ w :: b) = ⟨a ++ w :: b, none, some (pos + a.length)⟩ := by
  induction a generalizing pos with
  | nil => simp only [List.nil_append, scan, hw, List.length_nil, Nat.add_zero]
  | cons v a ih =>
    obtain ⟨hv, hrest⟩ := List.forall_mem_cons.mp ha
    simp only [List.cons_append, scan, hv, ih hrest, List.length_cons, Nat.add_assoc, Nat.add_comm 1]

/-- A single error among clean words is written back corrected. -/
theorem scan_corrects (ha : ∀ v ∈ a, v.health = .clean) (hw : w.health = .single) (hb : ∀ v ∈ b, v.health = .clean)
    (pos : Nat) : scan pos (a ++ w :: b) = ⟨a ++ .fresh w.val :: b, some (pos + a.length), none⟩ := by
  induction a generalizing pos with
  | nil => simp only [List.nil_append, scan, hw, scan_clean b hb, Option.getD_none, List.length_nil, Nat.add_zero]
  | cons v a ih =>
    obtain ⟨hv, hrest⟩ := List.forall_mem_cons.mp ha
    simp only [List.cons_append, scan, hv, ih hrest, List.length_cons, Nat.add_assoc, Nat.add_comm 1]

/-- The cells of a table around one of them. -/
theorem cells_split {n : Nat} (t : Table α n) (i : Fin n) :
    ∃ a b, t.cells = a ++ t.get i :: b ∧ a.length = i.val ∧ ∀ x ∈ a, ∃ j < i, t.get j = x := by
  have hlt : i.val < t.cells.length := by rw [t.size]; exact i.isLt
  refine ⟨t.cells.take i.val, t.cells.drop (i.val + 1), ?_, List.length_take_of_le hlt.le, fun x hx => ?_⟩
  · exact (List.take_append_drop i.val t.cells).symm.trans (by rw [List.drop_eq_getElem_cons hlt]; rfl)
  · obtain ⟨j, hj, rfl⟩ := List.mem_take_iff_getElem.mp hx
    exact ⟨⟨j, by omega⟩, Fin.lt_def.mpr (by simp only; omega), rfl⟩

end

/-! ## Reads of QUEUE, MAP and the rebuild list that meet one failing word (R151, R156) -/

section
variable {s t : State} {a b : List (Stored QueueEntry)} {w : Stored QueueEntry}

theorem readQueue_fails (hq : s.alloc.queue = a ++ w :: b) (ha : ∀ v ∈ a, v.health = .clean) (hw : w.health = .double) :
    readQueue s = .abandoned (mapQueueFailed (recordDouble .queue (a.length + 1) s)) := by
  simp only [readQueue, hq, scan_stops ha hw, Option.isSome_some, if_true, recordScan, id, Nat.add_comm 1]
  rw [← hq]

theorem readQueue_corrects (hq : s.alloc.queue = a ++ w :: b) (ha : ∀ v ∈ a, v.health = .clean) (hw : w.health = .single)
    (hb : ∀ v ∈ b, v.health = .clean) : readQueue s =
      .on (recordSingle .queue (a.length + 1) { s with alloc := { s.alloc with queue := a ++ .fresh w.val :: b } }) := by
  simp only [readQueue, hq, scan_corrects ha hw hb, Option.isSome_none, Bool.false_eq_true, if_false, recordScan, id,
    Nat.add_comm 1]

theorem readMap_fails {n : Slot} (hlow : ∀ m < n, (s.alloc.map.get m).health = .clean)
    (hn : (s.alloc.map.get n).health = .double) :
    readMap s = .abandoned (mapQueueFailed (recordDouble .map n.val s)) := by
  obtain ⟨as, bs, hcells, hlen, has⟩ := cells_split s.alloc.map n
  have hclean : ∀ v ∈ as, v.health = .clean := fun v hv => by
    obtain ⟨j, hj, rfl⟩ := has v hv
    exact hlow j hj
  have hscan : scan 0 s.alloc.map.cells = ⟨s.alloc.map.cells, none, some n.val⟩ := by
    rw [hcells, scan_stops hclean hn, hlen, Nat.zero_add]
  have htable : scanTable s.alloc.map = s.alloc.map := Table.ext_cells (by simp only [scanTable, hscan])
  simp only [readMap, hscan, htable, Option.isSome_some, if_true, recordScan, id]

theorem readRebuildList_fails {as bs : List (Stored RebuildTag)} {v : Stored RebuildTag}
    (hl : s.alloc.rebuildList = as ++ v :: bs) (ha : ∀ u ∈ as, u.health = .clean) (hv : v.health = .double) :
    readRebuildList s = .abandoned (mapQueueFailed (recordDouble .map 48 s)) := by
  simp only [readRebuildList, hl, scan_stops ha hv, Option.isSome_some, if_true, recordScan]
  rw [← hl]

/-! ## What a double error in MAP or QUEUE leaves out of MEMBER (R28, R34, R151) -/

/-- A station that is not learned adopts again. -/
theorem mapQueueFailed_learning (ho : s.mode.actual ≠ .off) (hm : s.mode.actual ≠ .member) (hp : s.cycle.phase ≠ .learned) :
    mapQueueFailed s = toAdopt s := by
  cases h : s.mode.actual with
  | off => exact absurd h ho
  | member => exact absurd h hm
  | listen | withdrawing => simp only [mapQueueFailed, h, hp, if_false]
  | joining | resync => simp only [mapQueueFailed, h]

theorem mapQueueFailed_listen (hm : s.mode.actual = .listen) (hp : s.cycle.phase = .learned) :
    mapQueueFailed s = relearn s := by
  simp only [mapQueueFailed, hm, hp, if_true]

theorem mapQueueFailed_withdrawing (hm : s.mode.actual = .withdrawing) (hp : s.cycle.phase = .learned) :
    mapQueueFailed s = s := by
  simp only [mapQueueFailed, hm, hp, if_true]

theorem mapQueueFailed_member (hm : s.mode.actual = .member) : mapQueueFailed s = enterResync s := by
  simp only [mapQueueFailed, hm]

/-! ## A message of another station that meets an error (R55, R70, R71, R95) -/

/-- A control message of another station, whatever becomes of it. -/
theorem execWindowEnded_message {st : Station} {c : Body} (hf : s.Framed) (hl : s.line.onLine = none) (hst : st ≠ own s)
    (hc : ∀ n, c ≠ .note n) (happ : (applyMessage st c (restartSilence s)).state = t) (ht : t.NotesIdle) :
    exec (.windowEnded (.intact st c)) s = .next { t with line := { t.line with wonWindow := false } } := by
  have hvacant : contenderLost s = s := by simp only [contenderLost, hl]
  have hother : decide (st = own (restartSilence s)) = false := decide_eq_false hst
  have hnote (u : State) : takeWindowNote st c u = u := by
    cases c with
    | note n => exact absurd rfl (hc n)
    | _ => rfl
  simp only [exec, execWindowEnded, framedEvent_on hf, hvacant, if_neg (framed_on hf), takeWindow, takeMessage, hother,
    Bool.false_and, Bool.false_eq_true, if_false, happ, hnote, spaceNotes_idle ht]

/-- A message whose first read fails: a WITHDRAW reads the queue first, a RELEASE the map (log 3). -/
theorem applyMessage_fails {st : Station} {l : LaneNo} {c : Body} {region : Region} {index : Nat}
    (hp : s.cycle.phase = .learned ∨ s.cycle.phase = .verify)
    (h : (c = .withdraw l ∧ region = .queue ∧ ∃ a w b, s.alloc.queue = a ++ w :: b ∧ (∀ v ∈ a, v.health = .clean) ∧
        w.health = .double ∧ index = a.length + 1) ∨
      (c = .release l ∧ region = .map ∧ ∃ n : Slot, (∀ m < n, (s.alloc.map.get m).health = .clean) ∧
        (s.alloc.map.get n).health = .double ∧ index = n.val)) :
    applyMessage st c s = .abandoned (mapQueueFailed (recordDouble region index s)) := by
  rcases h with ⟨rfl, rfl, a, w, b, hq, ha, hw, rfl⟩ | ⟨rfl, rfl, n, hlow, hn, rfl⟩
  · simp only [applyMessage, applies_iff.mpr hp, if_true, applyWithdraw, readQueue_fails hq ha hw]
    rfl
  · simp only [applyMessage, applies_iff.mpr hp, if_true, applyRelease, readMap_fails hlow hn]
    rfl

/-- A WITHDRAW that finds nothing in either table leaves the queue as its read has corrected it. -/
theorem applyWithdraw_corrects {st : Station} {l : LaneNo} (hm : s.MapClean) (hq : s.alloc.queue = a ++ w :: b)
    (ha : ∀ v ∈ a, v.health = .clean) (hw : w.health = .single) (hb : ∀ v ∈ b, v.health = .clean) (hin : ¬InMap st l s)
    (hnone : ¬InQueue st l s) : applyWithdraw st l s =
      .on (recordSingle .queue (a.length + 1) { s with alloc := { s.alloc with queue := a ++ .fresh w.val :: b } }) := by
  have hunqueued : ¬InQueue st l
      (recordSingle .queue (a.length + 1) { s with alloc := { s.alloc with queue := a ++ .fresh w.val :: b } }) := by
    rintro ⟨v, hv, hid⟩
    rcases List.mem_append.mp hv with hv | hv
    · exact hnone ⟨v, by rw [hq]; exact List.mem_append_left _ hv, hid⟩
    · rcases List.mem_cons.mp hv with rfl | hv
      · exact hnone ⟨w, by rw [hq]; exact List.mem_append_right _ List.mem_cons_self, hid⟩
      · exact hnone ⟨v, by rw [hq]; exact List.mem_append_right _ (List.mem_cons_of_mem _ hv), hid⟩
  simp only [applyWithdraw, readQueue_corrects hq ha hw hb, Course.next_on, queuedAt_none hunqueued]
  rw [readMap_clean (by exact hm), Course.next_on, if_pos (streamSlots_isEmpty.mpr (by exact hin))]

/-- Once its notes are discarded a station with no ACTIVE entry still has none. -/
theorem discarded_idle (h : s.NotesIdle) : ∀ n ∈ s.discarded, n.state ≠ .active := by
  intro n hn
  obtain ⟨m, hm, rfl⟩ := List.mem_map.mp hn
  split
  · rename_i hd
    rw [hd]
    decide
  · have hleft : (decide (m.state = .active) && noteInWindow s) = false := by simp [h.1 m hm]
    simp [hleft]

theorem Resynced.notesIdle (h : Resynced s t) (hi : s.NotesIdle) : t.NotesIdle := by
  rw [State.NotesIdle, h.notes]
  exact ⟨discarded_idle hi, hi.2⟩

/-! ## The close of the slot field in phase REBUILD (R26, R52, R151) -/

/-- The close clears the map before it reads the list; the failing word sends the station back to ADOPT. -/
theorem execSlotFieldClosed_listFails {as bs : List (Stored RebuildTag)} {v : Stored RebuildTag} (hf : s.Framed)
    (hm : s.mode.actual ≠ .member) (hp : s.cycle.phase = .rebuild) (hl : s.alloc.rebuildList = as ++ v :: bs)
    (ha : ∀ u ∈ as, u.health = .clean) (hv : v.health = .double) :
    exec .slotFieldClosed s =
      .next { toAdopt (recordDouble .map 48 (clearMap s)) with alloc.fieldConflict := false } := by
  have hread := readRebuildList_fails (s := clearMap s) hl ha hv
  rw [mapQueueFailed_learning (s := recordDouble .map 48 (clearMap s)) (framed_on hf) hm
    (by show s.cycle.phase ≠ .learned; rw [hp]; decide)] at hread
  simp only [exec, execSlotFieldClosed, framedEvent_on hf, closeField, hp, closeRebuild, rebuildMap, hread]
  rfl

end

/-! ## A word taken from a receive FIFO (R119, R121, R153) -/

section
variable {s : State} {l : LaneNo} {w : Stored Sample} {ws : List (Stored Sample)}

theorem sampleWord_eq (l : LaneNo) (x : Sample) :
    sampleWord l x = BitVec.ofNat 32 (2 ^ 31 + 2 ^ 28 * l.val + x.toNat) := by
  apply BitVec.eq_of_toNat_eq
  have hl := l.isLt
  have hx := x.isLt
  simp only [sampleWord, BitVec.toNat_append, BitVec.toNat_ofNat]
  rw [← Nat.shiftLeft_add_eq_or_of_lt (by omega), ← Nat.shiftLeft_add_eq_or_of_lt (by omega),
    ← Nat.shiftLeft_add_eq_or_of_lt (by omega)]
  simp only [Nat.shiftLeft_eq]
  omega

/-- The round examines the lanes from the one behind the last served, and serves the first whose FIFO holds a word. -/
theorem servedLane_first (d : Fin 8) (hlow : ∀ e < d, s.lanes.rxFifo.get (s.lanes.lastServed + 1 + e) = [])
    (hd : s.lanes.rxFifo.get (s.lanes.lastServed + 1 + d) ≠ []) : servedLane s = some (s.lanes.lastServed + 1 + d) := by
  have hplace (k : LaneNo) : Fin.ofNat 8 (s.lanes.lastServed.val + 1 + k.val) = s.lanes.lastServed + 1 + k := by
    apply Fin.ext
    simp only [Fin.ofNat, Fin.val_add]
    omega
  have hfind : allLanes.find? ((fun l => !(s.lanes.rxFifo.get l).isEmpty) ∘ fun k => s.lanes.lastServed + 1 + k) = some d := by
    rw [List.find?_eq_some_iff_getElem]
    refine ⟨by simp [hd], d.val, by simp [allLanes], by simp [allLanes], fun j hj => ?_⟩
    have hj8 : j < 8 := hj.trans d.isLt
    have hlane : allLanes[j]'(by simpa [allLanes] using hj8) = ⟨j, hj8⟩ := by simp [allLanes]
    simp [hlane, hlow ⟨j, hj8⟩ hj]
  simp only [servedLane, servingOrder, hplace, List.find?_map, hfind, Option.map_some]

/-- WORD_PERIOD_BEGIN: the oldest word of the lane served leaves its FIFO, whatever its read finds. -/
theorem execWordPeriodBegin_served (hr : s.Running) (hl : servedLane s = some l) (hq : s.lanes.rxFifo.get l = w :: ws) :
    exec .wordPeriodBegin s = .next (recordRead .lanes (8 + l.val) w.health { s with
      lanes := { s.lanes with
        rxFifo := s.lanes.rxFifo.set l ws, lastServed := l, smpSync := true
        period := some { out := sampleWord l (takenSample w), collected := [] } } }) := by
  have hserved : servedLane { s with lanes.smpSync := true } = some l := hl
  rw [exec, execWordPeriodBegin_eq s hr]
  simp only [chooseWord, hserved, takeRx, hq]
  cases w.health <;> rfl

/-- A word of a transmit FIFO that fails leaves it, and zero stands in its place. -/
theorem slotWord_fails (h : (laneOfState s l).state ≠ .cancelling) (hq : s.lanes.txFifo.get l = w :: ws)
    (hw : w.health = .double) : slotWord l s =
      (recordDouble .lanes l.val { s with lanes := { s.lanes with txFifo := s.lanes.txFifo.set l ws } }, .live, 0) := by
  simp [slotWord, h, takeTx, hq, hw, recordRead, takenSample]

/-- SLOT_START for a HELD lane whose oldest word fails: the tag goes out LIVE with a sample of zero. -/
theorem execSlotStart_wordFails {n : Slot} (hf : s.Framed) (hs : s.StreamsClean) (hm : s.mode.actual = .member)
    (hd : s.line.driverEnable = true) (hn : namingLane n s = some l) (hstate : (laneOfState s l).state = .held)
    (hq : s.lanes.txFifo.get l = w :: ws) (hw : w.health = .double) :
    exec (.slotStart n) s = .next { recordDouble .lanes l.val { s with
        lanes := { s.lanes with txFifo := s.lanes.txFifo.set l ws } } with
      line := { s.line with
        onLine := some (.tag n (ownTag n l .live 0 s)), txSlots := s.line.txSlots ++ [n] } } := by
  rw [execSlotStart_named hf hs (by rw [hm]; rfl) hn, nameSlot, slotWord_fails (by rw [hstate]; decide) hq hw]
  exact congrArg _ (if_pos hd)

end

/-! ## Entries of the Transmit Note Queue that fail (R134, R135, R139, R154) -/

section
variable {s : State} {ds rest : List TxNote} {n : TxNote}

/-- The entry's read meets a double error: in its control word, or in its payload behind a clean control word. -/
abbrev TxNote.Fails (n : TxNote) : Prop := n.control = .double ∨ n.control = .clean ∧ n.body = .double

theorem readTx_fails (h : n.Fails) (i : Nat) : readTx i n s = (recordDouble .notes i s, false) := by
  rcases h with hc | ⟨hc, hb⟩
  · simp only [readTx, hc, if_true, recordRead]
  · simp only [readTx, hc, hb, if_true, recordRead, reduceCtorEq, if_false]

/-- The entry becomes CORRUPT at its place, with its tag and attempts. -/
theorem corruptNote_behind (ht : s.notes.tx = ds ++ n :: rest) : corruptNote ds.length s = raise .noteDone { s with
    notes := { s.notes with tx := ds ++ n.finish .corrupt :: rest } } := by
  rw [corruptNote, finishNote, updateTx_behind ht]

/-- The station once the read of an entry has made it CORRUPT. -/
abbrev State.noteCorrupt (ds : List TxNote) (n : TxNote) (rest : List TxNote) (s : State) : State :=
  raise .noteDone (recordDouble .notes ds.length { s with
    notes := { s.notes with tx := ds ++ n.finish .corrupt :: rest } })

theorem offer_corrupt (hbox : s.streams.outbox = []) (hm : s.mode.actual = .member) (ht : s.notes.tx = ds ++ n :: rest)
    (hds : ∀ d ∈ ds, d.state = .done) (hn : n.state ≠ .done) (hz : n.countdown = 0) (h : n.Fails) :
    offer s = s.noteCorrupt ds n rest := by
  have hi : s.notes.tx[ds.length]? = some n := by simp [ht]
  simp only [offer, hbox, hm, if_true, offerNote, oldestOpen_behind ht hds hn, hi, hz, readTx_fails h]
  exact corruptNote_behind (s := recordDouble .notes ds.length s) ht

theorem noteCompleted_corrupt {rb : Readback} {a : Answer} (ht : s.notes.tx = ds ++ n :: rest)
    (hds : ∀ d ∈ ds, d.state = .done) (hn : n.state = .active) (h : n.Fails) :
    noteCompleted rb a s = s.noteCorrupt ds n rest := by
  have hi : s.notes.tx[ds.length]? = some n := by simp [ht]
  simp only [noteCompleted, activeNote_behind ht hds hn, hi, readTx_fails h]
  exact corruptNote_behind (s := recordDouble .notes ds.length s) ht

/-- The completion of a note's window: the note is judged, and the driver-fault count ends at 0. -/
theorem execCompleted_note_good {st : Station} {b : Body} {a : Answer} (hr : s.Running) (ho : s.mode.actual ≠ .off)
    (hl : s.line.onLine = some (.message .note st b)) :
    exec (.ownTransmissionCompleted .good a) s = .next (countReadback .good (noteCompleted .good a s.completed)) := by
  simp only [exec, execOwnTransmissionCompleted, lineEvent_on hr ho, hl, completeField]

theorem oldestDone_behind (ht : s.notes.tx = ds ++ n :: rest) (hds : ∀ d ∈ ds, d.state ≠ .done) (hn : n.state = .done) :
    oldestDone s = some ds.length := by
  rw [oldestDone, ht]
  exact findIdx?_behind (fun d hd => by simp [hds d hd]) (by simp [hn])

theorem freeNote_behind (ht : s.notes.tx = ds ++ n :: rest) :
    freeNote ds.length s = { s with notes := { s.notes with tx := ds ++ rest } } := by
  rw [freeNote, ht, List.eraseIdx_append_of_length_le le_rfl]
  simp

/-- NOTE_OUTCOME returns a failing entry as CORRUPT and frees it. -/
theorem outcomeBody_fails (ht : s.notes.tx = ds ++ n :: rest) (hds : ∀ d ∈ ds, d.state ≠ .done) (hn : n.state = .done)
    (h : n.Fails) : outcomeBody () s = answer .done (outcomeBytes n .corrupt)
      (recordDouble .notes ds.length { s with notes := { s.notes with tx := ds ++ rest } }) := by
  have hi : s.notes.tx[ds.length]? = some n := by simp [ht]
  simp only [outcomeBody, oldestDone_behind ht hds hn, hi, readTx_fails h]
  rw [freeNote_behind (s := recordDouble .notes ds.length s) ht]
  rfl

/-- A note whose control word reads with a single error is offered, its control word corrected. -/
theorem offer_corrected (hbox : s.streams.outbox = []) (hm : s.mode.actual = .member) (hd : s.line.driverEnable = true)
    (ht : s.notes.tx = ds ++ n :: rest) (hds : ∀ d ∈ ds, d.state = .done) (hn : n.state ≠ .done) (hz : n.countdown = 0)
    (hc : n.control = .single) (hb : n.body = .clean) : offer s = takeContender .note (.note n.toLine)
      (recordSingle .notes ds.length { s with
        notes := { s.notes with tx := ds ++ { n with state := .active, control := .clean } :: rest } }) := by
  have hi : s.notes.tx[ds.length]? = some n := by simp [ht]
  have hread : readTx ds.length n s = (recordSingle .notes ds.length { s with
      notes := { s.notes with tx := ds ++ { n with control := .clean, body := .clean } :: rest } }, true) := by
    simp only [readTx, hc, hb, reduceCtorEq, if_false, recordRead]
    rw [updateTx_behind (s := recordSingle .notes ds.length s) ht]
    rfl
  simp only [offer, hbox, hm, if_true, offerNote, oldestOpen_behind ht hds hn, hi, if_pos hz, hread, hd, recordSingle_frame]
  rw [updateTx_behind (n := { n with control := .clean, body := .clean }) rfl, ← hb]
  rfl

/-- TAKE_NOTE returns a failing note as CORRUPT and removes it. -/
theorem takeBody_fails {w : Stored RxNote} {ws : List (Stored RxNote)} (hq : s.notes.ring = w :: ws) (hw : w.health = .double) :
    takeBody () s = answer .done corruptNoteRecord
      (recordDouble .notes 4 { s with notes := { s.notes with ring := ws } }) := by
  simp only [takeBody, hq, hw, if_true, recordRead]

end

/-- Settles O27. -/
theorem queueLaneAndNoteErrors : Obligations.QueueLaneAndNoteErrors := by
  intro s
  refine ⟨fun st l b region index hf hl hi hst h => ?_, fun a c w hf hm hp hlist ha hw => ?_,
    fun st l a b w hf hm hp hl hi hmap hst hq ha hnone => ⟨fun hw hb hqueue => ?_, fun hw => ?_⟩,
    fun d w ws hr => ?_, fun n l w ws hf hs hm hd hstate hn hlow hq hw => ?_, fun ds n rest ht h => ?_,
    fun ds n rest num ht hds hf hm hl hbox hd hn hz hkind hnum hc hb => ?_, fun w ws hs hq hw => ?_⟩
  · intro found adopts takes
    have hb : ∀ n, b ≠ .note n := fun n hbn => by
      rcases h with ⟨hb, -⟩ | ⟨hb, -⟩ <;> exact absurd (hb.symm.trans hbn) (by simp)
    have htaken {t : State} (hp : s.cycle.phase = .learned ∨ s.cycle.phase = .verify)
        (ht : mapQueueFailed (recordDouble region index (restartSilence s)) = t) (hnotes : t.notes = s.notes) :
        exec (.windowEnded (.intact st b)) s = .next { t with line := { t.line with wonWindow := false } } := by
      refine execWindowEnded_message hf hl hst hb ?_ (by rw [State.NotesIdle, hnotes]; exact hi)
      rw [applyMessage_fails (s := restartSilence s) hp h, ← ht]
      rfl
    refine ⟨fun hm hp => ?_, fun hm hp => ?_, fun hm hp => ?_⟩
    · refine htaken (.inr hp) (mapQueueFailed_learning (framed_on hf) hm ?_) rfl
      show s.cycle.phase ≠ .learned
      rw [hp]
      decide
    · exact htaken (.inl hp) (mapQueueFailed_listen hm hp) rfl
    · exact htaken (.inl hp) (mapQueueFailed_withdrawing hm hp) rfl
  · exact execSlotFieldClosed_listFails hf hm hp hlist ha hw
  · have happ := applyWithdraw_corrects (st := st) (l := l) (s := restartSilence s) hmap hq ha hw hb
      (fun ⟨n, h, hn, hid⟩ => hnone n h hn hid) (fun ⟨v, hv, hid⟩ => hqueue v hv hid.1)
    have hstate : (applyMessage st (.withdraw l) (restartSilence s)).state = _ :=
      congrArg Course.state ((if_pos (applies_iff.mpr (.inl hp))).trans happ)
    exact execWindowEnded_message hf hl hst (by simp) hstate hi
  · have h := enterResync_resynced (s := recordDouble .queue (a.length + 1) (restartSilence s)) hm
    have herror := (enterResync_alertsStay (recordDouble .queue (a.length + 1) (restartSilence s))).stays _
      (hasAlert_raise .memFailed _)
    have happ := applyMessage_fails (st := st) (l := l) (c := .withdraw l) (s := restartSilence s) (.inl hp)
      (.inl ⟨rfl, rfl, a, w, b, hq, ha, hw, rfl⟩)
    rw [mapQueueFailed_member (s := recordDouble .queue (a.length + 1) (restartSilence s)) hm] at happ
    generalize enterResync _ = t at *
    have hexec := execWindowEnded_message (t := t) hf hl hst (by simp) (congrArg Course.state happ) (h.notesIdle hi)
    exact ⟨_, hexec, h.mode, by rw [h.cycle], by rw [h.cycle], h.empty, h.errorRecord, herror, h.conflict,
      h.modeAlert, h.streams⟩
  · intro l served hlow hq
    have hexec := execWordPeriodBegin_served hr (servedLane_first d hlow (hq.trans_ne (List.cons_ne_nil w ws))) hq
    rw [hexec]
    refine ⟨fun hw => ?_, fun hw => ?_⟩
    · simp only [hw, recordRead, takenSample, if_true, sampleWord_eq]
      rfl
    · simp only [hw, recordRead, takenSample, reduceCtorEq, if_false, sampleWord_eq]
      rfl
  · have hnamed : namingLane n s = some l :=
      namingLane_lowest ⟨hn, .inl hstate⟩ fun k hk hnk => hlow k hk hnk.1
    exact ⟨_, _, execSlotStart_wordFails hf hs hm hd hnamed hstate hq hw, rfl, rfl, rfl, rfl, rfl, rfl,
      hasAlert_raise .memFailed _, rfl⟩
  · intro corrupt
    refine ⟨fun hf hm hl hbox hds hn hz => ?_, fun st b a hr hm hl hds hn => ?_, fun hs hds hn => ?_⟩
    · rw [execWindowStart_vacant hf hl, offer_corrupt (by exact hbox) (by exact hm) (by exact ht) hds hn hz h]
      rfl
    · rw [execCompleted_note_good hr (by simp [hm]) hl, noteCompleted_corrupt (by exact ht) hds hn h,
        countReadback_good (by simp [hm])]
      rfl
    · simp only [exec, execNoteOutcome, hostFrame_runs (permitted := everyMode) hs rfl rfl]
      rw [outcomeBody_fails (by exact ht) hds hn h]
      rfl
  · have hn64 : Fin.ofNat 64 n.number = num := Fin.ext (by rw [hnum]; exact Nat.mod_eq_of_lt num.isLt)
    rw [execWindowStart_vacant hf hl, offer_corrected (by exact hbox) (by exact hm) (by exact hd) (by exact ht) hds hn hz hc hb,
      takeContender_driven (by exact hd), TxNote.toLine, hn64, hkind]
    rfl
  · simp only [exec, execTakeNote, hostFrame_runs (permitted := everyMode) hs rfl rfl]
    rw [takeBody_fails (by exact hq) hw]
    rfl

end Sys2Proof.Machine
end

section
/-! The host commands about streams, lanes and the Listen Table, from a station whose STREAMS words are clean (R34, R97, R98, R100
to R102, R125, R130, R164): the parameters check 5 takes, what each body does, and the close that ends a withdrawal. -/

namespace Sys2Proof.Machine

/-! ## Parameters (check 5) -/

theorem laneOf_high {b : Byte} (h : 8 ≤ b.toNat) : laneOf b = none := dif_neg (by omega)

theorem entryOf_eq {b : Byte} {e : Fin 16} (h : b.toNat = e.val) : entryOf b = some e := by
  have hlt : b.toNat < 16 := by omega
  rw [entryOf, dif_pos hlt]
  exact congrArg some (Fin.ext h)

theorem entryOf_high {b : Byte} (h : 16 ≤ b.toNat) : entryOf b = none := dif_neg (by omega)

/-- The parameters of OPEN_STREAM where every byte is in range. -/
abbrev OpenParams.ofBytes (l : LaneNo) (label count flags : Byte) : OpenParams :=
  { lane := l, label := label, count := count.toNat
    cls := if flags.getLsbD 0 then .urgent else .normal, wait := flags.getLsbD 1, ret := flags.getLsbD 2 }

section
variable {l : LaneNo} {lane label count flags : Byte}

theorem openParams_inRange (h : lane.toNat = l.val) (hr : 1 ≤ count.toNat ∧ count.toNat ≤ 8 ∧ flags.toNat < 8) :
    openParams lane label count flags = some (.ofBytes l label count flags) := by
  simp only [openParams, laneOf_eq h, if_pos hr]

theorem openParams_outOfRange (h : lane.toNat = l.val)
    (hr : ¬(1 ≤ count.toNat ∧ count.toNat ≤ 8 ∧ flags.toNat < 8)) : openParams lane label count flags = none := by
  simp only [openParams, laneOf_eq h, if_neg hr]

theorem openParams_noLane (h : 8 ≤ lane.toNat) : openParams lane label count flags = none := by
  simp only [openParams, laneOf_high h]

end

section
variable {e : Fin 16} {l : LaneNo} {entry flags label mask lane : Byte}

/-- The Listen Table entry that the bytes of SET_LISTEN spell. -/
abbrev ListenEntry.ofBytes (flags label mask : Byte) (l : LaneNo) : ListenEntry :=
  { enabled := flags.getLsbD 0, label := label, mask := mask, lane := l, acceptOwn := flags.getLsbD 1 }

theorem listenParams_inRange (he : entry.toNat = e.val) (hl : lane.toNat = l.val) (hf : flags.toNat < 4) :
    listenParams entry flags label mask lane = some (e, .ofBytes flags label mask l) := by
  simp only [listenParams, entryOf_eq he, laneOf_eq hl, if_pos hf]

theorem listenParams_badFlags (h : 4 ≤ flags.toNat) : listenParams entry flags label mask lane = none := by
  unfold listenParams
  split
  · exact if_neg (by omega)
  · rfl

theorem listenParams_noEntry (h : 16 ≤ entry.toNat) : listenParams entry flags label mask lane = none := by
  simp only [listenParams, entryOf_high h]

theorem listenParams_noLane (h : 8 ≤ lane.toNat) : listenParams entry flags label mask lane = none := by
  simp only [listenParams, laneOf_high h]
  cases entryOf entry <;> rfl

end

/-! ## A lane rewritten with a new outbox (R97, R98) -/

section
variable {s : State} {l : LaneNo}

/-- The station with a lane's record rewritten with its changed flag, the alert STREAM, and an outbox. -/
abbrev State.laneNow (l : LaneNo) (r : Lane) (box : List (Stored OutboxEntry)) (s : State) : State := { s with
  streams := { s.streams with lanes := s.streams.lanes.set l (.fresh { r with changed := true }), outbox := box }
  alerts := s.alerts.raise .stream }

/-- A lane changed, and an entry of its own appended behind an outbox that holds none. -/
theorem appendEntry_changeLane {e : OutboxEntry} (he : e.lane? = some l)
    (h : ∀ w ∈ s.streams.outbox, w.val.lane? ≠ some l) (f : Lane → Lane) : appendEntry e (changeLane l f s) =
      s.laneNow l (f (laneOfState s l)) (s.streams.outbox ++ [.fresh e]) :=
  appendEntry_fresh (s := changeLane l f s) (by rw [he]; exact h)

/-! ## OPEN_STREAM (R100) -/

theorem openFree_iff (l : LaneNo) (s : State) : (laneClosed s l && !laneHasEntry l s) = true ↔
    (laneOfState s l).state = .closed ∧ ∀ e ∈ s.streams.outbox, e.val.lane? ≠ some l := by
  simp [laneClosed, laneHasEntry]

theorem openLane_free {p : OpenParams} (hl : p.lane = l)
    (h : (laneOfState s l).state = .closed ∧ ∀ e ∈ s.streams.outbox, e.val.lane? ≠ some l) : openLane p s =
      answer .accepted [] (s.laneNow l ((laneOfState s l).opened p) (s.streams.outbox ++ [.fresh (.claim l)])) := by
  subst hl
  rw [openLane, if_pos ((openFree_iff ..).mpr h), appendEntry_changeLane rfl h.2]

theorem openLane_busy {p : OpenParams} (hl : p.lane = l)
    (h : ¬((laneOfState s l).state = .closed ∧ ∀ e ∈ s.streams.outbox, e.val.lane? ≠ some l)) :
    openLane p s = answer .busy [] s := by
  subst hl
  rw [openLane, if_neg (mt (openFree_iff ..).mp h)]

theorem opensStreams_iff (m : Mode) : opensStreams m = true ↔ m = .joining ∨ m = .member ∨ m = .resync := by
  simp [opensStreams, or_assoc]

theorem execOpenStream_runs {lane label count flags : Byte} (hs : s.HostReady) (hc : s.StreamsClean)
    (hl : lane.toNat = l.val) (hr : 1 ≤ count.toNat ∧ count.toNat ≤ 8 ∧ flags.toNat < 8)
    (hm : s.mode.actual = .joining ∨ s.mode.actual = .member ∨ s.mode.actual = .resync) :
    exec (.openStream lane label count flags) s = .next (openLane (.ofBytes l label count flags) s.heard) := by
  simp only [exec, execOpenStream, hostFrame_runs hs (openParams_inRange hl hr) ((opensStreams_iff _).mpr hm), openBody,
    readStreams_clean [l] true (s := s.heard) hc]

theorem execOpenStream_bad {lane label count flags : Byte} (hs : s.HostReady)
    (h : openParams lane label count flags = none) :
    exec (.openStream lane label count flags) s = .next (s.answered .badParam []) := by
  simp only [exec, execOpenStream, hostFrame_bad hs h]

/-! ## RESTART_BUS (R164) -/

theorem execRestartBus_runs (hs : s.HostReady) (hc : s.StreamsClean) (hm : s.mode.actual = .member) :
    exec .restartBus s = .next (if restartWaits s then s.answered .busy []
      else answer .accepted [] (appendEntry .restart s.heard)) := by
  simp only [exec, execRestartBus, hostFrame_runs (permitted := memberOnly) hs rfl (decide_eq_true hm), restartBody,
    readStreams_clean [] true (s := s.heard) hc]
  rfl

theorem restartWaits_iff (s : State) : restartWaits s = true ↔ ∃ e ∈ s.streams.outbox, e.val = .restart := by
  simp [restartWaits]

/-- RESTART is the one entry that names no lane (R98). -/
theorem OutboxEntry.lane?_eq_none {e : OutboxEntry} : e.lane? = none ↔ e = .restart := by
  cases e <;> simp [OutboxEntry.lane?]

end

/-- Settles O50. -/
theorem openStreamAndRestartBusAppend : Obligations.OpenStreamAndRestartBusAppend := by
  refine fun s hs hc => ⟨fun l lane label count flags hl => ⟨fun hr hm hfree => ?_, fun hr hm hfree => ?_, fun hr hm => ?_,
    fun hr => execOpenStream_bad hs (openParams_outOfRange hl hr),
    fun bad hbad => execOpenStream_bad hs (openParams_noLane hbad)⟩, fun hm hnone => ?_, fun hm hsome => ?_, fun hm => ?_⟩
  · rw [execOpenStream_runs hs hc hl hr hm, openLane_free (s := s.heard) (l := l) rfl hfree]
    rfl
  · rw [execOpenStream_runs hs hc hl hr hm, openLane_busy (s := s.heard) (l := l) rfl hfree]
    rfl
  · have hrefused : opensStreams s.mode.actual = false := Bool.eq_false_iff.mpr (mt (opensStreams_iff _).mp hm)
    simp only [exec, execOpenStream, hostFrame_refused hs (openParams_inRange hl hr) hrefused]
  · have hwaits : ¬restartWaits s = true := fun h => by
      obtain ⟨e, he, hval⟩ := (restartWaits_iff s).mp h
      exact hnone e he hval
    rw [execRestartBus_runs hs hc hm, if_neg hwaits,
      appendEntry_fresh (s := s.heard) (e := .restart) fun e he h => hnone e he (OutboxEntry.lane?_eq_none.mp h)]
    rfl
  · rw [execRestartBus_runs hs hc hm, if_pos ((restartWaits_iff s).mpr hsome)]
  · simp only [exec, execRestartBus, hostFrame_refused (permitted := memberOnly) hs rfl (decide_eq_false hm)]

/-! ## CLOSE_STREAM (R34, R101, R102) -/

section
variable {s : State} {l : LaneNo} {lane : Byte}

theorem claimCondition_inWindow (h : claimInWindow l s = true) : claimCondition l s = .inWindow := if_pos h

theorem claimCondition_waiting (h : claimInWindow l s = false) (hb : ∃ e ∈ s.streams.outbox, e.val = .claim l) :
    claimCondition l s = .held := by
  rw [claimCondition, h, if_neg Bool.false_ne_true, if_pos (by simpa using hb)]

theorem claimCondition_gone (h : claimInWindow l s = false) (hb : ∀ e ∈ s.streams.outbox, e.val.lane? ≠ some l) :
    claimCondition l s = .sent := by
  have hnone : ¬(s.streams.outbox.any fun w => w.val = .claim l) = true := fun h => by
    obtain ⟨e, he, hval⟩ := List.any_eq_true.mp h
    exact hb e he (by rw [of_decide_eq_true hval]; rfl)
  rw [claimCondition, h, if_neg Bool.false_ne_true, if_neg hnone]

/-- What CLOSE_STREAM makes of a lane before the exit condition is checked: the status of its answer, and the station with the
lane asked to close. -/
abbrev Closes (l : LaneNo) (s : State) (st : Status) (t : State) : Prop := closeStatus l s = st ∧ endLane l s = t

theorem closes_closed (h : (laneOfState s l).state = .closed) : Closes l s .done s :=
  ⟨by simp only [closeStatus, h], endLane_closed h⟩

theorem closes_ending (h : (laneOfState s l).state = .cancelling ∨ (laneOfState s l).state = .closing) :
    Closes l s .done s :=
  ⟨by rcases h with h | h <;> simp only [closeStatus, h], endLane_ending h.symm⟩

theorem closes_waiting (h : (laneOfState s l).state = .waiting) (hb : ∀ e ∈ s.streams.outbox, e.val.lane? ≠ some l) :
    Closes l s .accepted
      (s.laneNow l { laneOfState s l with state := .cancelling } (s.streams.outbox ++ [.fresh (.withdraw l)])) :=
  ⟨by simp only [closeStatus, h], (endLane_waiting h).trans (appendEntry_changeLane rfl hb _)⟩

theorem closes_held (h : (laneOfState s l).state = .held) (hb : ∀ e ∈ s.streams.outbox, e.val.lane? ≠ some l) :
    Closes l s .accepted
      (s.laneNow l { laneOfState s l with state := .closing } (s.streams.outbox ++ [.fresh (.release l)])) :=
  ⟨by simp only [closeStatus, h], (endLane_held h).trans (appendEntry_changeLane rfl hb _)⟩

theorem closes_claimHeld (h : (laneOfState s l).state = .opening) (hc : claimCondition l s = .held) :
    Closes l s .done (closeLane l .cancelled (removeEntry l s)) :=
  ⟨by simp only [closeStatus, h, hc, if_true], endLane_claimHeld h hc⟩

theorem closes_claimInWindow (h : (laneOfState s l).state = .opening) (hc : claimCondition l s = .inWindow) :
    Closes l s .accepted (s.laneNow l { laneOfState s l with state := .cancelling } s.streams.outbox) :=
  ⟨by simp only [closeStatus, h, hc, reduceCtorEq, if_false], by simp only [endLane, h, hc]; rfl⟩

theorem closes_claimSent (h : (laneOfState s l).state = .opening) (hc : claimCondition l s = .sent)
    (hb : ∀ e ∈ s.streams.outbox, e.val.lane? ≠ some l) : Closes l s .accepted
      (s.laneNow l { laneOfState s l with state := .cancelling } (s.streams.outbox ++ [.fresh (.withdraw l)])) :=
  ⟨by simp only [closeStatus, h, hc, reduceCtorEq, if_false],
    (endLane_claimSent h hc).trans (appendEntry_changeLane rfl hb _)⟩

theorem execCloseStream_closes {st : Status} {t : State} (hs : s.HostReady) (hc : s.StreamsClean) (hl : lane.toNat = l.val)
    (h : Closes l s.heard st t) : exec (.closeStream lane) s = .next (answer st [] (exitCheck t)) := by
  rw [execCloseStream_heard hs hl, ← h.1, ← h.2]
  simp only [closeBody, readStreams_clean [l] true (s := s.heard) hc]

/-- Out of WITHDRAWING, and in it while another lane is open, the close of a lane leaves no mode (R34). -/
theorem exitCheck_closes {st : Status} {t : State} (h : Closes l s st t)
    (hstay : s.mode.actual ≠ .withdrawing ∨ ∃ k, k ≠ l ∧ (laneOfState s k).state ≠ .closed) : exitCheck t = t := by
  obtain ⟨-, rfl⟩ := h
  rcases hstay with hm | ⟨k, hkl, hk⟩
  · exact exitCheck_idle (by simpa using hm)
  · refine exitCheck_busy fun hidle => hk ?_
    rw [← ((oneLane_endLane l s).other k hkl).lane]
    exact hidle.1 k

/-- The cancelling of the last open lane, whose CLAIM is all that the outbox holds, leaves nothing to withdraw. -/
theorem cancelLast_idle {h : Health} (hothers : ∀ k, k ≠ l → (laneOfState s k).state = .closed)
    (hbox : s.streams.outbox = [⟨.claim l, h⟩]) : (closeLane l .cancelled (removeEntry l s)).StreamsIdle := by
  refine ⟨fun k => ?_, ?_⟩
  · rw [laneOfState_closeLane]
    split
    · rfl
    · exact hothers k ‹_›
  · show s.streams.outbox.filter _ = []
    rw [hbox]
    simp [OutboxEntry.lane?]

/-- The station that leaves WITHDRAWING for LISTEN as its last lane is cancelled (R34). -/
theorem exitCheck_cancelLast {h : Health} (hm : s.mode.actual = .withdrawing) (ht : s.mode.target = .listen)
    (hothers : ∀ k, k ≠ l → (laneOfState s k).state = .closed) (hbox : s.streams.outbox = [⟨.claim l, h⟩])
    (hline : s.line.onLine = none) :
    let t := exitCheck (closeLane l .cancelled (removeEntry l s))
    t.mode = { s.mode with actual := .listen } ∧
    t.cycle.phase = (if s.cycle.phase = .learned then .verify else s.cycle.phase) ∧ t.StreamsIdle ∧
    laneOfState t l = (laneOfState s l).closedWith .cancelled ∧ t.HasAlert .mode := by
  have hidle := cancelLast_idle hothers hbox
  have hlane : laneOfState (closeLane l .cancelled (removeEntry l s)) l = (laneOfState s l).closedWith .cancelled :=
    (laneOfState_closeLane ..).trans (if_pos rfl)
  obtain ⟨hvline, hvcycle, hvmode⟩ : (closeLane l .cancelled (removeEntry l s)).line = s.line ∧
      (closeLane l .cancelled (removeEntry l s)).cycle = s.cycle ∧
      (closeLane l .cancelled (removeEntry l s)).mode = s.mode := ⟨rfl, rfl, rfl⟩
  generalize closeLane l .cancelled (removeEntry l s) = v at *
  have hexit : exitCheck v = leaveForTarget v := if_pos ((exitReady_iff v).mpr ⟨by rw [hvmode, hm], hidle⟩)
  have htarget : v.mode.target = .listen := by rw [hvmode, ht]
  have hleft := leaveForTarget_left (.inl htarget) (by rw [hvline, hline])
  rw [hexit]
  refine ⟨?_, ?_, streamsIdle_congr hleft.streams hidle, (congrFun (laneOfState_congr hleft.streams) l).trans hlane,
    hleft.alert⟩ <;> rw [leaveForTarget_listen htarget]
  · simp only [changeMode_mode, hvmode]
  · simp only [hvcycle]

end

/-- Settles O51: the lane's own part by `Closes`, and the exit condition checked after it. -/
theorem closeStreamByState : Obligations.CloseStreamByState := by
  intro s l lane hs hc hl r becomes cancelled noEntry withdrawn
  refine ⟨fun hstay => ?_, fun h hm htarget hothers hbox hline hr => ?_, fun bad hbad => ?_⟩
  · have hacts {st : Status} {t : State} (h : Closes l s.heard st t) :
        exec (.closeStream lane) s = .next (answer st [] t) := by
      rw [execCloseStream_closes hs hc hl h, exitCheck_closes h hstay]
    exact ⟨fun hr => hacts (t := s.heard) (closes_closed hr),
      fun hr hw => hacts (closes_claimInWindow hr (claimCondition_inWindow hw)),
      fun hr hw hnone => hacts (closes_claimSent hr (claimCondition_gone hw hnone) hnone),
      fun hr hnone => hacts (closes_waiting hr hnone), fun hr hnone => hacts (closes_held hr hnone),
      fun hr hw hclaim => hacts (closes_claimHeld hr (claimCondition_waiting hw hclaim)),
      fun hr => hacts (t := s.heard) (closes_ending hr)⟩
  · have hw : claimInWindow l s = false := by simp only [claimInWindow, hline]
    have hclaim : ∃ e ∈ s.streams.outbox, e.val = .claim l := ⟨⟨.claim l, h⟩, by simp [hbox], rfl⟩
    obtain ⟨hmode, hphase, hidle, hlane, halert⟩ := exitCheck_cancelLast (s := s.heard) hm htarget hothers hbox hline
    exact ⟨_, execCloseStream_closes hs hc hl (closes_claimHeld hr (claimCondition_waiting hw hclaim)),
      hmode, hphase, hidle, hlane, halert, rfl⟩
  · simp only [exec, execCloseStream, hostFrame_bad (permitted := everyMode) hs (laneOf_high hbad)]

/-! ## The lane records and the Listen Table (R97, R125, R130) -/

section
variable {s : State} {l : LaneNo} {e : Fin 16} {b flags label mask lane : Byte}

theorem readLane_clean (hc : s.StreamsClean) (l : LaneNo) : readLane l s =
    answer .done (streamRecord l (laneOfState s l)) (updateLane l (fun r => { r with changed := false }) s) := by
  simp only [readLane, readStreams_clean [l] false hc, Course.state_on]

theorem execReadStream_bad (hs : s.HostReady) (h : 8 ≤ b.toNat) :
    exec (.readStream b) s = .next (s.answered .badParam []) := by
  simp only [exec, execReadStream, hostFrame_bad (permitted := everyMode) hs (laneOf_high h)]

theorem lanesBody_clean (hc : s.StreamsClean) :
    lanesBody () s = answer .done (laneStatusRecord s) (clearOverruns s) := by
  simp only [lanesBody, readAllLanes, readStreams_clean allLanes false hc, Course.state_on]

theorem execSetListen_bad (hs : s.HostReady) (h : listenParams b flags label mask lane = none) :
    exec (.setListen b flags label mask lane) s = .next (s.answered .badParam []) := by
  simp only [exec, execSetListen, hostFrame_bad (permitted := everyMode) hs h]

theorem execSetListen_writes (hs : s.HostReady) (he : b.toNat = e.val) (hl : lane.toNat = l.val) (hf : flags.toNat < 4) :
    exec (.setListen b flags label mask lane) s = .next { s.answered .done [] with
      lanes := { s.lanes with listen := s.lanes.listen.set e (.ofBytes flags label mask l) } } := by
  simp only [exec, execSetListen, hostFrame_runs (permitted := everyMode) hs (listenParams_inRange he hl hf) rfl]
  rfl

theorem execReadListen_bad (hs : s.HostReady) (h : 16 ≤ b.toNat) :
    exec (.readListen b) s = .next (s.answered .badParam []) := by
  simp only [exec, execReadListen, hostFrame_bad (permitted := everyMode) hs (entryOf_high h)]

theorem execReadListen_reads (hs : s.HostReady) (he : b.toNat = e.val) :
    exec (.readListen b) s = .next (s.answered .done (listenRecord e (s.lanes.listen.get e))) := by
  simp only [exec, execReadListen, hostFrame_runs (permitted := everyMode) hs (entryOf_eq he) rfl]
  rfl

theorem byteOf_toNat (b : Byte) : byteOf b.toNat = b := (BitVec.ofNat_toNat 8 b).trans (BitVec.setWidth_eq b)

end

/-- Settles O52. -/
theorem laneAndListenCommands : Obligations.LaneAndListenCommands := by
  refine fun s hs hc => ⟨fun l b hl => ?_, ?_, fun e l eb flags label mask lb he hl => ⟨fun hf => ?_, fun hf => ?_, ?_⟩,
    fun b flags label mask lane => ⟨fun h => execReadStream_bad hs h, fun h => ⟨execReadListen_bad hs h,
      execSetListen_bad hs (listenParams_noEntry h)⟩, fun h => execSetListen_bad hs (listenParams_noLane h)⟩⟩
  · rw [execReadStream_heard hs hl, readLane_clean (s := s.heard) hc]
    rfl
  · rw [execReadLanes_heard hs, lanesBody_clean (s := s.heard) hc]
    rfl
  · exact execSetListen_writes hs he hl hf
  · exact execSetListen_bad hs (listenParams_badFlags hf)
  · rw [execReadListen_reads hs he, listenRecord, ← he, byteOf_toNat]
    rfl

end Sys2Proof.Machine
end

section
/-! The record bytes of 12.2.2 written out (R97, R125, R146, R156, R159, R168): the bytes of a 16-bit quantity and of a table of
bits as numbers, and each record by its fields. -/

namespace Sys2Proof

/-- A table's cells are its entries in the order of their numbers. -/
theorem Table.cells_eq_map_get {α : Type} {n : Nat} (t : Table α n) : t.cells = (List.finRange n).map t.get := by
  refine List.ext_getElem (by rw [t.size, List.length_map, List.length_finRange]) fun i h _ => ?_
  simp [Table.get]

/-- A 16-bit quantity as a number, most significant byte first (12.2). -/
theorem bytes16_eq (w : BitVec 16) : bytes16 w = [BitVec.ofNat 8 (w.toNat / 256), BitVec.ofNat 8 (w.toNat % 256)] := by
  have hhigh : w.extractLsb' 8 8 = BitVec.ofNat 8 (w.toNat / 256) := by
    rw [BitVec.extractLsb', Nat.shiftRight_eq_div_pow]
  have hlow : w.extractLsb' 0 8 = BitVec.ofNat 8 (w.toNat % 256) := by
    apply BitVec.eq_of_toNat_eq
    simp [BitVec.extractLsb']
  rw [bytes16, hhigh, hlow]

/-- A count too great for 16 bits has its low 16 bits sent. -/
theorem bytes16_ofNat (n : Nat) : bytes16 (BitVec.ofNat 16 n) = [BitVec.ofNat 8 (n / 256), BitVec.ofNat 8 (n % 256)] := by
  rw [bytes16_eq]
  congr 1
  · apply BitVec.eq_of_toNat_eq
    simp only [BitVec.toNat_ofNat]
    omega
  · congr 1
    apply BitVec.eq_of_toNat_eq
    simp only [BitVec.toNat_ofNat]
    omega

namespace Machine

/-! ## Value codes and records (12.2.1, 12.2.2) -/

/-- The eight slot bytes of a stream record: the slots held, and FFh for the rest (R97). -/
theorem slotBytes_eq {slots : List Slot} (h : slots.length ≤ 8) :
    (slots.map (fun n => byteOf n.val) ++ List.replicate 8 (0xFF : Byte)).take 8 =
      slots.map (fun n => byteOf n.val) ++ List.replicate (8 - slots.length) 0xFF := by
  rw [List.take_append, List.take_of_length_le (by simpa using h), List.take_replicate, List.length_map,
    Nat.min_eq_left (Nat.sub_le ..)]

theorem streamRecord_eq {r : Lane} (l : LaneNo) (h : r.slots.length ≤ 8) : streamRecord l r =
    [byteOf l.val, r.state.code, r.label, byteOf r.count,
      byteOf (bitAt (r.cls = .urgent) 0 + bitAt r.wait 1 + bitAt r.ret 2 + bitAt r.changed 7), byteOf r.slots.length] ++
    r.slots.map (fun n => byteOf n.val) ++ List.replicate (8 - r.slots.length) 0xFF ++
    [byteOf (r.position.getD 0), r.outcome.code] ++ [byteOf (r.gapCount / 256), byteOf (r.gapCount % 256)] ++
    [byteOf (r.grantCycle.toNat / 256), byteOf (r.grantCycle.toNat % 256)] := by
  rw [streamRecord, slotBytes_eq h, bytes16_ofNat, bytes16_eq]
  simp only [List.append_assoc, byteOf]

/-- Bit n of a lane byte is lane n's: the byte is the sum of the places of the bits set. -/
theorem laneByte_eq (bits : Table Bool 8) :
    laneByte bits = byteOf ((List.finRange 8).map fun l => bitAt (bits.get l) l.val).sum := by
  rw [laneByte, List.sum_eq_foldl, List.foldl_map]

theorem laneStatusRecord_eq (s : State) : laneStatusRecord s =
    (List.finRange 8).map (fun l => byteOf (s.lanes.txFifo.get l).length) ++
    (List.finRange 8).map (fun l => byteOf (s.lanes.rxFifo.get l).length) ++
    [byteOf ((List.finRange 8).map fun l => bitAt (s.lanes.txOverrun.get l) l.val).sum,
     byteOf ((List.finRange 8).map fun l => bitAt (s.lanes.rxOverrun.get l) l.val).sum] ++
    (List.finRange 8).flatMap (fun l =>
      [byteOf ((laneOfState s l).gapCount / 256), byteOf ((laneOfState s l).gapCount % 256)]) := by
  simp only [laneStatusRecord, Table.cells_eq_map_get, laneByte_eq, bytes16_ofNat, List.map_map, List.flatMap_map]
  rfl

theorem responseFrame_eq (r : Response) : responseFrame r = [r.status.code, byteOf r.payload.length] ++ r.payload ++
    [byteOf ((frameCrc ([r.status.code, byteOf r.payload.length] ++ r.payload)).toNat / 256),
     byteOf ((frameCrc ([r.status.code, byteOf r.payload.length] ++ r.payload)).toNat % 256)] := by
  rw [responseFrame, frameBytes, bytes16_eq]
  rfl

/-- Settles O58: the codes value by value, and each record by its fields. -/
theorem recordBytes : Obligations.RecordBytes := by
  refine ⟨rfl, rfl, rfl, rfl, rfl, rfl, rfl, rfl, rfl, rfl, rfl, rfl, rfl, ?_⟩
  intro byte two bit
  refine ⟨fun l r h => streamRecord_eq l h, laneStatusRecord_eq, rfl, fun h _ _ _ => ?_, fun e _ => rfl, fun n => ?_,
    fun r => ?_, responseFrame_eq⟩
  · rw [mapRecord]
    cases h.lastUse <;> rfl
  · rw [noteRecord, bytes16_eq]
    cases n.kind <;> rfl
  · rw [errorBytes]
    cases r.kind <;> rfl

end Machine

end Sys2Proof
end

section
/-! Tags at the Listen Table (O22; R127, R128): what the map check and the entry for a duplicate leave of the receive lanes, and the
delivery to the lane of the first entry that selects a tag. -/

namespace Sys2Proof.Machine

section
variable {s t u : State}

/-! ## What the events before a delivery leave of it (R13, R19, R46, R151) -/

/-- The receive lanes, their overruns and the Listen Table with the alert LANE are as they were, and a station out of OFF is
still out of it. -/
structure ListenKept (s t : State) : Prop where
  rxFifo : t.lanes.rxFifo = s.lanes.rxFifo
  rxOverrun : t.lanes.rxOverrun = s.lanes.rxOverrun
  listen : t.lanes.listen = s.lanes.listen
  pins : t.pins = s.pins
  on : s.mode.actual ≠ .off → t.mode.actual ≠ .off
  alert : t.HasAlert .lane ↔ s.HasAlert .lane

theorem ListenKept.trans (h : ListenKept s t) (g : ListenKept t u) : ListenKept s u where
  rxFifo := g.rxFifo.trans h.rxFifo
  rxOverrun := g.rxOverrun.trans h.rxOverrun
  listen := g.listen.trans h.listen
  pins := g.pins.trans h.pins
  on := g.on ∘ h.on
  alert := g.alert.trans h.alert

/-- A change elsewhere than in the Lane Unit, the pins, the mode and the alerts. -/
theorem ListenKept.of_eq (hl : t.lanes = s.lanes) (hp : t.pins = s.pins) (hm : t.mode = s.mode) (ha : t.alerts = s.alerts) :
    ListenKept s t := by
  refine ⟨by rw [hl], by rw [hl], by rw [hl], hp, by rw [hm]; exact id, ?_⟩
  unfold State.HasAlert
  rw [ha]

theorem ListenKept.refl (s : State) : ListenKept s s := .of_eq rfl rfl rfl rfl

/-- Such a change with another alert set. -/
theorem ListenKept.of_raise {a : Alert} (ha : .lane ≠ a) (hl : t.lanes = s.lanes) (hp : t.pins = s.pins) (hm : t.mode = s.mode)
    (hr : t.alerts = s.alerts.raise a) : ListenKept s t := by
  refine ⟨by rw [hl], by rw [hl], by rw [hl], hp, by rw [hm]; exact id, ?_⟩
  unfold State.HasAlert
  rw [hr, AlertUnit.isSet_raise_ne _ _ _ ha]

theorem ListenKept.raised (h : ListenKept s t) {a : Alert} (ha : .lane ≠ a) : ListenKept s (raise a t) :=
  h.trans (.of_raise ha rfl rfl rfl rfl)

theorem recordRead_listenKept (r : Region) (i : Nat) (h : Health) (s : State) : ListenKept s (recordRead r i h s) := by
  cases h with
  | clean => exact .refl s
  | single => exact .of_raise (a := .memCorrected) (by decide) rfl rfl rfl rfl
  | double => exact .of_raise (a := .memFailed) (by decide) rfl rfl rfl rfl

/-- A course keeps them if its parts do. -/
theorem finally_listenKept {c : Course} {f : State → State} (hc : ListenKept s c.state) (hf : ∀ v, ListenKept v (f v)) :
    ListenKept s (c.finally f).state :=
  Course.finally_keeps hc fun v hv => hv.trans (hf v)

/-! ### Streams and notes -/

/-- A lane's entry into CLOSED flushes its transmit FIFO only (R113, R123). -/
theorem closeLane_listenKept (l : LaneNo) (o : StreamOutcome) (s : State) : ListenKept s (closeLane l o s) :=
  ⟨rfl, rfl, rfl, rfl, id, hasAlert_raise_other (a := .stream) (by decide) s⟩

theorem closeOpenLanes_listenKept (o : StreamOutcome) (ls : List LaneNo) : ∀ s, ListenKept s (closeOpenLanes o ls s) := by
  induction ls with
  | nil => exact .refl
  | cons l ls ih =>
    intro s
    unfold closeOpenLanes
    split
    · exact ih s
    · exact (closeLane_listenKept l o s).trans (ih _)

theorem emptyOutbox_listenKept (s : State) : ListenKept s (emptyOutbox s) := .of_eq rfl rfl rfl rfl

theorem dropStreams_listenKept (o : StreamOutcome) (s : State) : ListenKept s (dropStreams o s) :=
  (closeOpenLanes_listenKept o allLanes s).trans (emptyOutbox_listenKept _)

theorem finishNote_listenKept (i : Nat) (o : NoteOutcome) (s : State) : ListenKept s (finishNote i o s) :=
  .of_raise (a := .noteDone) (by decide) rfl rfl rfl rfl

theorem discardNotes_listenKept (s : State) : ListenKept s (discardNotes s) := by
  unfold discardNotes endNotes
  dsimp only
  split
  · exact .of_raise (a := .noteDone) (by decide) rfl rfl rfl rfl
  · exact .of_eq rfl rfl rfl rfl

theorem noteLost_listenKept (s : State) : ListenKept s (noteLost s) := by
  unfold noteLost
  split
  · exact .refl s
  split
  · exact .refl s
  split
  · exact finishNote_listenKept ..
  · exact finishNote_listenKept ..
  · exact .of_eq rfl rfl rfl rfl

theorem readTx_listenKept (i : Nat) (n : TxNote) (s : State) : ListenKept s (readTx i n s).1 := by
  have hcontrol := recordRead_listenKept .notes i n.control s
  have hbody := hcontrol.trans (recordRead_listenKept .notes i n.body _)
  unfold readTx
  dsimp only
  split
  · exact hcontrol
  split
  · exact hbody
  · exact hbody.trans (.of_eq rfl rfl rfl rfl)

theorem judgeNote_listenKept (i : Nat) (n : TxNote) (rb : Readback) (a : Answer) (s : State) :
    ListenKept s (judgeNote i n rb a s) := by
  unfold judgeNote
  split
  · exact .of_raise (a := .noteDone) (by decide) rfl rfl rfl rfl
  split
  · exact .of_raise (a := .noteDone) (by decide) rfl rfl rfl rfl
  · exact .of_raise (a := .noteDone) (by decide) rfl rfl rfl rfl
  · exact .of_eq rfl rfl rfl rfl

theorem noteCompleted_listenKept (rb : Readback) (a : Answer) (s : State) : ListenKept s (noteCompleted rb a s) := by
  unfold noteCompleted
  split
  · exact .refl s
  split
  · exact .refl s
  · rename_i i _ _ n _
    have hread := readTx_listenKept i n s
    split <;> rename_i hr <;> rw [hr] at hread
    · exact hread.trans (judgeNote_listenKept ..)
    · exact hread.trans (finishNote_listenKept ..)

/-! ### The cut of the field being sent (R13) -/

theorem removeEntry_listenKept (l : LaneNo) (s : State) : ListenKept s (removeEntry l s) := .of_eq rfl rfl rfl rfl

theorem controlLost_listenKept (b : Body) (s : State) : ListenKept s (controlLost b s) := by
  unfold controlLost
  split
  · exact .refl s
  split
  · exact (removeEntry_listenKept _ s).trans (closeLane_listenKept ..)
  · exact .refl s

theorem controlMismatch_listenKept (b : Body) (s : State) : ListenKept s (controlMismatch b s) := by
  unfold controlMismatch
  split
  · exact .refl s
  split
  · exact .of_eq rfl rfl rfl rfl
  · exact .refl s

theorem cutControl_listenKept {report : Body → State → State} (h : ∀ b s, ListenKept s (report b s)) (b : Body) (s : State) :
    ListenKept s (cutControl report b s) := by
  unfold cutControl
  split
  · exact .refl s
  split
  · exact h b s
  · exact .refl s

theorem messageCut_listenKept (src : Source) (b : Body) (s : State) : ListenKept s (messageCut src b s) := by
  have hwon : ListenKept s { s with line.wonWindow := true } := .of_eq rfl rfl rfl rfl
  unfold messageCut
  cases src with
  | outbox =>
    dsimp only
    split
    · exact cutControl_listenKept controlLost_listenKept b s
    · exact hwon.trans (cutControl_listenKept controlMismatch_listenKept b _)
  | note =>
    dsimp only
    split
    · exact noteLost_listenKept s
    · exact hwon.trans (noteCompleted_listenKept ..)

theorem cutTransmission_listenKept (s : State) : ListenKept s (cutTransmission s) := by
  have hreport : ListenKept s (reportCut s) := by
    unfold reportCut
    split
    · exact messageCut_listenKept ..
    all_goals exact .refl s
  exact hreport.trans (.of_eq rfl rfl rfl rfl)

/-! ### Changes of mode -/

theorem announced_listenKept {m : Mode} (hm : m ≠ .off) (s : State) : ListenKept s (announced m s) := by
  have hset : ListenKept s { s with mode.actual := m, cycle.foundingPending := false, cycle.winnerMarkDue := false } :=
    ⟨rfl, rfl, rfl, rfl, fun _ => hm, Iff.rfl⟩
  have hraised := hset.raised (a := .mode) (by decide)
  unfold announced
  dsimp only
  split
  · exact hraised.trans (discardNotes_listenKept _)
  · exact hraised

theorem changeMode_listenKept {m : Mode} (hm : m ≠ .off) (s : State) : ListenKept s (changeMode m s) := by
  by_cases hcut : m = .off ∨ m = .listen
  · rw [changeMode_cuts hcut]
    exact (announced_listenKept hm s).trans (cutTransmission_listenKept _)
  · rw [changeMode_cuts_nothing hcut]
    exact announced_listenKept hm s

theorem enterResync_listenKept (s : State) : ListenKept s (enterResync s) := by
  have hchanged := (changeMode_listenKept (m := .resync) (by decide) s).raised (a := .conflict) (by decide)
  unfold enterResync
  generalize raise .conflict (changeMode .resync s) = u at *
  exact hchanged.trans (.of_eq rfl rfl rfl rfl)

theorem faultItems_listenKept (c : FaultCause) (s : State) : ListenKept s (faultItems c s) := ⟨rfl, rfl, rfl, rfl, id, Iff.rfl⟩

/-- The direct fault entry takes the station to LISTEN, not to OFF (R35). -/
theorem duplicateFound_listenKept (ho : s.mode.actual ≠ .off) : ListenKept s (duplicateFound s) := by
  have hraised : ListenKept s (raise .duplicate s) := (ListenKept.refl s).raised (by decide)
  by_cases hl : s.mode.actual = .listen
  · rw [duplicateFound_listen hl]
    exact hraised.trans ⟨rfl, rfl, rfl, rfl, id, Iff.rfl⟩
  · rw [duplicateFound, faultEntry_eq (by exact ho) (by exact hl) (by decide)]
    have hlisten := hraised.trans (changeMode_listenKept (m := .listen) (by decide) _)
    exact ((hlisten.trans (discardNotes_listenKept _)).trans (dropStreams_listenKept ..)).trans (faultItems_listenKept ..)

/-! ### The map check -/

theorem alloc_listenKept (a : AllocationUnit) (s : State) : ListenKept s { s with alloc := a } := .of_eq rfl rfl rfl rfl

theorem mapQueueFailed_listenKept (s : State) : ListenKept s (mapQueueFailed s) := by
  unfold mapQueueFailed
  split
  · exact .refl s
  · exact enterResync_listenKept s
  · split <;> exact .of_eq rfl rfl rfl rfl
  · split <;> exact .of_eq rfl rfl rfl rfl
  · exact .of_eq rfl rfl rfl rfl
  · exact .of_eq rfl rfl rfl rfl

theorem readMapEntry_listenKept (n : Slot) (s : State) : ListenKept s (readMapEntry n s).state := by
  have hread : ListenKept s (recordRead .map n.val (s.alloc.map.get n).health
      { s with alloc.map := s.alloc.map.set n (s.alloc.map.get n).afterRead }) :=
    (alloc_listenKept { s.alloc with map := s.alloc.map.set n (s.alloc.map.get n).afterRead } s).trans
      (recordRead_listenKept ..)
  unfold readMapEntry
  dsimp only
  split
  · exact hread.trans (mapQueueFailed_listenKept _)
  · exact hread

theorem markDamaged_listenKept (n : Slot) (s : State) : ListenKept s (markDamaged n s) := by
  rw [markDamaged_eq (u := s) rfl]
  exact alloc_listenKept _ s

theorem unmatchedTag_listenKept (n : Slot) (s : State) : ListenKept s (unmatchedTag n s) := by
  unfold unmatchedTag
  split
  · exact enterResync_listenKept s
  · have hwrong : ListenKept s (raise .conflict { s with alloc.fieldConflict := true, alloc.mapFoundWrong := true }) :=
      .of_raise (a := .conflict) (by decide) rfl rfl rfl rfl
    exact hwrong.trans (markDamaged_listenKept n _)
  · exact markDamaged_listenKept n s
  all_goals exact .refl s

theorem learnedTag_listenKept (n : Slot) (g : TagContents) (s : State) : ListenKept s (learnedTag n g s) := by
  unfold learnedTag
  split
  · exact unmatchedTag_listenKept n s
  split
  · exact .of_eq rfl rfl rfl rfl
  · exact unmatchedTag_listenKept n s

theorem checkTag_listenKept (n : Slot) (r : TagReport) (s : State) : ListenKept s (checkTag n r s).state := by
  have hread := readMapEntry_listenKept n s
  unfold checkTag
  split
  · exact finally_listenKept hread (markDamaged_listenKept n)
  split
  · exact .refl s
  · exact finally_listenKept hread (markDamaged_listenKept n)
  · exact finally_listenKept hread (learnedTag_listenKept n _)

theorem collectTag_listenKept (n : Slot) (g : TagContents) (s : State) : ListenKept s (collectTag n g s) := by
  unfold collectTag
  split
  · exact .of_eq rfl rfl rfl rfl
  · exact .refl s

theorem tagAtMap_listenKept (n : Slot) (g : TagContents) (s : State) : ListenKept s (tagAtMap n (.intact g) s).state := by
  unfold tagAtMap
  split
  · exact collectTag_listenKept n g s
  · split
    · exact checkTag_listenKept ..
    · exact .refl s
  all_goals exact .refl s

/-- In phase ADOPT the map keeps nothing of a tag (R24). -/
theorem tagAtMap_adopt (hp : s.cycle.phase = .adopt) (n : Slot) (r : TagReport) : tagAtMap n r s = .on s := by
  unfold tagAtMap
  rw [hp]

/-- Whatever an intact tag shows the station, it is then delivered by the lanes and the Listen Table as they were (R127). -/
theorem execTagReceived_delivers (hf : s.Framed) (n : Slot) (g : TagContents) :
    ∃ u, ListenKept s u ∧ exec (.tagReceived n (.intact g)) s = .next (deliverTag g u) := by
  have hheard : ListenKept s (restartSilence s) := .of_eq rfl rfl rfl rfl
  by_cases hdup : g.holder = own s ∧ n ∉ s.line.txSlots
  · exact ⟨_, hheard.trans (duplicateFound_listenKept (framed_on hf)), execTagReceived_duplicate hf hdup.1 hdup.2⟩
  · exact ⟨_, hheard.trans (tagAtMap_listenKept n g _),
      execTagReceived_intact hf fun hown => by_contra fun hn => hdup ⟨hown, hn⟩⟩

/-! ## A word added to a receive FIFO (R127) -/

section
variable {l : LaneNo} {x : Sample}

theorem fifoAdd_room {q : List (Stored Sample)} (h : q.length < 32) : fifoAdd x q = (q ++ [.fresh x], false) :=
  if_neg (Nat.not_le.mpr h)

theorem fifoAdd_full {q : List (Stored Sample)} (h : 32 ≤ q.length) : fifoAdd x q = (q.tail ++ [.fresh x], true) := if_pos h

theorem addRx_room (h : (s.lanes.rxFifo.get l).length < 32) : addRx l x s = { s with
    lanes.rxFifo := s.lanes.rxFifo.set l (s.lanes.rxFifo.get l ++ [.fresh x]) } := by
  simp only [addRx, fifoAdd_room h, Bool.false_eq_true, if_false]

theorem addRx_full (h : 32 ≤ (s.lanes.rxFifo.get l).length) : addRx l x s = raise .lane { s with
    lanes.rxFifo := s.lanes.rxFifo.set l ((s.lanes.rxFifo.get l).tail ++ [.fresh x])
    lanes.rxOverrun := s.lanes.rxOverrun.set l true } := by
  simp only [addRx, fifoAdd_full h, if_true]

theorem addRx_rxFifo : (addRx l x s).lanes.rxFifo = s.lanes.rxFifo.set l
    ((if 32 ≤ (s.lanes.rxFifo.get l).length then (s.lanes.rxFifo.get l).tail else s.lanes.rxFifo.get l) ++ [.fresh x]) := by
  split_ifs with h
  · rw [addRx_full h]
    rfl
  · rw [addRx_room (Nat.not_le.mp h)]

theorem addRx_rxOverrun : (addRx l x s).lanes.rxOverrun =
    if 32 ≤ (s.lanes.rxFifo.get l).length then s.lanes.rxOverrun.set l true else s.lanes.rxOverrun := by
  split_ifs with h
  · rw [addRx_full h]
    rfl
  · rw [addRx_room (Nat.not_le.mp h)]

theorem addRx_hasLane : (addRx l x s).HasAlert .lane ↔ s.HasAlert .lane ∨ 32 ≤ (s.lanes.rxFifo.get l).length := by
  by_cases h : 32 ≤ (s.lanes.rxFifo.get l).length
  · rw [addRx_full h]
    exact iff_of_true (hasAlert_raise ..) (.inr h)
  · rw [addRx_room (Nat.not_le.mp h)]
    exact (or_iff_left h).symm

end

/-! ## The entry that selects a tag (R128) -/

theorem listenEntry_selects_iff {e : ListenEntry} {st : Station} {g : TagContents} : e.selects st g = true ↔
    e.enabled = true ∧ g.label &&& e.mask = e.label &&& e.mask ∧ (g.holder = st → e.acceptOwn = true) := by
  simp only [ListenEntry.selects, Bool.and_eq_true, Bool.or_eq_true, beq_iff_eq, decide_eq_true_eq, ← imp_iff_not_or, and_assoc,
    ne_eq]

variable {g : TagContents}

theorem deliverTag_none (h : ∀ k, (s.lanes.listen.get k).selects (own s) g = false) : deliverTag g s = s := by
  have hnone : s.lanes.listen.cells.find? (·.selects (own s) g) = none := by
    rw [List.find?_eq_none]
    intro e he
    obtain ⟨k, rfl⟩ := Table.mem_cells.mp he
    exact Bool.eq_false_iff.mp (h k)
  simp only [deliverTag, hnone, ite_self]

/-- The first entry that selects a LIVE tag takes it. -/
theorem deliverTag_first (ho : s.mode.actual ≠ .off) (hu : g.use = .live) {k : Fin 16}
    (hk : (s.lanes.listen.get k).selects (own s) g = true)
    (hlow : ∀ j < k, (s.lanes.listen.get j).selects (own s) g = false) :
    deliverTag g s = addRx (s.lanes.listen.get k).lane g.sample s := by
  have hfind : s.lanes.listen.cells.find? (·.selects (own s) g) = some (s.lanes.listen.get k) := by
    rw [List.find?_eq_some_iff_getElem]
    refine ⟨hk, k.val, by rw [s.lanes.listen.size]; exact k.isLt, rfl, fun j hj => ?_⟩
    rw [Bool.not_eq_true']
    exact hlow ⟨j, hj.trans k.isLt⟩ hj
  simp [deliverTag, hu, ho, hfind]

end

/-- Settles O22: the delivery finds the lanes and the Listen Table as they were before the tag was heard. -/
theorem liveTagIsDelivered : Obligations.LiveTagIsDelivered := by
  intro s n g hf selects full
  have hselects (k : Fin 16) : (s.lanes.listen.get k).selects (own s) g = true ↔ selects (s.lanes.listen.get k) :=
    listenEntry_selects_iff
  have hpasses {k : Fin 16} (h : ¬selects (s.lanes.listen.get k)) : (s.lanes.listen.get k).selects (own s) g = false :=
    Bool.eq_false_iff.mpr (h ∘ (hselects k).mp)
  obtain ⟨u, hu, hexec⟩ := execTagReceived_delivers hf n g
  have hown : own u = own s := congrArg Pins.station hu.pins
  refine ⟨fun hlive k hk hlow => ?_, fun hnot => ?_, fun hp hheld => ?_⟩
  · have hdeliver : deliverTag g u = addRx (s.lanes.listen.get k).lane g.sample u := by
      rw [← hu.listen]
      refine deliverTag_first (hu.on (framed_on hf)) hlive ?_ fun j hj => ?_
      · rw [hu.listen, hown, hselects]
        exact hk
      · rw [hu.listen, hown]
        exact hpasses (hlow j hj)
    intro l before
    refine ⟨_, hexec.trans (congrArg _ hdeliver), ?_, ?_, by rw [addRx_hasLane, hu.alert, hu.rxFifo]⟩
    · rw [addRx_rxFifo, hu.rxFifo]
    · rw [addRx_rxOverrun, hu.rxFifo, hu.rxOverrun]
  · have hdeliver : deliverTag g u = u := by
      rcases hnot with hhold | hnone
      · exact deliverTag_hold hhold
      · exact deliverTag_none fun k => by rw [hu.listen, hown]; exact hpasses (hnone k)
    exact ⟨_, hexec.trans (congrArg _ hdeliver), hu.rxFifo, hu.rxOverrun, hu.alert⟩
  · intro heard
    have hadopt : exec (.tagReceived n (.intact g)) s = .next (deliverTag g heard) := by
      rw [execTagReceived_intact hf hheld, tagAtMap_adopt (s := restartSilence s) hp]
      rfl
    refine ⟨fun hlive k hk hlow => ?_, fun hnone => ?_, fun hhold => ?_⟩
    · intro l
      have hdeliver : deliverTag g heard = addRx l g.sample heard :=
        deliverTag_first (s := heard) (framed_on hf) hlive ((hselects k).mpr hk) fun j hj => hpasses (hlow j hj)
      rw [hadopt, hdeliver]
      exact ⟨fun h => congrArg _ (addRx_room (s := heard) h), fun h => congrArg _ (addRx_full (s := heard) h)⟩
    · rw [hadopt, deliverTag_none (s := heard) fun k => hpasses (hnone k)]
    · rw [hadopt, deliverTag_hold hhold]

end Sys2Proof.Machine
end

section
/-! The Sample Port (O44; R119 to R121): the beginning of a word period, the level of SMPOUT at each falling edge, and the word that
the end hands on. -/

namespace Sys2Proof.Machine

section
variable {s : State}

/-! ## The beginning of a word period (R119, R121) -/

theorem servedLane_none (h : ∀ l, s.lanes.rxFifo.get l = []) : servedLane s = none :=
  List.find?_eq_none.mpr fun l _ => by rw [h l]; decide

/-- With every receive FIFO empty the outgoing word is all 0 and the lane last served stays. -/
theorem chooseWord_empty (h : ∀ l, s.lanes.rxFifo.get l = []) : chooseWord s = openPeriod 0 s := by
  simp only [chooseWord, servedLane_none h]

/-- SMPSYNC that has not risen at this sample begins no period. -/
theorem sampleSync_held (h : s.lanes.smpSync = true) : sampleSync true s = s := by
  simp only [sampleSync, h, Bool.not_true, Bool.and_false, Bool.false_eq_true, if_false]
  rw [← h]

theorem sampleSync_rises (h : s.lanes.smpSync = false) : sampleSync true s = chooseWord { s with lanes.smpSync := true } := by
  simp only [sampleSync, h, Bool.not_false, Bool.and_true, if_true]

/-! ## The level of SMPOUT (R119) -/

theorem smpOutLevel_driveOut (level : Bool) (hr : s.Running) : smpOutLevel (driveOut level s) = level := by
  simp only [smpOutLevel, driveOut, hr, Bool.not_false, Bool.true_and]

theorem smpOutLevel_low (h : s.pins.resetnLow = true) : smpOutLevel s = false := by
  simp only [smpOutLevel, h, Bool.not_true, Bool.false_and]

theorem smpOutLevel_congr {t : State} (hp : t.pins = s.pins) (hl : t.lanes.smpOut = s.lanes.smpOut) :
    smpOutLevel t = smpOutLevel s := by
  rw [smpOutLevel, smpOutLevel, hp, hl]

/-- Choosing the outgoing word drives nothing. -/
theorem chooseWord_level (s : State) : smpOutLevel (chooseWord s) = smpOutLevel s := by
  have htaken (l : LaneNo) : (takeRx l s).1.pins = s.pins ∧ (takeRx l s).1.lanes.smpOut = s.lanes.smpOut := by
    unfold takeRx
    split
    · exact ⟨rfl, rfl⟩
    · simp only [recordRead_frame, and_self]
  unfold chooseWord
  split
  · rfl
  · rename_i l _
    obtain ⟨hpins, hout⟩ := htaken l
    split <;> rename_i hx <;> rw [hx] at hpins hout
    · exact smpOutLevel_congr hpins hout
    · exact smpOutLevel_congr hpins hout

theorem sampleSync_level (level : Bool) (s : State) : smpOutLevel (sampleSync level s) = smpOutLevel s := by
  unfold sampleSync
  dsimp only
  split
  · exact chooseWord_level _
  · rfl

theorem collectBit_level (s : State) (b : Bool) : smpOutLevel (collectBit s b) = smpOutLevel s := by
  unfold collectBit
  split
  · rfl
  · split <;> rfl

/-- SMPOUT does not change at a rising edge. -/
theorem risingEdge_level (sync input : Bool) (s : State) : smpOutLevel (risingEdge sync input s) = smpOutLevel s := by
  unfold risingEdge
  split
  · rfl
  · rw [collectBit_level, sampleSync_level]

theorem risingEdge_low (h : s.pins.resetnLow = true) (sync input : Bool) : risingEdge sync input s = s := if_pos h

theorem fallingEdge_low (h : s.pins.resetnLow = true) : fallingEdge s = driveOut false s := if_pos h

/-- A falling edge between periods holds SMPOUT low. -/
theorem fallingEdge_between (hr : s.Running) (hp : s.lanes.period = none) : fallingEdge s = driveOut false s := by
  simp only [fallingEdge, hr, Bool.false_eq_true, if_false, driveBit, hp]

/-- The edge that begins a period, here with every receive FIFO empty, collects its first bit. -/
theorem risingEdge_begins (hr : s.Running) (hsync : s.lanes.smpSync = false) (hempty : ∀ l, s.lanes.rxFifo.get l = [])
    (input : Bool) : risingEdge true input s = { s with
      lanes := { s.lanes with smpSync := true, period := some { out := 0, collected := [input] } } } := by
  rw [risingEdge, if_neg (Bool.eq_false_iff.mp hr), sampleSync_rises hsync,
    chooseWord_empty (s := { s with lanes.smpSync := true }) hempty]
  rfl

/-! ## The incoming word (R120) -/

/-- The fields of an incoming word: valid, lane, the reserved bits, the sample (12.3). -/
theorem incomingWord_fields {valid : Nat} (hv : valid < 2) (l : LaneNo) (junk : Fin 16) (x : Sample) :
    let w := BitVec.ofNat 32 (2 ^ 31 * valid + 2 ^ 28 * l.val + 2 ^ 24 * junk.val + x.toNat)
    wordValid w = decide (valid = 1) ∧ wordLane w = l ∧ wordSample w = x := by
  intro w
  have hl := l.isLt
  have hj := junk.isLt
  have hx := x.isLt
  have hw : w.toNat = 2 ^ 31 * valid + 2 ^ 28 * l.val + 2 ^ 24 * junk.val + x.toNat := by
    rw [BitVec.toNat_ofNat]
    omega
  refine ⟨?_, Fin.ext ?_, BitVec.eq_of_toNat_eq ?_⟩
  · rw [wordValid, BitVec.getLsbD, Nat.testBit_eq_decide_div_mod_eq, hw, decide_eq_decide]
    omega
  · show w.toNat / 2 ^ 28 % 8 = l.val
    omega
  · rw [wordSample, BitVec.toNat_setWidth]
    omega

/-- A word with valid 0 is discarded. -/
theorem takeWord_invalid {w : BitVec 32} (h : wordValid w = false) : takeWord w s = s := by
  simp only [takeWord, h, Bool.false_eq_true, if_false]

/-- A word for a CLOSED lane is discarded, and any other added to its lane's transmit FIFO. -/
theorem takeWord_valid {w : BitVec 32} (h : wordValid w = true) (hs : s.StreamsClean) :
    takeWord w s = if laneClosed s (wordLane w) then s else addTx (wordLane w) (wordSample w) s := by
  simp only [takeWord, h, if_true, readStreams_clean _ _ hs, Course.finally_on, Course.state_on]

theorem addTx_room {l : LaneNo} {x : Sample} (h : (s.lanes.txFifo.get l).length < 32) : addTx l x s = { s with
    lanes.txFifo := s.lanes.txFifo.set l (s.lanes.txFifo.get l ++ [.fresh x]) } := by
  simp only [addTx, fifoAdd_room h, Bool.false_eq_true, if_false]

theorem addTx_full {l : LaneNo} {x : Sample} (h : 32 ≤ (s.lanes.txFifo.get l).length) : addTx l x s = raise .lane { s with
    lanes.txFifo := s.lanes.txFifo.set l ((s.lanes.txFifo.get l).tail ++ [.fresh x])
    lanes.txOverrun := s.lanes.txOverrun.set l true } := by
  simp only [addTx, fifoAdd_full h, if_true]

/-- An incoming word changes neither the period nor SMPOUT. -/
theorem takeWord_port (w : BitVec 32) (hs : s.StreamsClean) : (takeWord w s).pins = s.pins ∧
    (takeWord w s).lanes.period = s.lanes.period ∧ (takeWord w s).lanes.smpOut = s.lanes.smpOut := by
  cases hvalid : wordValid w with
  | false =>
    rw [takeWord_invalid hvalid]
    exact ⟨rfl, rfl, rfl⟩
  | true =>
    rw [takeWord_valid hvalid hs]
    split
    · exact ⟨rfl, rfl, rfl⟩
    · by_cases h : 32 ≤ (s.lanes.txFifo.get (wordLane w)).length
      · rw [addTx_full h]
        exact ⟨rfl, rfl, rfl⟩
      · rw [addTx_room (Nat.not_le.mp h)]
        exact ⟨rfl, rfl, rfl⟩

/-! ## The SMPCLK periods of a word period (R119) -/

variable {p : WordPeriod} {bits : List Bool}

/-- SMPCLK periods that do not fill the word period leave SMPOUT at the bit that the last falling edge has driven. -/
theorem clockBits_level (hr : s.Running) (hp : s.lanes.period = some p) (hc : p.collected = []) (hpos : 1 ≤ bits.length)
    (hlen : bits.length < 32) :
    smpOutLevel (bits.foldl clockBit s) = p.out.getLsbD (32 - bits.length) ∧
    (bits.foldl clockBit s).lanes.period = some { p with collected := bits } := by
  have hne : bits ≠ [] := List.ne_nil_of_length_pos hpos
  have hplace : 32 - 1 - (bits.length - 1) = 32 - bits.length := by omega
  rw [clockBits_short bits s p hp (by rw [hc, List.length_nil]; omega)]
  simp only [smpOutLevel, hr, hc, hne, if_false, List.length_nil, Nat.zero_add, List.nil_append, Bool.not_false, Bool.true_and,
    and_true]
  rw [BitVec.getMsbD_eq_getLsbD, hplace, decide_eq_true (by omega), Bool.true_and]

/-- 32 SMPCLK periods fill the word period: the last drives bit 0 and ends it, and the word collected is taken. -/
theorem clockBits_full (hp : s.lanes.period = some p) (hc : p.collected = []) (hlen : bits.length = 32) :
    bits.foldl clockBit s = takeWord (BitVec.ofNat 32 (natOf bits))
      { s with lanes.period := none, lanes.smpOut := p.out.getLsbD 0 } := by
  obtain ⟨init, b, rfl⟩ := List.eq_nil_or_concat' bits |>.resolve_left (List.ne_nil_of_length_pos (by omega))
  have hinit : init.length = 31 := by simpa using hlen
  rw [List.foldl_append, clockBits_short init s p hp (by rw [hc, List.length_nil]; omega), List.foldl_cons, List.foldl_nil,
    clockBit_last _ { p with collected := p.collected ++ init } b rfl (by simp [hc, hinit]), hc, BitVec.getMsbD_eq_getLsbD]
  rfl

/-- The 32nd falling edge ends the period at bit 0, and the falling edge after it holds SMPOUT low. -/
theorem clockBits_ends (hr : s.Running) (hs : s.StreamsClean) (hp : s.lanes.period = some p) (hc : p.collected = [])
    (hlen : bits.length = 32) :
    smpOutLevel (bits.foldl clockBit s) = p.out.getLsbD 0 ∧ (bits.foldl clockBit s).lanes.period = none ∧
    smpOutLevel (fallingEdge (bits.foldl clockBit s)) = false := by
  rw [clockBits_full hp hc hlen]
  obtain ⟨hpins, hperiod, hout⟩ := takeWord_port (BitVec.ofNat 32 (natOf bits))
    (s := { s with lanes.period := none, lanes.smpOut := p.out.getLsbD 0 }) hs
  generalize takeWord _ _ = t at *
  have hrt : t.Running := (congrArg Pins.resetnLow hpins).trans hr
  refine ⟨?_, hperiod, ?_⟩
  · rw [smpOutLevel, hout, hrt]
    rfl
  · rw [fallingEdge_between hrt hperiod, smpOutLevel_driveOut false hrt]

/-! ## The end of a word period (R119, R120) -/

/-- The Sample Port after the end of a word period: SMPSYNC and SMPOUT low, between periods. -/
abbrev State.periodEnded (s : State) : State :=
  { s with lanes := { s.lanes with smpSync := false, period := none, smpOut := false } }

theorem driveOut_addTx (level : Bool) (l : LaneNo) (x : Sample) (s : State) :
    driveOut level (addTx l x s) = addTx l x (driveOut level s) := by
  by_cases h : 32 ≤ (s.lanes.txFifo.get l).length
  · rw [addTx_full h, addTx_full (s := driveOut level s) h]
    rfl
  · rw [addTx_room (Nat.not_le.mp h), addTx_room (s := driveOut level s) (Nat.not_le.mp h)]
    rfl

variable {w : BitVec 32}

theorem execWordPeriodEnd_invalid (hr : s.Running) (hp : s.lanes.period = some p) (hw : wordValid w = false) :
    exec (.wordPeriodEnd w) s = .next s.periodEnded := by
  rw [exec, execWordPeriodEnd_eq s w p hr hp, takeWord_invalid hw]
  rfl

theorem execWordPeriodEnd_closed (hr : s.Running) (hp : s.lanes.period = some p) (hs : s.StreamsClean) (hw : wordValid w = true)
    (hc : (laneOfState s (wordLane w)).state = .closed) : exec (.wordPeriodEnd w) s = .next s.periodEnded := by
  rw [exec, execWordPeriodEnd_eq s w p hr hp, takeWord_valid hw (by exact hs), if_pos (by exact decide_eq_true hc)]
  rfl

theorem execWordPeriodEnd_taken (hr : s.Running) (hp : s.lanes.period = some p) (hs : s.StreamsClean) (hw : wordValid w = true)
    (hc : (laneOfState s (wordLane w)).state ≠ .closed) :
    exec (.wordPeriodEnd w) s = .next (addTx (wordLane w) (wordSample w) s.periodEnded) := by
  rw [exec, execWordPeriodEnd_eq s w p hr hp, takeWord_valid hw (by exact hs),
    if_neg (by exact fun h => hc (of_decide_eq_true h)), driveOut_addTx]
  rfl

/-- Without a period in progress the end changes nothing (log 6). -/
theorem execWordPeriodEnd_between (hr : s.Running) (hp : s.lanes.period = none) : exec (.wordPeriodEnd w) s = .next s := by
  simp only [exec, execWordPeriodEnd, hr, hp, Bool.false_eq_true, if_false]

end

/-- Settles O44: the lane served, the level at each edge, and the word handed on, clause by clause. -/
theorem samplePortWords : Obligations.SamplePortWords := by
  refine ⟨fun s hlow => ⟨smpOutLevel_low hlow, ?_, fun sync input => risingEdge_low hlow sync input⟩, fun s hr => ?_⟩
  · rw [fallingEdge_low hlow]
    exact smpOutLevel_low hlow
  intro begun
  refine ⟨fun d w ws => ?_, fun hempty => ?_, sampleSync_held, fun hsync => ?_,
    fun sync input => risingEdge_level sync input s, fun hsync hempty => risingEdge_begins hr hsync hempty,
    fun hp => ⟨?_, fun w => execWordPeriodEnd_between hr hp⟩, fun p hp => ?_⟩
  · intro l hlow hq hw
    have hserved := servedLane_first d hlow (hq.trans_ne (List.cons_ne_nil w ws))
    rw [execWordPeriodBegin_served hr hserved hq, hw, sampleWord_eq, takenSample, hw]
    rfl
  · rw [exec, execWordPeriodBegin_eq s hr, chooseWord_empty (s := { s with lanes.smpSync := true }) hempty]
    rfl
  · rw [exec, execWordPeriodBegin_eq s hr, sampleSync_rises hsync]
  · rw [fallingEdge_between hr hp, smpOutLevel_driveOut false hr]
  · refine ⟨fun hc bits hpos => ⟨clockBits_level hr hp hc hpos, fun hlen hs => clockBits_ends hr hs hp hc hlen⟩,
      fun l x junk hs => ?_⟩
    intro word ended quiet
    have hinvalid : wordValid (word 0) = false := (incomingWord_fields (by decide) l junk x).1
    obtain ⟨hvalid, hlane, hsample⟩ : wordValid (word 1) = true ∧ wordLane (word 1) = l ∧ wordSample (word 1) = x :=
      incomingWord_fields (by decide) l junk x
    refine ⟨execWordPeriodEnd_invalid hr hp hinvalid, fun hclosed => execWordPeriodEnd_closed hr hp hs hvalid (hlane ▸ hclosed),
      fun hopen hroom => ?_, fun hopen hfull => ?_⟩
    · rw [execWordPeriodEnd_taken hr hp hs hvalid (hlane ▸ hopen), hlane, hsample, addTx_room (s := s.periodEnded) hroom]
    · rw [execWordPeriodEnd_taken hr hp hs hvalid (hlane ▸ hopen), hlane, hsample, addTx_full (s := s.periodEnded) hfull]
      rfl

end Sys2Proof.Machine
end

section
/-! Notes sent (R133, R135 to R141): the completion of a note in its window judged, the spacing countdown, and the
attempt limit. -/

namespace Sys2Proof.Machine

section
variable {s : State} {ds rest : List TxNote} {n : TxNote} {rb : Readback} {a : Answer}

/-! ## Entries rewritten behind the DONE ones (R133, R139) -/

theorem TxNote.finish_clean (h : n.control = .clean) (o : NoteOutcome) :
    n.finish o = { n with state := .done, outcome := some o, countdown := 0, ending := .none } := by
  rw [TxNote.finish, ← h]

theorem finishNote_eq (ht : s.notes.tx = ds ++ n :: rest) (o : NoteOutcome) : finishNote ds.length o s =
    { s with notes := { s.notes with tx := ds ++ n.finish o :: rest }, alerts := s.alerts.raise .noteDone } := by
  rw [finishNote, updateTx_behind ht]
  rfl

/-! ## The result of an attempt (R136, R137) -/

theorem attemptOutcome_wide (limit attempts : Nat) {kind : DestKind} (h : kind ≠ .station) (a : Answer) :
    attemptOutcome limit attempts kind .good a = some .sent := by
  cases kind with
  | station => exact absurd rfl h
  | group => rfl
  | all => rfl

theorem attemptOutcome_mismatch (limit attempts : Nat) (kind : DestKind) (a : Answer) :
    attemptOutcome limit attempts kind .mismatch a = if limit ≤ attempts then some .noAnswer else none := by
  cases kind <;> rfl

/-! ## The judgement (R135 to R141) -/

/-- An entry with one attempt more (R135). -/
def TxNote.tried (n : TxNote) : TxNote := { n with attempts := n.attempts + 1 }

/-- The note in its window, with its attempt counted, DONE with an outcome. -/
abbrev State.noteEnds (ds : List TxNote) (n : TxNote) (rest : List TxNote) (o : NoteOutcome) (s : State) : State :=
  { s with
    notes := { s.notes with tx := ds ++ n.tried.finish o :: rest }
    alerts := s.alerts.raise .noteDone }

/-- The note in its window after a result that is not final: ended as it is marked, or waiting for its next try (R138, R140,
R141). -/
def State.noteGoesOn (ds : List TxNote) (n : TxNote) (rest : List TxNote) (s : State) : State :=
  match n.ending with
  | .none => { s with notes := { s.notes with
      tx := ds ++ { n.tried with countdown := s.port.config.noteSpacing } :: rest
      countdownFresh := true } }
  | .abort => s.noteEnds ds n rest .aborted
  | .discard => s.noteEnds ds n rest .discarded

theorem updateTx_tried (ht : s.notes.tx = ds ++ n :: rest) :
    updateTx ds.length (fun m => { m with attempts := n.attempts + 1 }) s =
      { s with notes := { s.notes with tx := ds ++ n.tried :: rest } } := updateTx_behind ht _

theorem judgeNote_final {o : NoteOutcome} (ht : s.notes.tx = ds ++ n :: rest)
    (h : attemptOutcome s.port.config.noteAttempts (n.attempts + 1) n.kind rb a = some o) :
    judgeNote ds.length n rb a s = s.noteEnds ds n rest o := by
  simp only [judgeNote, h, updateTx_tried ht]
  exact finishNote_eq rfl o

theorem judgeNote_open (ht : s.notes.tx = ds ++ n :: rest)
    (h : attemptOutcome s.port.config.noteAttempts (n.attempts + 1) n.kind rb a = none) :
    judgeNote ds.length n rb a s = s.noteGoesOn ds n rest := by
  simp only [judgeNote, h, updateTx_tried ht, State.noteGoesOn]
  cases n.ending with
  | none =>
    dsimp only
    rw [updateTx_behind rfl]
  | abort => exact finishNote_eq rfl .aborted
  | discard => exact finishNote_eq rfl .discarded

theorem noteGoesOn_frame (ds : List TxNote) (n : TxNote) (rest : List TxNote) (s : State) :
    (s.noteGoesOn ds n rest).line = s.line ∧ (s.noteGoesOn ds n rest).mode = s.mode := by
  unfold State.noteGoesOn
  cases n.ending <;> exact ⟨rfl, rfl⟩

/-- The completion of a note whose words read clean is judged as it stands. -/
theorem execCompleted_note {st : Station} {b : Body} (hr : s.Running) (ho : s.mode.actual ≠ .off)
    (hl : s.line.onLine = some (.message .note st b)) (ht : s.notes.tx = ds ++ n :: rest) (hd : ∀ d ∈ ds, d.state = .done)
    (hn : n.state = .active) (hc : n.control = .clean) (hb : n.body = .clean) :
    exec (.ownTransmissionCompleted rb a) s = .next (countReadback rb (judgeNote ds.length n rb a s.completed)) := by
  have hactive : activeNote s.completed = some ds.length := activeNote_behind ht hd hn
  have hi : s.completed.notes.tx[ds.length]? = some n := by simp [ht]
  simp only [exec, execOwnTransmissionCompleted, lineEvent_on hr ho, hl, completeField, noteCompleted, hactive, hi,
    readTx_clean hi hc hb]

/-! ## The spacing countdown (R138) -/

theorem spaceActive_behind (ht : s.notes.tx = ds ++ n :: rest) (hd : ∀ d ∈ ds, d.state = .done) (hn : n.state = .active)
    (hc : n.control = .clean) (due : Nat → Bool) : spaceActive due s =
      if due n.countdown then
        { s with notes := { s.notes with tx := ds ++ { n with countdown := n.countdown - 1 } :: rest } }
      else s := by
  have hi : s.notes.tx[ds.length]? = some n := by simp [ht]
  have hdown : decreaseCountdown ds.length n s =
      { s with notes := { s.notes with tx := ds ++ { n with countdown := n.countdown - 1 } :: rest } } := by
    simp only [decreaseCountdown, hc, reduceCtorEq, if_false, recordRead, updateTx_behind ht]
  simp only [spaceActive, activeNote_behind ht hd hn, hi, hdown]

/-- A countdown that stands at 0 is left as it is by a decrease. -/
theorem spaceNotes_counts (ht : s.notes.tx = ds ++ n :: rest) (hd : ∀ d ∈ ds, d.state = .done) (hn : n.state = .active)
    (hc : n.control = .clean) (hfresh : s.notes.countdownFresh = false) : spaceNotes s =
      { s with notes := { s.notes with tx := ds ++ { n with countdown := n.countdown - 1 } :: rest } } := by
  simp only [spaceNotes, hfresh, Bool.false_eq_true, if_false, spaceActive_behind ht hd hn hc]
  by_cases hpos : 0 < n.countdown
  · rw [if_pos (decide_eq_true hpos)]
  · have hstay : n.countdown - 1 = n.countdown := by omega
    rw [if_neg (by simpa using hpos), hstay, ← ht, ← hfresh]

theorem spaceNotes_fresh (hfresh : s.notes.countdownFresh = true) :
    spaceNotes s = { s with notes := { s.notes with countdownFresh := false } } := if_pos hfresh

/-- A window without an intact message, at a station that sends none, is counted for the spacing and no more. -/
theorem execWindowEnded_bare {r : WindowReport} (hf : s.Framed) (hl : s.line.onLine = none)
    (hr : r = .empty ∨ r = .damaged) :
    exec (.windowEnded r) s = .next { spaceNotes s with line.wonWindow := false } := by
  have hlost : contenderLost s = s := by simp only [contenderLost, hl]
  rcases hr with rfl | rfl <;>
    simp only [exec, execWindowEnded, framedEvent_on hf, hlost, framed_on hf, if_false, takeWindow]

theorem execSpacingCountdownExpired_on (hr : s.Running) (ho : s.mode.actual ≠ .off) :
    exec .spacingCountdownExpired s = .next (spaceActive (· = 1) s) := by
  simp only [exec, execSpacingCountdownExpired, lineEvent_on hr ho]

/-! ## The attempt limit (R136) -/

theorem execNoteAttemptLimit_behind (hr : s.Running) (ho : s.mode.actual ≠ .off) (hl : s.line.onLine = none)
    (ht : s.notes.tx = ds ++ n :: rest) (hd : ∀ d ∈ ds, d.state = .done) (hn : n.state = .active) :
    exec (.noteAttemptLimit a) s = .next (if s.port.config.noteAttempts ≤ n.attempts then
      finishNote ds.length (limitOutcome n.kind a) s else s) := by
  have hi : s.notes.tx[ds.length]? = some n := by simp [ht]
  have hout : noteInWindow s = false := by simp only [noteInWindow, hl]
  simp only [exec, execNoteAttemptLimit, lineEvent_on hr ho, activeNote_behind ht hd hn, hi, hout, Bool.not_false,
    Bool.and_true, decide_eq_true_eq]

end

/-- Settles O32: the result of the attempt is final, or the note goes on as it is marked; and the readback is counted. -/
theorem noteIsJudgedAtCompletion : Obligations.NoteIsJudgedAtCompletion := by
  intro s st b ds n rest hr hm hl ht hd hn hc hb line ends waits goesOn last
  have ho : s.mode.actual ≠ .off := by rcases hm with hm | hm <;> simp [hm]
  have hends (o : NoteOutcome) (c : Nat) : ends o c = { s.completed.noteEnds ds n rest o with line := line c } := by
    rw [State.noteEnds, TxNote.finish_clean (n := n.tried) hc]
    rfl
  have hgoes (c : Nat) : goesOn c = { s.completed.noteGoesOn ds n rest with line := line c } := by
    simp only [goesOn, State.noteGoesOn]
    cases n.ending with
    | none => rfl
    | abort => exact hends .aborted c
    | discard => exact hends .discarded c
  have hcompleted (rb : Readback) (a : Answer) := execCompleted_note (rb := rb) (a := a) hr ho hl ht hd hn hc hb
  have hfinal {rb : Readback} {a : Answer} {o : NoteOutcome}
      (h : attemptOutcome s.port.config.noteAttempts (n.attempts + 1) n.kind rb a = some o) :
      exec (.ownTransmissionCompleted rb a) s = .next (countReadback rb (s.completed.noteEnds ds n rest o)) := by
    rw [hcompleted, judgeNote_final (s := s.completed) ht h]
  have hopen {rb : Readback} {a : Answer}
      (h : attemptOutcome s.port.config.noteAttempts (n.attempts + 1) n.kind rb a = none) :
      exec (.ownTransmissionCompleted rb a) s = .next (countReadback rb (s.completed.noteGoesOn ds n rest)) := by
    rw [hcompleted, judgeNote_open (s := s.completed) ht h]
  obtain ⟨hline, hmode⟩ := noteGoesOn_frame ds n rest s.completed
  have hgoesOff : (s.completed.noteGoesOn ds n rest).mode.actual ≠ .off := by rw [hmode]; exact ho
  refine ⟨fun hk => ?_, fun hk hlast => ?_, fun hk hlast => ?_, fun hk hlast => ?_, fun hk hlast => ?_, fun hk => ?_,
    fun hlim hlast => ?_, fun hlim hlast => ?_⟩
  · rw [hfinal (by rw [hk]; rfl), countReadback_good (by exact ho), hends]
  · rw [hfinal (by rw [hk]; exact if_pos hlast), countReadback_good (by exact ho), hends]
  · rw [hfinal (by rw [hk]; exact if_pos hlast), countReadback_good (by exact ho), hends]
  · rw [hopen (by rw [hk]; exact if_neg hlast), countReadback_good hgoesOff, hline, hgoes]
  · rw [hopen (by rw [hk]; exact if_neg hlast), countReadback_good hgoesOff, hline, hgoes]
  · rw [hfinal (attemptOutcome_wide _ _ hk _), countReadback_good (by exact ho), hends]
  · rw [hfinal ((attemptOutcome_mismatch ..).trans (if_pos hlast)), countReadback_mismatch (by exact ho) (by exact hlim),
      hends]
  · rw [hopen ((attemptOutcome_mismatch ..).trans (if_neg hlast)),
      countReadback_mismatch hgoesOff (by rw [hline]; exact hlim), hline, hgoes]

/-- Settles O33: what the three commands do with the ACTIVE entry behind the DONE ones. -/
theorem spacingAndAttemptLimit : Obligations.SpacingAndAttemptLimit := by
  intro s ds n rest hf hl ht hd hn hc _
  have hr : s.Running := hf.1
  have ho := framed_on hf
  refine ⟨fun hfresh r h => ?_, fun hfresh r h => ?_, fun h1 => ?_, fun h1 => ?_, fun o a ha hk hlimit => ?_,
    fun hless a => ?_⟩
  · rw [execWindowEnded_bare hf hl h, spaceNotes_counts ht hd hn hc hfresh]
  · rw [execWindowEnded_bare hf hl h, spaceNotes_fresh hfresh]
  · rw [execSpacingCountdownExpired_on hr ho, spaceActive_behind ht hd hn hc, if_pos (decide_eq_true h1), h1]
  · rw [execSpacingCountdownExpired_on hr ho, spaceActive_behind ht hd hn hc, if_neg (by simpa using h1)]
  · have hout : limitOutcome n.kind a = o := by
      rw [hk]
      rcases ha with ⟨rfl, rfl⟩ | ⟨rfl, rfl⟩ <;> rfl
    rw [execNoteAttemptLimit_behind hr ho hl ht hd hn, if_pos hlimit, hout, finishNote_eq ht, TxNote.finish_clean hc]
  · rw [execNoteAttemptLimit_behind hr ho hl ht hd hn, if_neg (Nat.not_le.mpr hless)]

end Sys2Proof.Machine
end

section
/-! The host's commands on notes (R132, R139, R140, R146). -/

namespace Sys2Proof.Machine

/-! ## SEND_NOTE (R132, check 5) -/

section
variable {own : Station} {tag kind number length : Byte} {payload : List Byte}

/-- What check 5 refuses of SEND_NOTE's parameters (R132). -/
abbrev BadSend (own : Station) (kind number length : Byte) (payload : List Byte) : Prop :=
  length.toNat < 1 ∨ 32 < length.toNat ∨ length.toNat ≠ payload.length ∨ 2 < kind.toNat ∨
    (kind = 0 ∧ (63 < number.toNat ∨ number.toNat = own.val)) ∨ (kind = 1 ∧ 15 < number.toNat)

theorem destKindOf_high {k : Nat} (h : 2 < k) : destKindOf k = none := by
  obtain ⟨m, rfl⟩ := Nat.exists_eq_add_of_le' h
  rfl

theorem sendParams_bad (h : BadSend own kind number length payload) : sendParams own tag kind number length payload = none := by
  by_cases hlen : 1 ≤ length.toNat ∧ length.toNat ≤ 32 ∧ length.toNat = payload.length
  · rw [sendParams, if_pos hlen]
    obtain ⟨hpos, hmax, hcarried⟩ := hlen
    rcases h with h | h | h | h | ⟨rfl, h⟩ | ⟨rfl, h⟩
    · omega
    · omega
    · exact absurd hcarried h
    · rw [destKindOf_high h]
    · exact if_neg (by omega)
    · exact if_neg (by omega)
  · exact if_neg hlen

theorem sendParams_station (h : ¬BadSend own 0 number length payload) :
    sendParams own tag 0 number length payload = some ⟨tag, .station, number.toNat, payload⟩ := by
  simp only [BadSend, true_and, not_or] at h
  rw [sendParams, if_pos (by omega)]
  exact if_pos (by omega)

theorem sendParams_group (h : ¬BadSend own 1 number length payload) :
    sendParams own tag 1 number length payload = some ⟨tag, .group, number.toNat, payload⟩ := by
  simp only [BadSend, true_and, not_or] at h
  rw [sendParams, if_pos (by omega)]
  exact if_pos (by omega)

theorem sendParams_all (h : ¬BadSend own 2 number length payload) :
    sendParams own tag 2 number length payload = some ⟨tag, .all, 0, payload⟩ := by
  simp only [BadSend, not_or] at h
  rw [sendParams, if_pos (by omega)]
  rfl

/-- Parameters that check 5 does not refuse are of one of the three kinds, and are taken. -/
theorem sendParams_good (h : ¬BadSend own kind number length payload) :
    ∃ p, sendParams own tag kind number length payload = some p := by
  have hkind : kind = 0 ∨ kind = 1 ∨ kind = 2 := by
    simp only [BadSend, not_or] at h
    bv_omega
  rcases hkind with rfl | rfl | rfl
  · exact ⟨_, sendParams_station h⟩
  · exact ⟨_, sendParams_group h⟩
  · exact ⟨_, sendParams_all h⟩

end

section
variable {s : State}

theorem sendBody_room (p : SendParams) (h : s.notes.tx.length < 4) : sendBody p s =
    answer .accepted [] { s with notes := { s.notes with tx := s.notes.tx ++ [TxNote.submitted p] } } := if_pos h

theorem sendBody_full (p : SendParams) (h : 4 ≤ s.notes.tx.length) : sendBody p s = answer .full [] s :=
  if_neg (Nat.not_lt.mpr h)

/-- A frame that carries 1 to 32 note bytes passes check 4 (R158, R179). -/
theorem execSendNote_framed {tag kind number length : Byte} {payload : List Byte} (h : 1 ≤ payload.length)
    (h32 : payload.length ≤ 32) : exec (.sendNote tag kind number length payload) s =
      .next (hostFrame (sendParams (own s) tag kind number length payload) memberOnly sendBody s) := by
  simp only [exec, execSendNote, if_pos (And.intro h h32)]

end

/-- Settles O53: the parameters that check 5 refuses or takes, then the mode, then the room. -/
theorem sendNoteAppendsAnEntry : Obligations.SendNoteAppendsAnEntry := by
  intro s tag kind number length payload hs h1 h32 bad send entry accepted
  have hsend : send = _ := execSendNote_framed h1 h32
  rw [hsend]
  refine ⟨fun hbad => ?_, fun hgood hm => ?_, fun hgood hm hfull => ?_, fun hgood hm hroom => ?_⟩
  · rw [hostFrame_bad hs (sendParams_bad hbad)]
  · obtain ⟨p, hp⟩ := sendParams_good (tag := tag) hgood
    rw [hostFrame_refused hs hp (decide_eq_false hm)]
  · obtain ⟨p, hp⟩ := sendParams_good (tag := tag) hgood
    rw [hostFrame_runs hs hp (decide_eq_true hm), sendBody_full p (by exact hfull)]
    rfl
  · have htaken {p : SendParams} (hp : sendParams (own s) tag kind number length payload = some p) :
        hostFrame (sendParams (own s) tag kind number length payload) memberOnly sendBody s =
          { s.answered .accepted [] with notes := { s.notes with tx := s.notes.tx ++ [TxNote.submitted p] } } := by
      rw [hostFrame_runs hs hp (decide_eq_true hm), sendBody_room p (by exact hroom)]
      rfl
    refine ⟨?_, ?_, ?_⟩
    · rintro rfl
      exact congrArg _ (htaken (sendParams_station hgood))
    · rintro rfl
      exact congrArg _ (htaken (sendParams_group hgood))
    · rintro rfl
      exact congrArg _ (htaken (sendParams_all hgood))

/-! ## NOTE_OUTCOME (R139) -/

section
variable {s : State} {ds rest : List TxNote} {n : TxNote}

theorem oldestDone_none (h : ∀ m ∈ s.notes.tx, m.state ≠ .done) : oldestDone s = none := by
  rw [oldestDone, List.findIdx?_eq_none_iff]
  exact fun m hm => decide_eq_false (h m hm)

theorem outcomeBody_empty (h : ∀ m ∈ s.notes.tx, m.state ≠ .done) : outcomeBody () s = answer .empty [] s := by
  simp only [outcomeBody, oldestDone_none h]

/-- The oldest DONE entry is returned with its outcome, and freed. -/
theorem outcomeBody_clean {o : NoteOutcome} (ht : s.notes.tx = ds ++ n :: rest) (hds : ∀ d ∈ ds, d.state ≠ .done)
    (hn : n.state = .done) (hc : n.control = .clean) (hb : n.body = .clean) (ho : n.outcome = some o) :
    outcomeBody () s = answer .done (outcomeBytes n o) { s with notes := { s.notes with tx := ds ++ rest } } := by
  have hi : s.notes.tx[ds.length]? = some n := by simp [ht]
  simp only [outcomeBody, oldestDone_behind ht hds hn, hi, readTx_clean hi hc hb, ho, Option.getD_some, freeNote_behind ht]

/-! ## ABORT_NOTES (R140) -/

theorem Ending.orAbort_eq (e : Ending) : e.orAbort = if e = .discard then .discard else .abort := by
  cases e <;> rfl

/-- The Note Unit once the open entries are ended, but for one that is left to its window with a mark. -/
abbrev NoteUnit.endedBy (o : NoteOutcome) (mark : Ending → Ending) (inWindow : Bool) (u : NoteUnit) : NoteUnit :=
  { u with tx := u.tx.map fun n =>
      if n.state = .done then n
      else if n.state = .active && inWindow then { n with ending := mark n.ending } else n.finish o }

/-- Where every open entry is left to its window no entry becomes DONE, and no alert is set. -/
theorem endNotes_left {o : NoteOutcome} {mark : Ending → Ending} {w : Bool} (hw : noteInWindow s = w)
    (h : ∀ m ∈ s.notes.tx, m.state = .done ∨ m.state = .active ∧ w = true) :
    endNotes o mark s = { s with notes := s.notes.endedBy o mark w } := by
  have hnone : (s.notes.tx.any fun n => n.state ≠ .done && !(n.state = .active && w)) = false := by
    rw [List.any_eq_false]
    intro m hm
    rcases h m hm with hd | ⟨ha, hw⟩
    · simp [hd]
    · simp [ha, hw]
  unfold endNotes
  simp only [hw, hnone, Bool.false_eq_true, if_false]

/-- An open entry that is not left to its window becomes DONE, and NOTE_DONE is set. -/
theorem endNotes_ended {o : NoteOutcome} {mark : Ending → Ending} {w : Bool} (hw : noteInWindow s = w)
    (h : ∃ m ∈ s.notes.tx, m.state ≠ .done ∧ (m.state ≠ .active ∨ w = false)) :
    endNotes o mark s = { s with notes := s.notes.endedBy o mark w, alerts := s.alerts.raise .noteDone } := by
  obtain ⟨m, hm, hopen, hout⟩ := h
  have hsome : (s.notes.tx.any fun n => n.state ≠ .done && !(n.state = .active && w)) = true :=
    List.any_eq_true.mpr ⟨m, hm, by rcases hout with ha | hin <;> simp [*]⟩
  unfold endNotes
  simp only [hw, hsome, if_true]
  rfl

/-- With every entry DONE there is nothing to end. -/
theorem endedBy_done {u : NoteUnit} (h : ∀ m ∈ u.tx, m.state = .done) (o : NoteOutcome) (mark : Ending → Ending)
    (w : Bool) : u.endedBy o mark w = u := by
  rw [NoteUnit.endedBy, List.map_congr_left fun m hm => if_pos (h m hm), List.map_id']

theorem activeNote_isSome : (activeNote s).isSome = true ↔ ∃ m ∈ s.notes.tx, m.state = .active := by
  simp [activeNote, List.findIdx?_isSome]

theorem abortBody_accepted (hw : noteInWindow s = true) (ha : ∃ m ∈ s.notes.tx, m.state = .active) :
    abortBody () s = answer .accepted [] (endNotes .aborted Ending.orAbort s) := by
  simp only [abortBody, hw, activeNote_isSome.mpr ha, Bool.and_self, if_true]

theorem abortBody_done (h : noteInWindow s = false ∨ ∀ m ∈ s.notes.tx, m.state ≠ .active) :
    abortBody () s = answer .done [] (endNotes .aborted Ending.orAbort s) := by
  have hleft : (noteInWindow s && (activeNote s).isSome) = false := by
    rw [Bool.and_eq_false_iff, ← Bool.not_eq_true (activeNote s).isSome, activeNote_isSome]
    exact h.imp_right fun ha ⟨m, hm, hact⟩ => ha m hm hact
  simp only [abortBody, hleft, Bool.false_eq_true, if_false]

/-! ## TAKE_NOTE (R146) -/

theorem takeBody_empty (h : s.notes.ring = []) : takeBody () s = answer .empty [] s := by
  simp only [takeBody, h]

theorem takeBody_clean {w : Stored RxNote} {ws : List (Stored RxNote)} (hq : s.notes.ring = w :: ws)
    (hw : w.health = .clean) :
    takeBody () s = answer .done (noteRecord w.val) { s with notes := { s.notes with ring := ws } } := by
  simp only [takeBody, hq, hw, recordRead, reduceCtorEq, if_false]

/-! ## The frames of the three commands -/

theorem execNoteOutcome_heard (hs : s.HostReady) : exec .noteOutcome s = .next (outcomeBody () s.heard) := by
  simp only [exec, execNoteOutcome, hostFrame_runs (permitted := everyMode) hs rfl rfl]

theorem execAbortNotes_heard (hs : s.HostReady) : exec .abortNotes s = .next (abortBody () s.heard) := by
  simp only [exec, execAbortNotes, hostFrame_runs (permitted := everyMode) hs rfl rfl]

theorem execTakeNote_heard (hs : s.HostReady) : exec .takeNote s = .next (takeBody () s.heard) := by
  simp only [exec, execTakeNote, hostFrame_runs (permitted := everyMode) hs rfl rfl]

end

/-- Settles O54: the body of each command on the frame as it was heard. -/
theorem noteCommands : Obligations.NoteCommands := by
  intro s hs aborted
  rw [execNoteOutcome_heard hs, execAbortNotes_heard hs, execTakeNote_heard hs]
  have haborted (w : Bool) : aborted w = s.notes.endedBy .aborted Ending.orAbort w := by
    simp only [aborted, NoteUnit.endedBy, Ending.orAbort_eq, TxNote.finish, Bool.and_comm]
  refine ⟨fun a n b ht ha hn hc hb o ho => ?_, fun h => ?_, fun h => ?_, fun hw h => ?_,
    fun hw hact => ⟨fun h => ?_, fun h => ?_⟩, fun w ws hq hw => ?_, fun h => ?_⟩
  · rw [outcomeBody_clean (by exact ht) ha hn hc hb ho]
    rfl
  · rw [outcomeBody_empty (by exact h)]
    rfl
  · have hnone : ∀ m ∈ s.notes.tx, m.state ≠ .active := fun m hm => by simp [h m hm]
    rw [abortBody_done (s := s.heard) (.inr hnone), endNotes_left (s := s.heard) rfl (fun m hm => .inl (h m hm)),
      endedBy_done (u := s.notes) h]
    rfl
  · have hended : ∃ m ∈ s.notes.tx, m.state ≠ .done ∧ (m.state ≠ .active ∨ false = false) :=
      h.imp fun m ⟨hm, hopen⟩ => ⟨hm, hopen, .inr rfl⟩
    rw [abortBody_done (s := s.heard) (.inl hw), endNotes_ended (s := s.heard) hw hended, haborted]
    rfl
  · have hended : ∃ m ∈ s.notes.tx, m.state ≠ .done ∧ (m.state ≠ .active ∨ true = false) :=
      h.imp fun m ⟨hm, hpending⟩ => ⟨hm, by simp [hpending], .inl (by simp [hpending])⟩
    rw [abortBody_accepted (s := s.heard) hw hact, endNotes_ended (s := s.heard) hw hended, haborted]
    rfl
  · have hleft : ∀ m ∈ s.notes.tx, m.state = .done ∨ m.state = .active ∧ true = true := fun m hm => by
      cases hstate : m.state with
      | pending => exact absurd hstate (h m hm)
      | active => exact .inr ⟨rfl, rfl⟩
      | done => exact .inl rfl
    rw [abortBody_accepted (s := s.heard) hw hact, endNotes_left (s := s.heard) hw hleft, haborted]
    rfl
  · rw [takeBody_clean (by exact hq) hw]
    rfl
  · rw [takeBody_empty (by exact h)]
    rfl

end Sys2Proof.Machine
end

section
/-! READ_SNAPSHOT (R149, R150, R155, R156, R166, R168): check 5, the words of either part of the buffer read in order, and
what the command's body makes of them. -/

namespace Sys2Proof.Machine

/-! ## Check 5 (R168) -/

section
variable {part first count : Byte}

/-- A request for map records that check 5 takes. -/
abbrev AsksMap (part first count : Byte) : Prop :=
  part = 0 ∧ 1 ≤ count.toNat ∧ count.toNat ≤ 8 ∧ first.toNat + count.toNat ≤ 48

/-- A request for queue records that check 5 takes. -/
abbrev AsksQueue (part first count : Byte) : Prop :=
  part = 1 ∧ 1 ≤ count.toNat ∧ count.toNat ≤ 8 ∧ 1 ≤ first.toNat ∧ first.toNat + count.toNat ≤ 17

theorem snapshotParams_map (h : AsksMap part first count) :
    snapshotParams part first count = some (.map first.toNat count.toNat) := by
  obtain ⟨rfl, hpos, hmax, hend⟩ := h
  rw [snapshotParams, if_pos ⟨hpos, hmax⟩]
  exact if_pos (by omega)

theorem snapshotParams_queue (h : AsksQueue part first count) :
    snapshotParams part first count = some (.queue first.toNat count.toNat) := by
  obtain ⟨rfl, hpos, hmax, hfirst, hend⟩ := h
  rw [snapshotParams, if_pos ⟨hpos, hmax⟩]
  exact if_pos (by omega)

theorem snapshotParams_asks (h : AsksMap part first count ∨ AsksQueue part first count) :
    ∃ p, snapshotParams part first count = some p :=
  h.elim (fun hm => ⟨_, snapshotParams_map hm⟩) fun hq => ⟨_, snapshotParams_queue hq⟩

theorem snapshotParams_bad (hm : ¬AsksMap part first count) (hq : ¬AsksQueue part first count) :
    snapshotParams part first count = none := by
  rw [snapshotParams]
  split
  · rename_i hcount
    obtain ⟨hpos, hmax⟩ := hcount
    split
    · rename_i hpart
      have hzero : part = 0 := BitVec.eq_of_toNat_eq hpart
      exact if_neg fun ⟨_, hend⟩ => hm ⟨hzero, hpos, hmax, hend⟩
    · rename_i hpart
      have hone : part = 1 := BitVec.eq_of_toNat_eq hpart
      exact if_neg fun ⟨hfirst, _, hend⟩ => hq ⟨hone, hpos, hmax, hfirst, hend⟩
    · rfl
  · rfl

end

/-! ## What reads of the buffer leave -/

/-- A read that gives data leaves the word with its contents and fresh check bits (R149). -/
theorem afterRead_fresh {α : Type} {w : Stored α} (hw : w.health ≠ .double) : w.afterRead = .fresh w.val := by
  obtain ⟨v, h⟩ := w
  cases h with
  | clean | single => rfl
  | double => exact absurd rfl hw

section
variable {s t u : State}

/-- A state that reads of the snapshot buffer have left: the buffer is as valid, as armed and as long, the tables and the
mode are as they were, and no alert is lost. -/
structure BufferRead (s t : State) : Prop where
  valid : t.port.snap.valid = s.port.snap.valid
  armed : t.port.snap.armed = s.port.snap.armed
  length : t.port.snap.queue.length = s.port.snap.queue.length
  alloc : t.alloc = s.alloc
  mode : t.mode = s.mode
  cycle : t.cycle = s.cycle
  streams : t.streams = s.streams
  stay : AlertsStay s t

theorem BufferRead.refl (s : State) : BufferRead s s := ⟨rfl, rfl, rfl, rfl, rfl, rfl, rfl, .of_eq rfl⟩

theorem BufferRead.trans (h : BufferRead s t) (g : BufferRead t u) : BufferRead s u :=
  ⟨g.valid.trans h.valid, g.armed.trans h.armed, g.length.trans h.length, g.alloc.trans h.alloc, g.mode.trans h.mode,
    g.cycle.trans h.cycle, g.streams.trans h.streams, h.stay.trans g.stay⟩

/-- One word written back and its verdict recorded. -/
theorem BufferRead.recorded {b : SnapshotBuffer} (hv : b.valid = s.port.snap.valid) (ha : b.armed = s.port.snap.armed)
    (hl : b.queue.length = s.port.snap.queue.length) (i : Nat) (h : Health) :
    BufferRead s (recordRead .snapshot i h { s with port.snap := b }) := by
  obtain ⟨-, hcycle, hmode, halloc, hstreams, -, -, hport, -⟩ := recordRead_frame .snapshot i h { s with port.snap := b }
  exact ⟨by rw [hport]; exact hv, by rw [hport]; exact ha, by rw [hport]; exact hl, halloc, hmode, hcycle, hstreams,
    AlertsStay.trans (t := { s with port.snap := b }) (.of_eq rfl) (recordRead_alertsStay ..)⟩

end

/-! ## The words of one part -/

/-- One part of the snapshot buffer by its places: the word there, if the capture holds one, its writing, its index in the
error record (R156) and the record returned for its contents (R168). -/
structure SnapWords (ι α : Type) where
  word : ι → SnapshotBuffer → Option (Stored α)
  write : ι → Stored α → SnapshotBuffer → SnapshotBuffer
  index : ι → Nat
  bytes : α → List Byte
  word_write : ∀ {i b v} (w), word i b = some v → word i (write i w b) = some w
  word_write_other : ∀ {i j} (w b), j ≠ i → word j (write i w b) = word j b
  write_word : ∀ {i b w}, word i b = some w → write i w b = b
  word_cycle : ∀ i b c, word i { b with cycle := c } = word i b
  keeps : ∀ i w b, (write i w b).cycle = b.cycle ∧ (write i w b).valid = b.valid ∧ (write i w b).armed = b.armed ∧
    (write i w b).queue.length = b.queue.length

/-- The captured map records. -/
def mapWords : SnapWords Slot SlotEntry where
  word n b := some (b.map.get n)
  write n w b := { b with map := b.map.set n w }
  index n := n.val
  bytes := mapRecord
  word_write w _ := congrArg some (Table.get_set_self _ _ w)
  word_write_other w b hj := congrArg some (Table.get_set_ne b.map _ _ w hj)
  write_word h := by
    cases h
    rw [set_get_self]
  word_cycle _ _ _ := rfl
  keeps _ _ _ := ⟨rfl, rfl, rfl, rfl⟩

/-- The captured queue records. -/
def queueWords : SnapWords Nat QueueEntry where
  word i b := b.queue[i]?
  write i w b := { b with queue := b.queue.set i w }
  index i := 48 + i
  bytes := queueRecord
  word_write w h := List.getElem?_set_self (List.getElem?_eq_some_iff.mp h).1
  word_write_other w b hj := List.getElem?_set_ne hj.symm
  write_word {i b w} h := by
    obtain ⟨hi, rfl⟩ := List.getElem?_eq_some_iff.mp h
    rw [List.set_getElem_self]
  word_cycle _ _ _ := rfl
  keeps _ _ _ := ⟨rfl, rfl, rfl, List.length_set⟩

namespace SnapWords

variable {ι α : Type} {p : SnapWords ι α} {s t u : State} {i : ι} {w : Stored α} {is js : List ι}

/-- The word at a place gives data, where there is one. -/
abbrev Gives (p : SnapWords ι α) (i : ι) (s : State) : Prop := ∀ w, p.word i s.port.snap = some w → w.health ≠ .double

/-- One word read. -/
def after (p : SnapWords ι α) (i : ι) (w : Stored α) (s : State) : State :=
  recordRead .snapshot (p.index i) w.health { s with port.snap := p.write i w.afterRead s.port.snap }

/-- The records at places in order, those that the capture holds, or none from the first double error on. -/
def reads (p : SnapWords ι α) : List ι → State → State × Option (List (List Byte))
  | [], s => (s, some [])
  | i :: is, s =>
    match p.word i s.port.snap with
    | none => p.reads is s
    | some w =>
      if w.health = .double then (p.after i w s, none)
      else ((p.reads is (p.after i w s)).1, (p.reads is (p.after i w s)).2.map (p.bytes w.val :: ·))

/-- The records of the words at places. -/
def records (p : SnapWords ι α) (is : List ι) (b : SnapshotBuffer) : List (List Byte) :=
  is.filterMap fun i => (p.word i b).map fun w => p.bytes w.val

theorem reads_absent (h : p.word i s.port.snap = none) : p.reads (i :: is) s = p.reads is s := by simp only [reads, h]

theorem reads_double (h : p.word i s.port.snap = some w) (hw : w.health = .double) :
    p.reads (i :: is) s = (p.after i w s, none) := by simp only [reads, h, hw, if_true]

theorem reads_gives (h : p.word i s.port.snap = some w) (hw : w.health ≠ .double) : p.reads (i :: is) s =
    ((p.reads is (p.after i w s)).1, (p.reads is (p.after i w s)).2.map (p.bytes w.val :: ·)) := by
  simp only [reads, h, if_neg hw]

theorem after_snap (p : SnapWords ι α) (i : ι) (w : Stored α) (s : State) :
    (p.after i w s).port.snap = p.write i w.afterRead s.port.snap := by
  simp only [after, recordRead_frame]

/-- A read that finds a double error leaves the word as it was (R150). -/
theorem after_double (h : p.word i s.port.snap = some w) (hw : w.health = .double) :
    p.after i w s = recordDouble .snapshot (p.index i) s := by
  simp only [after, hw, Stored.afterRead, recordRead, p.write_word h]

/-- What a read of the words at the places `is` leaves of the buffer, the alerts and the rest. -/
structure Read (p : SnapWords ι α) (is : List ι) (s t : State) : Prop where
  kept : BufferRead s t
  cycle : t.port.snap.cycle = s.port.snap.cycle
  words : ∀ i ∈ is, p.word i t.port.snap = (p.word i s.port.snap).map fun w => .fresh w.val
  others : ∀ i ∉ is, p.word i t.port.snap = p.word i s.port.snap
  corrected : ∀ i ∈ is, ∀ w, p.word i s.port.snap = some w → w.health = .single → t.HasAlert .memCorrected
  intact : (∀ i ∈ is, ∀ w, p.word i s.port.snap = some w → w.health = .clean) → t = s

theorem Read.nil (s : State) : p.Read [] s s where
  kept := .refl s
  cycle := rfl
  words := nofun
  others _ _ := rfl
  corrected := nofun
  intact _ := rfl

theorem Read.absent (h : p.word i s.port.snap = none) : p.Read [i] s s where
  kept := .refl s
  cycle := rfl
  words j hj := by rw [List.mem_singleton.mp hj, h, Option.map_none]
  others _ _ := rfl
  corrected j hj w hw := by rw [List.mem_singleton.mp hj, h] at hw; cases hw
  intact _ := rfl

theorem Read.one (h : p.word i s.port.snap = some w) (hw : w.health ≠ .double) : p.Read [i] s (p.after i w s) where
  kept := by
    obtain ⟨-, hvalid, harmed, hlength⟩ := p.keeps i w.afterRead s.port.snap
    exact .recorded hvalid harmed hlength _ _
  cycle := by rw [after_snap]; exact (p.keeps i w.afterRead s.port.snap).1
  words j hj := by
    rw [List.mem_singleton.mp hj, after_snap, p.word_write _ h, h, Option.map_some, afterRead_fresh hw]
  others j hj := by rw [after_snap, p.word_write_other _ _ (List.mem_singleton.not.mp hj)]
  corrected j hj v hv hsingle := by
    rw [List.mem_singleton.mp hj, h, Option.some.injEq] at hv
    rw [after, hv, hsingle]
    exact hasAlert_raise ..
  intact hclean := by
    have hw : w.health = .clean := hclean i List.mem_cons_self w h
    rw [after, hw, afterRead_clean w hw, p.write_word h]
    rfl

/-- A read changes no contents. -/
theorem Read.word_val (h : p.Read is s t) (i : ι) :
    (p.word i t.port.snap).map (·.val) = (p.word i s.port.snap).map (·.val) := by
  by_cases hi : i ∈ is
  · rw [h.words i hi, Option.map_map]
    rfl
  · rw [h.others i hi]

/-- A word that gave data before a read of others gives data after it. -/
theorem Read.gives (h : p.Read is s t) (hi : p.Gives i s) : p.Gives i t := by
  intro w hw
  by_cases hmem : i ∈ is
  · rw [h.words i hmem] at hw
    obtain ⟨v, -, rfl⟩ := Option.map_eq_some_iff.mp hw
    exact nofun
  · exact hi w (h.others i hmem ▸ hw)

theorem Read.records_eq (h : p.Read is s t) (js : List ι) : p.records js t.port.snap = p.records js s.port.snap := by
  have hmap (b : SnapshotBuffer) : p.records js b = js.filterMap fun i => ((p.word i b).map (·.val)).map p.bytes := by
    simp only [records, Option.map_map]
    rfl
  simp only [hmap, h.word_val]

theorem Read.append (h : p.Read is s t) (g : p.Read js t u) : p.Read (is ++ js) s u where
  kept := h.kept.trans g.kept
  cycle := g.cycle.trans h.cycle
  words i hi := by
    have hfresh (v : State) : ((p.word i v.port.snap).map fun w => Stored.fresh w.val) =
        ((p.word i v.port.snap).map (·.val)).map .fresh := by
      rw [Option.map_map]
      rfl
    by_cases hj : i ∈ js
    · rw [g.words i hj, hfresh, hfresh, h.word_val]
    · rw [g.others i hj, h.words i ((List.mem_append.mp hi).resolve_right hj)]
  others i hi := by
    rw [List.mem_append, not_or] at hi
    rw [g.others i hi.2, h.others i hi.1]
  corrected i hi w hw hsingle := by
    by_cases hmem : i ∈ is
    · exact g.kept.stay.stays _ (h.corrected i hmem w hw hsingle)
    · exact g.corrected i ((List.mem_append.mp hi).resolve_left hmem) w ((h.others i hmem).trans hw) hsingle
  intact hclean := by
    have ht : t = s := h.intact fun i hi => hclean i (List.mem_append_left js hi)
    subst ht
    exact g.intact fun i hi => hclean i (List.mem_append_right is hi)

/-- Words that all give data are read to the last, and their records returned. -/
theorem reads_eq (is : List ι) : ∀ {s : State}, (∀ i ∈ is, p.Gives i s) →
    ∃ t, p.reads is s = (t, some (p.records is s.port.snap)) ∧ p.Read is s t := by
  induction is with
  | nil => exact fun {s} _ => ⟨s, rfl, .nil s⟩
  | cons i is ih =>
    intro s h
    cases hi : p.word i s.port.snap with
    | none =>
      obtain ⟨t, heq, hread⟩ := ih fun j hj => h j (List.mem_cons_of_mem i hj)
      refine ⟨t, ?_, (Read.absent hi).append hread⟩
      rw [reads_absent hi, heq, records, records, List.filterMap_cons_none (by rw [hi, Option.map_none])]
    | some w =>
      have hone : p.Read [i] s (p.after i w s) := .one hi (h i List.mem_cons_self w hi)
      obtain ⟨t, heq, hread⟩ := ih fun j hj => hone.gives (h j (List.mem_cons_of_mem i hj))
      refine ⟨t, ?_, hone.append hread⟩
      rw [reads_gives hi (h i List.mem_cons_self w hi), heq, hone.records_eq, records, records,
        List.filterMap_cons_some (by rw [hi, Option.map_some]), Option.map_some]

/-- Behind words that give data the reading goes on where they leave off. -/
theorem reads_append (is js : List ι) : ∀ {s t : State} {rs}, p.reads is s = (t, some rs) →
    p.reads (is ++ js) s = ((p.reads js t).1, (p.reads js t).2.map (rs ++ ·)) := by
  induction is with
  | nil =>
    intro s t rs h
    cases h
    simp
  | cons i is ih =>
    intro s t rs h
    cases hi : p.word i s.port.snap with
    | none =>
      rw [reads_absent hi] at h
      rw [List.cons_append, reads_absent hi, ih h]
    | some w =>
      by_cases hw : w.health = .double
      · rw [reads_double hi hw] at h
        cases h
      · rw [reads_gives hi hw, Prod.mk.injEq, Option.map_eq_some_iff] at h
        obtain ⟨hstate, rs', hrs, rfl⟩ := h
        rw [List.cons_append, reads_gives hi hw, ih (Prod.ext hstate hrs), Option.map_map]
        rfl

/-- The first double error is recorded, and nothing is read after it (R150). -/
theorem reads_fails (his : ∀ j ∈ is, p.Gives j s) (hi : p.word i s.port.snap = some w) (hw : w.health = .double) :
    ∃ t, p.reads (is ++ i :: js) s = (recordDouble .snapshot (p.index i) t, none) ∧ BufferRead s t := by
  obtain ⟨t, heq, hread⟩ := p.reads_eq is his
  have hmem : i ∉ is := fun hmem => his i hmem w hi hw
  have hit : p.word i t.port.snap = some w := (hread.others i hmem).trans hi
  refine ⟨t, ?_, hread.kept⟩
  rw [reads_append is _ heq, reads_double hit hw, after_double hit hw, Option.map_none]

end SnapWords

theorem readSnapSlots_eq (ns : List Slot) : ∀ s : State, readSnapSlots ns s = mapWords.reads ns s := by
  induction ns with
  | nil => exact fun _ => rfl
  | cons n ns ih =>
    intro s
    have hword : mapWords.word n s.port.snap = some (s.port.snap.map.get n) := rfl
    have hread : readSnapSlot n s =
        (mapWords.after n (s.port.snap.map.get n) s, decide ((s.port.snap.map.get n).health ≠ .double)) := rfl
    by_cases hw : (s.port.snap.map.get n).health = .double
    · rw [SnapWords.reads_double hword hw, readSnapSlots, hread, decide_eq_false (not_not.mpr hw)]
    · rw [SnapWords.reads_gives hword hw, readSnapSlots, hread, decide_eq_true hw, ← ih]
      dsimp only
      split
      · rename_i heq
        rw [heq, Option.map_none]
      · rename_i heq
        rw [heq]
        rfl

theorem readSnapEntries_eq (is : List Nat) : ∀ s : State, readSnapEntries is s = queueWords.reads is s := by
  induction is with
  | nil => exact fun _ => rfl
  | cons i is ih =>
    intro s
    rw [readSnapEntries]
    split
    · rename_i hi
      rw [SnapWords.reads_absent hi, ih]
    · rename_i w hi
      have hread : readSnapEntry i w s = (queueWords.after i w s, decide (w.health ≠ .double)) := rfl
      by_cases hw : w.health = .double
      · rw [SnapWords.reads_double hi hw, hread, decide_eq_false (not_not.mpr hw)]
      · rw [SnapWords.reads_gives hi hw, hread, decide_eq_true hw, ← ih]
        dsimp only
        split
        · rename_i heq
          rw [heq, Option.map_none]
        · rename_i heq
          rw [heq]
          rfl

/-! ## The body (R155, R168) -/

section
variable {ι α : Type} {p : SnapWords ι α} {part : SnapshotPart} {s t : State} {i : ι} {w : Stored α} {is js : List ι}

/-- The state after the read of the captured cycle number (R156). -/
abbrev cycleRead (s : State) : State := (readSnapCycle s).1

theorem cycleRead_read (s : State) : BufferRead s (cycleRead s) :=
  .recorded (s := s) (b := { s.port.snap with cycle := s.port.snap.cycle.afterRead }) rfl rfl rfl _ _

theorem cycleRead_snap (s : State) :
    (cycleRead s).port.snap = { s.port.snap with cycle := s.port.snap.cycle.afterRead } := by
  simp only [cycleRead, readSnapCycle, recordRead_frame]

theorem readSnapCycle_double (h : s.port.snap.cycle.health = .double) :
    readSnapCycle s = (recordDouble .snapshot 64 s, false) := by
  simp only [readSnapCycle, h, Stored.afterRead, recordRead]
  rfl

theorem readSnapCycle_gives (h : s.port.snap.cycle.health ≠ .double) : readSnapCycle s = (cycleRead s, true) :=
  Prod.ext rfl (decide_eq_true h)

theorem cycleRead_clean (h : s.port.snap.cycle.health = .clean) : cycleRead s = s := by
  simp only [cycleRead, readSnapCycle, h, afterRead_clean _ h, recordRead]

/-- The read of the cycle number leaves every other word of the buffer. -/
theorem word_cycleRead (p : SnapWords ι α) (i : ι) (s : State) :
    p.word i (cycleRead s).port.snap = p.word i s.port.snap := by
  rw [cycleRead_snap, p.word_cycle]

theorem gives_cycleRead (h : p.Gives i s) : p.Gives i (cycleRead s) := fun w hw => h w (word_cycleRead p i s ▸ hw)

/-- What a READ_SNAPSHOT that meets a double error at an index leaves (R150, R155). -/
abbrev SnapshotFailed (index : Nat) (s t : State) : Prop :=
  t.port.response = some ⟨.notReady, []⟩ ∧ t.port.snap.valid = false ∧ t.port.snap.armed = s.port.snap.armed ∧
  t.errorRecord = some ⟨.snapshot, index, .double⟩ ∧ t.HasAlert .memFailed ∧ t.alloc = s.alloc ∧ t.mode = s.mode ∧
  t.cycle = s.cycle ∧ t.streams = s.streams

theorem snapFailed_failed (h : BufferRead s t) (index : Nat) :
    SnapshotFailed index s (snapFailed (recordDouble .snapshot index t)) :=
  ⟨rfl, rfl, h.armed, rfl, hasAlert_raise .memFailed t, h.alloc, h.mode, h.cycle, h.streams⟩

theorem snapshotBody_cycleFails (hv : s.port.snap.valid = true) (h : s.port.snap.cycle.health = .double) :
    SnapshotFailed 64 s (snapshotBody part s) := by
  simp only [snapshotBody, hv, if_true, readSnapCycle_double h]
  exact snapFailed_failed (.refl s) 64

theorem snapshotBody_wordFails (hpart : ∀ u, readSnapPart part u = p.reads (is ++ i :: js) u)
    (hv : s.port.snap.valid = true) (hc : s.port.snap.cycle.health ≠ .double) (his : ∀ j ∈ is, p.Gives j s)
    (hi : p.word i s.port.snap = some w) (hw : w.health = .double) :
    SnapshotFailed (p.index i) s (snapshotBody part s) := by
  obtain ⟨t, heq, hkept⟩ := SnapWords.reads_fails (js := js) (fun j hj => gives_cycleRead (his j hj))
    ((word_cycleRead p i s).trans hi) hw
  simp only [snapshotBody, hv, if_true, readSnapCycle_gives hc, hpart, heq]
  exact snapFailed_failed ((cycleRead_read s).trans hkept) _

/-- The response of a READ_SNAPSHOT whose words all give data: the header and the records (R168). -/
def SnapWords.response (p : SnapWords ι α) (is : List ι) (b : SnapshotBuffer) : List Byte :=
  snapHeader b (p.records is b).length ++ (p.records is b).flatten

theorem snapshotBody_answers (hpart : ∀ u, readSnapPart part u = p.reads is u) (hv : s.port.snap.valid = true)
    (hc : s.port.snap.cycle.health ≠ .double) (his : ∀ i ∈ is, p.Gives i s) :
    ∃ t, snapshotBody part s = answer .done (p.response is s.port.snap) t ∧ p.Read is (cycleRead s) t := by
  obtain ⟨t, heq, hread⟩ := p.reads_eq is fun i hi => gives_cycleRead (his i hi)
  refine ⟨t, ?_, hread⟩
  have hrecords : p.records is (cycleRead s).port.snap = p.records is s.port.snap := by
    simp only [SnapWords.records, word_cycleRead]
  have hheader (k : Nat) : snapHeader t.port.snap k = snapHeader s.port.snap k := by
    simp only [snapHeader, hread.cycle, hread.kept.length, cycleRead_snap, afterRead_val]
  simp only [snapshotBody, hv, if_true, readSnapCycle_gives hc, hpart, heq, hrecords, hheader, SnapWords.response]

/-- Of an intact buffer a READ_SNAPSHOT changes nothing (R168). -/
theorem snapshotBody_intact (hpart : ∀ u, readSnapPart part u = p.reads is u) (hv : s.port.snap.valid = true)
    (hc : s.port.snap.cycle.health = .clean)
    (his : ∀ i ∈ is, ∀ w, p.word i s.port.snap = some w → w.health = .clean) :
    snapshotBody part s = answer .done (p.response is s.port.snap) s := by
  obtain ⟨t, heq, hread⟩ := snapshotBody_answers hpart hv (by rw [hc]; nofun) fun i hi w hw => by
    rw [his i hi w hw]
    nofun
  rw [cycleRead_clean hc] at hread
  rw [heq, hread.intact his]

/-- What a READ_SNAPSHOT leaves of the words it reads, where all give data (R149). -/
structure SnapshotRead (p : SnapWords ι α) (is : List ι) (s t : State) : Prop where
  response : t.port.response = some ⟨.done, p.response is s.port.snap⟩
  valid : t.port.snap.valid = true
  cycle : t.port.snap.cycle = .fresh s.port.snap.cycle.val
  words : ∀ i ∈ is, p.word i t.port.snap = (p.word i s.port.snap).map fun w => .fresh w.val
  corrected : ∀ i ∈ is, ∀ w, p.word i s.port.snap = some w → w.health = .single → t.HasAlert .memCorrected

theorem snapshotBody_reads (hpart : ∀ u, readSnapPart part u = p.reads is u) (hv : s.port.snap.valid = true)
    (hc : s.port.snap.cycle.health ≠ .double) (his : ∀ i ∈ is, p.Gives i s) :
    SnapshotRead p is s (snapshotBody part s) := by
  obtain ⟨t, heq, hread⟩ := snapshotBody_answers hpart hv hc his
  rw [heq]
  refine ⟨rfl, (hread.kept.valid.trans (cycleRead_read s).valid).trans hv, ?_, fun i hi => ?_, fun i hi w hw => ?_⟩
  · exact hread.cycle.trans (by rw [cycleRead_snap]; exact afterRead_fresh hc)
  · exact (hread.words i hi).trans (by rw [word_cycleRead])
  · exact hread.corrected i hi w ((word_cycleRead p i s).trans hw)

theorem snapshotBody_invalid (h : s.port.snap.valid = false) : snapshotBody part s = answer .notReady [] s := by
  simp only [snapshotBody, h, Bool.false_eq_true, if_false]

end

/-! ## The places of a request (R168) -/

section
variable {f c : Nat}

theorem mem_slotsFrom {n : Slot} : n ∈ (allSlots.drop f).take c ↔ f ≤ n.val ∧ n.val < f + c := by
  simp only [allSlots, List.mem_iff_getElem, List.getElem_take, List.getElem_drop, List.getElem_finRange]
  constructor
  · rintro ⟨k, hk, rfl⟩
    simp only [List.length_take, List.length_drop, List.length_finRange] at hk
    simp only [Fin.val_cast]
    omega
  · rintro ⟨hf, hc⟩
    refine ⟨n.val - f, ?_, Fin.ext ?_⟩
    · simp only [List.length_take, List.length_drop, List.length_finRange]
      omega
    · simp only [Fin.val_cast]
      omega

theorem slotsFrom_split {n : Slot} (hf : f ≤ n.val) (hc : n.val < f + c) :
    ∃ a b, (allSlots.drop f).take c = a ++ n :: b ∧ ∀ m ∈ a, f ≤ m.val ∧ m < n := by
  obtain ⟨a, b, h⟩ := List.append_of_mem (mem_slotsFrom.mpr ⟨hf, hc⟩)
  have hsorted : ((allSlots.drop f).take c).Pairwise (· < ·) :=
    ((List.pairwise_lt_finRange 48).drop).take
  refine ⟨a, b, h, fun m hm => ⟨?_, ?_⟩⟩
  · exact (mem_slotsFrom.mp (h ▸ List.mem_append_left _ hm)).1
  · rw [h, List.pairwise_append] at hsorted
    obtain ⟨-, -, hbefore⟩ := hsorted
    exact hbefore m hm n List.mem_cons_self

theorem mapWords_response (h : f + c ≤ 48) (b : SnapshotBuffer) : mapWords.response ((allSlots.drop f).take c) b =
    snapHeader b c ++ ((allSlots.drop f).take c).flatMap fun n => mapRecord (b.map.get n).val := by
  have hrecords (ns : List Slot) : mapWords.records ns b = ns.map fun n => mapRecord (b.map.get n).val :=
    congrFun List.filterMap_eq_map ns
  have hlength : ((allSlots.drop f).take c).length = c := by
    rw [List.length_take, List.length_drop, allSlots, List.length_finRange]
    omega
  rw [SnapWords.response, hrecords, List.length_map, hlength, List.flatMap]

theorem filterMap_getElem? {α : Type} (q : List α) (c : Nat) :
    ∀ k, (List.range' k c).filterMap (q[·]?) = (q.drop k).take c := by
  induction c with
  | zero => exact fun k => rfl
  | succ c ih =>
    intro k
    rw [List.range'_succ]
    rcases Nat.lt_or_ge k q.length with hk | hk
    · rw [List.filterMap_cons_some (List.getElem?_eq_getElem hk), ih, List.drop_eq_getElem_cons hk, List.take_succ_cons]
    · rw [List.filterMap_cons_none (List.getElem?_eq_none hk), ih, List.drop_of_length_le hk,
        List.drop_of_length_le (by omega), List.take_nil, List.take_nil]

theorem queueWords_response (k c : Nat) (b : SnapshotBuffer) : queueWords.response (List.range' k c) b =
    snapHeader b ((b.queue.drop k).take c).length ++ ((b.queue.drop k).take c).flatMap fun w => queueRecord w.val := by
  have hrecords : queueWords.records (List.range' k c) b = ((b.queue.drop k).take c).map fun w => queueRecord w.val := by
    rw [← filterMap_getElem?, List.map_filterMap]
    rfl
  rw [SnapWords.response, hrecords, List.length_map, List.flatMap]

/-- The words at the places of a request are those of the positions asked for. -/
theorem mem_positions {α : Type} {q : List α} {w : α} {k c : Nat} :
    w ∈ (q.drop k).take c ↔ ∃ i ∈ List.range' k c, q[i]? = some w := by
  rw [← filterMap_getElem?, List.mem_filterMap]

theorem positions_split {i : Nat} (hf : f ≤ i + 1) (hc : i + 1 < f + c) (hpos : 1 ≤ f) :
    List.range' (f - 1) c = List.range' (f - 1) (i + 1 - f) ++ i :: List.range' (i + 1) (f + c - i - 2) := by
  have hsplit := List.range'_append_1 (s := f - 1) (m := i + 1 - f) (n := f + c - i - 1)
  rw [show f - 1 + (i + 1 - f) = i by omega, show i + 1 - f + (f + c - i - 1) = c by omega,
    show f + c - i - 1 = f + c - i - 2 + 1 by omega, List.range'_succ] at hsplit
  exact hsplit.symm

end

/-! ## The frame of the command -/

section
variable {part first count : Byte} {s : State}

theorem execReadSnapshot_heard {p : SnapshotPart} (hs : s.HostReady) (h : snapshotParams part first count = some p) :
    exec (.readSnapshot part first count) s = .next (snapshotBody p s.heard) := by
  simp only [exec, execReadSnapshot, hostFrame_runs (permitted := everyMode) hs h rfl]

theorem execReadSnapshot_bad (hs : s.HostReady) (hm : ¬AsksMap part first count) (hq : ¬AsksQueue part first count) :
    exec (.readSnapshot part first count) s = .next (s.answered .badParam []) := by
  simp only [exec, execReadSnapshot, hostFrame_bad (permitted := everyMode) hs (snapshotParams_bad hm hq)]

theorem readSnapPart_map (f c : Nat) (u : State) :
    readSnapPart (.map f c) u = mapWords.reads ((allSlots.drop f).take c) u := readSnapSlots_eq ..

theorem readSnapPart_queue (f c : Nat) (u : State) :
    readSnapPart (.queue f c) u = queueWords.reads (List.range' (f - 1) c) u := readSnapEntries_eq ..

end

/-- Settles O56: either part's words in order, behind the cycle number. -/
theorem snapshotReads : Obligations.SnapshotReads := by
  intro s part first count hs f c snap read header ofMap ofQueue mapBytes records queueBytes fails
  have hmap (h : ofMap) : read = .next (snapshotBody (.map f c) s.heard) := execReadSnapshot_heard hs (snapshotParams_map h)
  have hqueue (h : ofQueue) : read = .next (snapshotBody (.queue f c) s.heard) :=
    execReadSnapshot_heard hs (snapshotParams_queue h)
  have hasked (h : ofMap ∨ ofQueue) : ∃ p, read = .next (snapshotBody p s.heard) :=
    (snapshotParams_asks h).imp fun p hp => execReadSnapshot_heard hs hp
  have hmapBytes : ofMap → mapWords.response ((allSlots.drop f).take c) snap = mapBytes :=
    fun ⟨_, _, _, hend⟩ => mapWords_response hend snap
  have hqueueBytes : queueWords.response (List.range' (f - 1) c) snap = queueBytes := queueWords_response ..
  refine ⟨fun hv h hc hclean => ?_, fun hv h hc hclean => ?_, fun hv h hc => ?_, fun hv h hc n hf hn hfail hbefore => ?_,
    fun hv h hc i w hf hi hw hfail hbefore => ?_, fun hv h hc hgives => ?_, fun hv h hc hgives => ?_, fun hv h => ?_,
    execReadSnapshot_bad hs, rfl⟩
  · have hwords : ∀ n ∈ (allSlots.drop f).take c, ∀ w, mapWords.word n s.heard.port.snap = some w → w.health = .clean :=
      fun n _ w hw => Option.some.inj hw ▸ hclean n
    rw [hmap h, snapshotBody_intact (s := s.heard) (readSnapPart_map f c) hv hc hwords, ← hmapBytes h]
    rfl
  · have hwords : ∀ i ∈ List.range' (f - 1) c, ∀ w, queueWords.word i s.heard.port.snap = some w → w.health = .clean :=
      fun i _ w hw => hclean w (List.mem_of_getElem? hw)
    rw [hqueue h, snapshotBody_intact (s := s.heard) (readSnapPart_queue f c) hv hc hwords, ← hqueueBytes]
    rfl
  · obtain ⟨p, hp⟩ := hasked h
    exact ⟨_, hp, snapshotBody_cycleFails (s := s.heard) hv hc⟩
  · obtain ⟨a, b, hsplit, ha⟩ := slotsFrom_split hf hn
    have hgives : ∀ m ∈ a, mapWords.Gives m s.heard := fun m hm w hw =>
      Option.some.inj hw ▸ hbefore m (ha m hm).1 (ha m hm).2
    exact ⟨_, hmap h, snapshotBody_wordFails (s := s.heard)
      (fun u => hsplit ▸ readSnapPart_map f c u) hv hc hgives rfl hfail⟩
  · have ⟨_, _, _, hpos, _⟩ := h
    have hgives : ∀ j ∈ List.range' (f - 1) (i + 1 - f), queueWords.Gives j s.heard := fun j hj v hv => by
      rw [List.mem_range'_1] at hj
      exact hbefore j v (by omega) (by omega) hv
    exact ⟨_, hqueue h, snapshotBody_wordFails (s := s.heard)
      (fun u => positions_split hf hi hpos ▸ readSnapPart_queue f c u) hv hc hgives hw hfail⟩
  · have hwords : ∀ n ∈ (allSlots.drop f).take c, mapWords.Gives n s.heard := fun n hn w hw =>
      Option.some.inj hw ▸ hgives n (mem_slotsFrom.mp hn).1 (mem_slotsFrom.mp hn).2
    have hread := snapshotBody_reads (s := s.heard) (readSnapPart_map f c) hv hc hwords
    refine ⟨_, hmap h, hmapBytes h ▸ hread.response, hread.valid, hread.cycle, fun n hf hn => ?_⟩
    have hmem : n ∈ (allSlots.drop f).take c := mem_slotsFrom.mpr ⟨hf, hn⟩
    exact ⟨Option.some.inj (hread.words n hmem), hread.corrected n hmem _ rfl⟩
  · have hwords : ∀ i ∈ List.range' (f - 1) c, queueWords.Gives i s.heard := fun i hi w hw =>
      hgives w (mem_positions.mpr ⟨i, hi, hw⟩)
    have hread := snapshotBody_reads (s := s.heard) (readSnapPart_queue f c) hv hc hwords
    refine ⟨_, hqueue h, hqueueBytes ▸ hread.response, hread.valid, hread.cycle, ?_, fun w hw => ?_⟩
    · simp only [records, ← filterMap_getElem?, List.map_filterMap]
      exact List.filterMap_congr hread.words
    · obtain ⟨i, hi, hword⟩ := mem_positions.mp hw
      exact hread.corrected i hi w hword
  · obtain ⟨p, hp⟩ := hasked h
    rw [hp, snapshotBody_invalid (s := s.heard) hv]
    rfl

end Sys2Proof.Machine
end

section
/-! The alerts and the error record (R156, R171 to R175): flags by their bits, what clearing leaves of them, and the frames of
the four commands. -/

namespace Sys2Proof.Machine

/-! ## Flags by their bits (12.2.1) -/

section
variable {s : State} {u : AlertUnit} {a : Alert} {w : BitVec 24}

/-- Every bit of a flag set is an alert's. -/
theorem Alert.bit_surjective : ∀ i : Fin 18, ∃ a : Alert, a.bit = i := by
  have hlist : ∀ i : Fin 18, ∃ a ∈ [Alert.start, .mode, .stream, .queueAdopted, .conflict, .restart, .noteIn, .noteDone,
      .ringFull, .lane, .driverFault, .duplicate, .configMismatch, .lapse, .cmdError, .memCorrected, .memFailed,
      .snapshot], a.bit = i := by decide
  exact fun i => (hlist i).imp fun _ ha => ha.2

/-- ATTN is low exactly when an enabled flag is set (R175). -/
theorem attnLow_iff : attnLow s = true ↔ ∃ a : Alert, s.HasAlert a ∧ s.alerts.masks.getLsbD a.bit.val = true := by
  have hbits : s.alerts.flags &&& s.alerts.masks ≠ 0 ↔
      ∃ i : Fin 18, s.alerts.flags.getLsbD i.val = true ∧ s.alerts.masks.getLsbD i.val = true := by
    rw [ne_eq, BitVec.eq_of_getLsbD_eq_iff]
    simp only [Fin.exists_iff, not_forall, BitVec.ofNat_eq_ofNat, BitVec.getLsbD_zero, BitVec.getLsbD_and,
      Bool.not_eq_false, Bool.and_eq_true]
  rw [attnLow, bne_iff_ne, hbits]
  constructor
  · rintro ⟨i, hset⟩
    obtain ⟨a, rfl⟩ := Alert.bit_surjective i
    exact ⟨a, hset⟩
  · rintro ⟨a, hset⟩
    exact ⟨a.bit, hset⟩

/-- The flags but for those named. -/
abbrev AlertUnit.without (named : BitVec 18) (u : AlertUnit) : AlertUnit := { u with flags := u.flags &&& ~~~named }

theorem AlertUnit.isSet_without (named : BitVec 18) (u : AlertUnit) (a : Alert) :
    (u.without named).isSet a = (!named.getLsbD a.bit.val && u.isSet a) := by
  simp only [AlertUnit.isSet, BitVec.getLsbD_and, BitVec.getLsbD_not, a.bit.isLt, decide_true, Bool.true_and,
    Bool.and_comm]

theorem AlertUnit.clear_eq (named : BitVec 18) (holds : Bool) (u : AlertUnit) : u.clear named holds =
    if named.getLsbD Alert.noteIn.bit.val && holds then (u.without named).raise .noteIn else u.without named := by
  rw [AlertUnit.clear]
  split <;> rfl

/-- Of the flags named none is set after the clearing but NOTE_IN, where the ring holds a note; the others are as they were
(R173). -/
theorem AlertUnit.isSet_clear (named : BitVec 18) (holds : Bool) (u : AlertUnit) (a : Alert) :
    (u.clear named holds).isSet a =
      if named.getLsbD a.bit.val then decide (a = .noteIn) && holds else u.isSet a := by
  rw [clear_eq, apply_ite (fun v : AlertUnit => v.isSet a), isSet_raise, isSet_without]
  by_cases ha : a = .noteIn
  · subst ha
    generalize named.getLsbD Alert.noteIn.bit.val = isNamed
    cases isNamed <;> cases holds <;> simp
  · generalize named.getLsbD a.bit.val = isNamed
    cases isNamed <;> simp [ha]

/-! ## Check 5 of a flag set (R179) -/

theorem flagSetOf_eq (h : w.toNat < 2 ^ 18) : flagSetOf w = some (w.setWidth 18) := if_pos h

theorem flagSetOf_high (h : 2 ^ 18 ≤ w.toNat) : flagSetOf w = none := if_neg (Nat.not_lt.mpr h)

/-- The narrowing of a flag set keeps every flag's bit. -/
theorem getLsbD_flagSet (w : BitVec 24) (a : Alert) : (w.setWidth 18).getLsbD a.bit.val = w.getLsbD a.bit.val := by
  rw [BitVec.getLsbD_setWidth, decide_eq_true a.bit.isLt, Bool.true_and]

/-! ## The bodies and their frames -/

/-- Bit n of the last byte is lane n's flag: the byte is the sum of the places of the bits set (R172). -/
theorem alertRecord_eq (s : State) : alertRecord s =
    bytes24 (s.alerts.flags.setWidth 24) ++ bytes24 (s.alerts.masks.setWidth 24) ++
    [byteOf ((List.finRange 8).map fun l => bitAt (laneOfState s l).changed l.val).sum] := by
  rw [alertRecord, List.sum_eq_foldl, List.foldl_map]
  rfl

theorem alertsBody_clean (hc : s.StreamsClean) : alertsBody () s = answer .done (alertRecord s) s := by
  simp only [alertsBody, readAllLanes, readStreams_clean allLanes false hc, Course.state_on]

theorem execClearAlerts_heard (hs : s.HostReady) (h : w.toNat < 2 ^ 18) :
    exec (.clearAlerts w) s = .next (clearBody (w.setWidth 18) s.heard) := by
  simp only [exec, execClearAlerts, hostFrame_runs (permitted := everyMode) hs (flagSetOf_eq h) rfl]

/-- The flags that CLEAR_ALERTS leaves set. -/
theorem clearBody_hasAlert : (clearBody (w.setWidth 18) s).HasAlert a ↔
    if w.getLsbD a.bit.val then a = .noteIn ∧ s.notes.ring ≠ [] else s.HasAlert a := by
  have hset : (clearBody (w.setWidth 18) s).alerts.isSet a = _ := AlertUnit.isSet_clear ..
  rw [State.HasAlert, hset, getLsbD_flagSet]
  split
  · rw [Bool.and_eq_true, decide_eq_true_eq, Bool.not_eq_true', List.isEmpty_eq_false_iff]
  · rfl

theorem execSetAlertMask_heard (hs : s.HostReady) (h : w.toNat < 2 ^ 18) : exec (.setAlertMask w) s =
    .next { s.answered .done [] with alerts := { s.alerts with masks := w.setWidth 18 } } := by
  simp only [exec, execSetAlertMask, hostFrame_runs (permitted := everyMode) hs (flagSetOf_eq h) rfl]
  rfl

theorem execClearAlerts_bad (hs : s.HostReady) (h : 2 ^ 18 ≤ w.toNat) :
    exec (.clearAlerts w) s = .next (s.answered .badParam []) := by
  simp only [exec, execClearAlerts, hostFrame_bad (permitted := everyMode) hs (flagSetOf_high h)]

theorem execSetAlertMask_bad (hs : s.HostReady) (h : 2 ^ 18 ≤ w.toNat) :
    exec (.setAlertMask w) s = .next (s.answered .badParam []) := by
  simp only [exec, execSetAlertMask, hostFrame_bad (permitted := everyMode) hs (flagSetOf_high h)]

theorem execReadMemoryError_heard (hs : s.HostReady) :
    exec .readMemoryError s = .next (memoryErrorBody () s.heard) := by
  simp only [exec, execReadMemoryError, hostFrame_runs (permitted := everyMode) hs rfl rfl]

theorem memoryErrorBody_empty (h : s.errorRecord = none) : memoryErrorBody () s = answer .empty [] s := by
  simp only [memoryErrorBody, h]

theorem memoryErrorBody_record {r : ErrorRecord} (h : s.errorRecord = some r) :
    memoryErrorBody () s = answer .done (errorBytes r) { s with errorRecord := none } := by
  simp only [memoryErrorBody, h]

end

/-- Settles O57: the flags bit by bit, and the body of each command on the frame as it was heard. -/
theorem alertCommands : Obligations.AlertCommands := by
  refine ⟨fun s => attnLow_iff, fun s hs => ⟨fun hc => ?_, fun w hw => ?_, fun w hw => execSetAlertMask_heard hs hw,
    fun w hw => ⟨execClearAlerts_bad hs hw, execSetAlertMask_bad hs hw⟩, fun h => ?_, fun r h => ?_⟩⟩
  · rw [execReadAlerts_heard hs, alertsBody_clean (s := s.heard) hc, alertRecord_eq]
    rfl
  · exact ⟨_, execClearAlerts_heard hs hw, rfl, rfl, fun a => clearBody_hasAlert (s := s.heard)⟩
  · rw [execReadMemoryError_heard hs, memoryErrorBody_empty (s := s.heard) h]
    rfl
  · rw [execReadMemoryError_heard hs, memoryErrorBody_record (s := s.heard) h]
    rfl

end Sys2Proof.Machine
end

section
/-! The Command Port's frames (R157 to R159, R161, R162, R165, R169): what a frame does that is cut short or fails a check,
STATUS and CONFIGURE, and the frame that finds a RESET_STATION armed. -/

namespace Sys2Proof.Machine

/-! ## Frames that are not executed (R157, R158, R169) -/

section
variable {s : State} {code length : Byte} {payload : List Byte} {crc : BitVec 16}

/-! Checks 1 to 4 in their order: what the first that fails answers. -/

theorem frameFailure_tooLong (h : 40 < length.toNat) : frameFailure code length payload crc = some .tooLong := if_pos h

theorem frameFailure_badCrc (h : length.toNat ≤ 40) (hc : crc ≠ frameCrc (code :: length :: payload)) :
    frameFailure code length payload crc = some .badCrc := by
  rw [frameFailure, if_neg (by omega), if_pos hc]

theorem frameFailure_unknownCode (h : length.toNat ≤ 40) (hc : crc = frameCrc (code :: length :: payload))
    (hr : payloadRange code = none) : frameFailure code length payload crc = some .unknownCode := by
  rw [frameFailure, if_neg (by omega), if_neg (not_not_intro hc), hr]

theorem frameFailure_wrongLength {least greatest : Nat} (h : length.toNat ≤ 40)
    (hc : crc = frameCrc (code :: length :: payload)) (hr : payloadRange code = some (least, greatest))
    (hl : length.toNat < least ∨ greatest < length.toNat) :
    frameFailure code length payload crc = some .wrongLength := by
  rw [frameFailure, if_neg (by omega), if_neg (not_not_intro hc), hr]
  exact if_pos hl

theorem execFrameCheckFailed_refused {f : FrameFailure} (hs : s.HostReady)
    (h : frameFailure code length payload crc = some f) :
    exec (.frameCheckFailed code length payload crc) s = .next (refuseFrame f
      { s with port := { s.port with assembler := .turnaround 0, response := none } }) := by
  obtain ⟨hr, ha⟩ := hs
  simp only [exec, execFrameCheckFailed, hr, h, frameCollected_unarmed ha, Bool.false_eq_true, if_false]

theorem execFrameCutShort_cut (hs : s.HostReady) : exec .frameCutShort s = .next { s with
    port := { s.port with assembler := .idle, response := none }, alerts := s.alerts.raise .cmdError } := by
  obtain ⟨hr, ha⟩ := hs
  simp only [exec, execFrameCutShort, hr, frameBegun, csnRise_unarmed ha, Bool.false_eq_true, if_false]
  rfl

/-- The collection ends with a length byte above 40, or with the second CRC byte. -/
theorem assemblerAfter_cons (code length : Byte) (rest : List Byte) : assemblerAfter (code :: length :: rest) =
    if 40 < length.toNat ∨ length.toNat + 2 ≤ rest.length then .turnaround 0 else .command := by
  simp only [assemblerAfter, ite_or]

end

/-- Settles O45: each check that fails, and the bytes at which the collection ends. -/
theorem badFramesAreRefused : Obligations.BadFramesAreRefused := by
  refine ⟨?_, fun bytes h => ?_, assemblerAfter_cons⟩
  · intro s hs turned
    refine ⟨execFrameCutShort_cut hs, fun code length payload crc => ⟨fun h => ?_, fun h hc => ?_, fun h hc hr => ?_,
      fun least greatest h hc hr hl => ?_⟩⟩
    · exact execFrameCheckFailed_refused hs (frameFailure_tooLong h)
    · exact execFrameCheckFailed_refused hs (frameFailure_badCrc h hc)
    · exact execFrameCheckFailed_refused hs (frameFailure_unknownCode h hc hr)
    · exact execFrameCheckFailed_refused hs (frameFailure_wrongLength h hc hr hl)
  · match bytes with
    | [] | [_] => rfl
    | _ :: _ :: _ => simp at h

/-! ## STATUS (R161) -/

theorem statusRecord_eq (s : State) : statusRecord s =
    [s.mode.actual.code, s.mode.requested.code, s.mode.target.code, byteOf s.mode.withdrawCount, s.mode.cause.code,
      s.cycle.phase.code, s.cycle.cycleNumber.extractLsb' 8 8, s.cycle.cycleNumber.extractLsb' 0 8,
      byteOf s.cycle.marker.val, byteOf s.cycle.resyncAttempts, byteOf s.pins.station.val,
      (if s.line.driverEnable then 1 else 0), s.port.config.patience, s.port.config.reclaim.setWidth 8,
      byteOf s.port.config.noteAttempts, byteOf s.port.config.noteSpacing,
      byteOf ((if s.port.config.groupEnable then 128 else 0) + s.port.config.groupNumber),
      byteOf s.port.config.lapsePeriod] := by
  rw [statusRecord]
  cases s.line.driverEnable <;> rfl

theorem statusRecord_reset (n : Station) : statusRecord { State.reset with pins := ⟨n, false⟩ } =
    [0, 0, 0, 0, 0, 0, 0, 0, 0, 0, BitVec.ofNat 8 n.val, 0, 40, 8, 4, 2, 0, 0] := by
  have hnumber : bytes16 0 = [0, 0] := by decide
  change [0, 0, 0, 0, 0, 0] ++ bytes16 0 ++ [0, 0, BitVec.ofNat 8 n.val, 0, 40, 8, 4, 2, 0, 0] = _
  rw [hnumber]
  rfl

theorem execStatus_answers {s : State} (hs : s.HostReady) :
    exec .status s = .next (s.answered .done (statusRecord s)) := by
  simp only [exec, execStatus, hostFrame_runs (permitted := everyMode) hs rfl rfl]
  rfl

/-- Settles O47: the record's bytes, and those of the station reset. -/
theorem statusReturnsTheState : Obligations.StatusReturnsTheState := by
  refine ⟨fun s hs => ?_, fun n => ?_⟩
  · rw [execStatus_answers hs, statusRecord_eq]
  · rw [execStatus_answers ⟨rfl, rfl⟩, statusRecord_reset]

/-! ## CONFIGURE (R162) -/

section
variable {s : State} {p r a sp g lp : Byte}

/-- Parameters that check 5 takes (Table 10-5). -/
abbrev ConfigInRange (p r a sp g : Byte) : Prop :=
  1 ≤ p.toNat ∧ 2 ≤ r.toNat ∧ r.toNat ≤ 15 ∧ 1 ≤ a.toNat ∧ a.toNat ≤ 8 ∧ sp.toNat ≤ 7 ∧ g.toNat % 128 ≤ 15

/-- The configuration that the six parameters spell. -/
abbrev Configuration.ofBytes (p r a sp g lp : Byte) : Configuration :=
  { patience := p, reclaim := BitVec.ofNat 4 r.toNat, noteAttempts := a.toNat, noteSpacing := sp.toNat,
    groupEnable := g.getLsbD 7, groupNumber := g.toNat % 16, lapsePeriod := lp.toNat }

theorem configParams_inRange (h : ConfigInRange p r a sp g) :
    configParams p r a sp g lp = some (.ofBytes p r a sp g lp) := by
  have hreclaim : r.setWidth 4 = BitVec.ofNat 4 r.toNat := (BitVec.ofNat_toNat 4 r).symm
  obtain ⟨hp, hr, hr', ha, ha', hsp, hg⟩ := h
  rw [configParams, if_pos ⟨hp, hr, hr', ha, ha', hsp, Nat.lt_succ_of_le hg⟩, hreclaim]

theorem configParams_bad (h : ¬ConfigInRange p r a sp g) : configParams p r a sp g lp = none :=
  if_neg fun ⟨hp, hr, hr', ha, ha', hsp, hg⟩ => h ⟨hp, hr, hr', ha, ha', hsp, Nat.le_of_lt_succ hg⟩

theorem execConfigure_writes (hs : s.HostReady) (h : ConfigInRange p r a sp g) (hm : s.mode.actual = .off) :
    exec (.configure p r a sp g lp) s = .next (applyConfiguration (.ofBytes p r a sp g lp) s.heard) := by
  have hoff : offOnly s.mode.actual = true := decide_eq_true hm
  simp only [exec, execConfigure, hostFrame_runs hs (configParams_inRange h) hoff]

theorem execConfigure_refused (hs : s.HostReady) (h : ConfigInRange p r a sp g) (hm : s.mode.actual ≠ .off) :
    exec (.configure p r a sp g lp) s = .next (s.answered .refusedMode []) := by
  have hon : offOnly s.mode.actual = false := decide_eq_false hm
  simp only [exec, execConfigure, hostFrame_refused hs (configParams_inRange h) hon]

theorem execConfigure_bad (hs : s.HostReady) (h : ¬ConfigInRange p r a sp g) :
    exec (.configure p r a sp g lp) s = .next (s.answered .badParam []) := by
  simp only [exec, execConfigure, hostFrame_bad hs (configParams_bad h)]

end

/-- Settles O48: check 5, check 6, and the body in OFF. -/
theorem configureReplacesTheConfiguration : Obligations.ConfigureReplacesTheConfiguration :=
  fun _ _ _ _ _ _ _ hs => ⟨fun h hm => execConfigure_writes hs h hm, fun h hm => execConfigure_refused hs h hm,
    fun h => execConfigure_bad hs h⟩

/-! ## RESET_STATION (R157, R165) -/

section
variable {s : State} {i : Instr}

/-- A frame that finds a RESET_STATION armed is taken by the station reset. -/
theorem exec_frame_armed (hr : s.Running) (ha : s.port.resetArmed = true)
    (hi : codeAndPayload i ≠ none ∨ i = .frameCutShort) : exec i s = exec i (resetStation s) := by
  have hcollected : frameCollected s = frameCollected (resetStation s) := by
    rw [frameCollected, frameBegun_armed ha, frameCollected]
  have hframe {α : Type} {p : Option α} {ok : Mode → Bool} {b : α → State → State} :
      hostFrame p ok b s = hostFrame p ok b (resetStation s) := by
    rw [hostFrame_armed ha, if_neg (by simp [hr])]
  have hhost {α : Type} {p : Option α} {ok : Mode → Bool} {b : α → State → State} :
      (Host.Outcome.next (hostFrame p ok b s) : Out) = .next (hostFrame p ok b (resetStation s)) :=
    congrArg Host.Outcome.next hframe
  cases i with
  | frameCutShort =>
    simp only [exec, execFrameCutShort, resetStation_frame, hr, frameBegun_armed ha, Bool.false_eq_true, if_false]
  | sendNote tag kind number length payload =>
    have hown : own (resetStation s) = own s := rfl
    simp only [exec, execSendNote, hown, hframe, hcollected, resetStation_frame, hr, Bool.false_eq_true, if_false]
  | status => exact hhost
  | configure _ _ _ _ _ _ => exact hhost
  | setMode _ => exact hhost
  | openStream _ _ _ _ => exact hhost
  | closeStream _ => exact hhost
  | readStream _ => exact hhost
  | setListen _ _ _ _ _ => exact hhost
  | readListen _ => exact hhost
  | readLanes => exact hhost
  | noteOutcome => exact hhost
  | abortNotes => exact hhost
  | takeNote => exact hhost
  | snapshot => exact hhost
  | readSnapshot _ _ _ => exact hhost
  | readAlerts => exact hhost
  | clearAlerts _ => exact hhost
  | setAlertMask _ => exact hhost
  | readMemoryError => exact hhost
  | restartBus => exact hhost
  | resetStation => exact hhost
  | _ => exact absurd hi (by simp [codeAndPayload])

theorem execResetStation_arms (hs : s.HostReady) :
    exec .resetStation s = .next { s.answered .done [] with port.resetArmed := true } := by
  simp only [exec, execResetStation, hostFrame_runs (permitted := everyMode) hs rfl rfl]
  rfl

theorem execResetStationReset_armed (hr : s.Running) (ha : s.port.resetArmed = true) :
    exec .resetStationReset s = .next (resetStation s) := by
  simp only [exec, execResetStationReset, hr, csnRise_armed ha, Bool.false_eq_true, if_false]

end

/-- Settles O5: the command arms the reset, the rise of CSN makes it, and a next frame finds it made. -/
theorem resetStationActsAtCsn : Obligations.ResetStationActsAtCsn :=
  ⟨fun _ hs => execResetStation_arms hs, fun _ hr ha => ⟨execResetStationReset_armed hr ha, rfl, rfl, rfl, rfl, rfl, rfl, rfl,
    fun _ hi => exec_frame_armed hr ha hi⟩⟩

end Sys2Proof.Machine
end

section
/-! SNAPSHOT, and the capture at a mark adopted in LISTEN (R25, R39, R166, R167). -/

namespace Sys2Proof.Machine

section
variable {s : State} {m : MarkContents}

theorem execSnapshot_off (hs : s.HostReady) (hm : s.mode.actual = .off) :
    exec .snapshot s = .next (s.answered .refusedMode []) := by
  have hoff : notOff s.mode.actual = false := decide_eq_false (not_not_intro hm)
  simp only [exec, execSnapshot, hostFrame_refused hs rfl hoff]

theorem execSnapshot_heard (hs : s.HostReady) (hm : s.mode.actual ≠ .off) :
    exec .snapshot s = .next (armBody () s.heard) := by
  have hon : notOff s.mode.actual = true := decide_eq_true hm
  simp only [exec, execSnapshot, hostFrame_runs hs rfl hon]

theorem armBody_armed (ha : s.port.snap.armed = true) : armBody () s = answer .done [] s := if_pos ha

theorem armBody_unarmed (ha : s.port.snap.armed = false) :
    armBody () s = answer .accepted [] { s with port.snap.armed := true } := if_neg (by simp [ha])

/-- A capture that meets no error in the tables writes the buffer. -/
theorem capture_clean (ha : s.port.snap.armed = true) (ho : s.mode.actual ≠ .off) (hm : s.MapClean) (hq : s.QueueClean) :
    capture s = raise .snapshot { s with port.snap := captured s } := by
  simp only [capture, ha, ho, ne_eq, not_false_eq_true, decide_true, Bool.and_self, if_true, readMap_clean hm,
    Course.next_on, readQueue_clean hq]

/-- The snapshot holds each slot's entry without its field mark. -/
theorem captured_slot {n : Slot} {e : SlotEntry} (h : entryAt s n = e) : (captured s).map.get n = .fresh e.unmarked :=
  h ▸ Table.get_map ..

/-- What step (a) makes of a lawful mark with an equal stamp, at which no tick falls. -/
abbrev State.adopted (m : MarkContents) (s : State) : State := { s with
  cycle := { s.cycle with cycleNumber := m.cycle, marker := m.marker, phase := .rebuild }
  alloc := { s.alloc with queue := m.summary.map fun e => .fresh (entryOfSummary e), rebuildList := [] }
  alerts := s.alerts.raise .queueAdopted }

theorem adopted_queueClean (m : MarkContents) (s : State) : (s.adopted m).QueueClean := fun w hw => by
  obtain ⟨e, -, rfl⟩ := List.mem_map.mp hw
  rfl

/-- A mark adopted in LISTEN with the capture armed. -/
theorem execMarkReceived_captured (hr : s.Running) (hm : s.mode.actual = .listen) (hp : s.cycle.phase = .adopt)
    (ha : s.port.snap.armed = true) (hmap : s.MapClean)
    (hstamp : m.patience = s.port.config.patience ∧ m.reclaim = s.port.config.reclaim) (hlaw : lawful m = true)
    (hlen : m.summary.length ≤ 16) (htick : m.cycle.toNat % 1024 ≠ 0) :
    let u : State := ((markArrived s).adopted m).markOver
    exec (.markReceived (.intact m)) s = .next (raise .snapshot { u with port.snap := captured u }) := by
  intro u
  have ho : s.mode.actual ≠ .off := by simp [hm]
  have hmark : intactMark m (markArrived s) = .on ((markArrived s).adopted m) := by
    rw [intactMark_adopt (by exact hp), stepBegun_adopt (by exact hp)]
    exact adopt_lawful (s := markArrived s) hstamp hlaw htick ho true
  have hcapture : capture u = raise .snapshot { u with port.snap := captured u } :=
    capture_clean ha ho hmap (adopted_queueClean m (markArrived s))
  rw [execMarkReceived_intact hr ho hlen, hmark, Course.state_on, markEnd_uncounted (by simp [hm]), hcapture]

end

/-- Settles O55: the arming, and the capture at a mark adopted in LISTEN. -/
theorem snapshotIsArmedAndCaptured : Obligations.SnapshotIsArmedAndCaptured := by
  refine fun s hs => ⟨execSnapshot_off hs, fun hm ha => ?_, fun hm ha => ?_, fun m hm hp ha hmap hpat hrec hlaw hlen htick => ?_⟩
  · rw [execSnapshot_heard hs hm, armBody_armed (s := s.heard) ha]
    rfl
  · exact ⟨_, execSnapshot_heard hs hm, by rw [armBody_unarmed (s := s.heard) ha]; exact ⟨rfl, rfl⟩⟩
  · have hslot {n : Slot} {e : SlotEntry} (h : entryAt s n = e) :
        (captured ((markArrived s).adopted m).markOver).map.get n = .fresh e.unmarked := captured_slot (by exact h)
    refine ⟨_, execMarkReceived_captured hs.1 hm hp ha hmap ⟨hpat, hrec⟩ hlaw hlen htick, rfl, rfl, rfl, List.map_map,
      fun _ h => hslot h, fun _ _ h => hslot h, hasAlert_raise .snapshot _, rfl⟩

end Sys2Proof.Machine
end

section
/-! The frames of the host read back, byte by byte and bit by bit, and the bits of a response (R157 to R159, R177, R179,
Tables 10-1 and 10-2). -/

namespace Sys2Proof

/-! ## Codes, payloads and their lengths (Table 12-1) -/

section
variable {i : Instr} {code : Byte} {payload : List Byte}

/-- The bytes of a 16-bit quantity, put together again. -/
theorem bytes16_append (w : BitVec 16) : w.extractLsb' 8 8 ++ w.extractLsb' 0 8 = w :=
  BitVec.extractLsb'_append_extractLsb' (len := 8) (w := 8)

/-- The bytes of a flag set, put together again. -/
theorem bytes24_append (w : BitVec 24) : w.extractLsb' 16 8 ++ w.extractLsb' 8 8 ++ w.extractLsb' 0 8 = w := by
  have hhigh : w.extractLsb' 16 8 ++ w.extractLsb' 8 8 = w.extractLsb' 8 16 :=
    BitVec.extractLsb'_append_extractLsb'_eq_extractLsb' rfl
  have hall : w.extractLsb' 8 16 ++ w.extractLsb' 0 8 = w.extractLsb' 0 24 :=
    BitVec.extractLsb'_append_extractLsb'_eq_extractLsb' rfl
  rw [hhigh, hall, BitVec.extractLsb'_eq_self]

/-- A command's code and payload name it. -/
theorem commandOf_codeAndPayload (h : codeAndPayload i = some (code, payload)) : commandOf code payload = some i := by
  cases i <;> cases h
  case clearAlerts w => exact congrArg (fun v => some (Instr.clearAlerts v)) (bytes24_append w)
  case setAlertMask w => exact congrArg (fun v => some (Instr.setAlertMask v)) (bytes24_append w)
  all_goals rfl

/-- A command's payload has a length that its code requires. -/
theorem payloadRange_codeAndPayload (hw : i.wellFormed = true) (h : codeAndPayload i = some (code, payload)) :
    ∃ least greatest, payloadRange code = some (least, greatest) ∧ least ≤ payload.length ∧ payload.length ≤ greatest ∧
      greatest ≤ 40 := by
  cases i <;> cases h
  case sendNote tag kind number length note =>
    have hnote : 1 ≤ note.length ∧ note.length ≤ 32 := by simpa [Instr.wellFormed] using hw
    exact ⟨5, 36, rfl, by simp only [List.length_cons]; omega, by simp only [List.length_cons]; omega, by decide⟩
  all_goals exact ⟨_, _, rfl, Nat.le_refl _, Nat.le_refl _, by decide⟩

/-- A payload length of 40 or less is what its byte says. -/
theorem toNat_lengthByte (h : payload.length ≤ 40) : (BitVec.ofNat 8 payload.length : Byte).toNat = payload.length := by
  rw [BitVec.toNat_ofNat]
  omega

/-- The frame of a host command passes checks 1 to 4. -/
theorem frameFailure_command (hw : i.wellFormed = true) (h : codeAndPayload i = some (code, payload)) :
    payload.length ≤ 40 ∧ frameFailure code (BitVec.ofNat 8 payload.length) payload
      (frameCrc (code :: BitVec.ofNat 8 payload.length :: payload)) = none := by
  obtain ⟨least, greatest, hr, hl, hg, hmax⟩ := payloadRange_codeAndPayload hw h
  have hlen : payload.length ≤ 40 := hg.trans hmax
  refine ⟨hlen, ?_⟩
  rw [frameFailure, toNat_lengthByte hlen, if_neg (by omega), if_neg (not_not_intro rfl), hr]
  exact if_neg (by omega)

end

namespace Machine

/-! ## Bytes collected -/

section
variable {code : Byte} {payload more : List Byte} {crc : BitVec 16}

/-- The bytes of a frame with its length byte and any check sequence, first bytes first. -/
abbrev frameOf (code : Byte) (payload : List Byte) (crc : BitVec 16) : List Byte :=
  code :: BitVec.ofNat 8 payload.length :: (payload ++ bytes16 crc)

theorem frameBytes_eq (code : Byte) (payload : List Byte) : frameBytes code payload =
    frameOf code payload (frameCrc (code :: BitVec.ofNat 8 payload.length :: payload)) := rfl

theorem length_frameOf : (frameOf code payload crc).length = payload.length + 4 := by
  simp [bytes16]

/-- Behind the length byte stand the payload and the check sequence. -/
theorem frameOf_fields (hlen : payload.length ≤ 40) :
    (payload ++ bytes16 crc ++ more).take (BitVec.ofNat 8 payload.length : Byte).toNat = payload ∧
    (payload ++ bytes16 crc ++ more).drop (BitVec.ofNat 8 payload.length : Byte).toNat =
      crc.extractLsb' 8 8 :: crc.extractLsb' 0 8 :: more := by
  rw [toNat_lengthByte hlen, List.append_assoc]
  exact ⟨List.take_left, List.drop_left⟩

theorem readCommandFrame_passes (hlen : payload.length ≤ 40)
    (hf : frameFailure code (BitVec.ofNat 8 payload.length) payload crc = none) :
    readCommandFrame (frameOf code payload crc ++ more) = commandOf code payload := by
  obtain ⟨htake, hdrop⟩ := frameOf_fields (crc := crc) (more := more) hlen
  simp only [readCommandFrame, frameOf, List.cons_append, htake, hdrop, bytes16_append, hf]

theorem collectedEvent_passes (hlen : payload.length ≤ 40)
    (hf : frameFailure code (BitVec.ofNat 8 payload.length) payload crc = none) :
    collectedEvent (frameOf code payload crc ++ more) = commandOf code payload := by
  obtain ⟨htake, hdrop⟩ := frameOf_fields (crc := crc) (more := more) hlen
  have hshort : ¬40 < (BitVec.ofNat 8 payload.length : Byte).toNat := by rw [toNat_lengthByte hlen]; omega
  simp only [collectedEvent, frameOf, List.cons_append, if_neg hshort, htake, hdrop, bytes16_append, hf]

theorem collectedEvent_fails {f : FrameFailure} (hlen : payload.length ≤ 40)
    (hf : frameFailure code (BitVec.ofNat 8 payload.length) payload crc = some f) :
    collectedEvent (frameOf code payload crc ++ more) =
      some (.frameCheckFailed code (BitVec.ofNat 8 payload.length) payload crc) := by
  obtain ⟨htake, hdrop⟩ := frameOf_fields (crc := crc) (more := more) hlen
  have hshort : ¬40 < (BitVec.ofNat 8 payload.length : Byte).toNat := by rw [toNat_lengthByte hlen]; omega
  simp only [collectedEvent, frameOf, List.cons_append, if_neg hshort, htake, hdrop, bytes16_append, hf]

/-- With the last byte of its check sequence a frame is collected. -/
theorem assemblerAfter_frame (hlen : payload.length ≤ 40) :
    assemblerAfter (frameOf code payload crc ++ more) = .turnaround 0 := by
  rw [frameOf, List.cons_append, List.cons_append, assemblerAfter_cons, toNat_lengthByte hlen]
  exact if_pos (.inr (by simp [bytes16]))

/-- Before that it is not. -/
theorem assemblerAfter_cut {j : Nat} (hlen : payload.length ≤ 40) (hj : j < payload.length + 4) :
    assemblerAfter ((frameOf code payload crc).take j) = .command := by
  match j with
  | 0 | 1 => rfl
  | j + 2 =>
    rw [frameOf, List.take_succ_cons, List.take_succ_cons, assemblerAfter_cons, toNat_lengthByte hlen]
    have hrest : ((payload ++ bytes16 crc).take j).length < payload.length + 2 := by
      rw [List.length_take]
      omega
    exact if_neg (by omega)

end

/-! ## Bits collected -/

section
variable {bits : List Bool} {bytes : List Byte}

theorem frameEvent_collected (hb : bits ≠ []) (h : assemblerAfter (wholeBytes bits) = .turnaround 0) :
    frameEvent bits = collectedEvent (wholeBytes bits) := by
  rw [frameEvent, if_neg (by simpa using hb), h]

theorem frameEvent_cut (hb : bits ≠ []) (h : assemblerAfter (wholeBytes bits) = .command) :
    frameEvent bits = some .frameCutShort := by
  rw [frameEvent, if_neg (by simpa using hb), h]

theorem byteBits_append (as bs : List Byte) : byteBits (as ++ bs) = byteBits as ++ byteBits bs := List.flatMap_append

theorem byteBits_cons_ne_nil (b : Byte) (bs : List Byte) (more : List Bool) : byteBits (b :: bs) ++ more ≠ [] :=
  nofun

/-- Of bytes cut at a bit the bytes before that bit are whole. -/
theorem wholeBytes_take {k : Nat} (hk : k < 8 * bytes.length) :
    wholeBytes ((byteBits bytes).take k) = bytes.take (k / 8) := by
  have hwhole : (byteBits (bytes.take (k / 8))).length = 8 * (k / 8) := by
    rw [length_byteBits, List.length_take]
    omega
  have hcut : (byteBits bytes).take k =
      byteBits (bytes.take (k / 8)) ++ (byteBits (bytes.drop (k / 8))).take (k - 8 * (k / 8)) := by
    conv_lhs => rw [← List.take_append_drop (k / 8) bytes, byteBits_append, List.take_append, hwhole]
    rw [List.take_of_length_le (by rw [hwhole]; omega)]
  rw [hcut, wholeBytes_byteBits, wholeBytes_short (by rw [List.length_take]; omega), List.append_nil]

end

/-! ## Bits of a response (R159, Table 10-1) -/

section
variable {p : CommandPort} {r : Response}

theorem getElem?_bitsOf (n : Nat) {w i : Nat} (h : i < w) : (bitsOf w n)[i]? = some (n.testBit (w - 1 - i)) := by
  induction w generalizing i with
  | zero => omega
  | succ w ih =>
    cases i with
    | zero => rfl
    | succ i =>
      rw [bitsOf, List.getElem?_cons_succ, ih (by omega)]
      congr 2
      omega

/-- Each byte passes most significant bit first. -/
theorem getElem?_byteBits (bytes : List Byte) (i : Nat) :
    (byteBits bytes)[i]? = bytes[i / 8]?.map fun b => b.getLsbD (7 - i % 8) := by
  induction bytes generalizing i with
  | nil => rfl
  | cons b bs ih =>
    have hcons : byteBits (b :: bs) = bitsOf 8 b.toNat ++ byteBits bs := rfl
    rw [hcons]
    rcases Nat.lt_or_ge i 8 with hi | hi
    · rw [List.getElem?_append_left (by rwa [length_bitsOf]), getElem?_bitsOf _ hi, Nat.div_eq_of_lt hi, Nat.mod_eq_of_lt hi]
      rfl
    · rw [List.getElem?_append_right (by rwa [length_bitsOf]), length_bitsOf, ih, show i / 8 = (i - 8) / 8 + 1 by omega,
        List.getElem?_cons_succ, show (i - 8) % 8 = i % 8 by omega]

/-- Every bit of FFh is one. -/
theorem getLsbD_ones {i : Nat} (h : i < 8) : (0xFF : Byte).getLsbD i = true :=
  (BitVec.getLsbD_allOnes (v := 8)).trans (decide_eq_true h)

/-- The bit after `falls` falling edges, by the byte that passes: FFh outside the response. -/
theorem getElem?_bits_getD (bytes : List Byte) (i : Nat) :
    (byteBits bytes)[i]?.getD true = (bytes[i / 8]?.getD 0xFF).getLsbD (7 - i % 8) := by
  rw [getElem?_byteBits]
  cases bytes[i / 8]? with
  | none => exact (getLsbD_ones (by omega)).symm
  | some b => rfl

/-- While the frame is collected, and for the turnaround byte, SDO carries ones. -/
theorem sdoAfter_before {collected falls : Nat} (h : falls < 8 * (collected + 1)) : sdoAfter collected r falls = true := by
  rw [sdoAfter, getElem?_bits_getD, List.getElem?_append_left (by rw [List.length_replicate]; omega),
    List.getElem?_replicate, if_pos (by omega), Option.getD_some, getLsbD_ones (by omega)]

/-- From there the bits of the response frame pass. -/
theorem sdoAfter_response (collected k : Nat) : sdoAfter collected r (8 * (collected + 1) + k) =
    ((responseFrame r)[k / 8]?.getD 0xFF).getLsbD (7 - k % 8) := by
  rw [sdoAfter, getElem?_bits_getD, List.getElem?_append_right (by rw [List.length_replicate]; omega), List.length_replicate,
    show (8 * (collected + 1) + k) / 8 - (collected + 1) = k / 8 by omega,
    show (8 * (collected + 1) + k) % 8 = k % 8 by omega]

theorem length_responseFrame (r : Response) : (responseFrame r).length = r.payload.length + 4 := by
  rw [responseFrame, frameBytes_eq, length_frameOf]

/-- The bit of a byte that passes in RESPONSE: three bit times for each (log 20). -/
theorem sdoBit_response {n : Nat} (ha : p.assembler = .response n) (hr : p.response = some r) : sdoBit p =
    some (((responseFrame r)[n / 24]?.getD 0xFF).getLsbD (7 - n % 24 / 3)) := by
  have hplace : n % 24 / 3 < 8 := by omega
  simp only [sdoBit, sdoByte, ha, hr, bitsPassed, byteTime, sckPeriod, Option.map_some, BitVec.getMsbD_eq_getLsbD, hplace,
    decide_true, Bool.true_and]

/-- Outside the response SDO carries FFh. -/
theorem sdoBit_ones (hb : sdoByte p = some 0xFF) (hp : bitsPassed p.assembler < 8) : sdoBit p = some true := by
  rw [sdoBit, hb, Option.map_some, BitVec.getMsbD_eq_getLsbD, getLsbD_ones (by omega), decide_eq_true hp]
  rfl

theorem sdoBit_outside {n : Nat} (h : p.assembler = .command ∨ p.assembler = .turnaround n ∨ p.assembler = .trailing) :
    sdoBit p = some true := by
  rcases h with h | h | h
  · exact sdoBit_ones (by rw [sdoByte, h]) (by rw [h]; decide)
  · exact sdoBit_ones (by rw [sdoByte, h]) (by simp only [h, bitsPassed, byteTime, sckPeriod]; omega)
  · exact sdoBit_ones (by rw [sdoByte, h]) (by rw [h]; decide)

end

/-! ## The frames of the host -/

section
variable {i : Instr} {bytes : List Byte} {code : Byte} {payload : List Byte} {crc : BitVec 16}

/-- The event of a chip-select period that carries a frame whole, by the frame's bytes. -/
theorem frameEvent_frame (hlen : payload.length ≤ 40) (more : List Bool) :
    frameEvent (byteBits (frameOf code payload crc) ++ more) =
      collectedEvent (frameOf code payload crc ++ wholeBytes more) := by
  have hbytes := wholeBytes_byteBits (frameOf code payload crc) more
  rw [frameEvent_collected (byteBits_cons_ne_nil _ _ more) (by rw [hbytes, assemblerAfter_frame hlen]), hbytes]

theorem frameEvent_frame_cut (hlen : payload.length ≤ 40) {k : Nat} (hk : 1 ≤ k)
    (hcut : k < 8 * (frameOf code payload crc).length) :
    frameEvent ((byteBits (frameOf code payload crc)).take k) = some .frameCutShort := by
  have hne : (byteBits (frameOf code payload crc)).take k ≠ [] := by
    rw [← List.length_pos_iff_ne_nil, List.length_take, length_byteBits]
    omega
  refine frameEvent_cut hne ?_
  rw [wholeBytes_take hcut]
  rw [length_frameOf] at hcut
  exact assemblerAfter_cut hlen (by omega)

/-- The frame of a host command, read back by bytes and by bits, whole and cut. -/
theorem commandFrame_readBack (hw : i.wellFormed = true) (h : commandFrame i = some bytes) :
    readCommandFrame bytes = some i ∧ (∀ more : List Bool, frameEvent (byteBits bytes ++ more) = some i) ∧
    ∀ k, 1 ≤ k → k < 8 * bytes.length → frameEvent ((byteBits bytes).take k) = some .frameCutShort := by
  obtain ⟨⟨code, payload⟩, hi, rfl⟩ := Option.map_eq_some_iff.mp h
  obtain ⟨hlen, hpass⟩ := frameFailure_command hw hi
  have hcommand := commandOf_codeAndPayload hi
  rw [frameBytes_eq]
  refine ⟨?_, fun more => ?_, fun k hk hcut => frameEvent_frame_cut hlen hk hcut⟩
  · have hread := readCommandFrame_passes (more := []) hlen hpass
    rwa [List.append_nil, hcommand] at hread
  · rw [frameEvent_frame hlen, collectedEvent_passes hlen hpass, hcommand]

/-- Nothing is collected behind a length byte above 40. -/
theorem frameEvent_tooLong {length : Byte} (h : 40 < length.toNat) (more : List Bool) :
    frameEvent (byteBits [code, length] ++ more) = some (.frameCheckFailed code length [] 0) := by
  have hbytes := wholeBytes_byteBits [code, length] more
  have hended : assemblerAfter ([code, length] ++ wholeBytes more) = .turnaround 0 :=
    (assemblerAfter_cons ..).trans (if_pos (.inl h))
  rw [frameEvent_collected (byteBits_cons_ne_nil _ _ more) (by rw [hbytes, hended]), hbytes]
  exact if_pos h

theorem frameEvent_fails (hlen : payload.length ≤ 40)
    (hf : frameFailure code (BitVec.ofNat 8 payload.length) payload crc ≠ none) (more : List Bool) :
    frameEvent (byteBits (frameOf code payload crc) ++ more) =
      some (.frameCheckFailed code (BitVec.ofNat 8 payload.length) payload crc) := by
  obtain ⟨f, hf⟩ := Option.ne_none_iff_exists'.mp hf
  rw [frameEvent_frame hlen, collectedEvent_fails hlen hf]

end

/-- Settles O59: the frames in, by bytes and bits, and the bits out. -/
theorem commandFramesReadBack : Obligations.CommandFramesReadBack := by
  refine ⟨fun _ => rfl, fun bits => (sdiBits_clocked bits).1, fun i bytes hw h => commandFrame_readBack hw h, rfl,
    fun code length more h => frameEvent_tooLong h more, ?_, ?_, fun p h => ?_, fun p n h => sdoBit_outside h,
    fun p r n collected ha hr => ?_⟩
  · intro code payload crc more hlen length hf
    exact frameEvent_fails hlen hf more
  · intro collected r falls start
    refine ⟨sdoAfter_before, fun k b hb => ?_, fun h => ?_⟩
    · rw [sdoAfter_response, hb, Option.getD_some]
    · obtain ⟨k, rfl⟩ := Nat.exists_eq_add_of_le (show start ≤ falls by omega)
      rw [sdoAfter_response, List.getElem?_eq_none (by rw [length_responseFrame]; omega), Option.getD_none,
        getLsbD_ones (by omega)]
  · rw [sdoBit, sdoByte, h]
    rfl
  · rw [sdoBit_response ha hr, sdoAfter_response, Nat.div_div_eq_div_mul, show n / 3 % 8 = n % 24 / 3 by omega]

end Machine

end Sys2Proof
end
